-- ==== Sys2Proof/Word.lean ====
section
/-! DEFINITION. The three widths LZFSE-CORE works in: host-memory bytes (R103), 32-bit control
registers (R40) and 64-bit host addresses (R6, `ADDR_W`). -/

namespace Sys2Proof

/-- The unit of every host-memory access (R103). -/
abbrev Byte := BitVec 8

/-- One control and status register (R40). -/
abbrev Word := BitVec 32

/-- A host byte address (R6: `ADDR_W` = 64). -/
abbrev Addr := BitVec 64

end Sys2Proof
end

