-- ==== Sys2Proof/Config.lean ====
section
/-! DEFINITION. What an implementation of LZFSE-CORE fixes (the parameters of R6), and the values the
spec leaves open: opaque constants with no body, so that nothing can be proved of the value they have. -/

namespace Sys2Proof.Config

/-! ## Parameters with a value (R6) -/

/-- State count of the literal stream (R6, R170). -/
abbrev litStates : Nat := 1024
/-- State count of the L stream. -/
abbrev lStates : Nat := 64
/-- State count of the M stream. -/
abbrev mStates : Nat := 64
/-- State count of the D stream. -/
abbrev dStates : Nat := 256
/-- Symbol count of the literal stream. -/
abbrev litSyms : Nat := 256
/-- Symbol count of the L stream. -/
abbrev lSyms : Nat := 20
/-- Symbol count of the M stream. -/
abbrev mSyms : Nat := 20
/-- Symbol count of the D stream. -/
abbrev dSyms : Nat := 64
/-- The 360 frequency values of a header: 20 + 20 + 64 + 256 (R162). -/
abbrev freqCount : Nat := 360
/-- Largest literal run of one triplet (R6, R310). -/
abbrev maxL : Nat := 315
/-- Largest match of one triplet. -/
abbrev maxM : Nat := 2359
/-- Largest match distance. -/
abbrev maxD : Nat := 262139
/-- Triplets one block holds. -/
abbrev matchesPerBlock : Nat := 10000
/-- Literals one block holds. -/
abbrev literalsPerBlock : Nat := 40000
/-- Buckets of the encoder's history table (R6, R61). -/
abbrev hashBuckets : Nat := 16384
/-- Candidate slots of one bucket. -/
abbrev hashWidth : Nat := 4
/-- Match length that ends the search at once (R6, R509). -/
abbrev goodMatch : Nat := 40
/-- Below this many source bytes ENCODE does not use the compressed path (R492). -/
abbrev lzvnThreshold : Nat := 4096
/-- Below this many source bytes ENCODE does not call the external codec (R492). -/
abbrev lzvnMinSrc : Nat := 8
/-- Largest SRC_SIZE or DST_SIZE (R6, decision D5). -/
abbrev maxBuf : Nat := 2147483647
/-- Output bytes the decoder keeps (R108). -/
abbrev histWindow : Nat := 262144
/-- Bytes of a plain (v1) header (R156). -/
abbrev v1HeaderSize : Nat := 772
/-- Bytes of the fixed part of a packed (v2) header (R362). -/
abbrev v2FixedSize : Nat := 32
/-- Host addresses run from 0 to `addrSpace - 1` (R105). -/
abbrev addrSpace : Nat := 18446744073709551616

/-! ## Parameter functions (R9, R501): no law is assumed of them here -/

/-- The external codec's encode entry (R9, OPEN): source bytes and cap to payload, `none` for FAIL.
`delegateEncode` below holds it to the length R9 states. -/
opaque delegateEncodeRaw : List Byte → Nat → Option (List Byte)

/-- The external codec's decode entry (R9, OPEN): history (oldest byte first), payload and raw byte
count to output, `none` for FAIL. R454 checks the length of what it returns. -/
opaque delegateDecode : List Byte → List Byte → Nat → Option (List Byte)

/-- A match parse other than the default one (R501, OPEN): source bytes to `(L, M, D)` triples. The
machine checks the contract of R501 before it uses the parse. -/
opaque frontEnd : List Byte → List (Nat × Nat × Nat)

/-- `delegate_encode` with R9's own promise, a length in `[1, cap]` or FAIL: whatever breaks it
counts as FAIL. -/
def delegateEncode (src : List Byte) (cap : Nat) : Option (List Byte) :=
  match delegateEncodeRaw src cap with
  | some r => if 1 ≤ r.length ∧ r.length ≤ cap then some r else none
  | none => none

/-! ## Free values: what the spec gives "any value". The first argument is the state's draw counter. -/

/-- A destination byte the spec leaves unspecified (R107, R621: U3, U7, U8); second argument: its offset
in the destination. -/
opaque freeByte : Nat → Nat → Byte

/-- What CORE reads from a source byte that HOST wrote while it must not (R116, U5); second argument:
which of the step's reads it is; third: the source offset. -/
opaque racedSource : Nat → Nat → Nat → Byte

/-- What a destination byte holds at command end when HOST wrote it during BUSY (R116); second
argument: its address. -/
opaque racedDest : Nat → Nat → Byte

/-- What HOST reads from the destination range during BUSY (R116); second argument: the address. -/
opaque racedRead : Nat → Nat → Byte

/-- Which of the phases the command passes through DEC_PHASE shows while BUSY (R463, U12): an index, read
modulo their number. -/
opaque busyPhase : Nat → Nat

end Sys2Proof.Config
end

