-- ==== Sys2Proof/Syntax.lean ====
section
/-! DEFINITION. The instructions of LZFSE-CORE: one constructor per row of spec/opcode_table.json.
R10 gives three kinds: host commands (R140), block kinds (R150) and frequency-code words (R160). -/

namespace Sys2Proof

/-- Where an instruction's code stands (R10). The three code spaces overlap: the bits alone do not tell
a command from a frequency-code word, the place they are read from does. -/
inductive CodeSpace
  /-- A value written to the CMD register. -/
  | command
  /-- The u32 magic at a block start of the compressed stream. -/
  | block
  /-- A code word of the frequency code in a packed header. -/
  | freqCode
deriving DecidableEq, Repr

/-- The 31 rows of the opcode table. -/
inductive Instr
  -- host commands, R140
  | nop
  | encode
  | decode
  | decodeResume
  | abort
  -- reserved OPCODEs, R141
  | reserved5
  | reserved6
  | reserved7
  | reserved8
  | reserved9
  | reservedA
  | reservedB
  | reservedC
  | reservedD
  | reservedE
  | reservedF
  -- block kinds, R150
  | blockEos
  | blockRaw
  | blockV1
  | blockV2
  | blockLzvn
  -- frequency-code words, R160
  | freq0
  | freq1
  | freq2
  | freq3
  | freq4
  | freq5
  | freq6
  | freq7
  /-- The 8-bit class; the operand is the frequency value itself, 8 to 23. -/
  | freq8to23 (value : Nat)
  /-- The 14-bit class; the operand is the frequency value itself, 24 to 1047. -/
  | freq24to1047 (value : Nat)
deriving DecidableEq, Repr

/-- The code space of an instruction (the table's `format`). -/
def Instr.space : Instr → CodeSpace
  | .nop | .encode | .decode | .decodeResume | .abort
  | .reserved5 | .reserved6 | .reserved7 | .reserved8 | .reserved9 | .reservedA
  | .reservedB | .reservedC | .reservedD | .reservedE | .reservedF => .command
  | .blockEos | .blockRaw | .blockV1 | .blockV2 | .blockLzvn => .block
  | .freq0 | .freq1 | .freq2 | .freq3 | .freq4 | .freq5 | .freq6 | .freq7
  | .freq8to23 _ | .freq24to1047 _ => .freqCode

end Sys2Proof
end

