-- ==== Sys2Proof/WellFormed.lean ====
section
/-! DEFINITION. Which terms of `Instr` an encoding exists for: the two long frequency classes carry a
value in the range R160 gives their row; every other instruction has no operand. -/

namespace Sys2Proof

/-- The operand ranges of R160's table. -/
def Instr.wf : Instr → Bool
  | .freq8to23 v => decide (8 ≤ v ∧ v ≤ 23)
  | .freq24to1047 v => decide (24 ≤ v ∧ v ≤ 1047)
  | .nop | .encode | .decode | .decodeResume | .abort
  | .reserved5 | .reserved6 | .reserved7 | .reserved8 | .reserved9 | .reservedA
  | .reservedB | .reservedC | .reservedD | .reservedE | .reservedF
  | .blockEos | .blockRaw | .blockV1 | .blockV2 | .blockLzvn
  | .freq0 | .freq1 | .freq2 | .freq3 | .freq4 | .freq5 | .freq6 | .freq7 => true

end Sys2Proof
end

