-- ==== Sys2Proof/Decode.lean ====
section
/-! DEFINITION. The decoders of the three code spaces (R140, R150, R161), total on any bits and
rejecting by name, and after them the encoder, written from the encoding tables of R140, R150 and R160. -/

namespace Sys2Proof

/-! ## Byte order and bit fields (R8, R9, R100) -/

/-- `le`: the little-endian value of a byte sequence (R9). -/
def le : List Byte → Nat
  | [] => 0
  | b :: bs => b.toNat + 256 * le bs

/-- `le_bytes(v, n)` (R9), for any v: the low n bytes. -/
def leBytes (v : Nat) : Nat → List Byte
  | 0 => []
  | n + 1 => BitVec.ofNat 8 v :: leBytes (v / 256) n

/-- `field(w, off, len)` = `(w >> off) & (2^len - 1)` (R8). -/
def field (w off len : Nat) : Nat := (w >>> off) % 2 ^ len

/-! ## Decoders -/

/-- Why bytes stand for no instruction. -/
inductive DecodeReject
  /-- Fewer than 4 bytes at a block start (R360). -/
  | truncated
  /-- An unrecognized magic (R151). -/
  | badMagic
deriving DecidableEq, Repr

/-- R140: bits [3:0] are OPCODE, bits [31:4] are ignored. -/
def decodeCommand (w : Word) : Instr :=
  match w.toNat % 16 with
  | 0 => .nop
  | 1 => .encode
  | 2 => .decode
  | 3 => .decodeResume
  | 4 => .abort
  | 5 => .reserved5
  | 6 => .reserved6
  | 7 => .reserved7
  | 8 => .reserved8
  | 9 => .reserved9
  | 10 => .reservedA
  | 11 => .reservedB
  | 12 => .reservedC
  | 13 => .reservedD
  | 14 => .reservedE
  | _ => .reservedF

/-- R150: the five magics; every other u32 is unrecognized (R151). -/
def decodeMagic (magic : Nat) : Option Instr :=
  if magic = 0x24787662 then some .blockEos
  else if magic = 0x2D787662 then some .blockRaw
  else if magic = 0x31787662 then some .blockV1
  else if magic = 0x32787662 then some .blockV2
  else if magic = 0x6E787662 then some .blockLzvn
  else none

/-- The `NB` table of R161, indexed by the next 5 code bits. -/
def freqNB : List Nat :=
  [2, 3, 2, 5, 2, 3, 2, 8, 2, 3, 2, 5, 2, 3, 2, 14, 2, 3, 2, 5, 2, 3, 2, 8, 2, 3, 2, 5, 2, 3, 2, 14]

/-- The `VAL` table of R161; R161 leaves the entries of the two long classes blank (0 here, never used). -/
def freqVAL : List Nat :=
  [0, 2, 1, 4, 0, 3, 1, 0, 0, 2, 1, 5, 0, 3, 1, 0, 0, 2, 1, 6, 0, 3, 1, 0, 0, 2, 1, 7, 0, 3, 1, 0]

/-- R161: word length and value from the code bits, first stream bit in bit 0. -/
def decodeFreqWord (acc : Nat) : Nat × Nat :=
  let b := field acc 0 5
  let nb := freqNB.getD b 0
  if nb = 8 then (8, 8 + field acc 4 4)
  else if nb = 14 then (14, 24 + field acc 4 10)
  else (nb, freqVAL.getD b 0)

/-- The row of R160's table for a frequency value. -/
def freqInstr (value : Nat) : Instr :=
  match value with
  | 0 => .freq0
  | 1 => .freq1
  | 2 => .freq2
  | 3 => .freq3
  | 4 => .freq4
  | 5 => .freq5
  | 6 => .freq6
  | 7 => .freq7
  | v => if v ≤ 23 then .freq8to23 v else .freq24to1047 v

/-- The code word at the low end of a forward reader's accumulator (R161, R384): the code is complete,
so every accumulator begins with one. -/
def decodeFreq (acc : Nat) : Instr := freqInstr (decodeFreqWord acc).2

/-- The instruction that bytes stand for in a code space. Bytes a command or a frequency word lacks
count as 0; a block start needs its 4 bytes (R360). -/
def decode (sp : CodeSpace) (bytes : List Byte) : Except DecodeReject Instr :=
  match sp with
  | .command => .ok (decodeCommand (BitVec.ofNat 32 (le bytes)))
  | .freqCode => .ok (decodeFreq (le bytes))
  | .block =>
    if bytes.length < 4 then .error .truncated
    else match decodeMagic (le (bytes.take 4)) with
      | some i => .ok i
      | none => .error .badMagic

/-! ## Encoder -/

/-- An instruction's code: where it stands, how many bits it has and its value, first bit in bit 0. -/
structure CodeWord where
  space : CodeSpace
  nbits : Nat
  bits : Nat
deriving DecidableEq, Repr

/-- The code of each row: OPCODE with bits [31:4] zero (R140), magic (R150), code word (R160). -/
def encode : Instr → CodeWord
  | .nop => ⟨.command, 32, 0x0⟩
  | .encode => ⟨.command, 32, 0x1⟩
  | .decode => ⟨.command, 32, 0x2⟩
  | .decodeResume => ⟨.command, 32, 0x3⟩
  | .abort => ⟨.command, 32, 0x4⟩
  | .reserved5 => ⟨.command, 32, 0x5⟩
  | .reserved6 => ⟨.command, 32, 0x6⟩
  | .reserved7 => ⟨.command, 32, 0x7⟩
  | .reserved8 => ⟨.command, 32, 0x8⟩
  | .reserved9 => ⟨.command, 32, 0x9⟩
  | .reservedA => ⟨.command, 32, 0xA⟩
  | .reservedB => ⟨.command, 32, 0xB⟩
  | .reservedC => ⟨.command, 32, 0xC⟩
  | .reservedD => ⟨.command, 32, 0xD⟩
  | .reservedE => ⟨.command, 32, 0xE⟩
  | .reservedF => ⟨.command, 32, 0xF⟩
  | .blockEos => ⟨.block, 32, 0x24787662⟩
  | .blockRaw => ⟨.block, 32, 0x2D787662⟩
  | .blockV1 => ⟨.block, 32, 0x31787662⟩
  | .blockV2 => ⟨.block, 32, 0x32787662⟩
  | .blockLzvn => ⟨.block, 32, 0x6E787662⟩
  | .freq0 => ⟨.freqCode, 2, 0b00⟩
  | .freq1 => ⟨.freqCode, 2, 0b10⟩
  | .freq2 => ⟨.freqCode, 3, 0b001⟩
  | .freq3 => ⟨.freqCode, 3, 0b101⟩
  | .freq4 => ⟨.freqCode, 5, 0b00011⟩
  | .freq5 => ⟨.freqCode, 5, 0b01011⟩
  | .freq6 => ⟨.freqCode, 5, 0b10011⟩
  | .freq7 => ⟨.freqCode, 5, 0b11011⟩
  | .freq8to23 v => ⟨.freqCode, 8, ((v - 8) <<< 4) + 7⟩
  | .freq24to1047 v => ⟨.freqCode, 14, ((v - 24) <<< 4) + 15⟩

/-! ## The opcode table's words without their place -/

/-- The code space a bare table word is read in. The table's words do not say where they stand and the
spaces overlap (NOP and FREQ_0 are both the byte 0): 32 bits are a magic where they match one, else a
command word; 9 to 16 bits are a frequency word; 8 bits are a command where they are an OPCODE alone, else
a frequency word. A convention of the model's for this function only: the machine reads each space where
it stands. -/
def tableSpace (nbits w : Nat) : CodeSpace :=
  if nbits ≤ 8 then (if w < 16 then .command else .freqCode)
  else if nbits ≤ 16 then .freqCode
  else if (decodeMagic w).isSome then .block
  else .command

/-- What the decoder reads from a word of the opcode table, the bits above it zero. -/
def decodeTableWord (nbits w : Nat) : Option Instr :=
  match decode (tableSpace nbits w) (leBytes w 4) with
  | .ok i => some i
  | .error _ => none

end Sys2Proof
end

