-- ==== Sys2Proof/Machine/State.lean ====
section
/-! DEFINITION. The state of LZFSE-CORE as plain data (10_state.md), the reasons a step can stop, and the
state after reset (R620). Counts, offsets and indexes are natural numbers: R8 gives every integer no width
unless one is stated, and the widths R32 and R61 to R70 state for them are never exceeded. Registers
software reads, accumulators and bytes are bit vectors. -/

namespace Sys2Proof.Machine

/-! ## Names -/

/-- STATUS.STATE (R43). -/
inductive RunState
  | idle | busy | done | dstFull | error
deriving DecidableEq, Repr

/-- STATUS.ERR_CODE (R571). -/
inductive ErrCode
  | none | srcExhausted | dstExhausted | badMagic | badFreq | badState | badHeader | badBitstream
  | badMatch | delegateFail | illegalCommand | sizeLimit
deriving DecidableEq, Repr

/-- The decoder states of R32, in the order of DEC_PHASE's codes (R43). -/
inductive Phase
  | atBlockStart | inLiteralStream | inLmdStream | inUncompressedCopy | inDelegatedCopy | done | error
deriving DecidableEq, Repr

/-- The internal items of R64 to R70 and R108 a rule reads by index. -/
inductive Item
  | decodeTable | encodeTable | literals | triplets | history | copyBuffer | symbol
deriving DecidableEq, Repr

/-- Why the machine stops. -/
inductive Fault
  /-- Raised by CORE's own steps (Dec.lean, Enc.lean) when a rule reads an internal item that holds no
  value there: 10_state.md's opening asks for it, and R75 says that no rule does. Safe: it can only stop a
  run, and only from states no run reaches. -/
  | noValue (item : Item)
  /-- Raised by the decoder's RUN (Dec.lean) in a phase that R440 gives no step: IN_LITERAL_STREAM
  outside the block-start step, or ERROR. Safe: only from states no run reaches. -/
  | noRule
deriving DecidableEq, Repr

/-- What the model excludes, each by a rule that leaves it undefined. -/
inductive Refusal
  /-- Raised by `exec`'s arm of an instruction with no meaning yet. Safe. -/
  | notModelled (mnemonic : String)
  /-- Raised by a HOST access to the CSR window that is not a naturally aligned 32-bit one (R55, U1).
  Safe: the run stops where the hardware's effect is undefined. -/
  | csrAccess
  /-- Raised by a command whose buffer, or a HOST memory access whose byte, lies on a device
  (R104, U2). Safe. -/
  | deviceBuffer
  /-- Raised by a command whose source and destination ranges overlap (R115, U4). Safe. -/
  | bufferOverlap
  /-- Raised by ENCODE when a front end other than the default breaks its contract (R501, U6). Safe. -/
  | frontEndContract
deriving DecidableEq, Repr

/-! ## Control and status registers (R40 to R53) -/

/-- The stored registers of the CSR window. ID and the two scratch sizes are hardwired (R41, R52), CMD
stores nothing (R42), reserved bits read 0 (R40): `State.readCsr` adds them. -/
structure Csrs where
  /-- CTRL bit 0, IRQ_EN (R44). -/
  irqEn : Bool
  /-- STATUS bits [2:0] (R43). -/
  state : RunState
  /-- STATUS bits [15:8]. -/
  errCode : ErrCode
  /-- STATUS bits [18:16]. -/
  decPhase : Phase
  /-- IRQ_STATUS bit 0, CMD_DONE (R45). -/
  cmdDone : Bool
  srcAddrLo : Word
  srcAddrHi : Word
  srcSize : Word
  dstAddrLo : Word
  dstAddrHi : Word
  dstSize : Word
  result : Word
  errInfo : Word
  /-- OUT_TOTAL_HI and OUT_TOTAL_LO as the one u64 they hold together (R53). -/
  outTotal : BitVec 64
  /-- SRC_POS (R53). -/
  srcPos : Word
deriving DecidableEq, Repr

/-! ## Internal items -/

/-- The decoded header record H (R370). -/
structure Header where
  nRaw : Nat
  nPayload : Nat
  nLiterals : Nat
  nMatches : Nat
  nLitPayload : Nat
  nLmdPayload : Nat
  literalBits : Int
  lmdBits : Int
  litState0 : Nat
  litState1 : Nat
  litState2 : Nat
  litState3 : Nat
  lState : Nat
  mState : Nat
  dState : Nat
  lFreq : List Nat
  mFreq : List Nat
  dFreq : List Nat
  litFreq : List Nat
  hdrSize : Nat
deriving DecidableEq, Repr

/-- One decode-table entry (R64): only its four logical fields and their contract are fixed. -/
structure DecEntry where
  totalBits : Nat
  valueBits : Nat
  delta : Nat
  vbase : Nat
deriving DecidableEq, Repr

/-- One encode-table entry (R65). -/
structure EncEntry where
  s0 : Nat
  k : Nat
  delta0 : Int
  delta1 : Int
deriving DecidableEq, Repr

/-- A triplet (R310), its distance resolved (R320). A literal-only triplet uses no distance: the encoder
stores 0 for it (DESIGN CHOICE, log entry 28), the decoder D_cur (R341). -/
structure Triplet where
  L : Nat
  M : Nat
  D : Nat
deriving DecidableEq, Repr

/-- The four literal lanes' FSE states (R63). -/
structure Lanes where
  s0 : Nat
  s1 : Nat
  s2 : Nat
  s3 : Nat
deriving DecidableEq, Repr

/-- The FSE bit writer BW (R62). Its output cursor is the length of `out`, the bytes written since
`BW.init`. -/
structure BitWriter where
  accum : BitVec 64
  nbits : Nat
  out : List Byte
deriving DecidableEq, Repr

/-- The FSE backward reader BR (R62); `pos` and `start` are source offsets. -/
structure BackReader where
  accum : BitVec 64
  nbits : Nat
  pos : Nat
  start : Nat
deriving DecidableEq, Repr

/-- The forward code reader FR (R221); its range ends at the header's end. -/
structure FwdReader where
  acc : Word
  n : Nat
  p : Nat
deriving DecidableEq, Repr

/-- The forward code writer FW (R220). Its cursor is the length of `out`. -/
structure FwdWriter where
  acc : Word
  n : Nat
  out : List Byte
deriving DecidableEq, Repr

/-- A candidate match of the encoder's search (R61, R507). -/
structure Match where
  pos : Nat
  len : Nat
  dist : Nat
deriving DecidableEq, Repr

/-- A filled slot of the history table (R61). A slot at NONE (R505) is not listed. -/
structure Slot where
  pos : Nat
  value : Nat
deriving DecidableEq, Repr

/-- Where a decode command stands (R440, R444). -/
inductive DecStage
  /-- RUN's loop: what it does next depends on the session's phase. -/
  | run
  /-- Inside PARSE_V2: reading the frequency code (R384). -/
  | freqCode
  /-- A header has been parsed: COMPRESSED_BLOCK_START's checks and tables (R444). -/
  | blockStart
  /-- DECODE_LITERALS (R331). -/
  | literals
  /-- DECODE_TRIPLET for each triplet (R341), then VALIDATE_TRIPLETS (R446). -/
  | triplets
deriving DecidableEq, Repr

/-- Where an ENCODE stands (R490 to R520). -/
inductive EncStage
  /-- The path choice of R492. -/
  | choose
  /-- The scan of the default front end (R509). -/
  | scan
  /-- The parse is complete: LEGALIZE (R312). -/
  | legalize
  /-- Filling a block (R500, R510). -/
  | fill
  /-- BUILD_BLOCK's histograms and tables (R520). -/
  | tables
  /-- ENCODE_LITERALS (R330). -/
  | literals
  /-- ENCODE_LMD (R340). -/
  | lmd
  /-- PACK_V2, one frequency value a step (R385), and the block's end (R520). -/
  | pack
  /-- The stream is complete: the length check and the write (R490). -/
  | finish
deriving DecidableEq, Repr

/-- Which command CORE is executing, and where in it. -/
inductive Seq
  | rest
  | dec (st : DecStage)
  | enc (st : EncStage)
deriving DecidableEq, Repr

/-- The decoder session (R70), which persists across DECODE_RESUME. -/
structure Session where
  valid : Bool
  phase : Phase
  srcAddr : Addr
  srcSize : Nat
  srcPos : Nat
  outTotal : Nat
  /-- The history window, most recent byte first (R108). -/
  histWin : List Byte
  copyLeft : Nat
  copyBuf : List Byte
  copyIdx : Nat
  hdr : Header
  dtLit : List DecEntry
  dtL : List DecEntry
  dtM : List DecEntry
  dtD : List DecEntry
  dlit : List Byte
  trip : List Triplet
  tIdx : Nat
  litPos : Nat
  curLLeft : Nat
  curMLeft : Nat
  blkStart : Nat
  blkEnd : Nat
deriving DecidableEq, Repr

/-- What a running decode command holds besides the session, and discards at its end (R32, R62, R63, R70). -/
structure DecWork where
  /-- The phases the command has passed through, latest first (R463); the model's own record. -/
  passed : List Phase
  /-- The destination cursor (R32). -/
  dstPos : Nat
  br : BackReader
  fr : FwdReader
  /-- The frequency values read so far (R384's v). -/
  freqVals : List Nat
  lanes : Lanes
  lState : Nat
  mState : Nat
  dState : Nat
  dCur : Nat
deriving DecidableEq, Repr

/-- Encoder working state (R61, R62, R63, R65), discarded at the end of every ENCODE (R546). -/
structure Encoder where
  /-- The scan position p of R509. -/
  scanPos : Nat
  /-- The literal start `ls` (R505). -/
  litStart : Nat
  pending : Option Match
  /-- The history table: bucket number and filled slots, most recent first; a bucket of four NONE slots
  is not listed. -/
  hist : List (Nat × List Slot)
  /-- The parse so far (R508). -/
  parse : List Triplet
  /-- Legal triplets not yet in a block (R500's T). -/
  todo : List Triplet
  /-- Source offset of the next triplet's first literal. -/
  rawPos : Nat
  /-- Raw bytes of the open block (R500's RAW). -/
  blockRaw : Nat
  litBuf : List Byte
  tL : List Nat
  tM : List Nat
  tD : List Nat
  /-- The coded distances of the block (R321). -/
  tDv : List Nat
  etLit : List (Option EncEntry)
  etL : List (Option EncEntry)
  etM : List (Option EncEntry)
  etD : List (Option EncEntry)
  lanes : Lanes
  lState : Nat
  mState : Nat
  dState : Nat
  bw : BitWriter
  fw : FwdWriter
  /-- The running loop's index: literals or triplets still to encode (R330's and R340's i), or frequency
  values already coded (R385). -/
  idx : Nat
  litPayload : List Byte
  lmdPayload : List Byte
  /-- The header being built (R520's H). -/
  hdr : Header
  /-- The stream so far (R500's out). -/
  out : List Byte
deriving DecidableEq, Repr

/-! ## Host memory, HOST and the platform -/

/-- Host memory (R105): address and byte, addresses strictly rising, no entry equal to what an unlisted
address reads as. DESIGN CHOICE (log entry 30): an address names the same byte for HOST and for CORE, no interconnect
translating it (R109 leaves that OPEN). -/
abbrev Memory := List Host.Cell

/-- What a HOST agent does next (R30, R142). -/
inductive HostOp
  /-- `W`: a CSR write of `width` bytes at `CSR_BASE + off`. -/
  | csrWrite (off : BitVec 12) (width : Nat) (value : Word)
  /-- `R`: a CSR read. -/
  | csrRead (off : BitVec 12) (width : Nat)
  /-- `POLL`: reads STATUS until STATE is not BUSY. -/
  | poll
  /-- HOST stores a byte in host memory. -/
  | memWrite (addr : Addr) (value : Byte)
  /-- HOST loads a byte from host memory. -/
  | memRead (addr : Addr)
  /-- The platform asserts `rst` and releases it (R620, R621). DESIGN CHOICE (log entry 29): the spec gives
  no duration, and the model takes both as one action. -/
  | reset
deriving DecidableEq, Repr

/-- What a HOST read returned. -/
inductive Observation
  | csr (value : Word)
  | mem (value : Byte)
deriving DecidableEq, Repr

/-- HOST's pending actions, next first, and what its reads returned, latest first. -/
structure HostPort where
  queue : List HostOp
  log : List Observation
deriving DecidableEq, Repr

/-- The two agents that move (R30); DELEGATE is reached only through its functions. -/
inductive Agent
  | host
  | core
deriving DecidableEq, Repr

/-- An address range of a device. -/
structure Region where
  base : Nat
  size : Nat
deriving DecidableEq, Repr

/-- The platform's parameters: where the CSR window stands (R40, R105), and the devices a buffer must not
lie over (R104). No step changes them. -/
structure Platform where
  csrBase : Addr
  devices : List Region
deriving DecidableEq, Repr

/-- The match parse ENCODE uses (R501, R502). -/
inductive FrontEnd
  /-- R505 to R509. -/
  | standard
  /-- The parameter `Config.frontEnd`. -/
  | other
deriving DecidableEq, Repr

/-! ## The state -/

structure State where
  csr : Csrs
  seq : Seq
  dec : Session
  work : DecWork
  enc : Encoder
  mem : Memory
  host : HostPort
  /-- Who moves in the next steps; when it is empty CORE moves while BUSY and HOST otherwise. -/
  turns : List Agent
  platform : Platform
  frontEnd : FrontEnd
  /-- Addresses of source bytes HOST wrote while it must not (R116, U5). -/
  racedSrc : List Nat
  /-- Addresses of destination bytes HOST wrote during BUSY (R116). -/
  racedDst : List Nat
  /-- The model's own counter of draws: the argument of the free values. -/
  draws : Nat
deriving DecidableEq, Repr

/-- What a step answers. -/
abbrev Result := Host.Outcome State Fault Refusal

/-! ## Reset (R620) -/

def Csrs.reset : Csrs :=
  { irqEn := false, state := .idle, errCode := .none, decPhase := .atBlockStart, cmdDone := false
    srcAddrLo := 0, srcAddrHi := 0, srcSize := 0, dstAddrLo := 0, dstAddrHi := 0, dstSize := 0
    result := 0, errInfo := 0, outTotal := 0, srcPos := 0 }

/-- A header that holds nothing. -/
def Header.empty : Header :=
  { nRaw := 0, nPayload := 0, nLiterals := 0, nMatches := 0, nLitPayload := 0, nLmdPayload := 0
    literalBits := 0, lmdBits := 0, litState0 := 0, litState1 := 0, litState2 := 0, litState3 := 0
    lState := 0, mState := 0, dState := 0, lFreq := [], mFreq := [], dFreq := [], litFreq := []
    hdrSize := 0 }

def Lanes.zero : Lanes := { s0 := 0, s1 := 0, s2 := 0, s3 := 0 }

def BitWriter.empty : BitWriter := { accum := 0, nbits := 0, out := [] }

def FwdWriter.empty : FwdWriter := { acc := 0, n := 0, out := [] }

def BackReader.empty : BackReader := { accum := 0, nbits := 0, pos := 0, start := 0 }

def FwdReader.empty : FwdReader := { acc := 0, n := 0, p := 0 }

def Session.reset : Session :=
  { valid := false, phase := .atBlockStart, srcAddr := 0, srcSize := 0, srcPos := 0, outTotal := 0
    histWin := [], copyLeft := 0, copyBuf := [], copyIdx := 0, hdr := .empty
    dtLit := [], dtL := [], dtM := [], dtD := [], dlit := [], trip := []
    tIdx := 0, litPos := 0, curLLeft := 0, curMLeft := 0, blkStart := 0, blkEnd := 0 }

def DecWork.empty : DecWork :=
  { passed := [], dstPos := 0, br := .empty, fr := .empty, freqVals := [], lanes := .zero
    lState := 0, mState := 0, dState := 0, dCur := 0 }

def Encoder.empty : Encoder :=
  { scanPos := 0, litStart := 0, pending := none, hist := [], parse := [], todo := [], rawPos := 0
    blockRaw := 0, litBuf := [], tL := [], tM := [], tD := [], tDv := []
    etLit := [], etL := [], etM := [], etD := [], lanes := .zero, lState := 0, mState := 0, dState := 0
    bw := .empty, fw := .empty, idx := 0, litPayload := [], lmdPayload := [], hdr := .empty, out := [] }

/-- The machine right after reset (R620): every item R620 lists at its value, every other internal item
empty or zero (R620: no value; R75: never read before it is written), host memory with nothing listed. -/
def State.reset : State :=
  { csr := .reset, seq := .rest, dec := .reset, work := .empty, enc := .empty, mem := []
    host := { queue := [], log := [] }, turns := []
    platform := { csrBase := 0xFFFFFFFFFFFFF000, devices := [] }, frontEnd := .standard
    racedSrc := [], racedDst := [], draws := 0 }

end Sys2Proof.Machine
end

