-- ==== Sys2Proof/Machine/Flags.lean ====
section
/-! DEFINITION. The status flags (R54): the codes of STATUS's fields (R43, R571), the words of CTRL and
IRQ_STATUS, and the interrupt output (R580). STATUS itself is in Coreturn.lean, beside what DEC_PHASE shows. -/

namespace Sys2Proof.Machine

/-- R43, STATE. -/
def RunState.code : RunState → Nat
  | .idle => 0
  | .busy => 1
  | .done => 2
  | .dstFull => 3
  | .error => 4

/-- R571. -/
def ErrCode.code : ErrCode → Nat
  | .none => 0x00
  | .srcExhausted => 0x01
  | .dstExhausted => 0x02
  | .badMagic => 0x10
  | .badFreq => 0x11
  | .badState => 0x12
  | .badHeader => 0x13
  | .badBitstream => 0x14
  | .badMatch => 0x15
  | .delegateFail => 0x16
  | .illegalCommand => 0x20
  | .sizeLimit => 0x21

/-- R43, DEC_PHASE. -/
def Phase.code : Phase → Nat
  | .atBlockStart => 0
  | .inLiteralStream => 1
  | .inLmdStream => 2
  | .inUncompressedCopy => 3
  | .inDelegatedCopy => 4
  | .done => 5
  | .error => 6

/-- The seven phases, in the order of their codes. -/
def Phase.all : List Phase :=
  [.atBlockStart, .inLiteralStream, .inLmdStream, .inUncompressedCopy, .inDelegatedCopy, .done, .error]

/-- CTRL (R44): IRQ_EN in bit 0. -/
def State.ctrlWord (s : State) : Word := if s.csr.irqEn then 1 else 0

/-- IRQ_STATUS (R45): CMD_DONE in bit 0. -/
def State.irqStatusWord (s : State) : Word := if s.csr.cmdDone then 1 else 0

/-- The interrupt output (R580): `irq = CTRL.IRQ_EN AND IRQ_STATUS.CMD_DONE`, continuously. -/
def State.irq (s : State) : Bool := s.csr.irqEn && s.csr.cmdDone

/-- STATE = BUSY (R43). -/
abbrev State.isBusy (s : State) : Prop := s.csr.state = .busy

end Sys2Proof.Machine
end

