-- ==== Sys2Proof/Machine/Operands.lean ====
section
/-! DEFINITION. The operands of the commands: the CSRs SRC_ADDR, SRC_SIZE, DST_ADDR and DST_SIZE as they
stand when the command starts (R140), their checks (R47, R49), and the ranges CORE touches (R106, R115). -/

namespace Sys2Proof.Machine

/-- SRC_ADDR = SRC_ADDR_HI << 32 | SRC_ADDR_LO (R46). -/
def Csrs.srcAddr (c : Csrs) : Addr := c.srcAddrHi ++ c.srcAddrLo

/-- DST_ADDR (R48). -/
def Csrs.dstAddr (c : Csrs) : Addr := c.dstAddrHi ++ c.dstAddrLo

/-- `SRC_SIZE <= MAX_BUF` and `SRC_ADDR + SRC_SIZE <= 2^64` (R47). -/
def Csrs.srcOk (c : Csrs) : Bool :=
  decide (c.srcSize.toNat ≤ Config.maxBuf ∧ c.srcAddr.toNat + c.srcSize.toNat ≤ Config.addrSpace)

/-- The same check of the destination (R49). -/
def Csrs.dstOk (c : Csrs) : Bool :=
  decide (c.dstSize.toNat ≤ Config.maxBuf ∧ c.dstAddr.toNat + c.dstSize.toNat ≤ Config.addrSpace)

/-- Whether address `a` lies in a range. -/
def Region.has (r : Region) (a : Nat) : Bool := decide (r.base ≤ a ∧ a < r.base + r.size)

/-- Whether two ranges have a byte in common. -/
def Region.meets (r q : Region) : Bool :=
  decide (0 < r.size ∧ 0 < q.size ∧ r.base < q.base + q.size ∧ q.base < r.base + r.size)

/-- The CSR window (R40). -/
def Platform.window (p : Platform) : Region := { base := p.csrBase.toNat, size := 4096 }

/-- Whether a range lies over a device: the CSR window or one of the platform's (R104). -/
def Platform.onDevice (p : Platform) (r : Region) : Bool :=
  p.window.meets r || p.devices.any (·.meets r)

/-- The source range the CSRs give. -/
def State.csrSrc (s : State) : Region :=
  { base := s.csr.srcAddr.toNat, size := s.csr.srcSize.toNat }

/-- The destination range of the current command (R106). -/
def State.dstRange (s : State) : Region :=
  { base := s.csr.dstAddr.toNat, size := s.csr.dstSize.toNat }

/-- The source range a session has latched (R70). -/
def State.sessionSrc (s : State) : Region :=
  { base := s.dec.srcAddr.toNat, size := s.dec.srcSize }

/-- Why a command on these two ranges is outside the spec: a buffer over a device (R104, U2), or
overlapping ranges (R115, U4). Buffers, window and devices stand in one address space (DESIGN CHOICE, log entry 30). -/
def State.bufferRefusal (s : State) (src dst : Region) : Option Refusal :=
  if s.platform.onDevice src || s.platform.onDevice dst then some .deviceBuffer
  else if src.meets dst then some .bufferOverlap
  else none

end Sys2Proof.Machine
end

