-- ==== Sys2Proof/Machine/Ops.lean ====
section
/-! DEFINITION. The named operations on host memory and on the result registers, and the ways a command
ends: done (R460, R490), paused (R460), in error (R570) and rejected (R574). Taking an error is the one
operation `State.raiseErr`; there is no return from it but the next command (R576). -/

namespace Sys2Proof.Machine

/-! ## Sparse data in one canonical form -/

/-- The value at a key, `d` where none is listed. -/
def Sparse.get {α : Type} (d : α) : List (Nat × α) → Nat → α
  | [], _ => d
  | (k, v) :: rest, a => if k = a then v else Sparse.get d rest a

/-- Sets the value at a key, keeping the keys rising and listing no `d`. -/
def Sparse.set {α : Type} [DecidableEq α] (d : α) : List (Nat × α) → Nat → α → List (Nat × α)
  | [], a, v => if v = d then [] else [(a, v)]
  | (k, w) :: rest, a, v =>
    if a < k then (if v = d then (k, w) :: rest else (a, v) :: (k, w) :: rest)
    else if a = k then (if v = d then rest else (a, v) :: rest)
    else (k, w) :: Sparse.set d rest a v

/-! ## Host memory (R103 to R105) -/

/-- What a byte of host memory that nothing has written reads as. -/
abbrev Memory.unwritten : Byte := 0

/-- The canonical form: addresses strictly rising and inside the address space, no entry equal to what an
unlisted address reads as. -/
abbrev Memory.wf (m : Memory) : Prop :=
  m.Pairwise (fun a b => a.1 < b.1) ∧ ∀ c ∈ m, c.1 < Config.addrSpace ∧ c.2 ≠ Memory.unwritten

/-- One byte of `MemRead` (R9). -/
def Memory.read (m : Memory) (a : Addr) : Byte := Sparse.get Memory.unwritten m a.toNat

/-- One byte of `MemWrite` (R9). -/
def Memory.write (m : Memory) (a : Addr) (b : Byte) : Memory := Sparse.set Memory.unwritten m a.toNat b

/-- `MemWrite(a, len(v), v)` (R9). -/
def Memory.writeBytes (m : Memory) (a : Addr) : List Byte → Memory
  | [] => m
  | b :: bs => Memory.writeBytes (m.write a b) (a + 1) bs

/-- `MemRead(a, n)` (R9). -/
def Memory.readBytes (m : Memory) (a : Addr) : Nat → List Byte
  | 0 => []
  | n + 1 => m.read a :: Memory.readBytes m (a + 1) n

/-- n bytes from `a` read as never written. -/
def Memory.clear (m : Memory) (a : Addr) (n : Nat) : Memory :=
  m.filter fun c => !decide (a.toNat ≤ c.1 ∧ c.1 < a.toNat + n)

/-- Gives n bytes from `a` any value (R107's draw). -/
def Memory.havoc (m : Memory) (a : Addr) (n draw : Nat) : Memory :=
  m.writeBytes a ((List.range n).map (Config.freeByte draw))

/-- Gives each listed address any value (R116). -/
def Memory.settle (m : Memory) (draw : Nat) : List Nat → Memory
  | [] => m
  | a :: as => Memory.settle (m.write (BitVec.ofNat 64 a) (Config.racedDest draw a)) draw as

/-- The byte CORE reads at source offset `o` of a buffer at `base`: what memory holds, and any value where
HOST wrote the byte while it must not (R116, U5). `read` tells apart the reads of one byte in one step, so
that each is a draw of its own. The buffer's address is used as given, and is HOST's address of the byte too (R109;
DESIGN CHOICE, log entry 30). -/
def State.srcByte (s : State) (base : Addr) (read o : Nat) : Byte :=
  if (base + BitVec.ofNat 64 o).toNat ∈ s.racedSrc then Config.racedSource s.draws read o
  else s.mem.read (base + BitVec.ofNat 64 o)

/-- The session's source byte at offset `o` (R370's notation: host byte `s_src_addr + o`). No step of a decode
reads a byte twice. -/
def State.decByte (s : State) (o : Nat) : Byte := s.srcByte s.dec.srcAddr 0 o

/-- ENCODE's source byte at offset `o`, in the step's given read. -/
def State.encByte (s : State) (read o : Nat) : Byte := s.srcByte s.csr.srcAddr read o

/-- `n` bytes from offset `o` of a source given by its bytes. -/
def bytesAt (rd : Nat → Byte) (o n : Nat) : List Byte := (List.range n).map fun i => rd (o + i)

/-! ## Turns -/

/-- Who moves next (the model's own; R30's agents). -/
def State.mover (s : State) : Agent :=
  match s.turns with
  | a :: _ => a
  | [] => if s.isBusy then .core else .host

/-- A phase joins the record of those the command has passed through (R463). -/
def DecWork.pass (w : DecWork) (p : Phase) : DecWork :=
  if p ∈ w.passed then w else { w with passed := p :: w.passed }

/-- A decode's working state as the mover's turn begins: CORE's phase is recorded. -/
def State.beginWork (s : State) : DecWork :=
  match s.mover, s.seq with
  | .core, .dec _ => s.work.pass s.dec.phase
  | _, _ => s.work

/-- The state in which the mover acts: its turn is taken, the phase CORE moves from is recorded, and the draw
counter has advanced, so that the free values of different steps are different draws. -/
def State.beginTurn (s : State) : State :=
  { s with turns := s.turns.tail, work := s.beginWork, draws := s.draws + 1 }

/-! ## Command starts and ends (R550) -/

/-- A command that runs: STATE = BUSY and ERR_CODE = 0 (R550, R551). -/
def State.startCommand (s : State) (q : Seq) : State :=
  { s with csr := { s.csr with state := .busy, errCode := .none }, seq := q }

/-- What every command end writes (R550): STATE, ERR_CODE, DEC_PHASE and CMD_DONE (R581). CORE then rests. -/
def State.endCommand (s : State) (st : RunState) (code : ErrCode) (ph : Phase) : State :=
  { s with
    csr := { s.csr with state := st, errCode := code, decPhase := ph, cmdDone := true }
    seq := .rest }

/-- The end of a command that has run: its working state is discarded (R70, R546) and destination bytes
that HOST wrote during BUSY have any value (R116). -/
def State.endRun (s : State) (st : RunState) (code : ErrCode) (ph : Phase) : State :=
  State.endCommand
    { s with work := .empty, enc := .empty, mem := s.mem.settle s.draws s.racedDst, racedDst := [] }
    st code ph

/-- RESULT (R50). -/
def State.setResult (s : State) (n : Nat) : State :=
  { s with csr := { s.csr with result := BitVec.ofNat 32 n } }

/-- ERR_INFO (R51). -/
def State.setErrInfo (s : State) (n : Nat) : State :=
  { s with csr := { s.csr with errInfo := BitVec.ofNat 32 n } }

/-- OUT_TOTAL and SRC_POS take the session's values (R53). -/
def State.loadCounters (s : State) : State :=
  { s with csr := { s.csr with outTotal := BitVec.ofNat 64 s.dec.outTotal,
                               srcPos := BitVec.ofNat 32 s.dec.srcPos } }

/-- The session's phase. -/
def State.setPhase (s : State) (ph : Phase) : State := { s with dec := { s.dec with phase := ph } }

/-- `session_valid`. -/
def State.setValid (s : State) (v : Bool) : State := { s with dec := { s.dec with valid := v } }

/-- End of a decode at an end-of-stream block (R450, R460). -/
def State.endDecode (s : State) : State :=
  (((s.setPhase .done).setValid false).loadCounters.setResult s.work.dstPos).endRun .done .none .done

/-- PAUSE: EMIT found no room (R433, R460). -/
def State.pause (s : State) : State :=
  ((s.setValid true).loadCounters.setResult s.work.dstPos).endRun .dstFull .none s.dec.phase

/-- End of an ENCODE whose stream has been written (R490). -/
def State.endEncode (s : State) (n : Nat) : State :=
  (s.setResult n).endRun .done .none .atBlockStart

/-- A decode's error (R570, R460). The bytes the command has written have any value (U3). -/
def State.raiseDec (s : State) (code : ErrCode) : State :=
  let t := { s with mem := s.mem.havoc s.csr.dstAddr s.work.dstPos s.draws }
  ((((t.setPhase .error).setValid false).loadCounters.setResult 0).setErrInfo s.dec.blkStart).endRun
    .error code .error

/-- An ENCODE's error (R570, R540): every destination byte has any value (R107, U7). -/
def State.raiseEnc (s : State) (code : ErrCode) : State :=
  let t := { s with mem := s.mem.havoc s.csr.dstAddr s.csr.dstSize.toNat s.draws }
  ((t.setResult 0).setErrInfo 0).endRun .error code .atBlockStart

/-- `raise Err(code)` (R570): ends the running command at once. -/
def State.raiseErr (s : State) (code : ErrCode) : State :=
  match s.seq with
  | .enc _ => s.raiseEnc code
  | .dec _ | .rest => s.raiseDec code

/-- `raise CmdErr(code)` (R574): the command is turned away before it starts; session, OUT_TOTAL, SRC_POS
and host memory stay as they were. -/
def State.cmdErr (s : State) (code : ErrCode) : State :=
  ((s.setResult 0).setErrInfo 0).endCommand .error code .atBlockStart

/-! ## How a rule inside a command stops -/

/-- A rule's `raise`, or the read of an internal item that holds no value. -/
inductive Halt
  | err (code : ErrCode)
  | fault (f : Fault)
deriving DecidableEq, Repr

/-- What the step of a running command answers when a rule stops in state `s`. -/
def State.halt (s : State) : Halt → Result
  | .err code => .next (s.raiseErr code)
  | .fault f => .fault f

/-- Goes on with a rule's value, or stops. -/
def State.andThen {α : Type} (s : State) (r : Except Halt α) (k : α → Result) : Result :=
  match r with
  | .ok a => k a
  | .error h => s.halt h

/-- An indexed read of an internal item (R75). -/
def readItem {α : Type} (item : Item) (xs : List α) (i : Nat) : Except Halt α :=
  match xs[i]? with
  | some x => .ok x
  | none => .error (.fault (.noValue item))

end Sys2Proof.Machine
end

