-- ==== Sys2Proof/Machine/Tables.lean ====
section
/-! DEFINITION. The constant symbol tables (R66, R175) and the symbol of a value (R176). -/

namespace Sys2Proof.Machine

/-- Extra-bit counts of the L symbols (R175). -/
def extraL : List Nat := [0, 0, 0, 0, 0, 0, 0, 0, 0, 0, 0, 0, 0, 0, 0, 0, 2, 3, 5, 8]

/-- Base values of the L symbols (R175). -/
def baseL : List Nat := [0, 1, 2, 3, 4, 5, 6, 7, 8, 9, 10, 11, 12, 13, 14, 15, 16, 20, 28, 60]

/-- Extra-bit counts of the M symbols (R175). -/
def extraM : List Nat := [0, 0, 0, 0, 0, 0, 0, 0, 0, 0, 0, 0, 0, 0, 0, 0, 3, 5, 8, 11]

/-- Base values of the M symbols (R175). -/
def baseM : List Nat := [0, 1, 2, 3, 4, 5, 6, 7, 8, 9, 10, 11, 12, 13, 14, 15, 16, 24, 56, 312]

/-- Extra-bit counts of the D symbols (R175). -/
def extraD : List Nat :=
  [0, 0, 0, 0, 1, 1, 1, 1, 2, 2, 2, 2, 3, 3, 3, 3, 4, 4, 4, 4, 5, 5, 5, 5, 6, 6, 6, 6, 7, 7, 7, 7] ++
  [8, 8, 8, 8, 9, 9, 9, 9, 10, 10, 10, 10, 11, 11, 11, 11, 12, 12, 12, 12, 13, 13, 13, 13,
   14, 14, 14, 14, 15, 15, 15, 15]

/-- Base values of the D symbols (R175). -/
def baseD : List Nat :=
  [0, 1, 2, 3, 4, 6, 8, 10, 12, 16, 20, 24, 28, 36, 44, 52, 60, 76, 92, 108,
   124, 156, 188, 220, 252, 316, 380, 444, 508, 636, 764, 892] ++
  [1020, 1276, 1532, 1788, 2044, 2556, 3068, 3580, 4092, 5116, 6140, 7164,
   8188, 10236, 12284, 14332, 16380, 20476, 24572, 28668, 32764, 40956, 49148, 57340,
   65532, 81916, 98300, 114684, 131068, 163836, 196604, 229372]

/-- `sym_X(v)`: the index of the symbol whose range holds v (R176), by the table's extra and base lists;
none above the stream's maximum. -/
def symFrom (v : Nat) : List Nat → List Nat → Option Nat
  | e :: es, b :: bs =>
    if b ≤ v ∧ v < b + 2 ^ e then some 0 else (symFrom v es bs).map (· + 1)
  | _, _ => none

/-- The value streams' symbol tables: extra and base lists together. -/
structure SymTable where
  extra : List Nat
  base : List Nat
deriving DecidableEq, Repr

def symL : SymTable := { extra := extraL, base := baseL }
def symM : SymTable := { extra := extraM, base := baseM }
def symD : SymTable := { extra := extraD, base := baseD }

/-- `sym_X(v)` (R176). -/
def SymTable.sym (t : SymTable) (v : Nat) : Option Nat := symFrom v t.extra t.base

/-- `extra_X(s)` (R12). -/
def SymTable.extraOf (t : SymTable) (s : Nat) : Nat := t.extra.getD s 0

/-- `base_X(s)` (R12). -/
def SymTable.baseOf (t : SymTable) (s : Nat) : Nat := t.base.getD s 0

end Sys2Proof.Machine
end

