-- ==== Sys2Proof/Machine/Bitio.lean ====
section
/-! DEFINITION. BITIO (40_bitstream.md): the bit writer BW, the backward reader BR, and the forward code
writer FW and reader FR. A reader's buffer is given by its bytes, `rd` of a source offset. -/

namespace Sys2Proof.Machine

/-! ## BW, the FSE bit writer -/

/-- `BW.init()` (R200). -/
def BitWriter.init : BitWriter := .empty

/-- `BW.push(n, b)` (R201). -/
def BitWriter.push (w : BitWriter) (n b : Nat) : BitWriter :=
  { w with accum := w.accum ||| (BitVec.ofNat 64 b <<< w.nbits), nbits := w.nbits + n }

/-- The low k bytes of an accumulator, lowest first (R101, R202). -/
def lowBytes (accum : BitVec 64) (k : Nat) : List Byte :=
  (List.range k).map fun i => accum.extractLsb' (8 * i) 8

/-- `BW.flush()` (R202). -/
def BitWriter.flush (w : BitWriter) : BitWriter :=
  { accum := w.accum >>> (8 * (w.nbits / 8))
    nbits := w.nbits - 8 * (w.nbits / 8)
    out := w.out ++ lowBytes w.accum (w.nbits / 8) }

/-- `BW.finish()` (R204): the bits field and the writer, its accumulator empty. -/
def BitWriter.finish (w : BitWriter) : Int × BitWriter :=
  let f := w.flush
  if f.nbits = 0 then (0, { accum := 0, nbits := 0, out := f.out })
  else ((f.nbits : Int) - 8, { accum := 0, nbits := 0, out := f.out ++ lowBytes f.accum 1 })

/-! ## BR, the FSE backward reader -/

/-- `BR.init(buf, start, end, bits)` (R210). -/
def BackReader.init (rd : Nat → Byte) (start stop : Nat) (bits : Int) : Except Halt BackReader :=
  let m := min (if bits = 0 then 7 else 8) (stop - start)
  if m = 0 ∧ bits ≠ 0 then .error (.err .badBitstream)
  else
    let accum := BitVec.ofNat 64 (le (bytesAt rd (stop - m) m))
    let nbits := (8 * (m : Int) + bits).toNat
    if accum >>> nbits ≠ 0 then .error (.err .badBitstream)
    else .ok { accum := accum, nbits := nbits, pos := stop - m, start := start }

/-- `BR.refill()` (R211). -/
def BackReader.refill (rd : Nat → Byte) (r : BackReader) : BackReader :=
  let nb := min ((63 - r.nbits) / 8) (r.pos - r.start)
  { r with
    pos := r.pos - nb
    accum := (r.accum <<< (8 * nb)) ||| BitVec.ofNat 64 (le (bytesAt rd (r.pos - nb) nb))
    nbits := r.nbits + 8 * nb }

/-- `BR.pull(n)` (R212): the n most recently pushed bits, taken from the top. -/
def BackReader.pull (r : BackReader) (n : Nat) : Except Halt (Nat × BackReader) :=
  if r.nbits < n then .error (.err .badBitstream)
  else
    let left := r.nbits - n
    .ok ((r.accum >>> left).toNat,
      { r with nbits := left, accum := r.accum &&& BitVec.ofNat 64 (2 ^ left - 1) })

/-! ## FW and FR, the forward code stream -/

/-- `while n >= 8` of R220: writes whole bytes; `k` bounds how many an accumulator holds. -/
def FwdWriter.drain : Nat → FwdWriter → FwdWriter
  | 0, w => w
  | k + 1, w =>
    if w.n < 8 then w
    else FwdWriter.drain k
      { acc := w.acc >>> 8, n := w.n - 8, out := w.out ++ [w.acc.setWidth 8] }

/-- `FW.put(nbits, code)` (R220). -/
def FwdWriter.put (w : FwdWriter) (nbits code : Nat) : FwdWriter :=
  FwdWriter.drain 4 { w with acc := w.acc ||| (BitVec.ofNat 32 code <<< w.n), n := w.n + nbits }

/-- `FW.end()` (R220): the bytes of the whole code. -/
def FwdWriter.finish (w : FwdWriter) : List Byte :=
  if 0 < w.n then w.out ++ [w.acc.setWidth 8] else w.out

/-- The loop of `FR.peekfill()` (R221); `k` bounds how many bytes an accumulator takes. -/
def FwdReader.fill (rd : Nat → Byte) (stop : Nat) : Nat → FwdReader → FwdReader
  | 0, r => r
  | k + 1, r =>
    if r.p < stop ∧ r.n + 8 ≤ 32 then
      FwdReader.fill rd stop k
        { acc := r.acc ||| ((rd r.p).setWidth 32 <<< r.n), n := r.n + 8, p := r.p + 1 }
    else r

/-- `FR.peekfill()` (R221). -/
def FwdReader.peekfill (rd : Nat → Byte) (stop : Nat) (r : FwdReader) : FwdReader :=
  FwdReader.fill rd stop 4 r

/-- `FR.take(k)` (R221). -/
def FwdReader.take (r : FwdReader) (k : Nat) : Except Halt FwdReader :=
  if r.n < k then .error (.err .badHeader)
  else .ok { r with acc := r.acc >>> k, n := r.n - k }

end Sys2Proof.Machine
end

