-- ==== Sys2Proof/Machine/Fse.lean ====
section
/-! DEFINITION. FSE (41_fse.md): the frequency check, normalization, the decode and encode tables and the
two transforms. -/

namespace Sys2Proof.Machine

/-! ## Validation and normalization -/

/-- `check_frequency_table(freq, n, N)` (R250). -/
def checkFreq (freq : List Nat) (n N : Nat) : Bool :=
  freq.length = n && freq.all (· ≤ N) && freq.sum = N

/-- `clz32(x)` for x in [1, 2^32) (R8). -/
def clz32 (x : Nat) : Nat := 31 - Nat.log2 x

/-- First estimate of one symbol's share (R252). -/
def normShare (step shift c : Nat) : Nat :=
  let f := (((c * step) >>> shift) + 1) >>> 1
  if f = 0 ∧ c ≠ 0 then 1 else f

/-- `max_f` and `max_sym` of R252: the largest entry and its first index, from index `i` on. -/
def largest : List Nat → Nat → Nat × Nat → Nat × Nat
  | [], _, m => m
  | f :: fs, i, m => largest fs (i + 1) (if f > m.1 then (f, i) else m)

/-- One pass of `adjust` (R253) at shift `sh`: the new counts and what is left to remove. -/
def adjustPass (sh : Nat) : List Nat → Nat → List Nat × Nat
  | [], o => ([], o)
  | f :: fs, o =>
    if f > 1 then
      let d := min ((f - 1) >>> sh) o
      let r := adjustPass sh fs (o - d)
      ((f - d) :: r.1, r.2)
    else
      let r := adjustPass sh fs o
      (f :: r.1, r.2)

/-- `adjust(freq, overrun)` (R253): passes at shifts 3, 2, 1 and 0, the last of which can lower every
count to 1. -/
def adjust (freq : List Nat) (overrun : Nat) : List Nat :=
  ([3, 2, 1, 0].foldl (fun p sh => adjustPass sh p.1 p.2) (freq, overrun)).1

/-- `normalize(count, N)` (R252). -/
def normalize (count : List Nat) (N : Nat) : List Nat :=
  let total := count.sum
  let shift := clz32 N - 1
  let step := if total = 0 then 0 else 2 ^ 31 / total
  let freq := count.map (normShare step shift)
  let remaining : Int := (N : Int) - freq.sum
  let m := largest freq 0 (0, 0)
  if -remaining < ((m.1 >>> 2 : Nat) : Int) then
    freq.modify m.2 fun f => ((f : Int) + remaining).toNat
  else adjust freq (-remaining).toNat

/-! ## Decode tables -/

/-- `k(f)` over N states (R255). -/
def kOf (N f : Nat) : Nat := clz32 f - clz32 N

/-- The entry of state j of a symbol with frequency f (R256). -/
def decEntry (N f vbits vbase j : Nat) : DecEntry :=
  let k := kOf N f
  let j0 := ((2 * N) >>> k) - f
  if j < j0 then
    { totalBits := k + vbits, valueBits := vbits, delta := ((f + j) <<< k) - N, vbase := vbase }
  else
    { totalBits := k - 1 + vbits, valueBits := vbits, delta := (j - j0) <<< (k - 1), vbase := vbase }

/-- The states of one symbol, contiguous (R256, R257). -/
def symbolEntries (N f vbits vbase : Nat) : List DecEntry := (List.range f).map (decEntry N f vbits vbase)

/-- `build_decode_table(freq, N, vbits[], vbase[])` (R256): the symbols' runs in symbol order (R257). -/
def buildDecodeTable (N : Nat) : List Nat → List Nat → List Nat → List DecEntry
  | f :: fs, vb :: vbs, b :: bs => symbolEntries N f vb b ++ buildDecodeTable N fs vbs bs
  | _, _, _ => []

/-- The literal stream's table: no extra bits, the value is the symbol (R256, decision D45). -/
def buildLiteralTable (freq : List Nat) : List DecEntry :=
  buildDecodeTable Config.litStates freq (List.replicate Config.litSyms 0) (List.range Config.litSyms)

/-- A value stream's table (R256, R444). -/
def buildValueTable (N : Nat) (t : SymTable) (freq : List Nat) : List DecEntry :=
  buildDecodeTable N freq t.extra t.base

/-- `VALUE_DECODE(state, dt, BR)` (R264): value, next state and reader. -/
def valueDecode (dt : List DecEntry) (state : Nat) (r : BackReader) : Except Halt (Nat × Nat × BackReader) :=
  match readItem .decodeTable dt state with
  | .error h => .error h
  | .ok e =>
    match r.pull e.totalBits with
    | .error h => .error h
    | .ok (x, r') => .ok (e.vbase + x % 2 ^ e.valueBits, e.delta + (x >>> e.valueBits), r')

/-! ## Encode tables -/

/-- The entry of a symbol with frequency f > 0 whose states start at `o` (R260). `delta1` is unused when
k = 0. -/
def encEntry (N f o : Nat) : EncEntry :=
  let k := kOf N f
  { s0 := (f <<< k) - N, k := k
    delta0 := (o : Int) - f + (N >>> k : Nat)
    delta1 := (o : Int) - f + (N >>> (k - 1) : Nat) }

/-- `build_encode_table(freq, N)` (R260), from the symbol whose states start at `o`; absent at frequency 0. -/
def buildEncodeTable (N : Nat) : Nat → List Nat → List (Option EncEntry)
  | _, [] => []
  | o, f :: fs => (if f = 0 then none else some (encEntry N f o)) :: buildEncodeTable N (o + f) fs

/-- `FSE_ENCODE(state, et, sym, BW)` (R262) with the symbol's entry: the new state and the writer. -/
def fseEncode (e : EncEntry) (state : Nat) (w : BitWriter) : Nat × BitWriter :=
  if e.s0 ≤ state then
    ((e.delta0 + (state >>> e.k : Nat)).toNat, w.push e.k (state % 2 ^ e.k))
  else
    ((e.delta1 + (state >>> (e.k - 1) : Nat)).toNat, w.push (e.k - 1) (state % 2 ^ (e.k - 1)))

/-- The symbol's entry; a symbol with an absent entry is never encoded (R262, R522). -/
def encLookup (et : List (Option EncEntry)) (sym : Nat) : Except Halt EncEntry :=
  match et[sym]? with
  | some (some e) => .ok e
  | _ => .error (.fault (.noValue .encodeTable))

/-- `FSE_ENCODE` on a table (R262). -/
def symEncode (et : List (Option EncEntry)) (sym state : Nat) (w : BitWriter) : Except Halt (Nat × BitWriter) :=
  match encLookup et sym with
  | .ok e => .ok (fseEncode e state w)
  | .error h => .error h

/-- `VALUE_ENCODE(state, X, v, BW)` (R263): the value bits first, then the state bits on top. -/
def valueEncode (t : SymTable) (et : List (Option EncEntry)) (v state : Nat) (w : BitWriter) :
    Except Halt (Nat × BitWriter) :=
  match t.sym v with
  | none => .error (.fault (.noValue .symbol))
  | some s => symEncode et s state (w.push (t.extraOf s) (v - t.baseOf s))

/-! ## Histograms (R343) -/

/-- Occurrences of each symbol below n. -/
def histogram (n : Nat) (syms : List Nat) : List Nat :=
  syms.foldl (fun c s => c.modify s (· + 1)) (List.replicate n 0)

end Sys2Proof.Machine
end

