-- ==== Sys2Proof/Machine/Lmd.lean ====
section
/-! DEFINITION. LMD (42_lmd.md): legal triplets, distance coding, and one iteration of each of the four
serializer loops: a group of four literals and a triplet, encoded and decoded. The machine takes one
iteration a step. -/

namespace Sys2Proof.Machine

/-! ## LEGALIZE (R312) -/

/-- How many full triplets come off a value over its maximum, so that the rest is in [1, max]. -/
def fullParts (v max : Nat) : Nat := (v - 1) / max

/-- The legal triplets of one `(L, M, D)` of a parse (R312): full literal runs first, the rest of the run
with the match, then the rest of the match. R312 writes '-' for the distance of a triplet that copies nothing:
the model stores 0 there, whatever the parse gave (DESIGN CHOICE, log entry 28). -/
def legalizeOne (t : Triplet) : List Triplet :=
  let qL := fullParts t.L Config.maxL
  let qM := fullParts t.M Config.maxM
  let lits := List.replicate qL { L := Config.maxL, M := 0, D := 0 }
  let lastL := t.L - qL * Config.maxL
  let lastM := t.M - qM * Config.maxM
  if qM = 0 then lits ++ [{ L := lastL, M := t.M, D := if t.M = 0 then 0 else t.D }]
  else
    lits ++ { L := lastL, M := Config.maxM, D := t.D }
      :: (List.replicate (qM - 1) { L := 0, M := Config.maxM, D := t.D }
        ++ [{ L := 0, M := lastM, D := t.D }])

/-- `LEGALIZE(parse)` (R312). -/
def legalize (parse : List Triplet) : List Triplet := parse.flatMap legalizeOne

/-! ## Distance coding (R320, R321) -/

/-- The coded distances of a block's triplets (R321), from the previous distance on. -/
def codeDistances : Nat → List Triplet → List Nat
  | _, [] => []
  | prev, t :: ts =>
    if t.M = 0 ∨ t.D = prev then 0 :: codeDistances prev ts else t.D :: codeDistances t.D ts

/-- `D_cur` after a coded distance (R320). -/
def resolveDistance (cur dv : Nat) : Nat := if dv ≠ 0 then dv else cur

/-! ## Literal payload -/

/-- The literals padded to a multiple of 4 with zero bytes (R330). -/
def padLiterals (lits : List Byte) : List Byte := lits ++ List.replicate ((4 - lits.length % 4) % 4) 0

/-- The 8 zero bytes before each payload (R330, R340). -/
def payloadPad : List Byte := List.replicate 8 0

/-- One iteration of ENCODE_LITERALS (R330) on the literals `a b c d` of indexes i-4 to i-1. -/
def encodeLitGroup (et : List (Option EncEntry)) (a b c d : Byte) (st : Lanes) (w : BitWriter) :
    Except Halt (Lanes × BitWriter) :=
  match symEncode et d.toNat st.s3 w.flush with
  | .error h => .error h
  | .ok (s3, w3) =>
    match symEncode et c.toNat st.s2 w3 with
    | .error h => .error h
    | .ok (s2, w2) =>
      match symEncode et b.toNat st.s1 w2 with
      | .error h => .error h
      | .ok (s1, w1) =>
        match symEncode et a.toNat st.s0 w1 with
        | .error h => .error h
        | .ok (s0, w0) => .ok ({ s0 := s0, s1 := s1, s2 := s2, s3 := s3 }, w0)

/-- One literal of DECODE_LITERALS (R331): byte, next state and reader. -/
def decodeLit (dt : List DecEntry) (st : Nat) (r : BackReader) : Except Halt (Byte × Nat × BackReader) :=
  match valueDecode dt st r with
  | .error h => .error h
  | .ok (v, st', r') => .ok (BitVec.ofNat 8 v, st', r')

/-- One iteration of DECODE_LITERALS (R331): a refill and four literals, lanes 0 to 3. -/
def decodeLitGroup (dt : List DecEntry) (rd : Nat → Byte) (st : Lanes) (r : BackReader) :
    Except Halt (List Byte × Lanes × BackReader) :=
  match decodeLit dt st.s0 (r.refill rd) with
  | .error h => .error h
  | .ok (a, s0, r0) =>
    match decodeLit dt st.s1 r0 with
    | .error h => .error h
    | .ok (b, s1, r1) =>
      match decodeLit dt st.s2 r1 with
      | .error h => .error h
      | .ok (c, s2, r2) =>
        match decodeLit dt st.s3 r2 with
        | .error h => .error h
        | .ok (d, s3, r3) => .ok ([a, b, c, d], { s0 := s0, s1 := s1, s2 := s2, s3 := s3 }, r3)

/-! ## LMD payload -/

/-- The L, M and D states of the LMD stream (R63). -/
structure LmdStates where
  l : Nat
  m : Nat
  d : Nat
deriving DecidableEq, Repr

/-- The three encode tables of the LMD stream. -/
structure LmdEncTables where
  l : List (Option EncEntry)
  m : List (Option EncEntry)
  d : List (Option EncEntry)
deriving DecidableEq, Repr

/-- The three decode tables of the LMD stream. -/
structure LmdDecTables where
  l : List DecEntry
  m : List DecEntry
  d : List DecEntry
deriving DecidableEq, Repr

/-- One iteration of ENCODE_LMD (R340): flush, then D, M and L. -/
def encodeTriplet (et : LmdEncTables) (L M dv : Nat) (st : LmdStates) (w : BitWriter) :
    Except Halt (LmdStates × BitWriter) :=
  match valueEncode symD et.d dv st.d w.flush with
  | .error h => .error h
  | .ok (d, wd) =>
    match valueEncode symM et.m M st.m wd with
    | .error h => .error h
    | .ok (m, wm) =>
      match valueEncode symL et.l L st.l wm with
      | .error h => .error h
      | .ok (l, wl) => .ok ({ l := l, m := m, d := d }, wl)

/-- DECODE_TRIPLET (R341): a refill, then L, M and the coded distance; the triplet's distance is `D_cur`. -/
def decodeTriplet (dt : LmdDecTables) (rd : Nat → Byte) (st : LmdStates) (dCur : Nat) (r : BackReader) :
    Except Halt (Triplet × LmdStates × BackReader) :=
  match valueDecode dt.l st.l (r.refill rd) with
  | .error h => .error h
  | .ok (L, l, rl) =>
    match valueDecode dt.m st.m rl with
    | .error h => .error h
    | .ok (M, m, rm) =>
      match valueDecode dt.d st.d rm with
      | .error h => .error h
      | .ok (dv, d, rd') =>
        .ok ({ L := L, M := M, D := resolveDistance dCur dv }, { l := l, m := m, d := d }, rd')

/-! ## VALIDATE_TRIPLETS (R446) -/

/-- R446 from session output index `o`, with `lp` literals used and `produced` bytes made so far. -/
def validateTriplets (nLiterals nRaw : Nat) : List Triplet → Nat → Nat → Nat → Except Halt Unit
  | [], _, _, produced => if produced ≠ nRaw then .error (.err .badMatch) else .ok ()
  | t :: ts, o, lp, produced =>
    if lp + t.L > nLiterals then .error (.err .badMatch)
    else if t.M > 0 ∧ (t.D = 0 ∨ t.D > o + t.L) then .error (.err .badMatch)
    else validateTriplets nLiterals nRaw ts (o + t.L + t.M) (lp + t.L) (produced + t.L + t.M)

end Sys2Proof.Machine
end

