-- ==== Sys2Proof/Machine/Framer.lean ====
section
/-! DEFINITION. FRAMER (43_framing.md): parsing and checking the header kinds into the record H (R370),
and writing headers. A block is read through `rd`, its byte at an offset from the block start, and
`avail` is how many source bytes it has from there. -/

namespace Sys2Proof.Machine

/-! ## Reading -/

/-- `rd_u16(o)`. -/
def rdU16 (rd : Nat → Byte) (o : Nat) : Nat := le (bytesAt rd o 2)

/-- `rd_u32(o)`. -/
def rdU32 (rd : Nat → Byte) (o : Nat) : Nat := le (bytesAt rd o 4)

/-- `rd_u64(o)`. -/
def rdU64 (rd : Nat → Byte) (o : Nat) : Nat := le (bytesAt rd o 8)

/-- `sext_32` (R9). -/
def sext32 (v : Nat) : Int := (BitVec.ofNat 32 v).toInt

/-- The 360 values of a header, split in the order of R162. -/
def Header.withFreqs (h : Header) (v : List Nat) : Header :=
  { h with
    lFreq := v.take 20, mFreq := (v.drop 20).take 20
    dFreq := (v.drop 40).take 64, litFreq := (v.drop 104).take 256 }

/-- `PARSE_V1()` (R371) on the plain header of R156. -/
def parseV1 (rd : Nat → Byte) (avail : Nat) : Except Halt Header :=
  if avail < Config.v1HeaderSize then .error (.err .srcExhausted)
  else
    let h : Header :=
      { nRaw := rdU32 rd 4, nPayload := rdU32 rd 8, nLiterals := rdU32 rd 12, nMatches := rdU32 rd 16
        nLitPayload := rdU32 rd 20, nLmdPayload := rdU32 rd 24
        literalBits := sext32 (rdU32 rd 28), lmdBits := sext32 (rdU32 rd 40)
        litState0 := rdU16 rd 32, litState1 := rdU16 rd 34
        litState2 := rdU16 rd 36, litState3 := rdU16 rd 38
        lState := rdU16 rd 44, mState := rdU16 rd 46, dState := rdU16 rd 48
        lFreq := [], mFreq := [], dFreq := [], litFreq := [], hdrSize := Config.v1HeaderSize }
    if h.nPayload ≠ h.nLitPayload + h.nLmdPayload then .error (.err .badHeader)
    else .ok (h.withFreqs ((List.range Config.freqCount).map fun i => rdU16 rd (50 + 2 * i)))

/-- The fields of a packed header's fixed part (R364), its frequency tables still to be read. -/
def parseV2Fixed (rd : Nat → Byte) : Header :=
  let w0 := rdU64 rd 8
  let w1 := rdU64 rd 16
  let w2 := rdU64 rd 24
  { nRaw := rdU32 rd 4, nPayload := field w0 20 20 + field w1 40 20
    nLiterals := field w0 0 20, nMatches := field w0 40 20
    nLitPayload := field w0 20 20, nLmdPayload := field w1 40 20
    literalBits := (field w0 60 3 : Int) - 7, lmdBits := (field w1 60 3 : Int) - 7
    litState0 := field w1 0 10, litState1 := field w1 10 10
    litState2 := field w1 20 10, litState3 := field w1 30 10
    lState := field w2 32 10, mState := field w2 42 10, dState := field w2 52 10
    lFreq := [], mFreq := [], dFreq := [], litFreq := [], hdrSize := field w2 0 32 }

/-- The part of `PARSE_V2()` before the frequency code (R364). -/
def parseV2 (rd : Nat → Byte) (avail : Nat) : Except Halt Header :=
  if avail < Config.v2FixedSize then .error (.err .srcExhausted)
  else
    let h := parseV2Fixed rd
    if h.hdrSize < Config.v2FixedSize then .error (.err .badHeader)
    else if avail < h.hdrSize then .error (.err .srcExhausted)
    else .ok h

/-- The check at the end of `DECODE_FREQ_CODE` (R384): the code ends inside the last header byte. -/
def freqCodeEnd (fr : FwdReader) (stop : Nat) : Except Halt Unit :=
  if fr.n ≥ 8 ∨ fr.p ≠ stop then .error (.err .badHeader) else .ok ()

/-- `CHECK_HEADER(H)` (R392), in its order. -/
def checkHeader (h : Header) (avail : Nat) : Except Halt Unit :=
  if h.nLiterals > Config.literalsPerBlock ∨ h.nLiterals % 4 ≠ 0 then .error (.err .badHeader)
  else if h.nMatches > Config.matchesPerBlock then .error (.err .badHeader)
  else if h.literalBits < -7 ∨ h.literalBits > 0 ∨ h.lmdBits < -7 ∨ h.lmdBits > 0 then
    .error (.err .badHeader)
  else if h.litState0 ≥ Config.litStates ∨ h.litState1 ≥ Config.litStates
      ∨ h.litState2 ≥ Config.litStates ∨ h.litState3 ≥ Config.litStates
      ∨ h.lState ≥ Config.lStates ∨ h.mState ≥ Config.mStates ∨ h.dState ≥ Config.dStates then
    .error (.err .badState)
  else if !checkFreq h.lFreq Config.lSyms Config.lStates then .error (.err .badFreq)
  else if !checkFreq h.mFreq Config.mSyms Config.mStates then .error (.err .badFreq)
  else if !checkFreq h.dFreq Config.dSyms Config.dStates then .error (.err .badFreq)
  else if !checkFreq h.litFreq Config.litSyms Config.litStates then .error (.err .badFreq)
  else if avail < h.hdrSize + h.nPayload then .error (.err .srcExhausted)
  else .ok ()

/-- `PARSE_RAW()` (R390): the raw byte count. -/
def parseRaw (rd : Nat → Byte) (avail : Nat) : Except Halt Nat :=
  if avail < 8 then .error (.err .srcExhausted)
  else if avail - 8 < rdU32 rd 4 then .error (.err .srcExhausted)
  else .ok (rdU32 rd 4)

/-- `PARSE_DELEGATED()` (R391): the raw and payload byte counts. -/
def parseDelegated (rd : Nat → Byte) (avail : Nat) : Except Halt (Nat × Nat) :=
  if avail < 12 then .error (.err .srcExhausted)
  else if avail - 12 < rdU32 rd 8 then .error (.err .srcExhausted)
  else .ok (rdU32 rd 4, rdU32 rd 8)

/-! ## Writing (R380 to R387) -/

/-- One frequency value's code word of R160 through FW (R385). -/
def FwdWriter.putFreq (w : FwdWriter) (value : Nat) : FwdWriter :=
  w.put (encode (freqInstr value)).nbits (encode (freqInstr value)).bits

/-- `ENCODE_FREQ_CODE(v)` (R385). -/
def encodeFreqCode (v : List Nat) : List Byte := (v.foldl FwdWriter.putFreq FwdWriter.empty).finish

/-- A bits field as the packed header stores it, `bits + 7` (R157). -/
def biased (bits : Int) : Nat := (bits + 7).toNat

/-- The frequency values of H in the order of R162. -/
def Header.freqs (h : Header) : List Nat := h.lFreq ++ h.mFreq ++ h.dFreq ++ h.litFreq

/-- `PACK_V2(H)` (R380), with the frequency code of H's tables. -/
def packV2With (code : List Byte) (h : Header) : List Byte :=
  let hs := 32 + code.length
  let w0 := h.nLiterals ||| h.nLitPayload <<< 20 ||| h.nMatches <<< 40 ||| biased h.literalBits <<< 60
  let w1 := h.litState0 ||| h.litState1 <<< 10 ||| h.litState2 <<< 20 ||| h.litState3 <<< 30
    ||| h.nLmdPayload <<< 40 ||| biased h.lmdBits <<< 60
  let w2 := hs ||| h.lState <<< 32 ||| h.mState <<< 42 ||| h.dState <<< 52
  leBytes 0x32787662 4 ++ leBytes h.nRaw 4 ++ leBytes w0 8 ++ leBytes w1 8 ++ leBytes w2 8 ++ code

/-- `PACK_V2(H)` (R380). -/
def packV2 (h : Header) : List Byte := packV2With (encodeFreqCode h.freqs) h

/-- `PACK_V1(H)` (R386): ENC never uses it; it builds plain-header input. -/
def packV1 (h : Header) : List Byte :=
  leBytes 0x31787662 4 ++ leBytes h.nRaw 4 ++ leBytes h.nPayload 4 ++ leBytes h.nLiterals 4
    ++ leBytes h.nMatches 4 ++ leBytes h.nLitPayload 4 ++ leBytes h.nLmdPayload 4
    ++ leBytes (BitVec.ofInt 32 h.literalBits).toNat 4
    ++ leBytes h.litState0 2 ++ leBytes h.litState1 2 ++ leBytes h.litState2 2 ++ leBytes h.litState3 2
    ++ leBytes (BitVec.ofInt 32 h.lmdBits).toNat 4
    ++ leBytes h.lState 2 ++ leBytes h.mState 2 ++ leBytes h.dState 2
    ++ h.freqs.flatMap (fun f => leBytes f 2) ++ [0, 0]

/-- The end-of-stream block (R387). -/
def packEos : List Byte := leBytes 0x24787662 4

/-- An uncompressed block (R387). -/
def packRaw (data : List Byte) : List Byte := leBytes 0x2D787662 4 ++ leBytes data.length 4 ++ data

/-- A delegated block (R387). -/
def packDelegated (nRaw : Nat) (payload : List Byte) : List Byte :=
  leBytes 0x6E787662 4 ++ leBytes nRaw 4 ++ leBytes payload.length 4 ++ payload

end Sys2Proof.Machine
end

