-- ==== Sys2Proof/Machine/Dec.lean ====
section
/-! DEFINITION. DEC (44_decode.md): EMIT and the steps of RUN and of COMPRESSED_BLOCK_START, each loop taken
one iteration a step. What a block's magic or a frequency-code word selects is in Blocks.lean and
FreqCode.lean. -/

namespace Sys2Proof.Machine

/-! ## Reading the session -/

/-- `avail` = `s_src_size - src_pos` (43_framing.md). -/
def State.avail (s : State) : Nat := s.dec.srcSize - s.dec.srcPos

/-- The block's byte at an offset from the block start. -/
def State.blkByte (s : State) (o : Nat) : Byte := s.decByte (s.dec.blkStart + o)

/-- Source offset of the literal payload (R444's a). -/
def State.litStart (s : State) : Nat := s.dec.blkStart + s.dec.hdr.hdrSize

/-- Source offset of the LMD payload (R444's b). -/
def State.lmdStart (s : State) : Nat := s.litStart + s.dec.hdr.nLitPayload

/-- Source offset of the block's end (R444's c). -/
def State.lmdEnd (s : State) : Nat := s.lmdStart + s.dec.hdr.nLmdPayload

/-- Goes to another stage of the running decode. -/
def State.decGoto (s : State) (st : DecStage) : State := { s with seq := .dec st }

/-! ## EMIT (R433) -/

/-- No room is left in the destination. -/
abbrev State.noRoom (s : State) : Prop := s.work.dstPos = s.csr.dstSize.toNat

/-- Writes and counts one byte, and appends it to the history window (R433, R108). DST_ADDR is used as given, and is
HOST's address of the byte too (R109; DESIGN CHOICE, log entry 30). -/
def State.put (s : State) (b : Byte) : State :=
  { s with
    mem := s.mem.write (s.csr.dstAddr + BitVec.ofNat 64 s.work.dstPos) b
    work := { s.work with dstPos := s.work.dstPos + 1 }
    dec := { s.dec with outTotal := s.dec.outTotal + 1,
                        histWin := (b :: s.dec.histWin).take Config.histWindow } }

/-- `EMIT(b)` (R433) followed by the rule's own bookkeeping; the pause check comes first. -/
def State.emit (s : State) (b : Byte) (after : Session → Session) : Result :=
  if s.noRoom then .next s.pause
  else .next { s.put b with dec := after (s.put b).dec }

/-- The history byte at distance D, session index `out_total - D` (R108, R447). -/
def historyByte (win : List Byte) (D : Nat) : Except Halt Byte :=
  match D with
  | 0 => .error (.fault (.noValue .history))
  | d + 1 => readItem .history win d

/-! ## RUN (R440) -/

/-- A block is completely emitted: `src_pos <- blk_end`, AT_BLOCK_START (R440, R432). -/
def State.blockDone (s : State) : State :=
  { s with dec := { s.dec with srcPos := s.dec.blkEnd, phase := .atBlockStart } }

/-- IN_UNCOMPRESSED_COPY (R440). -/
def decRawCopy (s : State) : Result :=
  if 0 < s.dec.copyLeft then
    s.emit (s.decByte (s.dec.blkEnd - s.dec.copyLeft)) fun d => { d with copyLeft := d.copyLeft - 1 }
  else .next s.blockDone

/-- IN_DELEGATED_COPY (R440). -/
def decDelegatedCopy (s : State) : Result :=
  if s.dec.copyIdx < s.dec.copyBuf.length then
    s.andThen (readItem .copyBuffer s.dec.copyBuf s.dec.copyIdx) fun b =>
      s.emit b fun d => { d with copyIdx := d.copyIdx + 1 }
  else .next s.blockDone

/-- The next triplet becomes the one replayed, if there is one (R444, R447). -/
def Session.loadTriplet (d : Session) (i : Nat) : Session :=
  match d.trip[i]? with
  | some t => { d with tIdx := i, curLLeft := t.L, curMLeft := t.M }
  | none => { d with tIdx := i }

/-- REPLAY (R447). -/
def decReplay (s : State) : Result :=
  if s.dec.tIdx < s.dec.hdr.nMatches then
    if 0 < s.dec.curLLeft then
      s.andThen (readItem .literals s.dec.dlit s.dec.litPos) fun b =>
        s.emit b fun d => { d with litPos := d.litPos + 1, curLLeft := d.curLLeft - 1 }
    else if 0 < s.dec.curMLeft then
      s.andThen (readItem .triplets s.dec.trip s.dec.tIdx) fun t =>
        s.andThen (historyByte s.dec.histWin t.D) fun b =>
          s.emit b fun d => { d with curMLeft := d.curMLeft - 1 }
    else .next { s with dec := s.dec.loadTriplet (s.dec.tIdx + 1) }
  else .next s.blockDone

/-- One step of RUN outside AT_BLOCK_START, by the phase (R440). -/
def decRun (s : State) : Result :=
  match s.dec.phase with
  | .inUncompressedCopy => decRawCopy s
  | .inDelegatedCopy => decDelegatedCopy s
  | .inLmdStream => decReplay s
  | .done => .next s.endDecode
  | .atBlockStart | .inLiteralStream | .error => .fault .noRule

/-! ## COMPRESSED_BLOCK_START (R444) -/

/-- The end of PARSE_V2 once all 360 values are read: the code's end check and the tables (R384, R364). -/
def decFreqEnd (s : State) : Result :=
  s.andThen (freqCodeEnd s.work.fr s.litStart) fun _ =>
    .next { s with
      dec := { s.dec with hdr := s.dec.hdr.withFreqs s.work.freqVals }
      seq := .dec .blockStart }

/-- CHECK_HEADER, the four decode tables, and the start of the literal stage (R444, R331). -/
def decBlockStart (s : State) : Result :=
  s.andThen (checkHeader s.dec.hdr s.avail) fun _ =>
    s.andThen (BackReader.init s.decByte s.litStart s.lmdStart s.dec.hdr.literalBits) fun br =>
      .next { s with
        dec := { s.dec with
          phase := .inLiteralStream
          dtLit := buildLiteralTable s.dec.hdr.litFreq
          dtL := buildValueTable Config.lStates symL s.dec.hdr.lFreq
          dtM := buildValueTable Config.mStates symM s.dec.hdr.mFreq
          dtD := buildValueTable Config.dStates symD s.dec.hdr.dFreq
          dlit := []
          blkEnd := s.lmdEnd }
        work := { s.work with
          br := br
          lanes := { s0 := s.dec.hdr.litState0, s1 := s.dec.hdr.litState1,
                     s2 := s.dec.hdr.litState2, s3 := s.dec.hdr.litState3 } }
        seq := .dec .literals }

/-- The literal stage (R331, R445): a group of four, or, when all are decoded, the start of the LMD stage
(R444). -/
def decLiterals (s : State) : Result :=
  if s.dec.dlit.length < s.dec.hdr.nLiterals then
    s.andThen (decodeLitGroup s.dec.dtLit s.decByte s.work.lanes s.work.br) fun (bs, st, br) =>
      .next { s with
        dec := { s.dec with dlit := s.dec.dlit ++ bs }
        work := { s.work with lanes := st, br := br } }
  else
    s.andThen (BackReader.init s.decByte s.lmdStart s.lmdEnd s.dec.hdr.lmdBits) fun br =>
      .next { s with
        dec := { s.dec with phase := .inLmdStream, trip := [] }
        work := { s.work with
          br := br, dCur := 0
          lState := s.dec.hdr.lState, mState := s.dec.hdr.mState, dState := s.dec.hdr.dState }
        seq := .dec .triplets }

/-- The decode tables of the LMD stream. -/
def Session.lmdTables (d : Session) : LmdDecTables := { l := d.dtL, m := d.dtM, d := d.dtD }

/-- The LMD states of a running decode. -/
def DecWork.lmdStates (w : DecWork) : LmdStates := { l := w.lState, m := w.mState, d := w.dState }

/-- The triplet stage (R444): one triplet, or, when all are decoded, their validation (R446) and the start of
the replay. -/
def decTriplets (s : State) : Result :=
  if s.dec.trip.length < s.dec.hdr.nMatches then
    s.andThen (decodeTriplet s.dec.lmdTables s.decByte s.work.lmdStates s.work.dCur s.work.br)
      fun (t, st, br) =>
        .next { s with
          dec := { s.dec with trip := s.dec.trip ++ [t] }
          work := { s.work with
            br := br, dCur := t.D, lState := st.l, mState := st.m, dState := st.d } }
  else
    s.andThen (validateTriplets s.dec.hdr.nLiterals s.dec.hdr.nRaw s.dec.trip s.dec.outTotal 0 0) fun _ =>
      .next { s with
        dec := { s.dec.loadTriplet 0 with litPos := 0 }
        seq := .dec .run }

end Sys2Proof.Machine
end

