-- ==== Sys2Proof/Machine/Commands.lean ====
section
/-! DEFINITION. The host commands (R140): NOP, ENCODE, DECODE, DECODE_RESUME, ABORT and the reserved
OPCODEs. A command that runs is started here (R550); Dec.lean, Blocks.lean, FreqCode.lean and Enc.lean
carry it to its end. -/

namespace Sys2Proof.Machine

/-- R550's first line: a CMD write while BUSY is ignored. -/
def State.issue (s : State) (r : Result) : Result := if s.isBusy then .next s else r

/-- A command runs only on buffers the spec allows (U2, U4). -/
def State.withBuffers (s : State) (src dst : Region) (r : Result) : Result :=
  match s.bufferRefusal src dst with
  | some why => .refused why
  | none => r

/-! ## NOP and ABORT -/

/-- NOP (R552): STATE = DONE, ERR_CODE = 0, DEC_PHASE = 0 and CMD_DONE = 1, all else unchanged. -/
def execNop (s : State) : Result := s.issue (.next (s.endCommand .done .none .atBlockStart))

/-- The session after ABORT (R553). -/
def Session.aborted (d : Session) : Session :=
  { d with valid := false, phase := .atBlockStart, outTotal := 0, srcPos := 0, histWin := [] }

/-- ABORT (R553). -/
def execAbort (s : State) : Result :=
  s.issue (.next (({ s with dec := s.dec.aborted } : State).loadCounters.endCommand .idle .none .atBlockStart))

/-! ## DECODE and DECODE_RESUME -/

/-- The session DECODE starts (R430): the source is latched, counters and history start empty. -/
def Session.started (d : Session) (addr : Addr) (size : Nat) : Session :=
  { d with
    valid := true, phase := .atBlockStart, srcAddr := addr, srcSize := size
    srcPos := 0, outTotal := 0, histWin := [] }

/-- DECODE (R430), up to RUN: CORE is BUSY at the first dispatch. -/
def State.startDecode (s : State) : State :=
  ({ s with
      dec := s.dec.started s.csr.srcAddr s.csr.srcSize.toNat
      work := .empty, racedSrc := [], racedDst := [] } : State).startCommand (.dec .run)

/-- DECODE (R430). -/
def execDecode (s : State) : Result :=
  s.issue <|
    if !(s.csr.srcOk && s.csr.dstOk) then .next (s.cmdErr .sizeLimit)
    else s.withBuffers s.csrSrc s.dstRange (.next s.startDecode)

/-- DECODE_RESUME (R431), up to RUN: the session goes on where it paused. -/
def State.startResume (s : State) : State :=
  ({ s with work := .empty, racedDst := [] } : State).startCommand (.dec .run)

/-- DECODE_RESUME (R431). -/
def execDecodeResume (s : State) : Result :=
  s.issue <|
    if !s.dec.valid then .next (s.cmdErr .illegalCommand)
    else if !s.csr.dstOk then .next (s.cmdErr .sizeLimit)
    else s.withBuffers s.sessionSrc s.dstRange (.next s.startResume)

/-! ## ENCODE -/

/-- ENCODE (R490), up to ENC_OUT: a paused session is discarded and CORE is BUSY at the path choice. -/
def State.startEncode (s : State) : State :=
  ({ s.setValid false with enc := .empty, racedSrc := [], racedDst := [] } : State).startCommand (.enc .choose)

/-- ENCODE (R490). -/
def execEncode (s : State) : Result :=
  s.issue <|
    if !(s.csr.srcOk && s.csr.dstOk) then .next (s.cmdErr .sizeLimit)
    else s.withBuffers s.csrSrc s.dstRange (.next s.startEncode)

/-! ## Reserved OPCODEs (R141) -/

/-- `ILLEGAL(op)` (R550, R141, R574). -/
def State.illegal (s : State) : Result := s.issue (.next (s.cmdErr .illegalCommand))

/-- OPCODE 0x5 (R141). -/
def execReserved5 (s : State) : Result := s.illegal
/-- OPCODE 0x6 (R141). -/
def execReserved6 (s : State) : Result := s.illegal
/-- OPCODE 0x7 (R141). -/
def execReserved7 (s : State) : Result := s.illegal
/-- OPCODE 0x8 (R141). -/
def execReserved8 (s : State) : Result := s.illegal
/-- OPCODE 0x9 (R141). -/
def execReserved9 (s : State) : Result := s.illegal
/-- OPCODE 0xA (R141). -/
def execReservedA (s : State) : Result := s.illegal
/-- OPCODE 0xB (R141). -/
def execReservedB (s : State) : Result := s.illegal
/-- OPCODE 0xC (R141). -/
def execReservedC (s : State) : Result := s.illegal
/-- OPCODE 0xD (R141). -/
def execReservedD (s : State) : Result := s.illegal
/-- OPCODE 0xE (R141). -/
def execReservedE (s : State) : Result := s.illegal
/-- OPCODE 0xF (R141). -/
def execReservedF (s : State) : Result := s.illegal

end Sys2Proof.Machine
end

