-- ==== Sys2Proof/Machine/Blocks.lean ====
section
/-! DEFINITION. The block kinds (R150): what DISPATCH's magic selects (R450 to R454). `blk` is the
session's block start; the magic itself has been read. -/

namespace Sys2Proof.Machine

/-- End-of-stream (R450): the source is consumed to `blk + 4` and the command ends DONE. -/
def execBlockEos (s : State) : Result :=
  .next ({ s with dec := { s.dec with srcPos := s.dec.blkStart + 4 } } : State).endDecode

/-- Uncompressed block (R451). -/
def execBlockRaw (s : State) : Result :=
  s.andThen (parseRaw s.blkByte s.avail) fun n =>
    .next { s with
      dec := { s.dec with
        copyLeft := n, blkEnd := s.dec.blkStart + 8 + n, phase := .inUncompressedCopy }
      seq := .dec .run }

/-- Compressed block with plain header (R452): PARSE_V1, then the block start. -/
def execBlockV1 (s : State) : Result :=
  s.andThen (parseV1 s.blkByte s.avail) fun h =>
    .next { s with dec := { s.dec with hdr := h }, seq := .dec .blockStart }

/-- Compressed block with packed header (R453): the fixed part of PARSE_V2, then its frequency code; an
empty code stands for 360 zeros (R384). -/
def execBlockV2 (s : State) : Result :=
  s.andThen (parseV2 s.blkByte s.avail) fun h =>
    .next { s with
      dec := { s.dec with hdr := h }
      work := { s.work with
        fr := { acc := 0, n := 0, p := s.dec.blkStart + 32 }
        freqVals := if h.hdrSize = 32 then List.replicate Config.freqCount 0 else [] }
      seq := .dec .freqCode }

/-- The delegated codec's answer, accepted only at the block's raw count (R454). -/
def delegated (history payload : List Byte) (nRaw : Nat) : Option (List Byte) :=
  match Config.delegateDecode history payload nRaw with
  | some r => if r.length = nRaw then some r else none
  | none => none

/-- The end of a delegated block's start (R454): the codec's bytes are copied out next, or it has failed. -/
def State.startDelegated (s : State) (nPay : Nat) (r : Option (List Byte)) : State :=
  match r with
  | none => s.raiseErr .delegateFail
  | some bs =>
    { s with
      dec := { s.dec with
        copyBuf := bs, copyIdx := 0, blkEnd := s.dec.blkStart + 12 + nPay, phase := .inDelegatedCopy }
      seq := .dec .run }

/-- Delegated block (R454). -/
def execBlockLzvn (s : State) : Result :=
  s.andThen (parseDelegated s.blkByte s.avail) fun (nRaw, nPay) =>
    .next (s.startDelegated nPay
      (delegated s.dec.histWin.reverse (bytesAt s.blkByte 12 nPay) nRaw))

end Sys2Proof.Machine
end

