-- ==== Sys2Proof/Machine/FreqCode.lean ====
section
/-! DEFINITION. The frequency-code words (R160): one iteration of DECODE_FREQ_CODE's loop (R384) for the
word that stands at the low end of FR's accumulator. -/

namespace Sys2Proof.Machine

/-- R384's loop body once the word is known: the value is appended and its bits are taken; a word longer
than the bits left raises BAD_HEADER. -/
def State.takeFreq (s : State) (nbits value : Nat) : Result :=
  s.andThen (s.work.fr.take nbits) fun fr =>
    .next { s with work := { s.work with fr := fr, freqVals := s.work.freqVals ++ [value] } }

/-- Value 0 (R160). -/
def execFreq0 (s : State) : Result := s.takeFreq 2 0
/-- Value 1 (R160). -/
def execFreq1 (s : State) : Result := s.takeFreq 2 1
/-- Value 2 (R160). -/
def execFreq2 (s : State) : Result := s.takeFreq 3 2
/-- Value 3 (R160). -/
def execFreq3 (s : State) : Result := s.takeFreq 3 3
/-- Value 4 (R160). -/
def execFreq4 (s : State) : Result := s.takeFreq 5 4
/-- Value 5 (R160). -/
def execFreq5 (s : State) : Result := s.takeFreq 5 5
/-- Value 6 (R160). -/
def execFreq6 (s : State) : Result := s.takeFreq 5 6
/-- Value 7 (R160). -/
def execFreq7 (s : State) : Result := s.takeFreq 5 7
/-- Values 8 to 23 (R160). -/
def execFreq8to23 (value : Nat) (s : State) : Result := s.takeFreq 8 value
/-- Values 24 to 1047 (R160). -/
def execFreq24to1047 (value : Nat) (s : State) : Result := s.takeFreq 14 value

end Sys2Proof.Machine
end

