-- ==== Sys2Proof/Machine/Dispatch.lean ====
section
/-! DEFINITION. One arm per constructor of Instr: each instruction's meaning. -/

namespace Sys2Proof.Machine

def exec (i : Instr) (s : State) : Host.Outcome State Fault Refusal :=
  match i with
  | .nop => Sys2Proof.Machine.execNop s
  | .encode => Sys2Proof.Machine.execEncode s
  | .decode => Sys2Proof.Machine.execDecode s
  | .decodeResume => Sys2Proof.Machine.execDecodeResume s
  | .abort => Sys2Proof.Machine.execAbort s
  | .reserved5 => Sys2Proof.Machine.execReserved5 s
  | .reserved6 => Sys2Proof.Machine.execReserved6 s
  | .reserved7 => Sys2Proof.Machine.execReserved7 s
  | .reserved8 => Sys2Proof.Machine.execReserved8 s
  | .reserved9 => Sys2Proof.Machine.execReserved9 s
  | .reservedA => Sys2Proof.Machine.execReservedA s
  | .reservedB => Sys2Proof.Machine.execReservedB s
  | .reservedC => Sys2Proof.Machine.execReservedC s
  | .reservedD => Sys2Proof.Machine.execReservedD s
  | .reservedE => Sys2Proof.Machine.execReservedE s
  | .reservedF => Sys2Proof.Machine.execReservedF s
  | .blockEos => Sys2Proof.Machine.execBlockEos s
  | .blockRaw => Sys2Proof.Machine.execBlockRaw s
  | .blockV1 => Sys2Proof.Machine.execBlockV1 s
  | .blockV2 => Sys2Proof.Machine.execBlockV2 s
  | .blockLzvn => Sys2Proof.Machine.execBlockLzvn s
  | .freq0 => Sys2Proof.Machine.execFreq0 s
  | .freq1 => Sys2Proof.Machine.execFreq1 s
  | .freq2 => Sys2Proof.Machine.execFreq2 s
  | .freq3 => Sys2Proof.Machine.execFreq3 s
  | .freq4 => Sys2Proof.Machine.execFreq4 s
  | .freq5 => Sys2Proof.Machine.execFreq5 s
  | .freq6 => Sys2Proof.Machine.execFreq6 s
  | .freq7 => Sys2Proof.Machine.execFreq7 s
  | .freq8to23 v => Sys2Proof.Machine.execFreq8to23 v s
  | .freq24to1047 v => Sys2Proof.Machine.execFreq24to1047 v s

end Sys2Proof.Machine
end

