-- ==== Sys2Proof/Machine/Match.lean ====
section
/-! DEFINITION. The match model: the default front end (R505 to R509), and the contract of any front end
(R501). The source is given by its bytes and its length `n`. The default search reads a byte more than once
in a step, so its `rd` takes which read it is before the offset (R116: each read of a raced byte is a draw). -/

namespace Sys2Proof.Machine

/-- `HASH(x)` (R506). -/
def hash4 (x : Nat) : Nat := ((x * 2654435761) % 2 ^ 32) >>> 18

/-- The 4-byte value at a position (R506). -/
def value4 (rd : Nat → Byte) (p : Nat) : Nat := le (bytesAt rd p 4)

/-- R507's forward extension from length f, the reads at p and at c apart; `k` bounds the bytes left. -/
def extendForward (rp rc : Nat → Byte) (n p c : Nat) : Nat → Nat → Nat
  | 0, f => f
  | k + 1, f => if p + f < n ∧ rp (p + f) = rc (c + f) then extendForward rp rc n p c k (f + 1) else f

/-- R507's backward extension from b, the reads at p and at c apart; `k` bounds the bytes before p. -/
def extendBackward (rp rc : Nat → Byte) (ls p c : Nat) : Nat → Nat → Nat
  | 0, b => b
  | k + 1, b =>
    if p - b > ls ∧ c - b > 0 ∧ rp (p - b - 1) = rc (c - b - 1) then extendBackward rp rc ls p c k (b + 1) else b

/-- One slot's candidate (R507): none when it is rejected. Its four runs of reads are `rd 1` to `rd 4`. -/
def candidate (rd : Nat → Nat → Byte) (n ls p x : Nat) (c : Slot) : Option Match :=
  if c.value ≠ x ∨ p - c.pos > Config.maxD then none
  else
    let f := extendForward (rd 1) (rd 2) n p c.pos (n - p) 4
    let b := extendBackward (rd 3) (rd 4) ls p c.pos p 0
    some { pos := p - b, len := f + b, dist := p - c.pos }

/-- The longer of the best candidate so far and the next; ties keep the more recent slot (R507). -/
def better (best cand : Option Match) : Option Match :=
  match best, cand with
  | none, c => c
  | some b, none => some b
  | some b, some c => if c.len > b.len then some c else some b

/-- The slots of a bucket of the history table, most recent first. -/
def bucket (hist : List (Nat × List Slot)) (h : Nat) : List Slot := Sparse.get [] hist h

/-- R507's loop over the slots from slot j on; slot j's reads are numbered from 4j + 1. -/
def bestOf (rd : Nat → Nat → Byte) (n ls p x : Nat) : Nat → List Slot → Option Match → Option Match
  | _, [], best => best
  | j, c :: cs, best =>
    bestOf rd n ls p x (j + 1) cs (better best (candidate (fun k => rd (4 * j + k)) n ls p x c))

/-- `FIND(p)` (R507): the best candidate, and the table with p recorded. -/
def findMatch (rd : Nat → Nat → Byte) (n ls p : Nat) (hist : List (Nat × List Slot)) :
    Option Match × List (Nat × List Slot) :=
  let x := value4 (rd 0) p
  let slots := bucket hist (hash4 x)
  (bestOf rd n ls p x 0 slots none,
    Sparse.set [] hist (hash4 x) (({ pos := p, value := x } :: slots).take Config.hashWidth))

/-- `EMIT_MATCH(m)` (R508). -/
def Encoder.emitMatch (e : Encoder) (m : Match) : Encoder :=
  { e with
    parse := e.parse ++ [{ L := m.pos - e.litStart, M := m.len, D := m.dist }]
    litStart := m.pos + m.len }

/-- R509's `EMIT_MATCH(pend); p <- pend.pos + pend.len; pend <- NONE`. -/
def Encoder.takePending (e : Encoder) (m : Match) : Encoder :=
  { e.emitMatch m with scanPos := m.pos + m.len, pending := none }

/-- R509's rule (b), and the advance to the next position. -/
def Encoder.settlePending (e : Encoder) (pend : Option Match) : Encoder :=
  match pend with
  | some m =>
    if m.len ≥ Config.goodMatch then e.takePending m
    else { e with pending := some m, scanPos := e.scanPos + 1 }
  | none => { e with pending := none, scanPos := e.scanPos + 1 }

/-- One iteration of R509's loop. -/
def Encoder.scanOnce (e : Encoder) (rd : Nat → Nat → Byte) (n : Nat) : Encoder :=
  let found := findMatch rd n e.litStart e.scanPos e.hist
  let e := { e with hist := found.2 }
  match e.pending with
  | some pend =>
    match found.1 with
    | some best => if best.len > pend.len then e.settlePending (some best) else e.takePending pend
    | none => e.takePending pend
  | none => e.settlePending found.1

/-- R509 after its loop: the pending match, then the trailing literals. -/
def Encoder.scanEnd (e : Encoder) (n : Nat) : Encoder :=
  let e := match e.pending with
    | some m => { e.emitMatch m with pending := none }
    | none => e
  if e.litStart < n then { e with parse := e.parse ++ [{ L := n - e.litStart, M := 0, D := 0 }] } else e

/-- Whether a match of the contract copies earlier bytes (R501). -/
def copiesEarlier (rd : Nat → Byte) (p M D : Nat) : Bool :=
  (List.range M).all fun i => rd (p + i) == rd (p + i - D)

/-- The contract of R501 for the triples from position `at` on. -/
def contractFrom (rd : Nat → Byte) (n : Nat) : List Triplet → Nat → Bool
  | [], pos => pos == n
  | t :: ts, pos =>
    (t.M == 0 || (decide (1 ≤ t.D ∧ t.D ≤ min (pos + t.L) Config.maxD)
      && copiesEarlier rd (pos + t.L) t.M t.D))
    && contractFrom rd n ts (pos + t.L + t.M)

/-- The contract of R501. -/
def frontEndOk (rd : Nat → Byte) (n : Nat) (parse : List Triplet) : Bool := contractFrom rd n parse 0

end Sys2Proof.Machine
end

