-- ==== Sys2Proof/Machine/Enc.lean ====
section
/-! DEFINITION. ENC (45_encode.md): the steps of an ENCODE that has started, each loop taken one iteration
a step. -/

namespace Sys2Proof.Machine

/-- n = SRC_SIZE (45_encode.md). -/
def State.srcLen (s : State) : Nat := s.csr.srcSize.toNat

/-- `src` = `MemRead(SRC_ADDR, SRC_SIZE)`, in the step's given read. -/
def State.encSrc (s : State) (read : Nat) : List Byte := bytesAt (s.encByte read) 0 s.srcLen

/-- Goes to another stage of the running ENCODE with a new working state. -/
def State.encGoto (s : State) (st : EncStage) (e : Encoder) : State := { s with seq := .enc st, enc := e }

/-! ## ENC_OUT (R492 to R494) -/

/-- `RAW_STREAM(src)` (R493). -/
def rawStream (src : List Byte) : List Byte := packRaw src ++ packEos

/-- `DELEGATED_STREAM(src)` (R494), from the codec's answer. -/
def delegatedStream (src : List Byte) (r : Option (List Byte)) : List Byte :=
  match r with
  | none => rawStream src
  | some p => packDelegated src.length p ++ packEos

/-- The path choice (R492). The codec's source is read once and the raw block's once more, because CORE may
read a byte twice (R104, R116). The compressed path starts with an empty history table and literal start 0
(R505). -/
def encChoose (s : State) : Result :=
  if s.srcLen < Config.lzvnMinSrc then
    .next (s.encGoto .finish { s.enc with out := rawStream (s.encSrc 0) })
  else if s.srcLen < Config.lzvnThreshold then
    .next (s.encGoto .finish
      { s.enc with
        out := delegatedStream (s.encSrc 1) (Config.delegateEncode (s.encSrc 0) (s.srcLen - 5)) })
  else .next (s.encGoto .scan
    { s.enc with scanPos := 0, litStart := 0, pending := none, hist := [], parse := [] })

/-! ## COMPRESSED_STREAM (R500) -/

/-- The front end: a step of the default scan (R509), or the parse of another front end, held to its
contract over the bytes it was given (R501, U6). -/
def encScan (s : State) : Result :=
  match s.frontEnd with
  | .standard =>
    if s.enc.scanPos + 4 ≤ s.srcLen then .next (s.encGoto .scan (s.enc.scanOnce s.encByte s.srcLen))
    else .next (s.encGoto .legalize (s.enc.scanEnd s.srcLen))
  | .other =>
    let src := s.encSrc 0
    let parse := (Config.frontEnd src).map fun (l, m, d) => ({ L := l, M := m, D := d } : Triplet)
    if frontEndOk (fun o => src.getD o 0) s.srcLen parse then .next (s.encGoto .legalize { s.enc with parse := parse })
    else .refused .frontEndContract

/-- An empty block opens (R500). -/
def Encoder.openBlock (e : Encoder) : Encoder :=
  { e with
    blockRaw := 0, litBuf := [], tL := [], tM := [], tD := [], tDv := []
    litPayload := [], lmdPayload := [], hdr := .empty }

/-- LEGALIZE, and the first block opens at source offset 0 (R500). -/
def encLegalize (s : State) : Result :=
  .next (s.encGoto .fill
    { s.enc.openBlock with todo := legalize s.enc.parse, rawPos := 0, out := [] })

/-- Whether a triplet closes the open block before it is added (R510). -/
def Encoder.closes (e : Encoder) (t : Triplet) : Bool :=
  decide (e.tL.length + 1 > Config.matchesPerBlock ∨ e.litBuf.length + t.L > Config.literalsPerBlock)

/-- A triplet is added to the open block with its literals (R500, R520). -/
def Encoder.append (e : Encoder) (rd : Nat → Byte) (t : Triplet) (rest : List Triplet) : Encoder :=
  { e with
    todo := rest
    litBuf := e.litBuf ++ bytesAt rd e.rawPos t.L
    tL := e.tL ++ [t.L], tM := e.tM ++ [t.M], tD := e.tD ++ [t.D]
    rawPos := e.rawPos + t.L + t.M, blockRaw := e.blockRaw + t.L + t.M }

/-- The loop of R500: a triplet is added, the block closes (R510), or the stream ends. -/
def encFill (s : State) : Result :=
  match s.enc.todo with
  | t :: rest =>
    if s.enc.closes t then .next (s.encGoto .tables s.enc)
    else .next (s.encGoto .fill (s.enc.append (s.encByte 0) t rest))
  | [] =>
    if s.enc.tL = [] then .next (s.encGoto .finish { s.enc with out := s.enc.out ++ packEos })
    else .next (s.encGoto .tables s.enc)

/-! ## BUILD_BLOCK (R520) -/

/-- The triplets of the open block. -/
def Encoder.triplets (e : Encoder) : List Triplet :=
  (e.tL.zip (e.tM.zip e.tD)).map fun (l, m, d) => { L := l, M := m, D := d }

/-- The histogram of a value stream's symbols (R343). -/
def valueHistogram (t : SymTable) (n : Nat) (vs : List Nat) : List Nat := histogram n (vs.filterMap t.sym)

/-- The block's padded literals, coded distances, frequency and encode tables (R520), and the start of
ENCODE_LITERALS (R330). -/
def Encoder.buildTables (e : Encoder) : Encoder :=
  let lits := padLiterals e.litBuf
  let dv := codeDistances 0 e.triplets
  let litFreq := normalize (histogram Config.litSyms (lits.map BitVec.toNat)) Config.litStates
  let lFreq := normalize (valueHistogram symL Config.lSyms e.tL) Config.lStates
  let mFreq := normalize (valueHistogram symM Config.mSyms e.tM) Config.mStates
  let dFreq := normalize (valueHistogram symD Config.dSyms dv) Config.dStates
  { e with
    litBuf := lits, tDv := dv
    etLit := buildEncodeTable Config.litStates 0 litFreq
    etL := buildEncodeTable Config.lStates 0 lFreq
    etM := buildEncodeTable Config.mStates 0 mFreq
    etD := buildEncodeTable Config.dStates 0 dFreq
    hdr := { e.hdr with
      nRaw := e.blockRaw, nLiterals := lits.length, nMatches := e.tL.length
      lFreq := lFreq, mFreq := mFreq, dFreq := dFreq, litFreq := litFreq }
    bw := .init, lanes := .zero, idx := lits.length }

/-- BUILD_BLOCK's tables (R520). -/
def encTables (s : State) : Result := .next (s.encGoto .literals s.enc.buildTables)

/-- The end of ENCODE_LITERALS (R330) and the start of ENCODE_LMD (R340). -/
def Encoder.literalsDone (e : Encoder) : Encoder :=
  let f := e.bw.finish
  { e with
    hdr := { e.hdr with
      literalBits := f.1, nLitPayload := 8 + f.2.out.length
      litState0 := e.lanes.s0, litState1 := e.lanes.s1, litState2 := e.lanes.s2, litState3 := e.lanes.s3 }
    litPayload := payloadPad ++ f.2.out
    bw := .init, lState := 0, mState := 0, dState := 0, idx := e.tL.length }

/-- Byte i of the block's literals. -/
def Encoder.lit (e : Encoder) (i : Nat) : Byte := e.litBuf.getD i 0

/-- ENCODE_LITERALS (R330): the group of four below `idx`, from the last to the first. -/
def encLiterals (s : State) : Result :=
  if 0 < s.enc.idx then
    s.andThen
      (encodeLitGroup s.enc.etLit (s.enc.lit (s.enc.idx - 4)) (s.enc.lit (s.enc.idx - 3))
        (s.enc.lit (s.enc.idx - 2)) (s.enc.lit (s.enc.idx - 1)) s.enc.lanes s.enc.bw) fun (st, w) =>
      .next (s.encGoto .literals { s.enc with lanes := st, bw := w, idx := s.enc.idx - 4 })
  else .next (s.encGoto .lmd s.enc.literalsDone)

/-- The encode tables of the LMD stream. -/
def Encoder.lmdTables (e : Encoder) : LmdEncTables := { l := e.etL, m := e.etM, d := e.etD }

/-- The LMD states of a running ENCODE. -/
def Encoder.lmdStates (e : Encoder) : LmdStates := { l := e.lState, m := e.mState, d := e.dState }

/-- The end of ENCODE_LMD (R340). -/
def Encoder.lmdDone (e : Encoder) : Encoder :=
  let f := e.bw.finish
  { e with
    hdr := { e.hdr with
      lmdBits := f.1, nLmdPayload := 8 + f.2.out.length
      nPayload := e.hdr.nLitPayload + (8 + f.2.out.length)
      lState := e.lState, mState := e.mState, dState := e.dState }
    lmdPayload := payloadPad ++ f.2.out
    bw := .init, fw := .empty, idx := 0 }

/-- ENCODE_LMD (R340): the triplet below `idx`, from the last to the first. -/
def encLmd (s : State) : Result :=
  if 0 < s.enc.idx then
    s.andThen
      (encodeTriplet s.enc.lmdTables (s.enc.tL.getD (s.enc.idx - 1) 0) (s.enc.tM.getD (s.enc.idx - 1) 0)
        (s.enc.tDv.getD (s.enc.idx - 1) 0) s.enc.lmdStates s.enc.bw) fun (st, w) =>
      .next (s.encGoto .lmd
        { s.enc with lState := st.l, mState := st.m, dState := st.d, bw := w, idx := s.enc.idx - 1 })
  else .next (s.encGoto .pack s.enc.lmdDone)

/-- PACK_V2 (R380): a frequency value's code word (R385), or, when all are coded, the block's bytes, header,
literal payload and LMD payload (R520); then an empty block opens (R500). -/
def encPack (s : State) : Result :=
  match s.enc.hdr.freqs[s.enc.idx]? with
  | some v => .next (s.encGoto .pack { s.enc with fw := s.enc.fw.putFreq v, idx := s.enc.idx + 1 })
  | none =>
    .next (s.encGoto .fill
      { s.enc.openBlock with
        out := s.enc.out ++ packV2With s.enc.fw.finish s.enc.hdr ++ s.enc.litPayload ++ s.enc.lmdPayload })

/-! ## The end of the command (R490, R540) -/

/-- The length check and the write of the whole stream (R490), at DST_ADDR as given (R109; log entry 30). -/
def encFinish (s : State) : Result :=
  if s.csr.dstSize.toNat < s.enc.out.length then .next (s.raiseErr .dstExhausted)
  else
    .next (({ s with mem := s.mem.writeBytes s.csr.dstAddr s.enc.out } : State).endEncode s.enc.out.length)

/-- One step of a running ENCODE. -/
def encStep (st : EncStage) (s : State) : Result :=
  match st with
  | .choose => encChoose s
  | .scan => encScan s
  | .legalize => encLegalize s
  | .fill => encFill s
  | .tables => encTables s
  | .literals => encLiterals s
  | .lmd => encLmd s
  | .pack => encPack s
  | .finish => encFinish s

end Sys2Proof.Machine
end

