-- ==== Sys2Proof/Machine/Coreturn.lean ====
section
/-! DEFINITION. CORE's turn: an instruction to execute, read from where its kind stands (R10), or a step with no
instruction. And STATUS, whose DEC_PHASE field shows a phase the running command passes through (R463). -/

namespace Sys2Proof.Machine

/-- What a turn comes to. -/
inductive Fetched
  /-- Instruction `i` is executed in state `s`. -/
  | instr (i : Instr) (s : State)
  /-- The step is complete. -/
  | result (r : Result)

/-- DISPATCH (R360): the magic at the block start, in the state where `blk` is `src_pos` (R440). -/
def fetchBlock (s : State) : Fetched :=
  let t := { s with dec := { s.dec with blkStart := s.dec.srcPos } }
  match decode .block (bytesAt t.blkByte 0 (min t.avail 4)) with
  | .ok i => .instr i t
  | .error .truncated => .result (.next (t.raiseErr .srcExhausted))
  | .error .badMagic => .result (.next (t.raiseErr .badMagic))

/-- The frequency code's next word, after `FR.peekfill()`, or the end of the code (R384). -/
def fetchFreq (s : State) : Fetched :=
  if s.work.freqVals.length < Config.freqCount then
    let fr := s.work.fr.peekfill s.decByte s.litStart
    .instr (decodeFreq fr.acc.toNat) { s with work := { s.work with fr := fr } }
  else .result (decFreqEnd s)

/-- CORE's turn: nothing unless a command runs (R589). -/
def coreTurn (s : State) : Fetched :=
  if s.isBusy then
    match s.seq with
    | .rest => .result (.next s)
    | .dec .run => if s.dec.phase = .atBlockStart then fetchBlock s else .result (decRun s)
    | .dec .freqCode => fetchFreq s
    | .dec .blockStart => .result (decBlockStart s)
    | .dec .literals => .result (decLiterals s)
    | .dec .triplets => .result (decTriplets s)
    | .enc st => .result (encStep st s)
  else .result (.next s)

/-- What a turn comes to, its instruction executed. -/
def Fetched.run : Fetched → Result
  | .instr i t => exec i t
  | .result r => r

/-! ## STATUS (R43) -/

/-- The phase a step of COMPRESSED_BLOCK_START enters before the last check that can still end the command in
it (R444): a payload the reader rejects leaves the phase again within the step. -/
def State.enters (s : State) : Option Phase :=
  match s.seq with
  | .dec .blockStart =>
    match checkHeader s.dec.hdr s.avail with
    | .ok _ => some .inLiteralStream
    | .error _ => none
  | .dec .literals => if s.dec.dlit.length < s.dec.hdr.nLiterals then none else some .inLmdStream
  | _ => none

/-- Whether CORE, moving alone for at most `k` steps, comes to phase `p` in the running command. -/
def State.reaches (p : Phase) : Nat → State → Bool
  | 0, s => decide (s.dec.phase = p)
  | k + 1, s =>
    decide (s.dec.phase = p) || decide s.isBusy && (decide (s.enters = some p) ||
      match (coreTurn s.beginTurn).run with
      | .next t => State.reaches p k t
      | .fault _ => false
      | .refused _ => false)

/-- More steps than any decode command takes (R641): at most 2^29 + 1 blocks, of fewer than 2^15 steps each
besides the bytes emitted, of which there are fewer than 2^31. -/
abbrev lookahead : Nat := 2 ^ 48

/-- CORE without HOST: nothing pending, nothing recorded, no turn set. -/
def State.alone (s : State) : State := { s with host := { queue := [], log := [] }, turns := [] }

/-- The phases the running command passes through (R463, U12): those it has passed and those to come, the one
it ends in included. An ENCODE passes through no decoder state, and its DEC_PHASE is 0 (R43). -/
def State.commandPhases (s : State) : List Phase :=
  match s.seq with
  | .dec _ => Phase.all.filter fun p => decide (p ∈ s.work.passed) || s.alone.reaches p lookahead
  | .enc _ => [.atBlockStart]
  | .rest => [.atBlockStart]

/-- What DEC_PHASE shows: the stored field, and while BUSY any phase the command passes through (R463, U12). -/
def State.shownPhase (s : State) : Phase :=
  if s.isBusy then s.commandPhases.getD (Config.busyPhase s.draws % s.commandPhases.length) .atBlockStart
  else s.csr.decPhase

/-- STATUS (R43): STATE in [2:0], ERR_CODE in [15:8], DEC_PHASE in [18:16], the rest 0. -/
def State.statusWord (s : State) : Word :=
  BitVec.ofNat 32 (s.csr.state.code + s.csr.errCode.code <<< 8 + s.shownPhase.code <<< 16)

end Sys2Proof.Machine
end

