-- ==== Sys2Proof/Machine/Hostport.lean ====
section
/-! DEFINITION. What a HOST agent does to the block: CSR reads and writes (R40 to R56, R554), host-memory
accesses with the races of R116, and reset (R620 to R622). -/

namespace Sys2Proof.Machine

/-! ## The CSR window -/

/-- What a 32-bit read at an offset returns (R40's table); CMD and every offset not in the table read 0. -/
def State.readCsr (s : State) (off : Nat) : Word :=
  match off with
  | 0x000 => 0x1F5E0007
  | 0x008 => s.ctrlWord
  | 0x00C => s.statusWord
  | 0x010 => s.irqStatusWord
  | 0x014 => s.csr.srcAddrLo
  | 0x018 => s.csr.srcAddrHi
  | 0x01C => s.csr.srcSize
  | 0x020 => s.csr.dstAddrLo
  | 0x024 => s.csr.dstAddrHi
  | 0x028 => s.csr.dstSize
  | 0x02C => s.csr.result
  | 0x030 => s.csr.errInfo
  | 0x034 => 0
  | 0x038 => 0
  | 0x03C => s.csr.outTotal.extractLsb' 0 32
  | 0x040 => s.csr.outTotal.extractLsb' 32 32
  | 0x044 => s.csr.srcPos
  | _ => 0

/-- A parameter register takes a write only while STATE is not BUSY (R56). -/
def State.setParam (s : State) (c : Csrs) : State := if s.isBusy then s else { s with csr := c }

/-- A 32-bit write at an offset other than CMD's (R40's table, R44 to R49, R56). -/
def State.writeCsr (s : State) (off : Nat) (v : Word) : State :=
  match off with
  | 0x008 => { s with csr := { s.csr with irqEn := v.getLsbD 0 } }
  | 0x010 => { s with csr := { s.csr with cmdDone := s.csr.cmdDone && !v.getLsbD 0 } }
  | 0x014 => s.setParam { s.csr with srcAddrLo := v }
  | 0x018 => s.setParam { s.csr with srcAddrHi := v }
  | 0x01C => s.setParam { s.csr with srcSize := v }
  | 0x020 => s.setParam { s.csr with dstAddrLo := v }
  | 0x024 => s.setParam { s.csr with dstAddrHi := v }
  | 0x028 => s.setParam { s.csr with dstSize := v }
  | _ => s

/-- CMD's offset (R42). -/
abbrev cmdOffset : Nat := 0x004

/-- Only a naturally aligned 32-bit access is defined (R55, U1). -/
def csrAligned (off : BitVec 12) (width : Nat) : Bool := width == 4 && off.toNat % 4 == 0

/-- HOST notes what a read returned. -/
def State.observe (s : State) (o : Observation) : State :=
  { s with host := { s.host with log := o :: s.host.log } }

/-! ## Host memory as HOST sees it -/

/-- The source range in use: the running ENCODE's, or that of the session that runs or is paused
(R106, R116). -/
def State.activeSrc (s : State) : Region :=
  match s.seq with
  | .enc _ => s.csrSrc
  | .dec _ => s.sessionSrc
  | .rest => if s.dec.valid then s.sessionSrc else { base := 0, size := 0 }

/-- Whether a one-byte access lies on a device (R104). -/
def State.onDevice (s : State) (a : Addr) : Bool := s.platform.onDevice { base := a.toNat, size := 1 }

/-- Whether a HOST store breaks R116 for the source in use: any store during BUSY, and one that changes the
byte while a session is paused (U5). -/
def State.storeRaces (s : State) (a : Addr) (b : Byte) : Bool :=
  s.activeSrc.has a.toNat && (decide s.isBusy || s.mem.read a != b)

/-- A HOST store. A byte it must not write, of the source in use or of the destination during BUSY, is raced
for (R116). HOST's addresses are the ones CORE uses (R109; DESIGN CHOICE, log entry 30). -/
def State.hostStore (s : State) (a : Addr) (b : Byte) : State :=
  { s with
    mem := s.mem.write a b
    racedSrc := if s.storeRaces a b then a.toNat :: s.racedSrc else s.racedSrc
    racedDst := if s.isBusy ∧ s.dstRange.has a.toNat then a.toNat :: s.racedDst else s.racedDst }

/-- What a HOST load returns: any value in the destination range during BUSY (R116), else the byte CORE has at the
same address (R109; DESIGN CHOICE, log entry 30). -/
def State.hostLoad (s : State) (a : Addr) : Byte :=
  if s.isBusy ∧ s.dstRange.has a.toNat then Config.racedRead s.draws a.toNat else s.mem.read a

/-! ## Reset -/

/-- `rst`, asserted and released in one step (log entry 29; R620 to R622): every item at its reset value, host memory kept; a running command's destination
bytes have any value (R621). HOST's own program, the platform and the choice of front end are not the
block's state. -/
def State.rst (s : State) : State :=
  { State.reset with
    mem := if s.isBusy then s.mem.havoc s.csr.dstAddr s.csr.dstSize.toNat s.draws else s.mem
    host := s.host, turns := s.turns, platform := s.platform, frontEnd := s.frontEnd, draws := s.draws }

/-! ## The host program (R142) -/

/-- `W <REG>, <imm32>`. -/
def HostOp.w (off : BitVec 12) (v : Word) : HostOp := .csrWrite off 4 v

/-- `R <REG>`. -/
def HostOp.r (off : BitVec 12) : HostOp := .csrRead off 4

/-- `CMD <mnemonic>`: `W CMD, <OPCODE>`. -/
def HostOp.cmd (i : Instr) : HostOp := .w 0x004 (BitVec.ofNat 32 (Sys2Proof.encode i).bits)

/-- `SRC <addr64>, <size>`. -/
def HostOp.src (a : Addr) (size : Word) : List HostOp :=
  [.w 0x014 (a.extractLsb' 0 32), .w 0x018 (a.extractLsb' 32 32), .w 0x01C size]

/-- `DST <addr64>, <size>`. -/
def HostOp.dst (a : Addr) (size : Word) : List HostOp :=
  [.w 0x020 (a.extractLsb' 0 32), .w 0x024 (a.extractLsb' 32 32), .w 0x028 size]

end Sys2Proof.Machine
end

