-- ==== Sys2Proof/Machine/Fetch.lean ====
section
/-! DEFINITION. HOST's turn, whose turn it is, and the placing of an instruction where its kind is fetched
(R10). -/

namespace Sys2Proof.Machine

/-- One HOST action (R142, R550). A CMD write is a command issue. -/
def hostAct (op : HostOp) (s : State) : Fetched :=
  match op with
  | .csrWrite off width v =>
    if !csrAligned off width then .result (.refused .csrAccess)
    else if off.toNat = cmdOffset then .instr (decodeCommand v) s
    else .result (.next (s.writeCsr off.toNat v))
  | .csrRead off width =>
    if !csrAligned off width then .result (.refused .csrAccess)
    else .result (.next (s.observe (.csr (s.readCsr off.toNat))))
  | .poll =>
    let t := s.observe (.csr s.statusWord)
    .result (.next (if s.isBusy then { t with host := { t.host with queue := .poll :: t.host.queue } } else t))
  | .memWrite a b =>
    if s.platform.window.has a.toNat then .result (.refused .csrAccess)
    else if s.onDevice a then .result (.refused .deviceBuffer)
    else .result (.next (s.hostStore a b))
  | .memRead a =>
    if s.platform.window.has a.toNat then .result (.refused .csrAccess)
    else if s.onDevice a then .result (.refused .deviceBuffer)
    else .result (.next (s.observe (.mem (s.hostLoad a))))
  | .reset => .result (.next s.rst)

/-- HOST's turn: its next action, if it has one. -/
def hostTurn (s : State) : Fetched :=
  match s.host.queue with
  | [] => .result (.next s)
  | op :: rest => hostAct op { s with host := { s.host with queue := rest } }

/-- The turn of the agent that moves next. -/
def fetch (s : State) : Fetched :=
  match s.mover with
  | .core => coreTurn s.beginTurn
  | .host => hostTurn s.beginTurn

/-! ## Placing an instruction where it is fetched -/

/-- CORE is in a running decode. -/
def State.coreNext (s : State) (st : DecStage) : State :=
  { s with csr := { s.csr with state := .busy }, seq := .dec st, turns := .core :: s.turns }

/-- A command word stands in HOST's next action, a CMD write, and HOST moves. -/
def State.placeCommand (s : State) (w : Nat) : State :=
  { s with
    host := { s.host with queue := .csrWrite 0x004 4 (BitVec.ofNat 32 w) :: s.host.queue }
    turns := .host :: s.turns }

/-- The longest header: what stands behind a placed magic is zero that far (R156). -/
abbrev placedBytes : Nat := 772

/-- A magic stands at the session's source position, zeros behind it, and CORE is at that block start. -/
def State.placeBlock (s : State) (w : Nat) : State :=
  ({ s with
      dec := { s.dec with
        phase := .atBlockStart, srcSize := max s.dec.srcSize (s.dec.srcPos + placedBytes) }
      mem := (s.mem.clear (s.dec.srcAddr + BitVec.ofNat 64 s.dec.srcPos) placedBytes).writeBytes
        (s.dec.srcAddr + BitVec.ofNat 64 s.dec.srcPos) (leBytes w 4)
      racedSrc := [] } : State).coreNext .run

/-- A code word stands in the forward reader's accumulator, zeros above it, with values still to read. -/
def State.placeFreq (s : State) (w : Nat) : State :=
  ({ s with
      work := { s.work with
        fr := { s.work.fr with acc := BitVec.ofNat 32 w, n := 32 }
        freqVals := s.work.freqVals.take (Config.freqCount - 1) } } : State).coreNext .freqCode

end Sys2Proof.Machine
end

