-- ==== Sys2Proof/Machine/Step.lean ====
section
/-! DEFINITION. One step of the machine: the turn of HOST or of CORE (Fetch.lean), with the instruction it
fetches executed (Dispatch.lean). -/

namespace Sys2Proof.Machine

/-- One step. -/
def step (s : State) : Host.Outcome State Fault Refusal := (fetch s).run

/-- `s` with the instruction of an opcode-table word placed where the next step fetches it: a command in
HOST's next CMD write, a magic at the session's source position, a frequency word in the forward reader. -/
def State.withFetchWord (s : State) (nbits w : Nat) : State :=
  match tableSpace nbits w with
  | .command => s.placeCommand w
  | .block => s.placeBlock w
  | .freqCode => s.placeFreq w

end Sys2Proof.Machine
end

