-- ==== Sys2Proof/Safety.lean ====
section
/-! DEFINITION. The terms claims are stated in: runs, the invariants of a state, and the meaning of streams and
triplets that the serializers are held against. -/

namespace Sys2Proof.Machine

/-! ## Runs -/

/-- `k` steps, stopping at the first fault or refusal. -/
def State.runSteps : Nat → State → Result
  | 0, s => .next s
  | k + 1, s =>
    match step s with
    | .next t => State.runSteps k t
    | .fault f => .fault f
    | .refused r => .refused r

/-- A run that does not stop in a fault. -/
def State.safe (k : Nat) (s : State) : Prop := ∀ f, s.runSteps k ≠ .fault f

/-- CORE rests and no agent's turn is set: the next CORE steps follow a command that HOST issues. -/
abbrev State.ready (s : State) : Prop := ¬ s.isBusy ∧ s.turns = []

/-- The buffers of an ENCODE or DECODE are ones the spec allows: sizes (R47, R49), no device (R104), no
overlap (R115). -/
abbrev State.buffersOk (s : State) : Prop :=
  s.csr.srcOk = true ∧ s.csr.dstOk = true ∧ s.bufferRefusal s.csrSrc s.dstRange = none

/-! ## Invariants -/

/-- Phases a decode can be paused in (R460). -/
abbrev Phase.copying (p : Phase) : Prop := p = .inUncompressedCopy ∨ p = .inDelegatedCopy ∨ p = .inLmdStream

/-- The phase each stage of a running decode is in (R440, R444). -/
def DecStage.phaseOk : DecStage → Phase → Prop
  | .run, p => p = .atBlockStart ∨ p.copying
  | .freqCode, p => p = .atBlockStart
  | .blockStart, p => p = .atBlockStart
  | .literals, p => p = .inLiteralStream
  | .triplets, p => p = .inLmdStream

/-- STATUS agrees with what CORE does (R43, R54, R431, R460, R550). -/
structure State.StatusOk (s : State) : Prop where
  /-- BUSY exactly while a command runs. -/
  busy : s.isBusy ↔ s.seq ≠ .rest
  /-- ERR_CODE is 0 unless STATE = ERROR, and ERROR has a code. -/
  code : s.csr.state = .error ↔ s.csr.errCode ≠ .none
  /-- A running decode's stage and phase belong together. -/
  stage : ∀ st, s.seq = .dec st → st.phaseOk s.dec.phase
  /-- ENCODE has discarded any paused session. -/
  encoding : ∀ st, s.seq = .enc st → s.dec.valid = false
  /-- A session that does not run is paused in a copy or replay phase. -/
  paused : ¬ s.isBusy → s.dec.valid = true → s.dec.phase.copying
  /-- DST_FULL is shown only of a paused session, with its phase. -/
  full : s.csr.state = .dstFull → s.dec.valid = true ∧ s.csr.decPhase = s.dec.phase

/-- The history window holds the last `min(out_total, HIST_WINDOW)` output bytes (R108). -/
abbrev State.HistoryOk (s : State) : Prop :=
  s.dec.histWin.length = min s.dec.outTotal Config.histWindow

/-- The bytes HOST raced for lie in the running command's destination (R116). -/
structure State.RacesOk (s : State) : Prop where
  inRange : ∀ a ∈ s.racedDst, s.dstRange.has a = true
  resting : ¬ s.isBusy → s.racedDst = []

/-- The destination of a running command, and a running decode's cursor in it (R32, R49, R106). -/
structure State.DestOk (s : State) : Prop where
  range : s.isBusy → s.csr.dstOk = true
  cursor : s.isBusy → ∀ st, s.seq = .dec st → s.work.dstPos ≤ s.csr.dstSize.toNat

/-- The source cursor and the block's end stay inside the session's source, and while a block is decoded,
copied or replayed the cursor stays at its start (R32, R432). -/
structure State.SourceOk (s : State) : Prop where
  size : s.dec.srcSize ≤ Config.maxBuf
  cursor : s.dec.srcPos ≤ s.dec.srcSize
  block : s.dec.phase.copying ∨ s.dec.phase = .inLiteralStream →
    s.dec.srcPos = s.dec.blkStart ∧ s.dec.srcPos + 4 ≤ s.dec.blkEnd ∧ s.dec.blkEnd ≤ s.dec.srcSize
  header : s.seq = .dec .freqCode ∨ s.seq = .dec .blockStart →
    s.dec.blkStart = s.dec.srcPos ∧ 32 ≤ s.dec.hdr.hdrSize
      ∧ s.dec.hdr.nPayload = s.dec.hdr.nLitPayload + s.dec.hdr.nLmdPayload

/-- The open block of an ENCODE stays within its capacity (R61, R510). -/
structure State.BlockOk (s : State) : Prop where
  matches' : s.enc.tL.length ≤ Config.matchesPerBlock
  sameM : s.enc.tM.length = s.enc.tL.length
  sameD : s.enc.tD.length = s.enc.tL.length
  literals : s.enc.litBuf.length ≤ Config.literalsPerBlock

/-! ## Streams as numbers (R205, R213) -/

/-- The bits a writer has taken so far, as one number, the first bit lowest. -/
def BitWriter.value (w : BitWriter) : Nat := le w.out + w.accum.toNat * 256 ^ w.out.length

/-- How many bits a writer has taken so far. -/
def BitWriter.count (w : BitWriter) : Nat := 8 * w.out.length + w.nbits

/-- R62: the accumulator's unused high bits are zero. -/
abbrev BitWriter.ok (w : BitWriter) : Prop := w.accum.toNat < 2 ^ w.nbits ∧ w.nbits ≤ 64

/-- The bits a reader has still to give, as one number. -/
def BackReader.value (rd : Nat → Byte) (r : BackReader) : Nat :=
  le (bytesAt rd r.start (r.pos - r.start)) + r.accum.toNat * 256 ^ (r.pos - r.start)

/-- How many bits a reader has still to give. -/
def BackReader.count (r : BackReader) : Nat := 8 * (r.pos - r.start) + r.nbits

/-- R62 for a reader; R210 and R211 keep at most 63 bits loaded. -/
abbrev BackReader.ok (r : BackReader) : Prop :=
  r.accum.toNat < 2 ^ r.nbits ∧ r.nbits ≤ 63 ∧ r.start ≤ r.pos

/-! ## What triplets and payloads mean -/

/-- The M bytes of a match at distance D, appended to an output held newest byte first (R311). -/
def copyMatch (D : Nat) : Nat → List Byte → List Byte
  | 0, out => out
  | m + 1, out => copyMatch D m (out.getD (D - 1) 0 :: out)

/-- The output, newest byte first, after a list of triplets over a literal sequence (R311). -/
def expandTriplets : List Triplet → List Byte → List Byte → List Byte
  | [], _, out => out
  | t :: ts, lits, out =>
    expandTriplets ts (lits.drop t.L) (copyMatch t.D t.M ((lits.take t.L).reverse ++ out))

/-- The distances a decoder resolves from coded ones (R320). -/
def resolveAll : Nat → List Nat → List Nat
  | _, [] => []
  | cur, dv :: dvs => resolveDistance cur dv :: resolveAll (resolveDistance cur dv) dvs

/-- Four literals of one group. -/
structure LitGroup where
  a : Byte
  b : Byte
  c : Byte
  d : Byte
deriving DecidableEq, Repr

/-- A group's literals in order. -/
def LitGroup.bytes (g : LitGroup) : List Byte := [g.a, g.b, g.c, g.d]

/-- ENCODE_LITERALS' loop over all groups, last to first, from state 0 (R330). -/
def encodeGroups (et : List (Option EncEntry)) : List LitGroup → Except Halt (Lanes × BitWriter)
  | [] => .ok (.zero, .init)
  | g :: gs =>
    match encodeGroups et gs with
    | .ok (st, w) => encodeLitGroup et g.a g.b g.c g.d st w
    | .error h => .error h

/-- DECODE_LITERALS' loop for n groups (R331). -/
def decodeGroups (dt : List DecEntry) (rd : Nat → Byte) :
    Nat → Lanes → BackReader → Except Halt (List Byte)
  | 0, _, _ => .ok []
  | n + 1, st, r =>
    match decodeLitGroup dt rd st r with
    | .error h => .error h
    | .ok (bs, st', r') =>
      match decodeGroups dt rd n st' r' with
      | .ok rest => .ok (bs ++ rest)
      | .error h => .error h

/-- ENCODE_LMD's loop over triplets and their coded distances, last to first, from states 0 (R340). -/
def encodeTriplets (et : LmdEncTables) : List Triplet → List Nat → Except Halt (LmdStates × BitWriter)
  | t :: ts, dv :: dvs =>
    match encodeTriplets et ts dvs with
    | .ok (st, w) => encodeTriplet et t.L t.M dv st w
    | .error h => .error h
  | _, _ => .ok ({ l := 0, m := 0, d := 0 }, .init)

/-- DECODE_TRIPLET n times, from `D_cur` on (R341, R444). -/
def decodeTriplets (dt : LmdDecTables) (rd : Nat → Byte) :
    Nat → LmdStates → Nat → BackReader → Except Halt (List Triplet)
  | 0, _, _, _ => .ok []
  | n + 1, st, dCur, r =>
    match decodeTriplet dt rd st dCur r with
    | .error h => .error h
    | .ok (t, st', r') =>
      match decodeTriplets dt rd n st' t.D r' with
      | .ok rest => .ok (t :: rest)
      | .error h => .error h

/-- Frequencies of the three LMD streams that pass R250's count and sum. -/
structure LmdFreqs where
  l : List Nat
  m : List Nat
  d : List Nat
deriving DecidableEq, Repr

/-- The tables have their streams' symbols and states (R170, R250). -/
abbrev LmdFreqs.ok (f : LmdFreqs) : Prop :=
  f.l.length = 20 ∧ f.l.sum = 64 ∧ f.m.length = 20 ∧ f.m.sum = 64 ∧ f.d.length = 64 ∧ f.d.sum = 256

/-- The encode tables of the three streams (R260). -/
def LmdFreqs.enc (f : LmdFreqs) : LmdEncTables :=
  { l := buildEncodeTable 64 0 f.l, m := buildEncodeTable 64 0 f.m, d := buildEncodeTable 256 0 f.d }

/-- The decode tables of the three streams (R444). -/
def LmdFreqs.dec (f : LmdFreqs) : LmdDecTables :=
  { l := buildValueTable 64 symL f.l, m := buildValueTable 64 symM f.m, d := buildValueTable 256 symD f.d }

/-- Each state lies in its stream's range (R63). -/
abbrev LmdStates.ok (st : LmdStates) : Prop := st.l < 64 ∧ st.m < 64 ∧ st.d < 256

/-- DECODE_FREQ_CODE's loop for n values (R384). -/
def readFreqs (rd : Nat → Byte) (stop : Nat) : Nat → FwdReader → Except Halt (List Nat × FwdReader)
  | 0, fr => .ok ([], fr)
  | n + 1, fr =>
    let f := fr.peekfill rd stop
    match f.take (decodeFreqWord f.acc.toNat).1 with
    | .error h => .error h
    | .ok f' =>
      match readFreqs rd stop n f' with
      | .ok (vs, f'') => .ok ((decodeFreqWord f.acc.toNat).2 :: vs, f'')
      | .error h => .error h

/-- The frequency value a code word stands for (R160). -/
def freqValue : Instr → Nat
  | .freq0 => 0
  | .freq1 => 1
  | .freq2 => 2
  | .freq3 => 3
  | .freq4 => 4
  | .freq5 => 5
  | .freq6 => 6
  | .freq7 => 7
  | .freq8to23 v => v
  | .freq24to1047 v => v
  | _ => 0

end Sys2Proof.Machine
end

