-- ==== Sys2Proof/Certificates/Slice0/Obligations.lean ====
section
/-! DEFINITION. The statements for the provers, in the order of OBLIGATIONS.json. -/

open Sys2Proof Sys2Proof.Machine

/-! ## Encodings -/

/-- Words written out from the tables of R140, R150 and R160 decode to the rows they stand for. -/
def Obligations.TableWordsDecode : Prop :=
  decode .command [0x01, 0, 0, 0] = .ok .encode
  ∧ decode .command [0x14, 0, 0, 0] = .ok .abort
  ∧ decode .command [0xF7, 0xFF, 0xFF, 0xFF] = .ok .reserved7
  ∧ decode .block [0x62, 0x76, 0x78, 0x24] = .ok .blockEos
  ∧ decode .block [0x62, 0x76, 0x78, 0x2D] = .ok .blockRaw
  ∧ decode .block [0x62, 0x76, 0x78, 0x31] = .ok .blockV1
  ∧ decode .block [0x62, 0x76, 0x78, 0x32] = .ok .blockV2
  ∧ decode .block [0x62, 0x76, 0x78, 0x6E] = .ok .blockLzvn
  ∧ decode .freqCode [0b00000010] = .ok .freq1
  ∧ decode .freqCode [0b00001011] = .ok .freq5
  ∧ decode .freqCode [0b11110111] = .ok (.freq8to23 23)
  ∧ decode .freqCode [0b10001111, 0b00111110] = .ok (.freq24to1047 1024)

/-- Decoding an encoded well-formed instruction gives it back, whatever the ignored bits of a command word
are (R140), whatever follows a magic (R150) and whatever code bits follow a code word (R160). -/
def Obligations.DecodingInvertsEncoding : Prop :=
  ∀ i : Instr, i.wf = true →
    (i.space = .command → ∀ hi : Nat, decode .command (leBytes ((encode i).bits + 16 * hi) 4) = .ok i)
    ∧ (i.space = .block → ∀ tail : List Byte, decode .block (leBytes (encode i).bits 4 ++ tail) = .ok i)
    ∧ (i.space = .freqCode → ∀ rest : Nat,
        decodeFreq ((encode i).bits + rest * 2 ^ (encode i).nbits) = i
        ∧ (decodeFreqWord ((encode i).bits + rest * 2 ^ (encode i).nbits)).1 = (encode i).nbits)

/-- R160: the code is complete, every bitstring of 14 or more bits begins with exactly one code word. -/
def Obligations.FrequencyCodeIsComplete : Prop :=
  ∀ acc : Nat,
    (decodeFreq acc).wf = true ∧ (decodeFreq acc).space = .freqCode
    ∧ acc % 2 ^ (encode (decodeFreq acc)).nbits = (encode (decodeFreq acc)).bits
    ∧ ∀ i : Instr, i.wf = true → i.space = .freqCode →
        acc % 2 ^ (encode i).nbits = (encode i).bits → i = decodeFreq acc

/-- R360, R151: at a block start with fewer than 4 bytes left the command ends with SRC_EXHAUSTED, and with a
magic that is none of the five it ends with BAD_MAGIC. -/
def Obligations.BadBlockStartsEndTheCommand : Prop :=
  ∀ s : State, s.mover = .core → s.isBusy → s.seq = .dec .run → s.dec.phase = .atBlockStart →
    let t := { s.beginTurn with dec := { s.dec with blkStart := s.dec.srcPos } }
    (s.avail < 4 → step s = .next (t.raiseErr .srcExhausted))
    ∧ (4 ≤ s.avail →
        (∀ i : Instr, i.space = .block → rdU32 t.blkByte 0 ≠ (encode i).bits) →
        step s = .next (t.raiseErr .badMagic))

/-! ## The step -/

/-- A step executes the instruction that stands where its kind is fetched: a command in HOST's CMD write
(R550), a magic at the block start (R360), a code word in the forward reader (R384). Whose turn it is, that a
step is one of these, and what `beginTurn` counts and records before it is the model's choice (log entries 1, 2,
7 and 10). -/
def Obligations.StepRunsTheFetchedInstruction : Prop :=
  (∀ (s : State) (v : Word) (rest : List HostOp),
    s.mover = .host → s.host.queue = .csrWrite 0x004 4 v :: rest →
    step s = exec (decodeCommand v) { s.beginTurn with host := { s.host with queue := rest } })
  ∧ (∀ (s : State) (i : Instr),
    s.mover = .core → s.isBusy → s.seq = .dec .run → s.dec.phase = .atBlockStart →
    let t := { s.beginTurn with dec := { s.dec with blkStart := s.dec.srcPos } }
    decode .block (bytesAt t.blkByte 0 (min t.avail 4)) = .ok i → step s = exec i t)
  ∧ (∀ s : State, s.mover = .core → s.isBusy → s.seq = .dec .freqCode →
    s.work.freqVals.length < Config.freqCount →
    let fr := s.work.fr.peekfill s.beginTurn.decByte s.litStart
    step s = exec (decodeFreq fr.acc.toNat) { s.beginTurn with work := { s.beginTurn.work with fr := fr } })

/-! ## Registers -/

/-- R620: what reset leaves in every register and item it lists. -/
def Obligations.ResetValues : Prop :=
  let s := State.reset
  s.readCsr 0x000 = 0x1F5E0007 ∧ s.readCsr 0x008 = 0 ∧ s.readCsr 0x00C = 0 ∧ s.readCsr 0x010 = 0
  ∧ s.csr.state = .idle ∧ s.csr.errCode = .none ∧ s.csr.decPhase = .atBlockStart
  ∧ s.csr.irqEn = false ∧ s.csr.cmdDone = false
  ∧ s.csr.srcAddr = 0 ∧ s.csr.srcSize = 0 ∧ s.csr.dstAddr = 0 ∧ s.csr.dstSize = 0
  ∧ s.csr.result = 0 ∧ s.csr.errInfo = 0 ∧ s.readCsr 0x034 = 0 ∧ s.readCsr 0x038 = 0
  ∧ s.csr.outTotal = 0 ∧ s.csr.srcPos = 0
  ∧ s.dec.valid = false ∧ s.dec.phase = .atBlockStart ∧ s.dec.outTotal = 0 ∧ s.dec.srcPos = 0
  ∧ s.dec.histWin = [] ∧ s.irq = false

/-- The CSR window as R40 to R53 lay it out: what a read of each offset returns, STATUS with its fields where
R43 puts them, and 0 where no register stands. While BUSY, DEC_PHASE shows a phase the command passes through
(R463), as `commandPhases` works them out, and 0 during an ENCODE (the model's reading, log entry 7). -/
def Obligations.CsrWindowReads : Prop :=
  ∀ s : State,
    s.readCsr 0x000 = 0x1F5E0007 ∧ s.readCsr 0x004 = 0
    ∧ s.readCsr 0x008 = (if s.csr.irqEn then 1 else 0)
    ∧ ((s.readCsr 0x00C).extractLsb' 0 3).toNat = s.csr.state.code
    ∧ (s.readCsr 0x00C).extractLsb' 3 5 = 0
    ∧ ((s.readCsr 0x00C).extractLsb' 8 8).toNat = s.csr.errCode.code
    ∧ (¬ s.isBusy → ((s.readCsr 0x00C).extractLsb' 16 3).toNat = s.csr.decPhase.code)
    ∧ (s.isBusy → ∃ p ∈ s.commandPhases, ((s.readCsr 0x00C).extractLsb' 16 3).toNat = p.code)
    ∧ (∀ st, s.isBusy → s.seq = .enc st → (s.readCsr 0x00C).extractLsb' 16 3 = 0)
    ∧ (s.readCsr 0x00C).extractLsb' 19 13 = 0
    ∧ s.readCsr 0x010 = (if s.csr.cmdDone then 1 else 0)
    ∧ s.readCsr 0x014 = s.csr.srcAddrLo ∧ s.readCsr 0x018 = s.csr.srcAddrHi
    ∧ s.readCsr 0x01C = s.csr.srcSize
    ∧ s.readCsr 0x020 = s.csr.dstAddrLo ∧ s.readCsr 0x024 = s.csr.dstAddrHi
    ∧ s.readCsr 0x028 = s.csr.dstSize ∧ s.readCsr 0x02C = s.csr.result ∧ s.readCsr 0x030 = s.csr.errInfo
    ∧ s.readCsr 0x034 = 0 ∧ s.readCsr 0x038 = 0
    ∧ s.readCsr 0x040 ++ s.readCsr 0x03C = s.csr.outTotal ∧ s.readCsr 0x044 = s.csr.srcPos
    ∧ ∀ off : Nat, 0x044 < off → s.readCsr off = 0

/-- R554: a HOST read of any register returns what the window shows and changes no state of the block; only HOST's
own record of it and the model's turn and draw counters (the model's choice, log entries 2 and 10) move. -/
def Obligations.CsrReadsHaveNoSideEffects : Prop :=
  ∀ (s : State) (off : BitVec 12) (rest : List HostOp),
    s.mover = .host → s.host.queue = .csrRead off 4 :: rest → off.toNat % 4 = 0 →
    step s = .next { s with
      host := { queue := rest, log := .csr (s.beginTurn.readCsr off.toNat) :: s.host.log }
      turns := s.turns.tail, draws := s.draws + 1 }

/-- R55: a CSR access that is not a naturally aligned 32-bit one is refused. -/
def Obligations.OtherCsrAccessesAreRefused : Prop :=
  ∀ (s : State) (off : BitVec 12) (width : Nat) (v : Word) (rest : List HostOp),
    s.mover = .host → (width ≠ 4 ∨ off.toNat % 4 ≠ 0) →
    (s.host.queue = .csrWrite off width v :: rest → step s = .refused .csrAccess)
    ∧ (s.host.queue = .csrRead off width :: rest → step s = .refused .csrAccess)

/-- R56: while BUSY a write to a parameter register or to CMD is ignored; CTRL and IRQ_STATUS writes take
effect. -/
def Obligations.BusyIgnoresParameterAndCommandWrites : Prop :=
  ∀ (s : State) (off : BitVec 12) (v : Word) (rest : List HostOp),
    s.mover = .host → s.isBusy → s.host.queue = .csrWrite off 4 v :: rest → off.toNat % 4 = 0 →
    let t := { s.beginTurn with host := { s.host with queue := rest } }
    (off.toNat = 0x004 ∨ (0x014 ≤ off.toNat ∧ off.toNat ≤ 0x028) → step s = .next t)
    ∧ (off.toNat = 0x008 →
        step s = .next { t with csr := { s.csr with irqEn := v.getLsbD 0 } })
    ∧ (off.toNat = 0x010 →
        step s = .next { t with csr := { s.csr with cmdDone := s.csr.cmdDone && !v.getLsbD 0 } })

/-- R44 to R49: while STATE is not BUSY a write stores all 32 bits of a parameter register, bit 0 of CTRL, and
clears CMD_DONE where it writes 1 to bit 0, whatever its other bits; a write to a read-only register or to an
offset with none is ignored. HOST's write to any offset but CMD's is the step that does this; what `beginTurn`
counts before it is the model's (log entries 2 and 10). -/
def Obligations.CsrWritesStore : Prop :=
  ∀ (s : State) (v : Word), ¬ s.isBusy →
    s.writeCsr 0x014 v = { s with csr := { s.csr with srcAddrLo := v } }
    ∧ s.writeCsr 0x018 v = { s with csr := { s.csr with srcAddrHi := v } }
    ∧ s.writeCsr 0x01C v = { s with csr := { s.csr with srcSize := v } }
    ∧ s.writeCsr 0x020 v = { s with csr := { s.csr with dstAddrLo := v } }
    ∧ s.writeCsr 0x024 v = { s with csr := { s.csr with dstAddrHi := v } }
    ∧ s.writeCsr 0x028 v = { s with csr := { s.csr with dstSize := v } }
    ∧ s.writeCsr 0x008 v = { s with csr := { s.csr with irqEn := v.getLsbD 0 } }
    ∧ s.writeCsr 0x010 v = { s with csr := { s.csr with cmdDone := s.csr.cmdDone && !v.getLsbD 0 } }
    ∧ s.writeCsr 0x000 v = s ∧ s.writeCsr 0x00C v = s
    ∧ (∀ off : Nat, 0x028 < off → s.writeCsr off v = s)
    ∧ ∀ (off : BitVec 12) (rest : List HostOp),
        s.mover = .host → s.host.queue = .csrWrite off 4 v :: rest → off.toNat % 4 = 0 → off.toNat ≠ 0x004 →
        step s = .next (({ s.beginTurn with host := { s.host with queue := rest } } : State).writeCsr off.toNat v)

/-- R580: `irq = CTRL.IRQ_EN AND IRQ_STATUS.CMD_DONE`; masking keeps CMD_DONE, and a write of 1 to IRQ_STATUS
bit 0 makes `irq` fall. -/
def Obligations.InterruptFollowsEnableAndDone : Prop :=
  ∀ (s : State) (v : Word),
    (s.irq = true ↔ s.csr.irqEn = true ∧ s.csr.cmdDone = true)
    ∧ (s.writeCsr 0x008 v).csr.cmdDone = s.csr.cmdDone
    ∧ ((s.writeCsr 0x008 v).irq = (v.getLsbD 0 && s.csr.cmdDone))
    ∧ (v.getLsbD 0 = true → (s.writeCsr 0x010 v).irq = false)

/-! ## Commands -/

/-- R552: NOP's whole effect. -/
def Obligations.NopOnlyReportsDone : Prop :=
  ∀ s : State, ¬ s.isBusy →
    exec .nop s = .next { s with
      csr := { s.csr with state := .done, errCode := .none, decPhase := .atBlockStart, cmdDone := true }
      seq := .rest }

/-- R553: ABORT's whole effect, that a DECODE_RESUME after it is an illegal command, and that an ABORT while BUSY is
ignored. -/
def Obligations.AbortEndsThePausedSession : Prop :=
  ∀ s : State,
    (s.isBusy → exec .abort s = .next s)
    ∧ (¬ s.isBusy → ∃ t : State, exec .abort s = .next t
    ∧ t = { s with
        csr := { s.csr with state := .idle, errCode := .none, decPhase := .atBlockStart, cmdDone := true,
                            outTotal := 0, srcPos := 0 }
        seq := .rest
        dec := { s.dec with valid := false, phase := .atBlockStart, outTotal := 0, srcPos := 0, histWin := [] } }
    ∧ exec .decodeResume t = .next (t.cmdErr .illegalCommand))

/-- R141: a reserved OPCODE issued while STATE is not BUSY raises ILLEGAL_COMMAND and changes nothing else: no
host memory, no session. -/
def Obligations.ReservedOpcodesAreIllegal : Prop :=
  ∀ (i : Instr) (s : State), i.space = .command → 5 ≤ (encode i).bits → ¬ s.isBusy →
    exec i s = .next { s with
      csr := { s.csr with state := .error, errCode := .illegalCommand, decPhase := .atBlockStart,
                          cmdDone := true, result := 0, errInfo := 0 }
      seq := .rest }

/-- R47, R49, R574: ENCODE and DECODE with a size above MAX_BUF or a range past 2^64, and DECODE_RESUME with
such a destination, end with SIZE_LIMIT and change nothing but the result registers. R104, R115: on sizes the spec
allows, a buffer that shares a byte with a device or with the CSR window (the model's reading, log entry 6), and then
a source that shares a byte with the destination, is refused; the source is the one SRC_ADDR and SRC_SIZE give, and
for DECODE_RESUME the session's. That the refusal comes at the command's start and after SIZE_LIMIT is the model's
choice (log entry 23), and so is that buffers and devices stand in one address space (log entry 30). -/
def Obligations.BadBuffersAreRejectedOrRefused : Prop :=
  ∀ s : State, ¬ s.isBusy →
    let share (r q : Region) : Prop := ∃ x, r.has x = true ∧ q.has x = true
    let onDevice (r : Region) : Prop := ∃ d, (d = s.platform.window ∨ d ∈ s.platform.devices) ∧ share d r
    let csrSrc : Region := { base := s.csr.srcAddr.toNat, size := s.csr.srcSize.toNat }
    let latched : Region := { base := s.dec.srcAddr.toNat, size := s.dec.srcSize }
    let dst : Region := { base := s.csr.dstAddr.toNat, size := s.csr.dstSize.toNat }
    let bad (size : Word) (addr : Addr) : Prop := 2147483647 < size.toNat ∨ 2 ^ 64 < addr.toNat + size.toNat
    let t := { s with
      csr := { s.csr with state := .error, errCode := .sizeLimit, decPhase := .atBlockStart,
                          cmdDone := true, result := 0, errInfo := 0 }
      seq := .rest }
    (bad s.csr.srcSize s.csr.srcAddr ∨ bad s.csr.dstSize s.csr.dstAddr →
      exec .encode s = .next t ∧ exec .decode s = .next t)
    ∧ (s.dec.valid = true → bad s.csr.dstSize s.csr.dstAddr → exec .decodeResume s = .next t)
    ∧ (¬ bad s.csr.srcSize s.csr.srcAddr → ¬ bad s.csr.dstSize s.csr.dstAddr →
      (onDevice csrSrc ∨ onDevice dst →
        exec .encode s = .refused .deviceBuffer ∧ exec .decode s = .refused .deviceBuffer)
      ∧ (¬ onDevice csrSrc → ¬ onDevice dst → share csrSrc dst →
        exec .encode s = .refused .bufferOverlap ∧ exec .decode s = .refused .bufferOverlap))
    ∧ (s.dec.valid = true → ¬ bad s.csr.dstSize s.csr.dstAddr →
      (onDevice latched ∨ onDevice dst → exec .decodeResume s = .refused .deviceBuffer)
      ∧ (¬ onDevice latched → ¬ onDevice dst → share latched dst →
        exec .decodeResume s = .refused .bufferOverlap))

/-- R430: DECODE on buffers the spec allows starts a session: the source is latched, the counters and the
history start empty, and CORE is BUSY at the first block start; registers, host memory and the encoder are as
before. The step ends where RUN begins (the model's choice, log entry 1), the working state but for dst_pos, which no
rule gives a value there, is empty (log entry 4), the session's other items keep their contents (log entry 25), and no
byte is raced for yet (log entry 10). -/
def Obligations.DecodeStartsASession : Prop :=
  ∀ s : State, ¬ s.isBusy → s.buffersOk →
    exec .decode s = .next { s with
      csr := { s.csr with state := .busy, errCode := .none }
      seq := .dec .run
      dec := { s.dec with
        valid := true, phase := .atBlockStart, srcAddr := s.csr.srcAddrHi ++ s.csr.srcAddrLo
        srcSize := s.csr.srcSize.toNat, srcPos := 0, outTotal := 0, histWin := [] }
      work := .empty, racedSrc := [], racedDst := [] }

/-- R431: DECODE_RESUME with no paused session is an illegal command; with one, and a destination the spec
allows, the session goes on unchanged with its destination cursor at 0, whatever SRC_ADDR and SRC_SIZE hold. The
step ends where RUN begins, BUSY (the model's choice, log entry 1), the rest of the working state holds nothing yet
(log entry 4), and no destination byte is raced for yet, while the notes on source bytes stay (log entry 10). -/
def Obligations.ResumeContinuesTheSession : Prop :=
  ∀ s : State, ¬ s.isBusy →
    (s.dec.valid = false → exec .decodeResume s = .next (s.cmdErr .illegalCommand))
    ∧ (s.dec.valid = true → s.csr.dstOk = true → s.bufferRefusal s.sessionSrc s.dstRange = none →
        exec .decodeResume s = .next { s with
          csr := { s.csr with state := .busy, errCode := .none }
          seq := .dec .run, work := .empty, racedDst := [] })

/-- R490: ENCODE on buffers the spec allows discards a paused session and is BUSY at the path choice; registers,
counters and host memory are as before. The step ends where ENC_OUT begins (the model's choice, log entry 1), the
working state, which R61 gives no value there, is empty (the model's choice, log entry 4), and no byte is raced for
yet (log entry 10). -/
def Obligations.EncodeStarts : Prop :=
  ∀ s : State, ¬ s.isBusy → s.buffersOk →
    exec .encode s = .next { s with
      csr := { s.csr with state := .busy, errCode := .none }
      seq := .enc .choose, dec := { s.dec with valid := false }
      enc := .empty, racedSrc := [], racedDst := [] }

/-- R492, R493, R494: an ENCODE of fewer than 4096 bytes into a destination with room runs to DONE in two CORE
steps. The destination then holds, for fewer than 8 bytes, the raw stream of the source; from 8 bytes on, the codec's
answer at cap n - 5 framed as a delegated block and end-of-stream, or the raw stream where the codec fails. RESULT is
the stream's length, and OUT_TOTAL and SRC_POS are as before. The count of steps and the empty working state at the
end are the model's (log entries 1 and 25); that an answer of a length R9 rules out counts as a failure is log entry
12. -/
def Obligations.ShortEncodeWritesItsStream : Prop :=
  ∀ s : State, s.ready → s.buffersOk → s.csr.srcSize.toNat < 4096 →
    let n := s.csr.srcSize.toNat
    let src := s.mem.readBytes s.csr.srcAddr n
    let raw := leBytes 0x2D787662 4 ++ leBytes n 4 ++ src ++ leBytes 0x24787662 4
    let stream :=
      if n < 8 then raw
      else match Config.delegateEncode src (n - 5) with
        | none => raw
        | some r =>
          leBytes 0x6E787662 4 ++ leBytes n 4 ++ leBytes r.length 4 ++ r ++ leBytes 0x24787662 4
    stream.length ≤ s.csr.dstSize.toNat →
    ∃ t u : State, exec .encode s = .next t ∧ t.runSteps 2 = .next u
      ∧ u.csr = { s.csr with
          state := .done, errCode := .none, decPhase := .atBlockStart, cmdDone := true
          result := BitVec.ofNat 32 stream.length }
      ∧ u.mem = s.mem.writeBytes s.csr.dstAddr stream
      ∧ u.seq = .rest ∧ u.enc = .empty ∧ u.dec = { s.dec with valid := false }

/-- R490, R540: an ENCODE whose stream is complete writes it to the destination where it fits and ends DONE with its
length in RESULT; one whose stream is longer than the destination ends with DST_EXHAUSTED and RESULT = 0, and leaves
every byte outside the destination range as it was. -/
def Obligations.EncodeWritesItsStreamIfItFits : Prop :=
  ∀ s : State, s.mover = .core → s.isBusy → s.seq = .enc .finish → s.csr.dstOk = true → s.racedDst = [] →
    (s.enc.out.length ≤ s.csr.dstSize.toNat →
      ∃ t : State, step s = .next t
        ∧ t.csr = { s.csr with
            state := .done, errCode := .none, decPhase := .atBlockStart, cmdDone := true
            result := BitVec.ofNat 32 s.enc.out.length }
        ∧ t.mem = s.mem.writeBytes s.csr.dstAddr s.enc.out ∧ t.dec = s.dec ∧ t.seq = .rest)
    ∧ (s.csr.dstSize.toNat < s.enc.out.length →
      ∃ t : State, step s = .next t
        ∧ t.csr = { s.csr with
            state := .error, errCode := .dstExhausted, decPhase := .atBlockStart, cmdDone := true
            result := 0, errInfo := 0 }
        ∧ t.dec = s.dec ∧ t.seq = .rest
        ∧ ∀ a : Addr, s.dstRange.has a.toNat = false → t.mem.read a = s.mem.read a)

/-! ## Blocks -/

/-- R450: an end-of-stream block consumes its 4 bytes and ends the command DONE with RESULT = dst_pos; the
session is over, ERR_INFO and host memory are unchanged (no destination byte having been raced for). That the
working state is empty afterwards is the model's choice (log entry 25). -/
def Obligations.EndOfStreamEndsTheDecode : Prop :=
  ∀ s : State, s.racedDst = [] →
    exec .blockEos s = .next { s with
      csr := { s.csr with
        state := .done, errCode := .none, decPhase := .done, cmdDone := true
        result := BitVec.ofNat 32 s.work.dstPos, outTotal := BitVec.ofNat 64 s.dec.outTotal
        srcPos := BitVec.ofNat 32 (s.dec.blkStart + 4) }
      dec := { s.dec with srcPos := s.dec.blkStart + 4, phase := .done, valid := false }
      seq := .rest, work := .empty, enc := .empty }

/-- R451, R390: an uncompressed block whose header and data are in the source starts the copy of its n bytes and
changes nothing else; one that is not whole raises SRC_EXHAUSTED. -/
def Obligations.RawBlockStartsItsCopy : Prop :=
  ∀ s : State,
    let n := rdU32 s.blkByte 4
    (8 ≤ s.avail → n ≤ s.avail - 8 → exec .blockRaw s = .next { s with
      dec := { s.dec with copyLeft := n, blkEnd := s.dec.blkStart + 8 + n, phase := .inUncompressedCopy }
      seq := .dec .run })
    ∧ (s.avail < 8 ∨ s.avail - 8 < n → exec .blockRaw s = .next (s.raiseErr .srcExhausted))

/-- R452, R371, R156: a plain header of 772 bytes is read field by field at its offsets; nothing but the header
record and the stage changes; a short source and a payload count that is not the sum raise their errors. -/
def Obligations.PlainHeaderIsParsed : Prop :=
  ∀ s : State,
    (s.avail < 772 → exec .blockV1 s = .next (s.raiseErr .srcExhausted))
    ∧ (772 ≤ s.avail → rdU32 s.blkByte 8 ≠ rdU32 s.blkByte 20 + rdU32 s.blkByte 24 →
        exec .blockV1 s = .next (s.raiseErr .badHeader))
    ∧ (772 ≤ s.avail → rdU32 s.blkByte 8 = rdU32 s.blkByte 20 + rdU32 s.blkByte 24 →
        exec .blockV1 s = .next { s with
          dec := { s.dec with hdr :=
            { nRaw := rdU32 s.blkByte 4, nPayload := rdU32 s.blkByte 8
              nLiterals := rdU32 s.blkByte 12, nMatches := rdU32 s.blkByte 16
              nLitPayload := rdU32 s.blkByte 20, nLmdPayload := rdU32 s.blkByte 24
              literalBits := (BitVec.ofNat 32 (rdU32 s.blkByte 28)).toInt
              lmdBits := (BitVec.ofNat 32 (rdU32 s.blkByte 40)).toInt
              litState0 := rdU16 s.blkByte 32, litState1 := rdU16 s.blkByte 34
              litState2 := rdU16 s.blkByte 36, litState3 := rdU16 s.blkByte 38
              lState := rdU16 s.blkByte 44, mState := rdU16 s.blkByte 46, dState := rdU16 s.blkByte 48
              lFreq := (List.range 20).map fun i => rdU16 s.blkByte (50 + 2 * i)
              mFreq := (List.range 20).map fun i => rdU16 s.blkByte (90 + 2 * i)
              dFreq := (List.range 64).map fun i => rdU16 s.blkByte (130 + 2 * i)
              litFreq := (List.range 256).map fun i => rdU16 s.blkByte (258 + 2 * i)
              hdrSize := 772 } }
          seq := .dec .blockStart })

/-- R453, R364, R157: the fixed part of a packed header is read bit field by bit field and its frequency code
comes next; nothing else changes; the three errors of the fixed part come in R364's order. -/
def Obligations.PackedHeaderIsParsed : Prop :=
  ∀ s : State,
    let w0 := rdU64 s.blkByte 8
    let w1 := rdU64 s.blkByte 16
    let w2 := rdU64 s.blkByte 24
    let hs := w2 % 2 ^ 32
    (s.avail < 32 → exec .blockV2 s = .next (s.raiseErr .srcExhausted))
    ∧ (32 ≤ s.avail → hs < 32 → exec .blockV2 s = .next (s.raiseErr .badHeader))
    ∧ (32 ≤ s.avail → 32 ≤ hs → s.avail < hs → exec .blockV2 s = .next (s.raiseErr .srcExhausted))
    ∧ (32 ≤ hs → hs ≤ s.avail → exec .blockV2 s = .next { s with
        dec := { s.dec with hdr :=
          { nRaw := rdU32 s.blkByte 4
            nPayload := w0 / 2 ^ 20 % 2 ^ 20 + w1 / 2 ^ 40 % 2 ^ 20
            nLiterals := w0 % 2 ^ 20, nMatches := w0 / 2 ^ 40 % 2 ^ 20
            nLitPayload := w0 / 2 ^ 20 % 2 ^ 20, nLmdPayload := w1 / 2 ^ 40 % 2 ^ 20
            literalBits := (w0 / 2 ^ 60 % 8 : Nat) - 7, lmdBits := (w1 / 2 ^ 60 % 8 : Nat) - 7
            litState0 := w1 % 2 ^ 10, litState1 := w1 / 2 ^ 10 % 2 ^ 10
            litState2 := w1 / 2 ^ 20 % 2 ^ 10, litState3 := w1 / 2 ^ 30 % 2 ^ 10
            lState := w2 / 2 ^ 32 % 2 ^ 10, mState := w2 / 2 ^ 42 % 2 ^ 10, dState := w2 / 2 ^ 52 % 2 ^ 10
            lFreq := [], mFreq := [], dFreq := [], litFreq := [], hdrSize := hs } }
        work := { s.work with
          fr := { acc := 0, n := 0, p := s.dec.blkStart + 32 }
          freqVals := if hs = 32 then List.replicate 360 0 else [] }
        seq := .dec .freqCode })

/-- R454, R391: a delegated block hands its payload and the history to the codec; the codec's bytes, if they are
exactly n_raw, are copied out next, any other answer raises DELEGATE_FAIL, and a block that is not whole raises
SRC_EXHAUSTED. That the codec gets the history with its oldest byte first is the model's reading (log entry 12). -/
def Obligations.DelegatedBlockAsksTheCodec : Prop :=
  ∀ s : State,
    let nRaw := rdU32 s.blkByte 4
    let nPay := rdU32 s.blkByte 8
    let answer := Config.delegateDecode s.dec.histWin.reverse (bytesAt s.blkByte 12 nPay) nRaw
    (s.avail < 12 ∨ s.avail - 12 < nPay → exec .blockLzvn s = .next (s.raiseErr .srcExhausted))
    ∧ (12 ≤ s.avail → nPay ≤ s.avail - 12 → exec .blockLzvn s = .next (
        match answer with
        | some r =>
          if r.length = nRaw then
            { s with
              dec := { s.dec with
                copyBuf := r, copyIdx := 0, blkEnd := s.dec.blkStart + 12 + nPay, phase := .inDelegatedCopy }
              seq := .dec .run }
          else s.raiseErr .delegateFail
        | none => s.raiseErr .delegateFail))

/-- R384, R160: a code word whose bits are all there appends its value and takes its bits, and changes nothing
else; one that is longer than the bits left raises BAD_HEADER. -/
def Obligations.CodeWordsAppendTheirValue : Prop :=
  ∀ (i : Instr) (s : State), i.wf = true → i.space = .freqCode →
    ((encode i).nbits ≤ s.work.fr.n → exec i s = .next { s with
      work := { s.work with
        fr := { s.work.fr with
          acc := s.work.fr.acc >>> (encode i).nbits, n := s.work.fr.n - (encode i).nbits }
        freqVals := s.work.freqVals ++ [freqValue i] } })
    ∧ (s.work.fr.n < (encode i).nbits → exec i s = .next (s.raiseErr .badHeader))

/-- R392, R250, R573: CHECK_HEADER accepts exactly the headers that pass its checks, a frequency table being one
of n counts of at most N that sum to N, and reports the first check that fails in its order. R444: the step after a
header is parsed raises what CHECK_HEADER raises, then what the literal reader over [a, b) raises; else it enters
IN_LITERAL_STREAM with each of the four tables built from its own frequencies, the four lanes at the header's literal
states and the block's end at c, and emits and writes nothing. That this is one step is the model's choice (log
entry 1). -/
def Obligations.HeaderChecksComeInOrder : Prop :=
  (∀ (h : Header) (avail : Nat),
    let table (freq : List Nat) (n N : Nat) : Prop :=
      freq.length = n ∧ (∀ f ∈ freq, f ≤ N) ∧ freq.sum = N
    let c1 := h.nLiterals ≤ 40000 ∧ h.nLiterals % 4 = 0 ∧ h.nMatches ≤ 10000
      ∧ -7 ≤ h.literalBits ∧ h.literalBits ≤ 0 ∧ -7 ≤ h.lmdBits ∧ h.lmdBits ≤ 0
    let c4 := h.litState0 < 1024 ∧ h.litState1 < 1024 ∧ h.litState2 < 1024 ∧ h.litState3 < 1024
      ∧ h.lState < 64 ∧ h.mState < 64 ∧ h.dState < 256
    let c5 := table h.lFreq 20 64 ∧ table h.mFreq 20 64 ∧ table h.dFreq 64 256 ∧ table h.litFreq 256 1024
    let c6 := h.hdrSize + h.nPayload ≤ avail
    (checkHeader h avail = .ok () ↔ c1 ∧ c4 ∧ c5 ∧ c6)
    ∧ (¬ c1 → checkHeader h avail = .error (.err .badHeader))
    ∧ (c1 → ¬ c4 → checkHeader h avail = .error (.err .badState))
    ∧ (c1 → c4 → ¬ c5 → checkHeader h avail = .error (.err .badFreq))
    ∧ (c1 → c4 → c5 → ¬ c6 → checkHeader h avail = .error (.err .srcExhausted)))
  ∧ ∀ s : State, s.mover = .core → s.isBusy → s.seq = .dec .blockStart →
    let h := s.dec.hdr
    let a := s.dec.blkStart + h.hdrSize
    let b := a + h.nLitPayload
    let reader := BackReader.init s.beginTurn.decByte a b h.literalBits
    (∀ c, checkHeader h s.avail = .error (.err c) → step s = .next (s.beginTurn.raiseErr c))
    ∧ (checkHeader h s.avail = .ok () →
      (∀ c, reader = .error (.err c) → step s = .next (s.beginTurn.raiseErr c))
      ∧ ∀ br, reader = .ok br → step s = .next { s.beginTurn with
          dec := { s.dec with
            phase := .inLiteralStream
            dtLit := buildDecodeTable 1024 h.litFreq (List.replicate 256 0) (List.range 256)
            dtL := buildDecodeTable 64 h.lFreq symL.extra symL.base
            dtM := buildDecodeTable 64 h.mFreq symM.extra symM.base
            dtD := buildDecodeTable 256 h.dFreq symD.extra symD.base
            dlit := [], blkEnd := b + h.nLmdPayload }
          work := { s.beginTurn.work with
            br := br
            lanes := { s0 := h.litState0, s1 := h.litState1, s2 := h.litState2, s3 := h.litState3 } }
          seq := .dec .literals })

/-- R446: VALIDATE_TRIPLETS accepts exactly the triplets that use no more literals than there are, that copy
only from earlier output, and that produce the block's raw count; else it raises BAD_MATCH. R444, R447: the step after the
block's last triplet is decoded does this check; where it passes the replay is set to the first triplet and the first
literal, and else the command ends, either way before the block has emitted a byte. That this is one step is the
model's choice (log entry 1). -/
def Obligations.ValidatedTripletsStayInBounds : Prop :=
  let good (nLit nRaw o : Nat) (ts : List Triplet) : Prop := (ts.map Triplet.L).sum ≤ nLit
    ∧ (ts.map fun t => t.L + t.M).sum = nRaw
    ∧ ∀ (i : Nat) (t : Triplet), ts[i]? = some t → 0 < t.M →
        1 ≤ t.D ∧ t.D ≤ o + ((ts.take i).map fun t => t.L + t.M).sum + t.L
  (∀ (nLit nRaw o : Nat) (ts : List Triplet),
    (validateTriplets nLit nRaw ts o 0 0 = .ok () ↔ good nLit nRaw o ts)
    ∧ (¬ good nLit nRaw o ts → validateTriplets nLit nRaw ts o 0 0 = .error (.err .badMatch)))
  ∧ ∀ s : State, s.mover = .core → s.isBusy → s.seq = .dec .triplets →
    s.dec.trip.length = s.dec.hdr.nMatches →
    let valid := good s.dec.hdr.nLiterals s.dec.hdr.nRaw s.dec.outTotal s.dec.trip
    (¬ valid → step s = .next (s.beginTurn.raiseErr .badMatch))
    ∧ (valid → (∀ t, s.dec.trip[0]? = some t → step s = .next { s.beginTurn with
          dec := { s.dec with tIdx := 0, litPos := 0, curLLeft := t.L, curMLeft := t.M }, seq := .dec .run })
      ∧ (s.dec.trip = [] → step s = .next { s.beginTurn with
          dec := { s.dec with tIdx := 0, litPos := 0 }, seq := .dec .run }))

/-! ## Errors and pauses -/

/-- R570, R460: what an error inside a decode command leaves: the code, RESULT = 0, ERR_INFO = the block's offset,
the session over in phase ERROR, the counters loaded, CMD_DONE; host memory outside the bytes the command wrote
is unchanged (no destination byte having been raced for; that exactly the written bytes become free values is the
model's choice, log entry 8). -/
def Obligations.DecodeErrorsAreReported : Prop :=
  ∀ (s : State) (st : DecStage) (code : ErrCode), s.seq = .dec st → s.racedDst = [] →
    s.csr.dstAddr.toNat + s.work.dstPos ≤ 2 ^ 64 →
    (s.raiseErr code).csr = { s.csr with
      state := .error, errCode := code, decPhase := .error, cmdDone := true, result := 0
      errInfo := BitVec.ofNat 32 s.dec.blkStart
      outTotal := BitVec.ofNat 64 s.dec.outTotal, srcPos := BitVec.ofNat 32 s.dec.srcPos }
    ∧ (s.raiseErr code).dec = { s.dec with phase := .error, valid := false }
    ∧ (s.raiseErr code).seq = .rest
    ∧ ∀ a : Addr, (a.toNat < s.csr.dstAddr.toNat ∨ s.csr.dstAddr.toNat + s.work.dstPos ≤ a.toNat) →
        (s.raiseErr code).mem.read a = s.mem.read a

/-- R433, R440, R460, one loop iteration a step (the model's choice, log entry 1): a CORE step of an uncompressed
copy with bytes left writes the next source byte at DST_ADDR + dst_pos, counts it and appends it to the history, or,
with no room left, pauses: DST_FULL with RESULT = DST_SIZE, the session kept. With no byte left the block is done.
That the working state is empty after the pause, the encoder's too, is the model's choice (log entry 25), and what
`beginTurn` counts and records before the step is the model's (log entries 2, 7 and 10). -/
def Obligations.RawCopyEmitsOrPauses : Prop :=
  ∀ s : State, s.mover = .core → s.isBusy → s.seq = .dec .run → s.dec.phase = .inUncompressedCopy →
    s.racedDst = [] →
    (0 < s.dec.copyLeft → s.work.dstPos ≠ s.csr.dstSize.toNat →
      let b := s.beginTurn.decByte (s.dec.blkEnd - s.dec.copyLeft)
      step s = .next { s.beginTurn with
        mem := s.mem.write (s.csr.dstAddr + BitVec.ofNat 64 s.work.dstPos) b
        work := { s.beginTurn.work with dstPos := s.work.dstPos + 1 }
        dec := { s.dec with
          copyLeft := s.dec.copyLeft - 1, outTotal := s.dec.outTotal + 1
          histWin := (b :: s.dec.histWin).take 262144 } })
    ∧ (0 < s.dec.copyLeft → s.work.dstPos = s.csr.dstSize.toNat →
      step s = .next { s.beginTurn with
        csr := { s.csr with
          state := .dstFull, errCode := .none, decPhase := .inUncompressedCopy, cmdDone := true
          result := s.csr.dstSize, outTotal := BitVec.ofNat 64 s.dec.outTotal
          srcPos := BitVec.ofNat 32 s.dec.srcPos }
        dec := { s.dec with valid := true }
        seq := .rest, work := .empty, enc := .empty })
    ∧ (s.dec.copyLeft = 0 →
      step s = .next { s.beginTurn with
        dec := { s.dec with srcPos := s.dec.blkEnd, phase := .atBlockStart } })

/-- R461, R462, R633: a step of RUN does to the session what it does whatever the destination is: two states with
the same session and the same source bytes, both with room, take the same session to the same session. -/
def Obligations.SessionDoesNotDependOnTheDestination : Prop :=
  ∀ s u t : State, u.dec = s.dec → (∀ o, u.decByte o = s.decByte o) → ¬ s.noRoom → ¬ u.noRoom →
    s.dec.phase.copying → decRun s = .next t → ∃ t', decRun u = .next t' ∧ t'.dec = t.dec

/-- R311, R447, R440, R433, R108, one loop iteration a step (the model's choice, log entry 1): n steps of a replayed
literal run, of a replayed match at distance D, or of a delegated copy, with n bytes left and room for them, write n
bytes to host memory from DST_ADDR + dst_pos on, count them and append them to the history window, which keeps its
last 262144 bytes whether or not it is or becomes full; no register changes. They are the next n literals, the next n
bytes of the match, each equal to the output byte D before it, also where D < M, or the next n bytes of the codec's
answer. With bytes left and no room, a step of each pauses with DST_FULL and RESULT = DST_SIZE; that the working state
is empty then is the model's choice (log entry 25). A triplet that has nothing left gives way to the next one, and
where the last triplet or the codec's answer is used up the block is done: `src_pos` moves to its end and the phase is
AT_BLOCK_START, whatever the room. -/
def Obligations.ReplaysAndCopiesEmitTheirBytes : Prop :=
  ∀ (s : State) (n : Nat), s.turns = [] → s.isBusy → s.seq = .dec .run →
    let replaying := s.dec.phase = .inLmdStream ∧ s.dec.tIdx < s.dec.hdr.nMatches
    let literals (k : Nat) := replaying ∧ k ≤ s.dec.curLLeft ∧ s.dec.litPos + k ≤ s.dec.dlit.length
    let aMatch (k : Nat) (t : Triplet) := replaying ∧ s.dec.trip[s.dec.tIdx]? = some t ∧ s.dec.curLLeft = 0
      ∧ k ≤ s.dec.curMLeft ∧ 1 ≤ t.D ∧ t.D ≤ 262139 ∧ t.D ≤ s.dec.outTotal
    let delegated (k : Nat) := s.dec.phase = .inDelegatedCopy ∧ s.dec.copyIdx + k ≤ s.dec.copyBuf.length
    let emitted (u : State) (bs : List Byte) (d : Session) := s.runSteps n = .next u
      ∧ u.mem = s.mem.writeBytes (s.csr.dstAddr + BitVec.ofNat 64 s.work.dstPos) bs
      ∧ u.dec = { d with
          outTotal := s.dec.outTotal + n, histWin := (bs.reverse ++ s.dec.histWin).take 262144 }
      ∧ u.work.dstPos = s.work.dstPos + n ∧ u.csr = s.csr ∧ u.seq = s.seq
    (s.HistoryOk → s.work.dstPos + n ≤ s.csr.dstSize.toNat →
      (literals n → ∃ u, emitted u ((s.dec.dlit.drop s.dec.litPos).take n)
        { s.dec with litPos := s.dec.litPos + n, curLLeft := s.dec.curLLeft - n })
      ∧ (∀ t, aMatch n t → ∃ u, emitted u ((copyMatch t.D n s.dec.histWin).take n).reverse
          { s.dec with curMLeft := s.dec.curMLeft - n }
        ∧ ∀ i, i < n → i + t.D < u.dec.histWin.length → u.dec.histWin[i]? = u.dec.histWin[i + t.D]?)
      ∧ (delegated n → ∃ u, emitted u ((s.dec.copyBuf.drop s.dec.copyIdx).take n)
        { s.dec with copyIdx := s.dec.copyIdx + n }))
    ∧ (s.work.dstPos = s.csr.dstSize.toNat → s.racedDst = [] → s.HistoryOk →
      (literals 1 ∨ (∃ t, aMatch 1 t) ∨ delegated 1) →
      step s = .next { s.beginTurn with
        csr := { s.csr with
          state := .dstFull, errCode := .none, decPhase := s.dec.phase, cmdDone := true
          result := s.csr.dstSize, outTotal := BitVec.ofNat 64 s.dec.outTotal
          srcPos := BitVec.ofNat 32 s.dec.srcPos }
        dec := { s.dec with valid := true }
        seq := .rest, work := .empty, enc := .empty })
    ∧ (replaying → s.dec.curLLeft = 0 → s.dec.curMLeft = 0 →
      (∀ t, s.dec.trip[s.dec.tIdx + 1]? = some t → step s = .next { s.beginTurn with
        dec := { s.dec with tIdx := s.dec.tIdx + 1, curLLeft := t.L, curMLeft := t.M } })
      ∧ (s.dec.trip[s.dec.tIdx + 1]? = none → step s = .next { s.beginTurn with
        dec := { s.dec with tIdx := s.dec.tIdx + 1 } }))
    ∧ (s.dec.phase = .inLmdStream ∧ s.dec.hdr.nMatches ≤ s.dec.tIdx
        ∨ s.dec.phase = .inDelegatedCopy ∧ s.dec.copyBuf.length ≤ s.dec.copyIdx →
      step s = .next { s.beginTurn with
        dec := { s.dec with srcPos := s.dec.blkEnd, phase := .atBlockStart } })

/-- R430, R440, R450, R451: a DECODE of a raw stream into a destination with room ends DONE after one step a byte
and three more, with the data in the destination, RESULT its length and SRC_POS past the end-of-stream block. The
count of steps is the model's (log entry 1). -/
def Obligations.RawStreamsDecodeToTheirData : Prop :=
  ∀ (s : State) (data : List Byte), s.ready → s.buffersOk →
    s.csr.srcSize.toNat = data.length + 12 → data.length ≤ s.csr.dstSize.toNat →
    s.mem.readBytes s.csr.srcAddr (data.length + 12)
      = leBytes 0x2D787662 4 ++ leBytes data.length 4 ++ data ++ leBytes 0x24787662 4 →
    ∃ t u : State, exec .decode s = .next t ∧ t.runSteps (data.length + 3) = .next u
      ∧ u.mem = s.mem.writeBytes s.csr.dstAddr data
      ∧ u.csr = { s.csr with
          state := .done, errCode := .none, decPhase := .done, cmdDone := true
          result := BitVec.ofNat 32 data.length, outTotal := BitVec.ofNat 64 data.length
          srcPos := BitVec.ofNat 32 (data.length + 12) }
      ∧ u.dec.valid = false ∧ u.seq = .rest

/-! ## Bit streams -/

/-- R201, R202, R204, R205: pushing adds the new bits above those taken before, flushing changes only where they
are, and after finishing the bytes are exactly the pushed bits with `-bits` zero bits above them. -/
def Obligations.WriterBytesAreThePushedBits : Prop :=
  ∀ w : BitWriter, w.ok →
    (∀ n b : Nat, w.nbits + n ≤ 64 → b < 2 ^ n →
      (w.push n b).ok ∧ (w.push n b).count = w.count + n
      ∧ (w.push n b).value = w.value + b * 2 ^ w.count)
    ∧ (w.flush.ok ∧ w.flush.nbits ≤ 7 ∧ w.flush.count = w.count ∧ w.flush.value = w.value)
    ∧ (-7 ≤ w.finish.1 ∧ w.finish.1 ≤ 0 ∧ (8 * w.finish.2.out.length : Int) = w.count - w.finish.1
      ∧ le w.finish.2.out = w.value ∧ w.finish.2.nbits = 0 ∧ w.finish.2.accum = 0)

/-- R210 to R213: a reader that starts holds the payload's bits below the pad, a refill does not change them and
loads at least 56 unless all are loaded, and a pull takes the top n of them or raises BAD_BITSTREAM. -/
def Obligations.ReaderPullsTheTopBits : Prop :=
  ∀ rd : Nat → Byte,
    (∀ (start stop : Nat) (bits : Int), start ≤ stop → -7 ≤ bits → bits ≤ 0 →
      let P := le (bytesAt rd start (stop - start))
      (∀ r, BackReader.init rd start stop bits = .ok r →
        r.ok ∧ r.value rd = P ∧ (r.count : Int) = 8 * ((stop - start : Nat) : Int) + bits)
      ∧ ((∃ r, BackReader.init rd start stop bits = .ok r) ↔
          (start = stop → bits = 0) ∧ P < 2 ^ (8 * ((stop - start : Nat) : Int) + bits).toNat))
    ∧ (∀ r : BackReader, r.ok →
      ((r.refill rd).ok ∧ (r.refill rd).value rd = r.value rd ∧ (r.refill rd).count = r.count
        ∧ (56 ≤ (r.refill rd).nbits ∨ (r.refill rd).pos = r.start))
      ∧ ∀ n : Nat,
        (r.nbits < n → r.pull n = .error (.err .badBitstream))
        ∧ (n ≤ r.nbits → ∃ r', r.pull n = .ok (r.value rd / 2 ^ (r.count - n), r')
            ∧ r'.ok ∧ r'.count = r.count - n ∧ r'.value rd = r.value rd % 2 ^ (r.count - n)))

/-! ## FSE -/

/-- R258: a decode table of N states has N entries; each entry's next states lie in [0, N), and it takes at most
log2 N state bits. -/
def Obligations.DecodeTableEntriesStayInRange : Prop :=
  ∀ (m : Nat) (freq vbits vbase : List Nat), m ≤ 10 → freq.sum = 2 ^ m →
    vbits.length = freq.length → vbase.length = freq.length →
    (buildDecodeTable (2 ^ m) freq vbits vbase).length = 2 ^ m
    ∧ ∀ e ∈ buildDecodeTable (2 ^ m) freq vbits vbase,
        e.valueBits ≤ e.totalBits ∧ e.totalBits - e.valueBits ≤ m
        ∧ e.delta + 2 ^ (e.totalBits - e.valueBits) - 1 < 2 ^ m

/-- R265: what FSE_ENCODE pushes and the state it returns are inverted by the decode table's entry of that state:
the entry belongs to the symbol, takes as many state bits, and leads back to the state before. -/
def Obligations.DecodingInvertsFseEncoding : Prop :=
  ∀ (m : Nat) (freq vbits vbase : List Nat) (x f s : Nat) (w : BitWriter), m ≤ 10 → freq.sum = 2 ^ m →
    vbits.length = freq.length → vbase.length = freq.length →
    freq[x]? = some f → 0 < f → s < 2 ^ m →
    ∃ (e : EncEntry) (d : DecEntry) (s' b : Nat),
      (buildEncodeTable (2 ^ m) 0 freq)[x]? = some (some e)
      ∧ fseEncode e s w = (s', w.push (d.totalBits - d.valueBits) b)
      ∧ (freq.take x).sum ≤ s' ∧ s' < (freq.take x).sum + f
      ∧ (buildDecodeTable (2 ^ m) freq vbits vbase)[s']? = some d
      ∧ vbits[x]? = some d.valueBits ∧ vbase[x]? = some d.vbase ∧ d.valueBits ≤ d.totalBits
      ∧ b < 2 ^ (d.totalBits - d.valueBits) ∧ d.delta + b = s

/-- R254: for every histogram of at most N symbols, `normalize` returns a table that passes R250, and gives every
symbol with a nonzero count a nonzero frequency. R343: a histogram counts each symbol. R520, R330, R321: the step that
closes a block pads its literals with zero bytes to a multiple of 4, codes its distances, normalizes the histogram of
each of its four streams against that stream's state count, builds each encode table from its own frequencies, and
puts the counts and frequencies in the header; ENCODE_LITERALS is next. That this is one step is the model's choice
(log entry 1). -/
def Obligations.NormalizationIsValid : Prop :=
  (∀ (count : List Nat) (N : Nat), count ≠ [] → count.length ≤ N →
    checkFreq (normalize count N) count.length N = true
    ∧ ∀ i c : Nat, count[i]? = some c → c ≠ 0 → ∃ f, (normalize count N)[i]? = some f ∧ f ≠ 0)
  ∧ (∀ (n : Nat) (syms : List Nat), (histogram n syms).length = n
    ∧ ∀ i, i < n → (histogram n syms)[i]? = some (syms.count i))
  ∧ ∀ (s : State) (ts : List Triplet) (pad : Nat), s.mover = .core → s.isBusy → s.seq = .enc .tables →
    s.enc.tL = ts.map Triplet.L → s.enc.tM = ts.map Triplet.M → s.enc.tD = ts.map Triplet.D →
    pad < 4 → (s.enc.litBuf.length + pad) % 4 = 0 →
    let e := s.enc
    let lits := e.litBuf ++ List.replicate pad 0
    let dv := codeDistances 0 ts
    let litFreq := normalize (histogram 256 (lits.map BitVec.toNat)) 1024
    let lFreq := normalize (histogram 20 (e.tL.filterMap symL.sym)) 64
    let mFreq := normalize (histogram 20 (e.tM.filterMap symM.sym)) 64
    let dFreq := normalize (histogram 64 (dv.filterMap symD.sym)) 256
    step s = .next { s.beginTurn with
      enc := { e with
        litBuf := lits, tDv := dv
        etLit := buildEncodeTable 1024 0 litFreq, etL := buildEncodeTable 64 0 lFreq
        etM := buildEncodeTable 64 0 mFreq, etD := buildEncodeTable 256 0 dFreq
        hdr := { e.hdr with
          nRaw := e.blockRaw, nLiterals := lits.length, nMatches := ts.length
          litFreq := litFreq, lFreq := lFreq, mFreq := mFreq, dFreq := dFreq }
        bw := .init, lanes := .zero, idx := lits.length }
      seq := .enc .literals }

/-- R176: every value up to a stream's maximum has exactly one symbol whose range holds it, `sym` finds it, and a
value above the maximum has none. -/
def Obligations.EveryValueHasOneSymbol : Prop :=
  ∀ (t : SymTable) (max : Nat), (t = symL ∧ max = 315) ∨ (t = symM ∧ max = 2359) ∨ (t = symD ∧ max = 262139) →
    ∀ v : Nat,
      (v ≤ max → ∃ s, t.sym v = some s ∧ s < t.base.length
        ∧ t.baseOf s ≤ v ∧ v < t.baseOf s + 2 ^ t.extraOf s
        ∧ ∀ s', s' < t.base.length → t.baseOf s' ≤ v → v < t.baseOf s' + 2 ^ t.extraOf s' → s' = s)
      ∧ (max < v → t.sym v = none)

/-- R263, R264, R265: VALUE_ENCODE pushes total_bits of the decode table's entry of its new state, above the bits
taken before; VALUE_DECODE at that state, of a reader that holds the writer's bits and has those loaded, returns the
value and the state before, and leaves the bits the writer had. R340, R341: the same of one triplet, whatever is
loaded, because DECODE_TRIPLET refills first: it returns L, M and the resolved distance, and the three states
before. -/
def Obligations.ValueDecodingInvertsValueEncoding : Prop :=
  (∀ (t : SymTable) (m v s : Nat) (freq : List Nat) (w w' : BitWriter) (s' : Nat),
    t = symL ∨ t = symM ∨ t = symD → m ≤ 8 → freq.length = t.base.length → freq.sum = 2 ^ m → s < 2 ^ m →
    w.ok → w.nbits + m + t.extra.foldl max 0 ≤ 64 →
    valueEncode t (buildEncodeTable (2 ^ m) 0 freq) v s w = .ok (s', w') →
    ∃ d : DecEntry, (buildValueTable (2 ^ m) t freq)[s']? = some d
      ∧ s' < 2 ^ m ∧ w'.ok ∧ w'.count = w.count + d.totalBits ∧ w'.value % 2 ^ w.count = w.value
      ∧ ∀ (rd : Nat → Byte) (r : BackReader),
        r.ok → r.count = w'.count → r.value rd = w'.value → d.totalBits ≤ r.nbits →
        ∃ r', valueDecode (buildValueTable (2 ^ m) t freq) s' r = .ok (v, s, r')
          ∧ r'.ok ∧ r'.count = w.count ∧ r'.value rd = w.value)
  ∧ ∀ (f : LmdFreqs) (L M dv dCur : Nat) (st st' : LmdStates) (w w' : BitWriter) (rd : Nat → Byte)
      (r : BackReader),
    f.ok → st.ok → w.ok → encodeTriplet f.enc L M dv st w = .ok (st', w') →
    r.ok → r.count = w'.count → r.value rd = w'.value →
    st'.ok ∧ w'.ok
    ∧ ∃ r', decodeTriplet f.dec rd st' dCur r = .ok ({ L := L, M := M, D := resolveDistance dCur dv }, st, r')
        ∧ r'.ok ∧ r'.count = w.count ∧ r'.value rd = w.value

/-! ## LMD -/

/-- R312, R310, R311: LEGALIZE's triplets have L at most 315 and M at most 2359, each that copies has the distance of
a copying triple of the parse, so that it lies in [1, MAX_D] where the parse's distances do (R501), and they produce
the same bytes as the parse, over any literals and any earlier output. R500, R510: the step after the parse takes
LEGALIZE's triplets and opens an empty block; each later step adds the next triplet, with the source bytes of its
literals, or closes the block first where it would pass 10000 triplets or 40000 literals; after the last triplet the
open block is closed, or, where it is empty, the end-of-stream magic ends the stream. One of these a step is the
model's choice (log entry 1). -/
def Obligations.LegalizingKeepsTheOutput : Prop :=
  (∀ (parse : List Triplet) (lits out : List Byte),
    (∀ t ∈ legalize parse, t.L ≤ 315 ∧ t.M ≤ 2359 ∧ (0 < t.M → ∃ p ∈ parse, 0 < p.M ∧ t.D = p.D))
    ∧ ((∀ p ∈ parse, 0 < p.M → 1 ≤ p.D ∧ p.D ≤ 262139) →
        ∀ t ∈ legalize parse, 0 < t.M → 1 ≤ t.D ∧ t.D ≤ 262139)
    ∧ expandTriplets (legalize parse) lits out = expandTriplets parse lits out)
  ∧ ∀ s : State, s.mover = .core → s.isBusy →
    let e := s.enc
    (s.seq = .enc .legalize → step s = .next { s.beginTurn with
      enc := { e with
        todo := legalize e.parse, rawPos := 0, out := []
        blockRaw := 0, litBuf := [], tL := [], tM := [], tD := [], tDv := []
        litPayload := [], lmdPayload := [], hdr := .empty }
      seq := .enc .fill })
    ∧ (s.seq = .enc .fill →
      (∀ t rest, e.todo = t :: rest →
        let full := 10000 < e.tL.length + 1 ∨ 40000 < e.litBuf.length + t.L
        (full → step s = .next { s.beginTurn with seq := .enc .tables })
        ∧ (¬ full → step s = .next { s.beginTurn with
            enc := { e with
              todo := rest, litBuf := e.litBuf ++ bytesAt (s.beginTurn.encByte 0) e.rawPos t.L
              tL := e.tL ++ [t.L], tM := e.tM ++ [t.M], tD := e.tD ++ [t.D]
              rawPos := e.rawPos + t.L + t.M, blockRaw := e.blockRaw + t.L + t.M } }))
      ∧ (e.todo = [] → e.tL ≠ [] → step s = .next { s.beginTurn with seq := .enc .tables })
      ∧ (e.todo = [] → e.tL = [] → step s = .next { s.beginTurn with
          enc := { e with out := e.out ++ leBytes 0x24787662 4 }, seq := .enc .finish }))

/-- R320, R321: the decoder resolves the coded distances of a block back to the distance of every triplet that
copies. R342: DECODE_TRIPLET, once for each triplet, on the payload that ENCODE_LMD writes, from its final states and
bits field, returns the triplets' L, M and resolved distances in their order. R340, R341, R444, one triplet a step
(the model's choice, log entry 1): the encoder's steps over a block's triplets make exactly that payload, with its
states and bits field in the header; a decoder's step appends the triplet DECODE_TRIPLET reads with the block's three
tables and its own three states, or raises what it raises. -/
def Obligations.CodedDistancesResolve : Prop :=
  (∀ ts : List Triplet, (∀ t ∈ ts, 0 < t.M → 1 ≤ t.D) →
    ((codeDistances 0 ts).length = ts.length
    ∧ ∀ (i : Nat) (t : Triplet), ts[i]? = some t → 0 < t.M →
        (resolveAll 0 (codeDistances 0 ts))[i]? = some t.D)
    ∧ ∀ (f : LmdFreqs) (st : LmdStates) (w : BitWriter) (rd : Nat → Byte) (b : Nat), f.ok →
      encodeTriplets f.enc ts (codeDistances 0 ts) = .ok (st, w) →
      let payload := payloadPad ++ w.finish.2.out
      (∀ i, i < payload.length → payload[i]? = some (rd (b + i))) →
      ∃ r out, BackReader.init rd b (b + payload.length) w.finish.1 = .ok r
        ∧ decodeTriplets f.dec rd ts.length st 0 r = .ok out ∧ out.length = ts.length
        ∧ ∀ (i : Nat) (t : Triplet), ts[i]? = some t →
            ∃ o, out[i]? = some o ∧ o.L = t.L ∧ o.M = t.M ∧ (0 < t.M → o.D = t.D))
  ∧ (∀ (s : State) (ts : List Triplet) (st : LmdStates) (w : BitWriter),
    s.turns = [] → s.isBusy → s.seq = .enc .lmd →
    s.enc.tL = ts.map Triplet.L → s.enc.tM = ts.map Triplet.M → s.enc.tDv.length = ts.length →
    s.enc.idx = ts.length → s.enc.lState = 0 → s.enc.mState = 0 → s.enc.dState = 0 → s.enc.bw = .init →
    encodeTriplets { l := s.enc.etL, m := s.enc.etM, d := s.enc.etD } ts s.enc.tDv = .ok (st, w) →
    ∃ u, s.runSteps (ts.length + 1) = .next u ∧ u.seq = .enc .pack ∧ u.mem = s.mem ∧ u.csr = s.csr
      ∧ u.enc = { s.enc with
        hdr := { s.enc.hdr with
          lmdBits := w.finish.1, nLmdPayload := 8 + w.finish.2.out.length
          nPayload := s.enc.hdr.nLitPayload + (8 + w.finish.2.out.length)
          lState := st.l, mState := st.m, dState := st.d }
        lmdPayload := List.replicate 8 0 ++ w.finish.2.out
        lState := st.l, mState := st.m, dState := st.d, bw := .init, fw := .empty, idx := 0 })
  ∧ ∀ s : State, s.mover = .core → s.isBusy → s.seq = .dec .triplets →
    s.dec.trip.length < s.dec.hdr.nMatches →
    let read := decodeTriplet { l := s.dec.dtL, m := s.dec.dtM, d := s.dec.dtD } s.beginTurn.decByte
      { l := s.work.lState, m := s.work.mState, d := s.work.dState } s.work.dCur s.work.br
    (∀ c, read = .error (.err c) → step s = .next (s.beginTurn.raiseErr c))
    ∧ ∀ t st br, read = .ok (t, st, br) → step s = .next { s.beginTurn with
        dec := { s.dec with trip := s.dec.trip ++ [t] }
        work := { s.beginTurn.work with
          br := br, dCur := t.D, lState := st.l, mState := st.m, dState := st.d } }

/-- R332: decoding the literal payload that ENCODE_LITERALS writes, from its final lane states and bits field,
returns the literals in their order. R330, R331, R444, R445, one group of four a step (the model's choice, log entry
1): the encoder's steps over a block's padded literals make exactly that payload, with its states and bits field in the
header, and ENCODE_LMD is next from states 0; a decoder's step appends the four literals it reads with the block's
literal table, or raises what the reads raise; after the last group it starts the LMD reader over [b, c), or raises
what that raises, with the header's L, M and D states, no triplet and D_cur = 0. -/
def Obligations.LiteralPayloadRoundTrip : Prop :=
  (∀ (freq : List Nat) (gs : List LitGroup) (st : Lanes) (w : BitWriter) (rd : Nat → Byte) (a : Nat),
    checkFreq freq 256 1024 = true →
    encodeGroups (buildEncodeTable 1024 0 freq) gs = .ok (st, w) →
    let payload := payloadPad ++ w.finish.2.out
    (∀ i, i < payload.length → payload[i]? = some (rd (a + i))) →
    ∃ r, BackReader.init rd a (a + payload.length) w.finish.1 = .ok r
      ∧ decodeGroups (buildLiteralTable freq) rd gs.length st r = .ok (gs.flatMap LitGroup.bytes))
  ∧ (∀ (s : State) (gs : List LitGroup) (st : Lanes) (w : BitWriter),
    s.turns = [] → s.isBusy → s.seq = .enc .literals →
    s.enc.litBuf = gs.flatMap LitGroup.bytes → s.enc.idx = s.enc.litBuf.length →
    s.enc.lanes = .zero → s.enc.bw = .init → encodeGroups s.enc.etLit gs = .ok (st, w) →
    ∃ u, s.runSteps (gs.length + 1) = .next u ∧ u.seq = .enc .lmd ∧ u.mem = s.mem ∧ u.csr = s.csr
      ∧ u.enc = { s.enc with
        hdr := { s.enc.hdr with
          literalBits := w.finish.1, nLitPayload := 8 + w.finish.2.out.length
          litState0 := st.s0, litState1 := st.s1, litState2 := st.s2, litState3 := st.s3 }
        litPayload := List.replicate 8 0 ++ w.finish.2.out
        lanes := st, bw := .init, lState := 0, mState := 0, dState := 0, idx := s.enc.tL.length })
  ∧ ∀ s : State, s.mover = .core → s.isBusy → s.seq = .dec .literals →
    let h := s.dec.hdr
    let b := s.dec.blkStart + h.hdrSize + h.nLitPayload
    let group := decodeLitGroup s.dec.dtLit s.beginTurn.decByte s.work.lanes s.work.br
    let reader := BackReader.init s.beginTurn.decByte b (b + h.nLmdPayload) h.lmdBits
    (s.dec.dlit.length < h.nLiterals →
      (∀ c, group = .error (.err c) → step s = .next (s.beginTurn.raiseErr c))
      ∧ ∀ bs st br, group = .ok (bs, st, br) → step s = .next { s.beginTurn with
          dec := { s.dec with dlit := s.dec.dlit ++ bs }
          work := { s.beginTurn.work with lanes := st, br := br } })
    ∧ (h.nLiterals ≤ s.dec.dlit.length →
      (∀ c, reader = .error (.err c) → step s = .next (s.beginTurn.raiseErr c))
      ∧ ∀ br, reader = .ok br → step s = .next { s.beginTurn with
          dec := { s.dec with phase := .inLmdStream, trip := [] }
          work := { s.beginTurn.work with
            br := br, dCur := 0, lState := h.lState, mState := h.mState, dState := h.dState }
          seq := .dec .triplets })

/-! ## Framing -/

/-- R384, R385: the frequency code that ENCODE_FREQ_CODE writes for values up to 1047 is read back value by value,
and ends inside its last byte. R384, R364, R162: the step after the 360th value raises BAD_HEADER where the code has not
ended inside the header's last byte, and else puts the values in the header, L, M, D and literal frequencies in this
order. That this is a step of its own is the model's choice (log entry 1). -/
def Obligations.FrequencyCodeRoundTrip : Prop :=
  (∀ (v : List Nat) (rd : Nat → Byte) (p : Nat), (∀ x ∈ v, x ≤ 1047) →
    (∀ i, i < (encodeFreqCode v).length → (encodeFreqCode v)[i]? = some (rd (p + i))) →
    ∃ fr, readFreqs rd (p + (encodeFreqCode v).length) v.length { acc := 0, n := 0, p := p } = .ok (v, fr)
      ∧ freqCodeEnd fr (p + (encodeFreqCode v).length) = .ok ())
  ∧ ∀ s : State, s.mover = .core → s.isBusy → s.seq = .dec .freqCode → 360 ≤ s.work.freqVals.length →
    let v := s.work.freqVals
    let ended := s.work.fr.n < 8 ∧ s.work.fr.p = s.dec.blkStart + s.dec.hdr.hdrSize
    (¬ ended → step s = .next (s.beginTurn.raiseErr .badHeader))
    ∧ (ended → step s = .next { s.beginTurn with
        dec := { s.dec with hdr := { s.dec.hdr with
          lFreq := v.take 20, mFreq := (v.drop 20).take 20
          dFreq := (v.drop 40).take 64, litFreq := (v.drop 104).take 256 } }
        seq := .dec .blockStart })

/-- R380, R364: the fields of a packed header are read back from the bytes PACK_V2 writes, where every field fits
its width; its magic comes first and its frequency code from offset 32 on. R520, R500, R385, one frequency value a step
(the model's choice, log entry 1): the steps that end a block append its packed header, with the frequency code of the
header's L, M, D and literal frequencies, its literal payload and its LMD payload, in this order, to the stream, and
open an empty block. -/
def Obligations.PackedHeaderRoundTrip : Prop :=
  (∀ (h : Header) (code : List Byte),
    h.nRaw < 2 ^ 32 → h.nLiterals < 2 ^ 20 → h.nLitPayload < 2 ^ 20 → h.nMatches < 2 ^ 20 →
    h.nLmdPayload < 2 ^ 20 → -7 ≤ h.literalBits → h.literalBits ≤ 0 → -7 ≤ h.lmdBits → h.lmdBits ≤ 0 →
    h.litState0 < 1024 → h.litState1 < 1024 → h.litState2 < 1024 → h.litState3 < 1024 →
    h.lState < 1024 → h.mState < 1024 → h.dState < 1024 → code.length < 2 ^ 31 →
    parseV2Fixed (fun o => (packV2With code h).getD o 0)
      = { h with
          nPayload := h.nLitPayload + h.nLmdPayload, hdrSize := 32 + code.length
          lFreq := [], mFreq := [], dFreq := [], litFreq := [] }
      ∧ (packV2With code h).take 4 = leBytes 0x32787662 4 ∧ (packV2With code h).drop 32 = code)
  ∧ ∀ s : State, s.turns = [] → s.isBusy → s.seq = .enc .pack → s.enc.idx = 0 → s.enc.fw = .empty →
    let e := s.enc
    let freqs := e.hdr.lFreq ++ e.hdr.mFreq ++ e.hdr.dFreq ++ e.hdr.litFreq
    ∃ u, s.runSteps (freqs.length + 1) = .next u ∧ u.seq = .enc .fill ∧ u.mem = s.mem ∧ u.csr = s.csr
      ∧ u.enc.out = e.out ++ packV2With (encodeFreqCode freqs) e.hdr ++ e.litPayload ++ e.lmdPayload
      ∧ u.enc = { e with
        out := u.enc.out, fw := u.enc.fw, idx := u.enc.idx
        blockRaw := 0, litBuf := [], tL := [], tM := [], tD := [], tDv := []
        litPayload := [], lmdPayload := [], hdr := .empty }

/-! ## The match search -/

/-- R507, R501: where every read of a source byte returns the same (no byte of it is raced for, R116), a candidate of
FIND at position p, from a slot that holds the 4 bytes of an earlier position, lies in the source, starts at or after
the literal start, points at earlier bytes within MAX_D, and repeats them. R492, R505: from 4096 source bytes on
ENCODE starts the front end with an empty table. R508, R509, one position a step (the model's choice, log entry 1):
the default front end keeps, replaces or emits the pending match as R509 says and ends with the pending match and the
trailing literals. R501: a parse of another front end is used where it keeps the contract and refused where it breaks
it. -/
def Obligations.CandidatesAreMatches : Prop :=
  (∀ (rd : Nat → Byte) (n ls p : Nat) (c : Slot) (m : Match),
    ls ≤ p → p + 4 ≤ n → c.pos < p → c.value = value4 rd c.pos →
    candidate (fun _ => rd) n ls p (value4 rd p) c = some m →
    ls ≤ m.pos ∧ m.pos ≤ p ∧ p + 4 ≤ m.pos + m.len ∧ m.pos + m.len ≤ n
    ∧ 1 ≤ m.dist ∧ m.dist ≤ m.pos ∧ m.dist ≤ 262139
    ∧ ∀ i, i < m.len → rd (m.pos + i) = rd (m.pos + i - m.dist))
  ∧ ∀ s : State, s.mover = .core → s.isBusy →
    let e := s.enc
    let n := s.csr.srcSize.toNat
    let goes (st : EncStage) (e' : Encoder) : Prop := step s = .next { s.beginTurn with enc := e', seq := .enc st }
    (s.seq = .enc .choose → 4096 ≤ n →
      goes .scan { e with scanPos := 0, litStart := 0, pending := none, hist := [], parse := [] })
    ∧ (s.seq = .enc .scan → s.frontEnd = .standard → e.scanPos + 4 ≤ n →
      let found := findMatch s.beginTurn.encByte n e.litStart e.scanPos e.hist
      let keep (m : Option Match) : Prop :=
        goes .scan { e with hist := found.2, pending := m, scanPos := e.scanPos + 1 }
      let emit (m : Match) : Prop := goes .scan { e with
        hist := found.2, parse := e.parse ++ [{ L := m.pos - e.litStart, M := m.len, D := m.dist }]
        litStart := m.pos + m.len, scanPos := m.pos + m.len, pending := none }
      (∀ p, e.pending = some p → (∀ m, found.1 = some m → m.len ≤ p.len) → emit p)
      ∧ (∀ m, found.1 = some m → (∀ p, e.pending = some p → p.len < m.len) →
        (40 ≤ m.len → emit m) ∧ (m.len < 40 → keep (some m)))
      ∧ (e.pending = none → found.1 = none → keep none))
    ∧ (s.seq = .enc .scan → s.frontEnd = .standard → n < e.scanPos + 4 →
      let ls := match e.pending with
        | some p => p.pos + p.len
        | none => e.litStart
      let last : List Triplet := match e.pending with
        | some p => [{ L := p.pos - e.litStart, M := p.len, D := p.dist }]
        | none => []
      let tail : List Triplet := if ls < n then [{ L := n - ls, M := 0, D := 0 }] else []
      goes .legalize { e with parse := e.parse ++ last ++ tail, litStart := ls, pending := none })
    ∧ (s.seq = .enc .scan → s.frontEnd = .other →
      let src := bytesAt (s.beginTurn.encByte 0) 0 n
      let parse : List Triplet := (Config.frontEnd src).map fun p => { L := p.1, M := p.2.1, D := p.2.2 }
      (frontEndOk (fun o => src.getD o 0) n parse = true → goes .legalize { e with parse := parse })
      ∧ (frontEndOk (fun o => src.getD o 0) n parse = false → step s = .refused .frontEndContract))

/-! ## Frames -/

/-- R550, R574, R552, R553, R430, R431, R490: a command issued while BUSY is ignored; whatever a command's issue
answers, host memory, HOST's program, the parameter registers, CTRL, the platform and the turns are as they were,
the counters move only by ABORT, and the session only by the commands that start or end one. R116: what HOST's own
loads and stores do. A store writes its byte and nothing else; it races for the byte where it lies in the source in use
and the store comes during BUSY or changes it, and where it lies in the destination during BUSY. A load returns what
memory holds, or during BUSY, from the destination, a free value (log entry 11). The source in use is the running
command's, or the paused session's (log entry 10). A load or store in the CSR window or over a device is refused (the
model's reading, log entry 20); the turn and draw counters are the model's (log entries 2 and 10), and so is that HOST
and CORE have the same address for a byte (log entry 30). -/
def Obligations.CommandIssueFrame : Prop :=
  (∀ (i : Instr) (s : State), i.space = .command →
    (s.isBusy → exec i s = .next s)
    ∧ ∀ t : State, exec i s = .next t →
    t.mem = s.mem ∧ t.host = s.host ∧ t.turns = s.turns ∧ t.platform = s.platform
    ∧ t.frontEnd = s.frontEnd ∧ t.draws = s.draws ∧ t.csr.irqEn = s.csr.irqEn
    ∧ t.csr.srcAddr = s.csr.srcAddr ∧ t.csr.srcSize = s.csr.srcSize
    ∧ t.csr.dstAddr = s.csr.dstAddr ∧ t.csr.dstSize = s.csr.dstSize
    ∧ (t.csr.outTotal ≠ s.csr.outTotal ∨ t.csr.srcPos ≠ s.csr.srcPos → i = .abort)
    ∧ (i = .nop ∨ i = .decodeResume ∨ 5 ≤ (encode i).bits → t.dec = s.dec))
  ∧ ∀ (s : State) (a : Addr) (b : Byte) (rest : List HostOp), s.mover = .host →
    let inUse := (∃ st, s.seq = .enc st) ∧ s.csrSrc.has a.toNat = true
      ∨ ((∃ st, s.seq = .dec st) ∨ s.seq = .rest ∧ s.dec.valid = true) ∧ s.sessionSrc.has a.toNat = true
    let dstInUse := s.isBusy ∧ s.dstRange.has a.toNat = true
    let inWindow := s.platform.window.has a.toNat = true
    let onDevice := ∃ d ∈ s.platform.devices, d.has a.toNat = true
    (s.host.queue = .memWrite a b :: rest →
      (inWindow → step s = .refused .csrAccess)
      ∧ (¬ inWindow → onDevice → step s = .refused .deviceBuffer)
      ∧ (¬ inWindow → ¬ onDevice → ∃ t, step s = .next t
        ∧ t = { s with
          mem := s.mem.write a b, host := { s.host with queue := rest }
          racedSrc := t.racedSrc, racedDst := t.racedDst, turns := s.turns.tail, draws := s.draws + 1 }
        ∧ (∀ x, x ∈ t.racedSrc ↔ x ∈ s.racedSrc ∨ x = a.toNat ∧ inUse ∧ (s.isBusy ∨ s.mem.read a ≠ b))
        ∧ ∀ x, x ∈ t.racedDst ↔ x ∈ s.racedDst ∨ x = a.toNat ∧ dstInUse))
    ∧ (s.host.queue = .memRead a :: rest →
      let seen (v : Byte) : Prop := step s = .next { s with
        host := { queue := rest, log := .mem v :: s.host.log }, turns := s.turns.tail, draws := s.draws + 1 }
      (inWindow → step s = .refused .csrAccess)
      ∧ (¬ inWindow → onDevice → step s = .refused .deviceBuffer)
      ∧ (¬ inWindow → ¬ onDevice → ¬ dstInUse → seen (s.mem.read a))
      ∧ (¬ inWindow → ¬ onDevice → dstInUse → seen (Config.racedRead (s.draws + 1) a.toNat)))

/-- R106, R451 to R454, R384: a block start or a code word that goes on (it ends no command) writes no byte of host
memory and no register, moves no cursor of the session and emits nothing. -/
def Obligations.BlockAndCodeWordFrame : Prop :=
  ∀ (i : Instr) (s t : State), i.space = .block ∨ i.space = .freqCode → exec i s = .next t → t.seq ≠ .rest →
    s.isBusy →
    t.mem = s.mem ∧ t.csr = s.csr ∧ t.enc = s.enc ∧ t.host = s.host ∧ t.turns = s.turns
    ∧ t.platform = s.platform ∧ t.draws = s.draws ∧ t.racedDst = s.racedDst
    ∧ t.work.dstPos = s.work.dstPos ∧ t.dec.srcPos = s.dec.srcPos ∧ t.dec.outTotal = s.dec.outTotal
    ∧ t.dec.histWin = s.dec.histWin ∧ t.dec.valid = s.dec.valid
    ∧ t.dec.srcAddr = s.dec.srcAddr ∧ t.dec.srcSize = s.dec.srcSize

/-- R53, R490, R546, R570: a step of a running ENCODE leaves the session, OUT_TOTAL and SRC_POS alone, and no
encoder state is left when it ends: that a discarded state is an empty one is the model's choice (log entry 25). -/
def Obligations.EncodeLeavesTheSessionAlone : Prop :=
  ∀ (s t : State) (st : EncStage), s.mover = .core → s.isBusy → s.seq = .enc st → step s = .next t →
    t.dec = s.dec ∧ t.csr.outTotal = s.csr.outTotal ∧ t.csr.srcPos = s.csr.srcPos
    ∧ (t.seq = .rest → t.enc = .empty)

/-- R106, R107, R56, R630: no step of CORE changes a parameter register, CTRL, the platform or HOST's program, nor
a byte of host memory outside the destination range of the running command. -/
def Obligations.CoreWritesOnlyTheDestination : Prop :=
  ∀ s t : State, s.mover = .core → step s = .next t →
    (t.csr.srcAddr = s.csr.srcAddr ∧ t.csr.srcSize = s.csr.srcSize
      ∧ t.csr.dstAddr = s.csr.dstAddr ∧ t.csr.dstSize = s.csr.dstSize
      ∧ t.csr.irqEn = s.csr.irqEn ∧ t.platform = s.platform ∧ t.host = s.host ∧ t.frontEnd = s.frontEnd)
    ∧ (s.DestOk → s.RacesOk →
      ∀ a : Addr, s.dstRange.has a.toNat = false → t.mem.read a = s.mem.read a)

/-- R581: CMD_DONE becomes 1 only in a step that ends a command: CORE rests after it and STATE is not BUSY, and
either a command ran before it or HOST issued one. -/
def Obligations.CmdDoneIsSetOnlyAtCommandEnds : Prop :=
  ∀ s t : State, step s = .next t → s.csr.cmdDone = false → t.csr.cmdDone = true →
    ¬ t.isBusy ∧ t.seq = .rest
    ∧ (s.isBusy ∨ ∃ (v : Word) (rest : List HostOp), s.host.queue = .csrWrite 0x004 4 v :: rest)

/-- R620 to R622: a reset leaves the registers and the session at their reset values; with no command running host
memory is as it was, and while BUSY every byte outside the running command's destination is. That items R620 gives no
value hold 0 or nothing afterwards is the model's choice (log entry 4), and so is that `rst` is asserted and released
in one step (log entry 29). -/
def Obligations.ResetKeepsHostMemory : Prop :=
  ∀ (s : State) (rest : List HostOp), s.mover = .host → s.host.queue = .reset :: rest → s.DestOk →
    ∃ t : State, step s = .next t
      ∧ t.csr = State.reset.csr ∧ t.seq = .rest ∧ t.dec = State.reset.dec ∧ t.enc = .empty ∧ t.work = .empty
      ∧ (¬ s.isBusy → t.mem = s.mem)
      ∧ ∀ a : Addr, s.dstRange.has a.toNat = false → t.mem.read a = s.mem.read a

/-! ## Invariants -/

/-- Every invariant below holds at reset. -/
def Obligations.ResetMeetsTheInvariants : Prop :=
  State.reset.mem.wf ∧ State.reset.StatusOk ∧ State.reset.HistoryOk ∧ State.reset.RacesOk
  ∧ State.reset.DestOk ∧ State.reset.SourceOk ∧ State.reset.BlockOk

/-- Host memory keeps its canonical form (the model's own form, log entry 3; R105 gives the address space). -/
def Obligations.StepsKeepMemoryCanonical : Prop :=
  ∀ s t : State, s.mem.wf → step s = .next t → t.mem.wf

/-- R43, R54, R431, R460, R550: STATUS keeps agreeing with what CORE does. -/
def Obligations.StepsKeepStatusConsistent : Prop :=
  ∀ s t : State, s.StatusOk → step s = .next t → t.StatusOk

/-- R108: the history window keeps holding the last min(out_total, HIST_WINDOW) bytes. -/
def Obligations.StepsKeepTheHistoryWindow : Prop :=
  ∀ s t : State, s.HistoryOk → step s = .next t → t.HistoryOk

/-- R32, R432: the source cursor and the block's end stay inside the session's source, and while a block is decoded,
copied, replayed or paused the cursor stays at the block's start. -/
def Obligations.StepsKeepTheSourceCursor : Prop :=
  ∀ s t : State, s.SourceOk → s.StatusOk → step s = .next t → t.SourceOk

/-- R32, R49, R116: the destination cursor stays inside the destination, whose range stays legal. -/
def Obligations.StepsKeepTheDestinationCursor : Prop :=
  ∀ s t : State, s.DestOk → s.RacesOk → step s = .next t → t.DestOk ∧ t.RacesOk

/-- R61, R510: the open block keeps within 10000 triplets and 40000 literals, padding included. -/
def Obligations.StepsKeepTheBlockCapacity : Prop :=
  ∀ s t : State, s.BlockOk → step s = .next t → t.BlockOk
end

