-- ==== Sys2Proof/Laws/Memory.lean ====
section
/-! SUPPORT. The laws of sparse data and of host memory: what is read after a write, what a write leaves
alone, and that every operation keeps the canonical form. -/

namespace Sys2Proof.Machine

/-! ## Sparse data -/

section SparseLaws

variable {α : Type} {d : α}

/-- Keys strictly rising. -/
abbrev Sparse.sorted (m : List (Nat × α)) : Prop := m.Pairwise fun a b => a.1 < b.1

theorem Sparse.get_of_forall_lt {m : List (Nat × α)} {a : Nat} (h : ∀ c ∈ m, a < c.1) :
    Sparse.get d m a = d := by
  induction m with
  | nil => rfl
  | cons c m ih =>
    have hc := h c (by simp)
    have : ¬ c.1 = a := by omega
    simp only [Sparse.get, this, if_false]
    exact ih fun x hx => h x (by simp [hx])

variable [DecidableEq α]

theorem Sparse.get_set_ne (m : List (Nat × α)) {a b : Nat} (v : α) (h : b ≠ a) :
    Sparse.get d (Sparse.set d m a v) b = Sparse.get d m b := by
  have h' : ¬ a = b := fun e => h e.symm
  induction m with
  | nil => by_cases hv : v = d <;> simp [Sparse.set, Sparse.get, hv, h']
  | cons c m ih =>
    unfold Sparse.set
    split
    · split <;> simp [Sparse.get, h']
    · split
      · rename_i hk
        have hb : ¬ c.1 = b := by rw [← hk]; exact h'
        split <;> simp [Sparse.get, hb, h']
      · simp [Sparse.get, ih]

theorem Sparse.mem_set {m : List (Nat × α)} {a : Nat} {v : α} {c : Nat × α}
    (h : c ∈ Sparse.set d m a v) : c ∈ m ∨ c = (a, v) ∧ v ≠ d := by
  induction m with
  | nil =>
    by_cases hv : v = d <;> simp [Sparse.set, hv] at h ⊢
    exact h
  | cons x m ih =>
    unfold Sparse.set at h
    split at h
    · split at h
      · exact .inl h
      · rcases List.mem_cons.1 h with h | h
        · exact .inr ⟨h, by assumption⟩
        · exact .inl h
    · split at h
      · split at h
        · exact .inl (by simp [h])
        · rcases List.mem_cons.1 h with h | h
          · exact .inr ⟨h, by assumption⟩
          · exact .inl (by simp [h])
      · rcases List.mem_cons.1 h with h | h
        · exact .inl (by simp [h])
        · rcases ih h with h | h
          · exact .inl (by simp [h])
          · exact .inr h

theorem Sparse.sorted_set {m : List (Nat × α)} (hm : Sparse.sorted m) (a : Nat) (v : α) :
    Sparse.sorted (Sparse.set d m a v) := by
  induction m with
  | nil => by_cases hv : v = d <;> simp [Sparse.set, hv]
  | cons x m ih =>
    have hx := List.pairwise_cons.1 hm
    unfold Sparse.set
    split
    · split
      · exact hm
      · refine List.pairwise_cons.2 ⟨fun c hc => ?_, hm⟩
        rcases List.mem_cons.1 hc with rfl | hc
        · assumption
        · have := hx.1 c hc; simp only; omega
    · split
      · rename_i he
        split
        · exact hx.2
        · exact List.pairwise_cons.2 ⟨fun c hc => by have := hx.1 c hc; simp only; omega, hx.2⟩
      · refine List.pairwise_cons.2 ⟨fun c hc => ?_, ih hx.2⟩
        rcases Sparse.mem_set hc with hc | ⟨rfl, -⟩
        · exact hx.1 c hc
        · simp only; omega

theorem Sparse.get_set_same {m : List (Nat × α)} (hm : Sparse.sorted m) (a : Nat) (v : α) :
    Sparse.get d (Sparse.set d m a v) a = v := by
  induction m with
  | nil => by_cases hv : v = d <;> simp [Sparse.set, Sparse.get, hv]
  | cons x m ih =>
    have hx := List.pairwise_cons.1 hm
    unfold Sparse.set
    split
    · rename_i hlt
      split
      · rename_i hv
        rw [hv]
        refine Sparse.get_of_forall_lt fun c hc => ?_
        rcases List.mem_cons.1 hc with rfl | hc
        · exact hlt
        · have := hx.1 c hc; omega
      · simp [Sparse.get]
    · split
      · rename_i he
        split
        · rename_i hv
          rw [hv]
          exact Sparse.get_of_forall_lt fun c hc => by have := hx.1 c hc; omega
        · simp [Sparse.get]
      · rename_i hne
        have : ¬ x.1 = a := fun e => hne e.symm
        simp [Sparse.get, this, ih hx.2]

end SparseLaws

/-! ## Host memory -/

theorem Memory.wf_nil : Memory.wf [] := by simp [Memory.wf]

/-- A byte reads as it was written. -/
theorem Memory.read_write_same {m : Memory} (hm : m.wf) (a : Addr) (b : Byte) :
    (m.write a b).read a = b := Sparse.get_set_same hm.1 _ _

/-- A write leaves every other byte alone. -/
theorem Memory.read_write_ne (m : Memory) {a c : Addr} (b : Byte) (h : c ≠ a) :
    (m.write a b).read c = m.read c :=
  Sparse.get_set_ne m b fun e => h (BitVec.eq_of_toNat_eq e)

/-- A write keeps the canonical form. -/
theorem Memory.wf_write {m : Memory} (hm : m.wf) (a : Addr) (b : Byte) : (m.write a b).wf := by
  refine ⟨Sparse.sorted_set hm.1 _ _, fun c hc => ?_⟩
  rcases Sparse.mem_set hc with hc | ⟨rfl, hb⟩
  · exact hm.2 c hc
  · exact ⟨a.isLt, hb⟩

/-- `MemWrite` keeps the canonical form. -/
theorem Memory.wf_writeBytes {m : Memory} (hm : m.wf) (a : Addr) (bs : List Byte) :
    (m.writeBytes a bs).wf := by
  induction bs generalizing m a with
  | nil => exact hm
  | cons b bs ih => exact ih (Memory.wf_write hm a b) (a + 1)

theorem Memory.wf_havoc {m : Memory} (hm : m.wf) (a : Addr) (n draw : Nat) : (m.havoc a n draw).wf :=
  Memory.wf_writeBytes hm _ _

theorem Memory.wf_settle {m : Memory} (hm : m.wf) (draw : Nat) (as : List Nat) : (m.settle draw as).wf := by
  induction as generalizing m with
  | nil => exact hm
  | cons a as ih => exact ih (Memory.wf_write hm _ _)

theorem Memory.wf_clear {m : Memory} (hm : m.wf) (a : Addr) (n : Nat) : (m.clear a n).wf :=
  ⟨hm.1.filter _, fun c hc => hm.2 c (List.mem_of_mem_filter hc)⟩

/-- `MemWrite` leaves the bytes outside its range alone, for a range that does not wrap. -/
theorem Memory.read_writeBytes_outside (m : Memory) (a c : Addr) (bs : List Byte)
    (hw : a.toNat + bs.length ≤ Config.addrSpace)
    (h : c.toNat < a.toNat ∨ a.toNat + bs.length ≤ c.toNat) :
    (m.writeBytes a bs).read c = m.read c := by
  induction bs generalizing m a with
  | nil => rfl
  | cons b bs ih =>
    simp only [List.length_cons, Config.addrSpace] at hw h
    have hne : c ≠ a := by rintro rfl; omega
    rw [Memory.writeBytes]
    by_cases hl : bs = []
    · subst hl; exact Memory.read_write_ne m b hne
    · have hpos : 0 < bs.length := List.length_pos_iff.2 hl
      have ha : (a + 1).toNat = a.toNat + 1 := by
        rw [BitVec.toNat_add]; simp; omega
      rw [ih (m.write a b) (a + 1) (by simp only [Config.addrSpace]; omega) (by omega), Memory.read_write_ne m b hne]

/-- What `havoc` leaves alone. -/
theorem Memory.read_havoc_outside (m : Memory) (a c : Addr) (n draw : Nat)
    (hw : a.toNat + n ≤ Config.addrSpace) (h : c.toNat < a.toNat ∨ a.toNat + n ≤ c.toNat) :
    (m.havoc a n draw).read c = m.read c :=
  Memory.read_writeBytes_outside m a c _ (by simpa using hw) (by simpa using h)

/-- What `settle` leaves alone. -/
theorem Memory.read_settle_outside (m : Memory) (draw : Nat) (as : List Nat) (c : Addr)
    (h : ∀ a ∈ as, BitVec.ofNat 64 a ≠ c) : (m.settle draw as).read c = m.read c := by
  induction as generalizing m with
  | nil => rfl
  | cons a as ih =>
    rw [Memory.settle, ih _ fun x hx => h x (by simp [hx])]
    exact Memory.read_write_ne m _ (Ne.symm (h a (by simp)))

@[simp] theorem Memory.settle_nil (m : Memory) (draw : Nat) : m.settle draw [] = m := rfl

end Sys2Proof.Machine
end

