-- ==== Sys2Proof/Laws/State.lean ====
section
/-! SUPPORT. Every field after every named update of State: one lemma each, true by unfolding, so that a proof
never opens a record update. -/

namespace Sys2Proof.Machine

variable (s : State)

/-! ### pass and beginWork -/
@[simp] theorem DecWork.pass_dstPos (w : DecWork) (p : Phase) : (w.pass p).dstPos = w.dstPos := by unfold DecWork.pass; split <;> rfl
@[simp] theorem DecWork.pass_br (w : DecWork) (p : Phase) : (w.pass p).br = w.br := by unfold DecWork.pass; split <;> rfl
@[simp] theorem DecWork.pass_fr (w : DecWork) (p : Phase) : (w.pass p).fr = w.fr := by unfold DecWork.pass; split <;> rfl
@[simp] theorem DecWork.pass_freqVals (w : DecWork) (p : Phase) : (w.pass p).freqVals = w.freqVals := by unfold DecWork.pass; split <;> rfl
@[simp] theorem DecWork.pass_lanes (w : DecWork) (p : Phase) : (w.pass p).lanes = w.lanes := by unfold DecWork.pass; split <;> rfl
@[simp] theorem DecWork.pass_lState (w : DecWork) (p : Phase) : (w.pass p).lState = w.lState := by unfold DecWork.pass; split <;> rfl
@[simp] theorem DecWork.pass_mState (w : DecWork) (p : Phase) : (w.pass p).mState = w.mState := by unfold DecWork.pass; split <;> rfl
@[simp] theorem DecWork.pass_dState (w : DecWork) (p : Phase) : (w.pass p).dState = w.dState := by unfold DecWork.pass; split <;> rfl
@[simp] theorem DecWork.pass_dCur (w : DecWork) (p : Phase) : (w.pass p).dCur = w.dCur := by unfold DecWork.pass; split <;> rfl

/-- Recording a phase adds it and forgets none. -/
@[simp] theorem DecWork.mem_pass {w : DecWork} {p q : Phase} :
    q ∈ (w.pass p).passed ↔ q = p ∨ q ∈ w.passed := by
  unfold DecWork.pass; split
  · exact ⟨.inr, fun h => h.elim (fun e => e ▸ by assumption) id⟩
  · simp

/-- Only a decode's CORE step records a phase. -/
theorem State.beginWork_cases (s : State) :
    (s.beginWork = s.work ∧ (s.mover = .host ∨ ∀ st, s.seq ≠ .dec st))
    ∨ ∃ st, s.mover = .core ∧ s.seq = .dec st ∧ s.beginWork = s.work.pass s.dec.phase := by
  unfold State.beginWork
  split
  · exact .inr ⟨_, by assumption, by assumption, rfl⟩
  · rename_i h
    refine .inl ⟨rfl, ?_⟩
    cases hm : s.mover
    · exact .inl rfl
    · exact .inr fun st hs => h st hm hs

@[simp] theorem State.beginWork_host {s : State} (h : s.mover = .host) : s.beginWork = s.work := by
  simp [State.beginWork, h]

theorem State.beginWork_dec {s : State} {st : DecStage} (h : s.mover = .core) (hs : s.seq = .dec st) :
    s.beginWork = s.work.pass s.dec.phase := by
  simp [State.beginWork, h, hs]

@[simp] theorem State.beginWork_dstPos : s.beginWork.dstPos = s.work.dstPos := by unfold State.beginWork; split <;> simp
@[simp] theorem State.beginWork_br : s.beginWork.br = s.work.br := by unfold State.beginWork; split <;> simp
@[simp] theorem State.beginWork_fr : s.beginWork.fr = s.work.fr := by unfold State.beginWork; split <;> simp
@[simp] theorem State.beginWork_freqVals : s.beginWork.freqVals = s.work.freqVals := by unfold State.beginWork; split <;> simp
@[simp] theorem State.beginWork_lanes : s.beginWork.lanes = s.work.lanes := by unfold State.beginWork; split <;> simp
@[simp] theorem State.beginWork_lState : s.beginWork.lState = s.work.lState := by unfold State.beginWork; split <;> simp
@[simp] theorem State.beginWork_mState : s.beginWork.mState = s.work.mState := by unfold State.beginWork; split <;> simp
@[simp] theorem State.beginWork_dState : s.beginWork.dState = s.work.dState := by unfold State.beginWork; split <;> simp
@[simp] theorem State.beginWork_dCur : s.beginWork.dCur = s.work.dCur := by unfold State.beginWork; split <;> simp

/-! ### beginTurn -/
@[simp] theorem State.beginTurn_csr : (s.beginTurn).csr = s.csr := rfl
@[simp] theorem State.beginTurn_seq : (s.beginTurn).seq = s.seq := rfl
@[simp] theorem State.beginTurn_dec : (s.beginTurn).dec = s.dec := rfl
@[simp] theorem State.beginTurn_work : (s.beginTurn).work = s.beginWork := rfl
@[simp] theorem State.beginTurn_enc : (s.beginTurn).enc = s.enc := rfl
@[simp] theorem State.beginTurn_mem : (s.beginTurn).mem = s.mem := rfl
@[simp] theorem State.beginTurn_host : (s.beginTurn).host = s.host := rfl
@[simp] theorem State.beginTurn_turns : (s.beginTurn).turns = s.turns.tail := rfl
@[simp] theorem State.beginTurn_platform : (s.beginTurn).platform = s.platform := rfl
@[simp] theorem State.beginTurn_frontEnd : (s.beginTurn).frontEnd = s.frontEnd := rfl
@[simp] theorem State.beginTurn_racedSrc : (s.beginTurn).racedSrc = s.racedSrc := rfl
@[simp] theorem State.beginTurn_racedDst : (s.beginTurn).racedDst = s.racedDst := rfl
@[simp] theorem State.beginTurn_draws : (s.beginTurn).draws = s.draws + 1 := rfl

/-! ### startCommand -/
@[simp] theorem State.startCommand_csr (q : Seq) :
    (s.startCommand q).csr = { s.csr with state := .busy, errCode := .none } := rfl
@[simp] theorem State.startCommand_seq (q : Seq) : (s.startCommand q).seq = q := rfl
@[simp] theorem State.startCommand_dec (q : Seq) : (s.startCommand q).dec = s.dec := rfl
@[simp] theorem State.startCommand_work (q : Seq) : (s.startCommand q).work = s.work := rfl
@[simp] theorem State.startCommand_enc (q : Seq) : (s.startCommand q).enc = s.enc := rfl
@[simp] theorem State.startCommand_mem (q : Seq) : (s.startCommand q).mem = s.mem := rfl
@[simp] theorem State.startCommand_host (q : Seq) : (s.startCommand q).host = s.host := rfl
@[simp] theorem State.startCommand_turns (q : Seq) : (s.startCommand q).turns = s.turns := rfl
@[simp] theorem State.startCommand_platform (q : Seq) : (s.startCommand q).platform = s.platform := rfl
@[simp] theorem State.startCommand_frontEnd (q : Seq) : (s.startCommand q).frontEnd = s.frontEnd := rfl
@[simp] theorem State.startCommand_racedSrc (q : Seq) : (s.startCommand q).racedSrc = s.racedSrc := rfl
@[simp] theorem State.startCommand_racedDst (q : Seq) : (s.startCommand q).racedDst = s.racedDst := rfl
@[simp] theorem State.startCommand_draws (q : Seq) : (s.startCommand q).draws = s.draws := rfl

/-! ### endCommand -/
@[simp] theorem State.endCommand_csr (st : RunState) (code : ErrCode) (ph : Phase) :
    (s.endCommand st code ph).csr = { s.csr with state := st, errCode := code, decPhase := ph, cmdDone := true } := rfl
@[simp] theorem State.endCommand_seq (st : RunState) (code : ErrCode) (ph : Phase) :
    (s.endCommand st code ph).seq = .rest := rfl
@[simp] theorem State.endCommand_dec (st : RunState) (code : ErrCode) (ph : Phase) :
    (s.endCommand st code ph).dec = s.dec := rfl
@[simp] theorem State.endCommand_work (st : RunState) (code : ErrCode) (ph : Phase) :
    (s.endCommand st code ph).work = s.work := rfl
@[simp] theorem State.endCommand_enc (st : RunState) (code : ErrCode) (ph : Phase) :
    (s.endCommand st code ph).enc = s.enc := rfl
@[simp] theorem State.endCommand_mem (st : RunState) (code : ErrCode) (ph : Phase) :
    (s.endCommand st code ph).mem = s.mem := rfl
@[simp] theorem State.endCommand_host (st : RunState) (code : ErrCode) (ph : Phase) :
    (s.endCommand st code ph).host = s.host := rfl
@[simp] theorem State.endCommand_turns (st : RunState) (code : ErrCode) (ph : Phase) :
    (s.endCommand st code ph).turns = s.turns := rfl
@[simp] theorem State.endCommand_platform (st : RunState) (code : ErrCode) (ph : Phase) :
    (s.endCommand st code ph).platform = s.platform := rfl
@[simp] theorem State.endCommand_frontEnd (st : RunState) (code : ErrCode) (ph : Phase) :
    (s.endCommand st code ph).frontEnd = s.frontEnd := rfl
@[simp] theorem State.endCommand_racedSrc (st : RunState) (code : ErrCode) (ph : Phase) :
    (s.endCommand st code ph).racedSrc = s.racedSrc := rfl
@[simp] theorem State.endCommand_racedDst (st : RunState) (code : ErrCode) (ph : Phase) :
    (s.endCommand st code ph).racedDst = s.racedDst := rfl
@[simp] theorem State.endCommand_draws (st : RunState) (code : ErrCode) (ph : Phase) :
    (s.endCommand st code ph).draws = s.draws := rfl

/-! ### endRun -/
@[simp] theorem State.endRun_csr (st : RunState) (code : ErrCode) (ph : Phase) :
    (s.endRun st code ph).csr = { s.csr with state := st, errCode := code, decPhase := ph, cmdDone := true } := rfl
@[simp] theorem State.endRun_seq (st : RunState) (code : ErrCode) (ph : Phase) :
    (s.endRun st code ph).seq = .rest := rfl
@[simp] theorem State.endRun_dec (st : RunState) (code : ErrCode) (ph : Phase) :
    (s.endRun st code ph).dec = s.dec := rfl
@[simp] theorem State.endRun_work (st : RunState) (code : ErrCode) (ph : Phase) :
    (s.endRun st code ph).work = .empty := rfl
@[simp] theorem State.endRun_enc (st : RunState) (code : ErrCode) (ph : Phase) :
    (s.endRun st code ph).enc = .empty := rfl
@[simp] theorem State.endRun_mem (st : RunState) (code : ErrCode) (ph : Phase) :
    (s.endRun st code ph).mem = s.mem.settle s.draws s.racedDst := rfl
@[simp] theorem State.endRun_host (st : RunState) (code : ErrCode) (ph : Phase) :
    (s.endRun st code ph).host = s.host := rfl
@[simp] theorem State.endRun_turns (st : RunState) (code : ErrCode) (ph : Phase) :
    (s.endRun st code ph).turns = s.turns := rfl
@[simp] theorem State.endRun_platform (st : RunState) (code : ErrCode) (ph : Phase) :
    (s.endRun st code ph).platform = s.platform := rfl
@[simp] theorem State.endRun_frontEnd (st : RunState) (code : ErrCode) (ph : Phase) :
    (s.endRun st code ph).frontEnd = s.frontEnd := rfl
@[simp] theorem State.endRun_racedSrc (st : RunState) (code : ErrCode) (ph : Phase) :
    (s.endRun st code ph).racedSrc = s.racedSrc := rfl
@[simp] theorem State.endRun_racedDst (st : RunState) (code : ErrCode) (ph : Phase) :
    (s.endRun st code ph).racedDst = [] := rfl
@[simp] theorem State.endRun_draws (st : RunState) (code : ErrCode) (ph : Phase) :
    (s.endRun st code ph).draws = s.draws := rfl

/-! ### setResult -/
@[simp] theorem State.setResult_csr (n : Nat) :
    (s.setResult n).csr = { s.csr with result := BitVec.ofNat 32 n } := rfl
@[simp] theorem State.setResult_seq (n : Nat) : (s.setResult n).seq = s.seq := rfl
@[simp] theorem State.setResult_dec (n : Nat) : (s.setResult n).dec = s.dec := rfl
@[simp] theorem State.setResult_work (n : Nat) : (s.setResult n).work = s.work := rfl
@[simp] theorem State.setResult_enc (n : Nat) : (s.setResult n).enc = s.enc := rfl
@[simp] theorem State.setResult_mem (n : Nat) : (s.setResult n).mem = s.mem := rfl
@[simp] theorem State.setResult_host (n : Nat) : (s.setResult n).host = s.host := rfl
@[simp] theorem State.setResult_turns (n : Nat) : (s.setResult n).turns = s.turns := rfl
@[simp] theorem State.setResult_platform (n : Nat) : (s.setResult n).platform = s.platform := rfl
@[simp] theorem State.setResult_frontEnd (n : Nat) : (s.setResult n).frontEnd = s.frontEnd := rfl
@[simp] theorem State.setResult_racedSrc (n : Nat) : (s.setResult n).racedSrc = s.racedSrc := rfl
@[simp] theorem State.setResult_racedDst (n : Nat) : (s.setResult n).racedDst = s.racedDst := rfl
@[simp] theorem State.setResult_draws (n : Nat) : (s.setResult n).draws = s.draws := rfl

/-! ### setErrInfo -/
@[simp] theorem State.setErrInfo_csr (n : Nat) :
    (s.setErrInfo n).csr = { s.csr with errInfo := BitVec.ofNat 32 n } := rfl
@[simp] theorem State.setErrInfo_seq (n : Nat) : (s.setErrInfo n).seq = s.seq := rfl
@[simp] theorem State.setErrInfo_dec (n : Nat) : (s.setErrInfo n).dec = s.dec := rfl
@[simp] theorem State.setErrInfo_work (n : Nat) : (s.setErrInfo n).work = s.work := rfl
@[simp] theorem State.setErrInfo_enc (n : Nat) : (s.setErrInfo n).enc = s.enc := rfl
@[simp] theorem State.setErrInfo_mem (n : Nat) : (s.setErrInfo n).mem = s.mem := rfl
@[simp] theorem State.setErrInfo_host (n : Nat) : (s.setErrInfo n).host = s.host := rfl
@[simp] theorem State.setErrInfo_turns (n : Nat) : (s.setErrInfo n).turns = s.turns := rfl
@[simp] theorem State.setErrInfo_platform (n : Nat) : (s.setErrInfo n).platform = s.platform := rfl
@[simp] theorem State.setErrInfo_frontEnd (n : Nat) : (s.setErrInfo n).frontEnd = s.frontEnd := rfl
@[simp] theorem State.setErrInfo_racedSrc (n : Nat) : (s.setErrInfo n).racedSrc = s.racedSrc := rfl
@[simp] theorem State.setErrInfo_racedDst (n : Nat) : (s.setErrInfo n).racedDst = s.racedDst := rfl
@[simp] theorem State.setErrInfo_draws (n : Nat) : (s.setErrInfo n).draws = s.draws := rfl

/-! ### loadCounters -/
@[simp] theorem State.loadCounters_csr :
    (s.loadCounters).csr = { s.csr with outTotal := BitVec.ofNat 64 s.dec.outTotal, srcPos := BitVec.ofNat 32 s.dec.srcPos } := rfl
@[simp] theorem State.loadCounters_seq : (s.loadCounters).seq = s.seq := rfl
@[simp] theorem State.loadCounters_dec : (s.loadCounters).dec = s.dec := rfl
@[simp] theorem State.loadCounters_work : (s.loadCounters).work = s.work := rfl
@[simp] theorem State.loadCounters_enc : (s.loadCounters).enc = s.enc := rfl
@[simp] theorem State.loadCounters_mem : (s.loadCounters).mem = s.mem := rfl
@[simp] theorem State.loadCounters_host : (s.loadCounters).host = s.host := rfl
@[simp] theorem State.loadCounters_turns : (s.loadCounters).turns = s.turns := rfl
@[simp] theorem State.loadCounters_platform : (s.loadCounters).platform = s.platform := rfl
@[simp] theorem State.loadCounters_frontEnd : (s.loadCounters).frontEnd = s.frontEnd := rfl
@[simp] theorem State.loadCounters_racedSrc : (s.loadCounters).racedSrc = s.racedSrc := rfl
@[simp] theorem State.loadCounters_racedDst : (s.loadCounters).racedDst = s.racedDst := rfl
@[simp] theorem State.loadCounters_draws : (s.loadCounters).draws = s.draws := rfl

/-! ### setPhase -/
@[simp] theorem State.setPhase_csr (ph : Phase) : (s.setPhase ph).csr = s.csr := rfl
@[simp] theorem State.setPhase_seq (ph : Phase) : (s.setPhase ph).seq = s.seq := rfl
@[simp] theorem State.setPhase_dec (ph : Phase) : (s.setPhase ph).dec = { s.dec with phase := ph } := rfl
@[simp] theorem State.setPhase_work (ph : Phase) : (s.setPhase ph).work = s.work := rfl
@[simp] theorem State.setPhase_enc (ph : Phase) : (s.setPhase ph).enc = s.enc := rfl
@[simp] theorem State.setPhase_mem (ph : Phase) : (s.setPhase ph).mem = s.mem := rfl
@[simp] theorem State.setPhase_host (ph : Phase) : (s.setPhase ph).host = s.host := rfl
@[simp] theorem State.setPhase_turns (ph : Phase) : (s.setPhase ph).turns = s.turns := rfl
@[simp] theorem State.setPhase_platform (ph : Phase) : (s.setPhase ph).platform = s.platform := rfl
@[simp] theorem State.setPhase_frontEnd (ph : Phase) : (s.setPhase ph).frontEnd = s.frontEnd := rfl
@[simp] theorem State.setPhase_racedSrc (ph : Phase) : (s.setPhase ph).racedSrc = s.racedSrc := rfl
@[simp] theorem State.setPhase_racedDst (ph : Phase) : (s.setPhase ph).racedDst = s.racedDst := rfl
@[simp] theorem State.setPhase_draws (ph : Phase) : (s.setPhase ph).draws = s.draws := rfl

/-! ### setValid -/
@[simp] theorem State.setValid_csr (v : Bool) : (s.setValid v).csr = s.csr := rfl
@[simp] theorem State.setValid_seq (v : Bool) : (s.setValid v).seq = s.seq := rfl
@[simp] theorem State.setValid_dec (v : Bool) : (s.setValid v).dec = { s.dec with valid := v } := rfl
@[simp] theorem State.setValid_work (v : Bool) : (s.setValid v).work = s.work := rfl
@[simp] theorem State.setValid_enc (v : Bool) : (s.setValid v).enc = s.enc := rfl
@[simp] theorem State.setValid_mem (v : Bool) : (s.setValid v).mem = s.mem := rfl
@[simp] theorem State.setValid_host (v : Bool) : (s.setValid v).host = s.host := rfl
@[simp] theorem State.setValid_turns (v : Bool) : (s.setValid v).turns = s.turns := rfl
@[simp] theorem State.setValid_platform (v : Bool) : (s.setValid v).platform = s.platform := rfl
@[simp] theorem State.setValid_frontEnd (v : Bool) : (s.setValid v).frontEnd = s.frontEnd := rfl
@[simp] theorem State.setValid_racedSrc (v : Bool) : (s.setValid v).racedSrc = s.racedSrc := rfl
@[simp] theorem State.setValid_racedDst (v : Bool) : (s.setValid v).racedDst = s.racedDst := rfl
@[simp] theorem State.setValid_draws (v : Bool) : (s.setValid v).draws = s.draws := rfl

/-! ### put -/
@[simp] theorem State.put_csr (b : Byte) : (s.put b).csr = s.csr := rfl
@[simp] theorem State.put_seq (b : Byte) : (s.put b).seq = s.seq := rfl
@[simp] theorem State.put_dec (b : Byte) :
    (s.put b).dec = { s.dec with outTotal := s.dec.outTotal + 1, histWin := (b :: s.dec.histWin).take Config.histWindow } := rfl
@[simp] theorem State.put_work (b : Byte) :
    (s.put b).work = { s.work with dstPos := s.work.dstPos + 1 } := rfl
@[simp] theorem State.put_enc (b : Byte) : (s.put b).enc = s.enc := rfl
@[simp] theorem State.put_mem (b : Byte) :
    (s.put b).mem = s.mem.write (s.csr.dstAddr + BitVec.ofNat 64 s.work.dstPos) b := rfl
@[simp] theorem State.put_host (b : Byte) : (s.put b).host = s.host := rfl
@[simp] theorem State.put_turns (b : Byte) : (s.put b).turns = s.turns := rfl
@[simp] theorem State.put_platform (b : Byte) : (s.put b).platform = s.platform := rfl
@[simp] theorem State.put_frontEnd (b : Byte) : (s.put b).frontEnd = s.frontEnd := rfl
@[simp] theorem State.put_racedSrc (b : Byte) : (s.put b).racedSrc = s.racedSrc := rfl
@[simp] theorem State.put_racedDst (b : Byte) : (s.put b).racedDst = s.racedDst := rfl
@[simp] theorem State.put_draws (b : Byte) : (s.put b).draws = s.draws := rfl

/-! ### decGoto -/
@[simp] theorem State.decGoto_csr (st : DecStage) : (s.decGoto st).csr = s.csr := rfl
@[simp] theorem State.decGoto_seq (st : DecStage) : (s.decGoto st).seq = .dec st := rfl
@[simp] theorem State.decGoto_dec (st : DecStage) : (s.decGoto st).dec = s.dec := rfl
@[simp] theorem State.decGoto_work (st : DecStage) : (s.decGoto st).work = s.work := rfl
@[simp] theorem State.decGoto_enc (st : DecStage) : (s.decGoto st).enc = s.enc := rfl
@[simp] theorem State.decGoto_mem (st : DecStage) : (s.decGoto st).mem = s.mem := rfl
@[simp] theorem State.decGoto_host (st : DecStage) : (s.decGoto st).host = s.host := rfl
@[simp] theorem State.decGoto_turns (st : DecStage) : (s.decGoto st).turns = s.turns := rfl
@[simp] theorem State.decGoto_platform (st : DecStage) : (s.decGoto st).platform = s.platform := rfl
@[simp] theorem State.decGoto_frontEnd (st : DecStage) : (s.decGoto st).frontEnd = s.frontEnd := rfl
@[simp] theorem State.decGoto_racedSrc (st : DecStage) : (s.decGoto st).racedSrc = s.racedSrc := rfl
@[simp] theorem State.decGoto_racedDst (st : DecStage) : (s.decGoto st).racedDst = s.racedDst := rfl
@[simp] theorem State.decGoto_draws (st : DecStage) : (s.decGoto st).draws = s.draws := rfl

/-! ### encGoto -/
@[simp] theorem State.encGoto_csr (st : EncStage) (e : Encoder) : (s.encGoto st e).csr = s.csr := rfl
@[simp] theorem State.encGoto_seq (st : EncStage) (e : Encoder) : (s.encGoto st e).seq = .enc st := rfl
@[simp] theorem State.encGoto_dec (st : EncStage) (e : Encoder) : (s.encGoto st e).dec = s.dec := rfl
@[simp] theorem State.encGoto_work (st : EncStage) (e : Encoder) : (s.encGoto st e).work = s.work := rfl
@[simp] theorem State.encGoto_enc (st : EncStage) (e : Encoder) : (s.encGoto st e).enc = e := rfl
@[simp] theorem State.encGoto_mem (st : EncStage) (e : Encoder) : (s.encGoto st e).mem = s.mem := rfl
@[simp] theorem State.encGoto_host (st : EncStage) (e : Encoder) : (s.encGoto st e).host = s.host := rfl
@[simp] theorem State.encGoto_turns (st : EncStage) (e : Encoder) : (s.encGoto st e).turns = s.turns := rfl
@[simp] theorem State.encGoto_platform (st : EncStage) (e : Encoder) :
    (s.encGoto st e).platform = s.platform := rfl
@[simp] theorem State.encGoto_frontEnd (st : EncStage) (e : Encoder) :
    (s.encGoto st e).frontEnd = s.frontEnd := rfl
@[simp] theorem State.encGoto_racedSrc (st : EncStage) (e : Encoder) :
    (s.encGoto st e).racedSrc = s.racedSrc := rfl
@[simp] theorem State.encGoto_racedDst (st : EncStage) (e : Encoder) :
    (s.encGoto st e).racedDst = s.racedDst := rfl
@[simp] theorem State.encGoto_draws (st : EncStage) (e : Encoder) : (s.encGoto st e).draws = s.draws := rfl

/-! ### observe -/
@[simp] theorem State.observe_csr (o : Observation) : (s.observe o).csr = s.csr := rfl
@[simp] theorem State.observe_seq (o : Observation) : (s.observe o).seq = s.seq := rfl
@[simp] theorem State.observe_dec (o : Observation) : (s.observe o).dec = s.dec := rfl
@[simp] theorem State.observe_work (o : Observation) : (s.observe o).work = s.work := rfl
@[simp] theorem State.observe_enc (o : Observation) : (s.observe o).enc = s.enc := rfl
@[simp] theorem State.observe_mem (o : Observation) : (s.observe o).mem = s.mem := rfl
@[simp] theorem State.observe_host (o : Observation) :
    (s.observe o).host = { s.host with log := o :: s.host.log } := rfl
@[simp] theorem State.observe_turns (o : Observation) : (s.observe o).turns = s.turns := rfl
@[simp] theorem State.observe_platform (o : Observation) : (s.observe o).platform = s.platform := rfl
@[simp] theorem State.observe_frontEnd (o : Observation) : (s.observe o).frontEnd = s.frontEnd := rfl
@[simp] theorem State.observe_racedSrc (o : Observation) : (s.observe o).racedSrc = s.racedSrc := rfl
@[simp] theorem State.observe_racedDst (o : Observation) : (s.observe o).racedDst = s.racedDst := rfl
@[simp] theorem State.observe_draws (o : Observation) : (s.observe o).draws = s.draws := rfl

/-! ### blockDone -/
@[simp] theorem State.blockDone_csr : (s.blockDone).csr = s.csr := rfl
@[simp] theorem State.blockDone_seq : (s.blockDone).seq = s.seq := rfl
@[simp] theorem State.blockDone_dec :
    (s.blockDone).dec = { s.dec with srcPos := s.dec.blkEnd, phase := .atBlockStart } := rfl
@[simp] theorem State.blockDone_work : (s.blockDone).work = s.work := rfl
@[simp] theorem State.blockDone_enc : (s.blockDone).enc = s.enc := rfl
@[simp] theorem State.blockDone_mem : (s.blockDone).mem = s.mem := rfl
@[simp] theorem State.blockDone_host : (s.blockDone).host = s.host := rfl
@[simp] theorem State.blockDone_turns : (s.blockDone).turns = s.turns := rfl
@[simp] theorem State.blockDone_platform : (s.blockDone).platform = s.platform := rfl
@[simp] theorem State.blockDone_frontEnd : (s.blockDone).frontEnd = s.frontEnd := rfl
@[simp] theorem State.blockDone_racedSrc : (s.blockDone).racedSrc = s.racedSrc := rfl
@[simp] theorem State.blockDone_racedDst : (s.blockDone).racedDst = s.racedDst := rfl
@[simp] theorem State.blockDone_draws : (s.blockDone).draws = s.draws := rfl

/-! ### startDecode -/
@[simp] theorem State.startDecode_csr :
    (s.startDecode).csr = { s.csr with state := .busy, errCode := .none } := rfl
@[simp] theorem State.startDecode_seq : (s.startDecode).seq = .dec .run := rfl
@[simp] theorem State.startDecode_dec :
    (s.startDecode).dec = s.dec.started s.csr.srcAddr s.csr.srcSize.toNat := rfl
@[simp] theorem State.startDecode_work : (s.startDecode).work = .empty := rfl
@[simp] theorem State.startDecode_enc : (s.startDecode).enc = s.enc := rfl
@[simp] theorem State.startDecode_mem : (s.startDecode).mem = s.mem := rfl
@[simp] theorem State.startDecode_host : (s.startDecode).host = s.host := rfl
@[simp] theorem State.startDecode_turns : (s.startDecode).turns = s.turns := rfl
@[simp] theorem State.startDecode_platform : (s.startDecode).platform = s.platform := rfl
@[simp] theorem State.startDecode_frontEnd : (s.startDecode).frontEnd = s.frontEnd := rfl
@[simp] theorem State.startDecode_racedSrc : (s.startDecode).racedSrc = [] := rfl
@[simp] theorem State.startDecode_racedDst : (s.startDecode).racedDst = [] := rfl
@[simp] theorem State.startDecode_draws : (s.startDecode).draws = s.draws := rfl

/-! ### startResume -/
@[simp] theorem State.startResume_csr :
    (s.startResume).csr = { s.csr with state := .busy, errCode := .none } := rfl
@[simp] theorem State.startResume_seq : (s.startResume).seq = .dec .run := rfl
@[simp] theorem State.startResume_dec : (s.startResume).dec = s.dec := rfl
@[simp] theorem State.startResume_work : (s.startResume).work = .empty := rfl
@[simp] theorem State.startResume_enc : (s.startResume).enc = s.enc := rfl
@[simp] theorem State.startResume_mem : (s.startResume).mem = s.mem := rfl
@[simp] theorem State.startResume_host : (s.startResume).host = s.host := rfl
@[simp] theorem State.startResume_turns : (s.startResume).turns = s.turns := rfl
@[simp] theorem State.startResume_platform : (s.startResume).platform = s.platform := rfl
@[simp] theorem State.startResume_frontEnd : (s.startResume).frontEnd = s.frontEnd := rfl
@[simp] theorem State.startResume_racedSrc : (s.startResume).racedSrc = s.racedSrc := rfl
@[simp] theorem State.startResume_racedDst : (s.startResume).racedDst = [] := rfl
@[simp] theorem State.startResume_draws : (s.startResume).draws = s.draws := rfl

/-! ### startEncode -/
@[simp] theorem State.startEncode_csr :
    (s.startEncode).csr = { s.csr with state := .busy, errCode := .none } := rfl
@[simp] theorem State.startEncode_seq : (s.startEncode).seq = .enc .choose := rfl
@[simp] theorem State.startEncode_dec : (s.startEncode).dec = { s.dec with valid := false } := rfl
@[simp] theorem State.startEncode_work : (s.startEncode).work = s.work := rfl
@[simp] theorem State.startEncode_enc : (s.startEncode).enc = .empty := rfl
@[simp] theorem State.startEncode_mem : (s.startEncode).mem = s.mem := rfl
@[simp] theorem State.startEncode_host : (s.startEncode).host = s.host := rfl
@[simp] theorem State.startEncode_turns : (s.startEncode).turns = s.turns := rfl
@[simp] theorem State.startEncode_platform : (s.startEncode).platform = s.platform := rfl
@[simp] theorem State.startEncode_frontEnd : (s.startEncode).frontEnd = s.frontEnd := rfl
@[simp] theorem State.startEncode_racedSrc : (s.startEncode).racedSrc = [] := rfl
@[simp] theorem State.startEncode_racedDst : (s.startEncode).racedDst = [] := rfl
@[simp] theorem State.startEncode_draws : (s.startEncode).draws = s.draws := rfl

/-! ### cmdErr -/
@[simp] theorem State.cmdErr_csr (code : ErrCode) :
    (s.cmdErr code).csr = { s.csr with state := .error, errCode := code, decPhase := .atBlockStart, cmdDone := true, result := 0, errInfo := 0 } := rfl
@[simp] theorem State.cmdErr_seq (code : ErrCode) : (s.cmdErr code).seq = .rest := rfl
@[simp] theorem State.cmdErr_dec (code : ErrCode) : (s.cmdErr code).dec = s.dec := rfl
@[simp] theorem State.cmdErr_work (code : ErrCode) : (s.cmdErr code).work = s.work := rfl
@[simp] theorem State.cmdErr_enc (code : ErrCode) : (s.cmdErr code).enc = s.enc := rfl
@[simp] theorem State.cmdErr_mem (code : ErrCode) : (s.cmdErr code).mem = s.mem := rfl
@[simp] theorem State.cmdErr_host (code : ErrCode) : (s.cmdErr code).host = s.host := rfl
@[simp] theorem State.cmdErr_turns (code : ErrCode) : (s.cmdErr code).turns = s.turns := rfl
@[simp] theorem State.cmdErr_platform (code : ErrCode) : (s.cmdErr code).platform = s.platform := rfl
@[simp] theorem State.cmdErr_frontEnd (code : ErrCode) : (s.cmdErr code).frontEnd = s.frontEnd := rfl
@[simp] theorem State.cmdErr_racedSrc (code : ErrCode) : (s.cmdErr code).racedSrc = s.racedSrc := rfl
@[simp] theorem State.cmdErr_racedDst (code : ErrCode) : (s.cmdErr code).racedDst = s.racedDst := rfl
@[simp] theorem State.cmdErr_draws (code : ErrCode) : (s.cmdErr code).draws = s.draws := rfl

/-! ### endDecode -/
@[simp] theorem State.endDecode_csr :
    (s.endDecode).csr = { s.csr with state := .done, errCode := .none, decPhase := .done, cmdDone := true, result := BitVec.ofNat 32 s.work.dstPos, outTotal := BitVec.ofNat 64 s.dec.outTotal, srcPos := BitVec.ofNat 32 s.dec.srcPos } := rfl
@[simp] theorem State.endDecode_seq : (s.endDecode).seq = .rest := rfl
@[simp] theorem State.endDecode_dec : (s.endDecode).dec = { s.dec with phase := .done, valid := false } := rfl
@[simp] theorem State.endDecode_work : (s.endDecode).work = .empty := rfl
@[simp] theorem State.endDecode_enc : (s.endDecode).enc = .empty := rfl
@[simp] theorem State.endDecode_mem : (s.endDecode).mem = s.mem.settle s.draws s.racedDst := rfl
@[simp] theorem State.endDecode_host : (s.endDecode).host = s.host := rfl
@[simp] theorem State.endDecode_turns : (s.endDecode).turns = s.turns := rfl
@[simp] theorem State.endDecode_platform : (s.endDecode).platform = s.platform := rfl
@[simp] theorem State.endDecode_frontEnd : (s.endDecode).frontEnd = s.frontEnd := rfl
@[simp] theorem State.endDecode_racedSrc : (s.endDecode).racedSrc = s.racedSrc := rfl
@[simp] theorem State.endDecode_racedDst : (s.endDecode).racedDst = [] := rfl
@[simp] theorem State.endDecode_draws : (s.endDecode).draws = s.draws := rfl

/-! ### pause -/
@[simp] theorem State.pause_csr :
    (s.pause).csr = { s.csr with state := .dstFull, errCode := .none, decPhase := s.dec.phase, cmdDone := true, result := BitVec.ofNat 32 s.work.dstPos, outTotal := BitVec.ofNat 64 s.dec.outTotal, srcPos := BitVec.ofNat 32 s.dec.srcPos } := rfl
@[simp] theorem State.pause_seq : (s.pause).seq = .rest := rfl
@[simp] theorem State.pause_dec : (s.pause).dec = { s.dec with valid := true } := rfl
@[simp] theorem State.pause_work : (s.pause).work = .empty := rfl
@[simp] theorem State.pause_enc : (s.pause).enc = .empty := rfl
@[simp] theorem State.pause_mem : (s.pause).mem = s.mem.settle s.draws s.racedDst := rfl
@[simp] theorem State.pause_host : (s.pause).host = s.host := rfl
@[simp] theorem State.pause_turns : (s.pause).turns = s.turns := rfl
@[simp] theorem State.pause_platform : (s.pause).platform = s.platform := rfl
@[simp] theorem State.pause_frontEnd : (s.pause).frontEnd = s.frontEnd := rfl
@[simp] theorem State.pause_racedSrc : (s.pause).racedSrc = s.racedSrc := rfl
@[simp] theorem State.pause_racedDst : (s.pause).racedDst = [] := rfl
@[simp] theorem State.pause_draws : (s.pause).draws = s.draws := rfl

/-! ### endEncode -/
@[simp] theorem State.endEncode_csr (n : Nat) :
    (s.endEncode n).csr = { s.csr with state := .done, errCode := .none, decPhase := .atBlockStart, cmdDone := true, result := BitVec.ofNat 32 n } := rfl
@[simp] theorem State.endEncode_seq (n : Nat) : (s.endEncode n).seq = .rest := rfl
@[simp] theorem State.endEncode_dec (n : Nat) : (s.endEncode n).dec = s.dec := rfl
@[simp] theorem State.endEncode_work (n : Nat) : (s.endEncode n).work = .empty := rfl
@[simp] theorem State.endEncode_enc (n : Nat) : (s.endEncode n).enc = .empty := rfl
@[simp] theorem State.endEncode_mem (n : Nat) : (s.endEncode n).mem = s.mem.settle s.draws s.racedDst := rfl
@[simp] theorem State.endEncode_host (n : Nat) : (s.endEncode n).host = s.host := rfl
@[simp] theorem State.endEncode_turns (n : Nat) : (s.endEncode n).turns = s.turns := rfl
@[simp] theorem State.endEncode_platform (n : Nat) : (s.endEncode n).platform = s.platform := rfl
@[simp] theorem State.endEncode_frontEnd (n : Nat) : (s.endEncode n).frontEnd = s.frontEnd := rfl
@[simp] theorem State.endEncode_racedSrc (n : Nat) : (s.endEncode n).racedSrc = s.racedSrc := rfl
@[simp] theorem State.endEncode_racedDst (n : Nat) : (s.endEncode n).racedDst = [] := rfl
@[simp] theorem State.endEncode_draws (n : Nat) : (s.endEncode n).draws = s.draws := rfl

/-! ### raiseDec -/
@[simp] theorem State.raiseDec_csr (code : ErrCode) :
    (s.raiseDec code).csr = { s.csr with state := .error, errCode := code, decPhase := .error, cmdDone := true, result := 0, errInfo := BitVec.ofNat 32 s.dec.blkStart, outTotal := BitVec.ofNat 64 s.dec.outTotal, srcPos := BitVec.ofNat 32 s.dec.srcPos } := rfl
@[simp] theorem State.raiseDec_seq (code : ErrCode) : (s.raiseDec code).seq = .rest := rfl
@[simp] theorem State.raiseDec_dec (code : ErrCode) :
    (s.raiseDec code).dec = { s.dec with phase := .error, valid := false } := rfl
@[simp] theorem State.raiseDec_work (code : ErrCode) : (s.raiseDec code).work = .empty := rfl
@[simp] theorem State.raiseDec_enc (code : ErrCode) : (s.raiseDec code).enc = .empty := rfl
@[simp] theorem State.raiseDec_mem (code : ErrCode) :
    (s.raiseDec code).mem = (s.mem.havoc s.csr.dstAddr s.work.dstPos s.draws).settle s.draws s.racedDst := rfl
@[simp] theorem State.raiseDec_host (code : ErrCode) : (s.raiseDec code).host = s.host := rfl
@[simp] theorem State.raiseDec_turns (code : ErrCode) : (s.raiseDec code).turns = s.turns := rfl
@[simp] theorem State.raiseDec_platform (code : ErrCode) : (s.raiseDec code).platform = s.platform := rfl
@[simp] theorem State.raiseDec_frontEnd (code : ErrCode) : (s.raiseDec code).frontEnd = s.frontEnd := rfl
@[simp] theorem State.raiseDec_racedSrc (code : ErrCode) : (s.raiseDec code).racedSrc = s.racedSrc := rfl
@[simp] theorem State.raiseDec_racedDst (code : ErrCode) : (s.raiseDec code).racedDst = [] := rfl
@[simp] theorem State.raiseDec_draws (code : ErrCode) : (s.raiseDec code).draws = s.draws := rfl

/-! ### raiseEnc -/
@[simp] theorem State.raiseEnc_csr (code : ErrCode) :
    (s.raiseEnc code).csr = { s.csr with state := .error, errCode := code, decPhase := .atBlockStart, cmdDone := true, result := 0, errInfo := 0 } := rfl
@[simp] theorem State.raiseEnc_seq (code : ErrCode) : (s.raiseEnc code).seq = .rest := rfl
@[simp] theorem State.raiseEnc_dec (code : ErrCode) : (s.raiseEnc code).dec = s.dec := rfl
@[simp] theorem State.raiseEnc_work (code : ErrCode) : (s.raiseEnc code).work = .empty := rfl
@[simp] theorem State.raiseEnc_enc (code : ErrCode) : (s.raiseEnc code).enc = .empty := rfl
@[simp] theorem State.raiseEnc_mem (code : ErrCode) :
    (s.raiseEnc code).mem = (s.mem.havoc s.csr.dstAddr s.csr.dstSize.toNat s.draws).settle s.draws s.racedDst := rfl
@[simp] theorem State.raiseEnc_host (code : ErrCode) : (s.raiseEnc code).host = s.host := rfl
@[simp] theorem State.raiseEnc_turns (code : ErrCode) : (s.raiseEnc code).turns = s.turns := rfl
@[simp] theorem State.raiseEnc_platform (code : ErrCode) : (s.raiseEnc code).platform = s.platform := rfl
@[simp] theorem State.raiseEnc_frontEnd (code : ErrCode) : (s.raiseEnc code).frontEnd = s.frontEnd := rfl
@[simp] theorem State.raiseEnc_racedSrc (code : ErrCode) : (s.raiseEnc code).racedSrc = s.racedSrc := rfl
@[simp] theorem State.raiseEnc_racedDst (code : ErrCode) : (s.raiseEnc code).racedDst = [] := rfl
@[simp] theorem State.raiseEnc_draws (code : ErrCode) : (s.raiseEnc code).draws = s.draws := rfl

end Sys2Proof.Machine
end

