-- ==== Sys2Proof/Laws/Ops.lean ====
section
/-! SUPPORT. What each shared operation can do, said once: goings-on, stops, emissions, command issue, the
turns, and which error codes each check raises. -/

namespace Sys2Proof.Machine

/-! ## Goings-on and stops -/

@[simp] theorem State.andThen_ok {α : Type} (s : State) (a : α) (k : α → Result) :
    s.andThen (.ok a) k = k a := rfl

@[simp] theorem State.andThen_err {α : Type} (s : State) (c : ErrCode) (k : α → Result) :
    s.andThen (.error (.err c)) k = .next (s.raiseErr c) := rfl

@[simp] theorem State.andThen_fault {α : Type} (s : State) (f : Fault) (k : α → Result) :
    s.andThen (.error (.fault f)) k = .fault f := rfl

/-- A next state after a checked rule is the rule's own, or the error it raised. -/
theorem State.andThen_next {α : Type} {s t : State} {r : Except Halt α} {k : α → Result}
    (h : s.andThen r k = .next t) :
    (∃ a, r = .ok a ∧ k a = .next t) ∨ ∃ c, r = .error (.err c) ∧ t = s.raiseErr c := by
  rcases r with (c | f) | a
  · exact .inr ⟨c, rfl, (Host.Outcome.next.inj h).symm⟩
  · exact absurd h (by simp [State.andThen, State.halt])
  · exact .inl ⟨a, rfl, h⟩

theorem readItem_ok {α : Type} {item : Item} {xs : List α} {i : Nat} {x : α} :
    readItem item xs i = .ok x ↔ xs[i]? = some x := by
  unfold readItem; cases xs[i]? <;> simp

theorem readItem_ne_err {α : Type} {item : Item} {xs : List α} {i : Nat} {c : ErrCode} :
    readItem item xs i ≠ .error (.err c) := by
  unfold readItem; cases xs[i]? <;> simp

theorem historyByte_ok {win : List Byte} {D : Nat} {b : Byte} :
    historyByte win D = .ok b ↔ 0 < D ∧ win[D - 1]? = some b := by
  cases D <;> simp [historyByte, readItem_ok]

theorem historyByte_ne_err {win : List Byte} {D : Nat} {c : ErrCode} :
    historyByte win D ≠ .error (.err c) := by
  cases D <;> simp [historyByte, readItem_ne_err]

/-! ## Errors -/

theorem State.raiseErr_dec {s : State} {st : DecStage} (h : s.seq = .dec st) (c : ErrCode) :
    s.raiseErr c = s.raiseDec c := by simp [State.raiseErr, h]

theorem State.raiseErr_enc {s : State} {st : EncStage} (h : s.seq = .enc st) (c : ErrCode) :
    s.raiseErr c = s.raiseEnc c := by simp [State.raiseErr, h]

@[simp] theorem State.raiseErr_seq (s : State) (c : ErrCode) : (s.raiseErr c).seq = .rest := by
  unfold State.raiseErr; split <;> rfl

@[simp] theorem State.raiseErr_host (s : State) (c : ErrCode) : (s.raiseErr c).host = s.host := by
  unfold State.raiseErr; split <;> rfl

@[simp] theorem State.raiseErr_turns (s : State) (c : ErrCode) : (s.raiseErr c).turns = s.turns := by
  unfold State.raiseErr; split <;> rfl

@[simp] theorem State.raiseErr_platform (s : State) (c : ErrCode) : (s.raiseErr c).platform = s.platform := by
  unfold State.raiseErr; split <;> rfl

@[simp] theorem State.raiseErr_frontEnd (s : State) (c : ErrCode) : (s.raiseErr c).frontEnd = s.frontEnd := by
  unfold State.raiseErr; split <;> rfl

@[simp] theorem State.raiseErr_draws (s : State) (c : ErrCode) : (s.raiseErr c).draws = s.draws := by
  unfold State.raiseErr; split <;> rfl

@[simp] theorem State.raiseErr_racedDst (s : State) (c : ErrCode) : (s.raiseErr c).racedDst = [] := by
  unfold State.raiseErr; split <;> rfl

@[simp] theorem State.raiseErr_work (s : State) (c : ErrCode) : (s.raiseErr c).work = .empty := by
  unfold State.raiseErr; split <;> rfl

@[simp] theorem State.raiseErr_enc' (s : State) (c : ErrCode) : (s.raiseErr c).enc = .empty := by
  unfold State.raiseErr; split <;> rfl

/-- An error leaves STATE = ERROR with its code, and CMD_DONE. -/
theorem State.raiseErr_csr (s : State) (c : ErrCode) :
    (s.raiseErr c).csr.state = .error ∧ (s.raiseErr c).csr.errCode = c ∧ (s.raiseErr c).csr.cmdDone = true := by
  unfold State.raiseErr; split <;> exact ⟨rfl, rfl, rfl⟩

/-- The registers an error does not write. -/
theorem State.raiseErr_params (s : State) (c : ErrCode) :
    (s.raiseErr c).csr.srcAddr = s.csr.srcAddr ∧ (s.raiseErr c).csr.srcSize = s.csr.srcSize
    ∧ (s.raiseErr c).csr.dstAddr = s.csr.dstAddr ∧ (s.raiseErr c).csr.dstSize = s.csr.dstSize
    ∧ (s.raiseErr c).csr.irqEn = s.csr.irqEn := by
  unfold State.raiseErr; split <;> exact ⟨rfl, rfl, rfl, rfl, rfl⟩

/-! ## Which codes the checks raise -/

theorem parseRaw_err {rd : Nat → Byte} {avail : Nat} {h : Halt} (e : parseRaw rd avail = .error h) :
    h = .err .srcExhausted := by
  unfold parseRaw at e; split at e
  · exact (Except.error.inj e).symm
  · split at e
    · exact (Except.error.inj e).symm
    · cases e

theorem parseRaw_ok {rd : Nat → Byte} {avail n : Nat} (e : parseRaw rd avail = .ok n) :
    n = rdU32 rd 4 ∧ 8 + n ≤ avail := by
  unfold parseRaw at e; split at e
  · cases e
  · split at e
    · cases e
    · cases e; exact ⟨rfl, by omega⟩

theorem parseDelegated_err {rd : Nat → Byte} {avail : Nat} {h : Halt}
    (e : parseDelegated rd avail = .error h) : h = .err .srcExhausted := by
  unfold parseDelegated at e; split at e
  · exact (Except.error.inj e).symm
  · split at e
    · exact (Except.error.inj e).symm
    · cases e

theorem parseDelegated_ok {rd : Nat → Byte} {avail : Nat} {p : Nat × Nat}
    (e : parseDelegated rd avail = .ok p) : p = (rdU32 rd 4, rdU32 rd 8) ∧ 12 + p.2 ≤ avail := by
  unfold parseDelegated at e; split at e
  · cases e
  · split at e
    · cases e
    · cases e; exact ⟨rfl, by simp only; omega⟩

theorem parseV1_err {rd : Nat → Byte} {avail : Nat} {h : Halt} (e : parseV1 rd avail = .error h) :
    h = .err .srcExhausted ∨ h = .err .badHeader := by
  unfold parseV1 at e; split at e
  · exact .inl (Except.error.inj e).symm
  · simp only at e; split at e
    · exact .inr (Except.error.inj e).symm
    · cases e

theorem parseV1_ok {rd : Nat → Byte} {avail : Nat} {h : Header} (e : parseV1 rd avail = .ok h) :
    772 ≤ avail ∧ h.hdrSize = 772 ∧ h.nPayload = h.nLitPayload + h.nLmdPayload := by
  unfold parseV1 at e; split at e
  · cases e
  · simp only at e; split at e
    · cases e
    · cases e
      rename_i h1 h2
      exact ⟨by simpa using h1, rfl, by simpa [Header.withFreqs] using h2⟩

theorem parseV2_err {rd : Nat → Byte} {avail : Nat} {h : Halt} (e : parseV2 rd avail = .error h) :
    h = .err .srcExhausted ∨ h = .err .badHeader := by
  unfold parseV2 at e; split at e
  · exact .inl (Except.error.inj e).symm
  · simp only at e; split at e
    · exact .inr (Except.error.inj e).symm
    · split at e
      · exact .inl (Except.error.inj e).symm
      · cases e

theorem parseV2_ok {rd : Nat → Byte} {avail : Nat} {h : Header} (e : parseV2 rd avail = .ok h) :
    h = parseV2Fixed rd ∧ 32 ≤ h.hdrSize ∧ h.hdrSize ≤ avail
      ∧ h.nPayload = h.nLitPayload + h.nLmdPayload := by
  unfold parseV2 at e; split at e
  · cases e
  · simp only at e; split at e
    · cases e
    · split at e
      · cases e
      · cases e
        rename_i h1 h2
        exact ⟨rfl, by simpa using h1, by simpa using h2, rfl⟩

theorem freqCodeEnd_err {fr : FwdReader} {stop : Nat} {h : Halt} (e : freqCodeEnd fr stop = .error h) :
    h = .err .badHeader := by
  unfold freqCodeEnd at e; split at e
  · exact (Except.error.inj e).symm
  · cases e

theorem FwdReader.take_err {r : FwdReader} {k : Nat} {h : Halt} (e : r.take k = .error h) :
    r.n < k ∧ h = .err .badHeader := by
  unfold FwdReader.take at e; split at e
  · exact ⟨by assumption, (Except.error.inj e).symm⟩
  · cases e

theorem FwdReader.take_ok {r r' : FwdReader} {k : Nat} (e : r.take k = .ok r') :
    k ≤ r.n ∧ r' = { r with acc := r.acc >>> k, n := r.n - k } := by
  unfold FwdReader.take at e; split at e
  · cases e
  · cases e; exact ⟨by omega, rfl⟩

theorem checkHeader_err {h : Header} {avail : Nat} {x : Halt} (e : checkHeader h avail = .error x) :
    x = .err .badHeader ∨ x = .err .badState ∨ x = .err .badFreq ∨ x = .err .srcExhausted := by
  unfold checkHeader at e
  repeat' split at e
  all_goals first | (cases e; simp) | cases e

theorem checkHeader_ok {h : Header} {avail : Nat} (e : checkHeader h avail = .ok ()) :
    h.hdrSize + h.nPayload ≤ avail ∧ h.nLiterals ≤ 40000 ∧ h.nLiterals % 4 = 0 ∧ h.nMatches ≤ 10000 := by
  unfold checkHeader at e
  repeat' split at e
  all_goals try cases e
  rename_i h1 h2 _ _ _ _ _ _ h3
  simp only [Config.literalsPerBlock, Config.matchesPerBlock] at h1 h2
  omega

theorem BackReader.init_err {rd : Nat → Byte} {a b : Nat} {bits : Int} {x : Halt}
    (e : BackReader.init rd a b bits = .error x) : x = .err .badBitstream := by
  unfold BackReader.init at e; simp only at e
  repeat' split at e
  all_goals first | exact (Except.error.inj e).symm | cases e

theorem BackReader.pull_err {r : BackReader} {n : Nat} {x : Halt} (e : r.pull n = .error x) :
    r.nbits < n ∧ x = .err .badBitstream := by
  unfold BackReader.pull at e; split at e
  · exact ⟨by assumption, (Except.error.inj e).symm⟩
  · cases e

/-- A value read stops only for want of bits, or from a state the table has no entry for. -/
theorem valueDecode_err {dt : List DecEntry} {st : Nat} {r : BackReader} {x : Halt}
    (e : valueDecode dt st r = .error x) :
    x = .err .badBitstream ∨ x = .fault (.noValue .decodeTable) := by
  unfold valueDecode at e
  split at e
  · rename_i h he
    cases e
    unfold readItem at he
    split at he
    · cases he
    · exact .inr (Except.error.inj he).symm
  · split at e
    · rename_i he; cases e; exact .inl (BackReader.pull_err he).2
    · cases e

theorem decodeLit_err {dt : List DecEntry} {st : Nat} {r : BackReader} {x : Halt}
    (e : decodeLit dt st r = .error x) :
    x = .err .badBitstream ∨ x = .fault (.noValue .decodeTable) := by
  unfold decodeLit at e; split at e
  · rename_i he; cases e; exact valueDecode_err he
  · cases e

theorem decodeLitGroup_err {dt : List DecEntry} {rd : Nat → Byte} {st : Lanes} {r : BackReader} {x : Halt}
    (e : decodeLitGroup dt rd st r = .error x) :
    x = .err .badBitstream ∨ x = .fault (.noValue .decodeTable) := by
  unfold decodeLitGroup at e
  repeat' split at e
  all_goals first | (rename_i he; cases e; exact decodeLit_err he) | cases e

/-- A group read is four literals. -/
theorem decodeLitGroup_length {dt : List DecEntry} {rd : Nat → Byte} {st st' : Lanes} {r r' : BackReader}
    {bs : List Byte} (e : decodeLitGroup dt rd st r = .ok (bs, st', r')) : bs.length = 4 := by
  unfold decodeLitGroup at e
  repeat' split at e
  all_goals first | (cases e; rfl) | cases e

theorem decodeTriplet_err {dt : LmdDecTables} {rd : Nat → Byte} {st : LmdStates} {d : Nat} {r : BackReader}
    {x : Halt} (e : decodeTriplet dt rd st d r = .error x) :
    x = .err .badBitstream ∨ x = .fault (.noValue .decodeTable) := by
  unfold decodeTriplet at e
  repeat' split at e
  all_goals first | (rename_i he; cases e; exact valueDecode_err he) | cases e

theorem validateTriplets_err {nLit nRaw : Nat} {ts : List Triplet} {o lp p : Nat} {x : Halt}
    (e : validateTriplets nLit nRaw ts o lp p = .error x) : x = .err .badMatch := by
  induction ts generalizing o lp p with
  | nil =>
    unfold validateTriplets at e; split at e
    · exact (Except.error.inj e).symm
    · cases e
  | cons t ts ih =>
    unfold validateTriplets at e; split at e
    · exact (Except.error.inj e).symm
    · split at e
      · exact (Except.error.inj e).symm
      · exact ih e

/-- Encoding a symbol never raises an error: an absent entry is a fault. -/
theorem symEncode_err {et : List (Option EncEntry)} {sym st : Nat} {w : BitWriter} {x : Halt}
    (e : symEncode et sym st w = .error x) : x = .fault (.noValue .encodeTable) := by
  unfold symEncode at e
  split at e
  · cases e
  · rename_i he
    cases e
    unfold encLookup at he
    split at he
    · cases he
    · exact (Except.error.inj he).symm

theorem valueEncode_err {t : SymTable} {et : List (Option EncEntry)} {v st : Nat} {w : BitWriter} {x : Halt}
    (e : valueEncode t et v st w = .error x) :
    x = .fault (.noValue .encodeTable) ∨ x = .fault (.noValue .symbol) := by
  unfold valueEncode at e; split at e
  · exact .inr (Except.error.inj e).symm
  · exact .inl (symEncode_err e)

theorem encodeLitGroup_err {et : List (Option EncEntry)} {a b c d : Byte} {st : Lanes} {w : BitWriter}
    {x : Halt} (e : encodeLitGroup et a b c d st w = .error x) : x = .fault (.noValue .encodeTable) := by
  unfold encodeLitGroup at e
  repeat' split at e
  all_goals first | (rename_i he; cases e; exact symEncode_err he) | cases e

theorem encodeTriplet_err {et : LmdEncTables} {L M dv : Nat} {st : LmdStates} {w : BitWriter} {x : Halt}
    (e : encodeTriplet et L M dv st w = .error x) :
    x = .fault (.noValue .encodeTable) ∨ x = .fault (.noValue .symbol) := by
  unfold encodeTriplet at e
  repeat' split at e
  all_goals first | (rename_i he; cases e; exact valueEncode_err he) | cases e

/-! ## EMIT -/

/-- EMIT pauses the command, or writes, counts and remembers one byte. -/
theorem State.emit_next {s t : State} {b : Byte} {f : Session → Session} (h : s.emit b f = .next t) :
    (s.noRoom ∧ t = s.pause) ∨ (¬ s.noRoom ∧ t = { s.put b with dec := f (s.put b).dec }) := by
  unfold State.emit at h
  split at h
  · exact .inl ⟨by assumption, (Host.Outcome.next.inj h).symm⟩
  · exact .inr ⟨by assumption, (Host.Outcome.next.inj h).symm⟩

/-! ## Command issue -/

@[simp] theorem State.issue_busy {s : State} (h : s.isBusy) (r : Result) : s.issue r = .next s := by
  simp [State.issue, h]

@[simp] theorem State.issue_idle {s : State} (h : ¬ s.isBusy) (r : Result) : s.issue r = r := by
  simp [State.issue, h]

/-- A command that goes on to a next state runs on buffers nothing forbids. -/
theorem State.withBuffers_next {s t : State} {src dst : Region} {r : Result}
    (h : s.withBuffers src dst r = .next t) : s.bufferRefusal src dst = none ∧ r = .next t := by
  unfold State.withBuffers at h
  split at h
  · cases h
  · exact ⟨by assumption, h⟩

theorem execDecode_next {s t : State} (h : execDecode s = .next t) :
    (s.isBusy ∧ t = s) ∨ ¬ s.isBusy ∧
      (t = s.cmdErr .sizeLimit
        ∨ s.csr.srcOk = true ∧ s.csr.dstOk = true ∧ s.bufferRefusal s.csrSrc s.dstRange = none
          ∧ t = s.startDecode) := by
  by_cases hb : s.isBusy
  · simp only [execDecode, State.issue_busy hb] at h; cases h; exact .inl ⟨hb, rfl⟩
  · simp only [execDecode, State.issue_idle hb] at h
    refine .inr ⟨hb, ?_⟩
    split at h
    · cases h; exact .inl rfl
    · rename_i hok
      obtain ⟨hr, h⟩ := State.withBuffers_next h
      cases h
      simp at hok
      exact .inr ⟨hok.1, hok.2, hr, rfl⟩

theorem execEncode_next {s t : State} (h : execEncode s = .next t) :
    (s.isBusy ∧ t = s) ∨ ¬ s.isBusy ∧
      (t = s.cmdErr .sizeLimit
        ∨ s.csr.srcOk = true ∧ s.csr.dstOk = true ∧ s.bufferRefusal s.csrSrc s.dstRange = none
          ∧ t = s.startEncode) := by
  by_cases hb : s.isBusy
  · simp only [execEncode, State.issue_busy hb] at h; cases h; exact .inl ⟨hb, rfl⟩
  · simp only [execEncode, State.issue_idle hb] at h
    refine .inr ⟨hb, ?_⟩
    split at h
    · cases h; exact .inl rfl
    · rename_i hok
      obtain ⟨hr, h⟩ := State.withBuffers_next h
      cases h
      simp at hok
      exact .inr ⟨hok.1, hok.2, hr, rfl⟩

theorem execDecodeResume_next {s t : State} (h : execDecodeResume s = .next t) :
    (s.isBusy ∧ t = s) ∨ ¬ s.isBusy ∧
      ((s.dec.valid = false ∧ t = s.cmdErr .illegalCommand)
        ∨ (s.dec.valid = true ∧ t = s.cmdErr .sizeLimit)
        ∨ s.dec.valid = true ∧ s.csr.dstOk = true ∧ s.bufferRefusal s.sessionSrc s.dstRange = none
          ∧ t = s.startResume) := by
  by_cases hb : s.isBusy
  · simp only [execDecodeResume, State.issue_busy hb] at h; cases h; exact .inl ⟨hb, rfl⟩
  · simp only [execDecodeResume, State.issue_idle hb] at h
    refine .inr ⟨hb, ?_⟩
    split at h
    · rename_i hv; cases h; exact .inl ⟨by simpa using hv, rfl⟩
    · rename_i hv
      have hv : s.dec.valid = true := by simpa using hv
      split at h
      · cases h; exact .inr (.inl ⟨hv, rfl⟩)
      · rename_i hok
        obtain ⟨hr, h⟩ := State.withBuffers_next h
        cases h
        exact .inr (.inr ⟨hv, by simpa using hok, hr, rfl⟩)

theorem State.illegal_next {s t : State} (h : s.illegal = .next t) :
    (s.isBusy ∧ t = s) ∨ (¬ s.isBusy ∧ t = s.cmdErr .illegalCommand) := by
  by_cases hb : s.isBusy
  · simp only [State.illegal, State.issue_busy hb] at h; cases h; exact .inl ⟨hb, rfl⟩
  · simp only [State.illegal, State.issue_idle hb] at h; cases h; exact .inr ⟨hb, rfl⟩

/-- Everything a command's issue can come to. -/
inductive Issued (s : State) : State → Prop
  | ignored (hb : s.isBusy) : Issued s s
  | nop (hb : ¬ s.isBusy) : Issued s (s.endCommand .done .none .atBlockStart)
  | abort (hb : ¬ s.isBusy) :
    Issued s (({ s with dec := s.dec.aborted } : State).loadCounters.endCommand .idle .none .atBlockStart)
  | rejected (hb : ¬ s.isBusy) (c : ErrCode) (hc : c = .illegalCommand ∨ c = .sizeLimit) : Issued s (s.cmdErr c)
  | decode (hb : ¬ s.isBusy) (hs : s.csr.srcOk = true) (hd : s.csr.dstOk = true)
    (hr : s.bufferRefusal s.csrSrc s.dstRange = none) : Issued s s.startDecode
  | resume (hb : ¬ s.isBusy) (hv : s.dec.valid = true) (hd : s.csr.dstOk = true)
    (hr : s.bufferRefusal s.sessionSrc s.dstRange = none) : Issued s s.startResume
  | encode (hb : ¬ s.isBusy) (hs : s.csr.srcOk = true) (hd : s.csr.dstOk = true)
    (hr : s.bufferRefusal s.csrSrc s.dstRange = none) : Issued s s.startEncode

/-- A command's next state is one of those. -/
theorem exec_command {i : Instr} {s t : State} (hi : i.space = .command) (h : exec i s = .next t) :
    Issued s t := by
  have ill : s.illegal = .next t → Issued s t := fun h => by
    rcases State.illegal_next h with ⟨hb, rfl⟩ | ⟨hb, rfl⟩
    · exact .ignored hb
    · exact .rejected hb _ (.inl rfl)
  cases i with
  | nop =>
    by_cases hb : s.isBusy
    · simp only [exec, execNop, State.issue_busy hb] at h; cases h; exact .ignored hb
    · simp only [exec, execNop, State.issue_idle hb] at h; cases h; exact .nop hb
  | abort =>
    by_cases hb : s.isBusy
    · simp only [exec, execAbort, State.issue_busy hb] at h; cases h; exact .ignored hb
    · simp only [exec, execAbort, State.issue_idle hb] at h; cases h; exact .abort hb
  | encode =>
    rcases execEncode_next h with ⟨hb, rfl⟩ | ⟨hb, rfl | ⟨hs, hd, hr, rfl⟩⟩
    · exact .ignored hb
    · exact .rejected hb _ (.inr rfl)
    · exact .encode hb hs hd hr
  | decode =>
    rcases execDecode_next h with ⟨hb, rfl⟩ | ⟨hb, rfl | ⟨hs, hd, hr, rfl⟩⟩
    · exact .ignored hb
    · exact .rejected hb _ (.inr rfl)
    · exact .decode hb hs hd hr
  | decodeResume =>
    rcases execDecodeResume_next h with ⟨hb, rfl⟩ | ⟨hb, ⟨-, rfl⟩ | ⟨-, rfl⟩ | ⟨hv, hd, hr, rfl⟩⟩
    · exact .ignored hb
    · exact .rejected hb _ (.inl rfl)
    · exact .rejected hb _ (.inr rfl)
    · exact .resume hb hv hd hr
  | reserved5 => exact ill h
  | reserved6 => exact ill h
  | reserved7 => exact ill h
  | reserved8 => exact ill h
  | reserved9 => exact ill h
  | reservedA => exact ill h
  | reservedB => exact ill h
  | reservedC => exact ill h
  | reservedD => exact ill h
  | reservedE => exact ill h
  | reservedF => exact ill h
  | _ => cases hi

theorem decodeCommand_space (v : Word) : (decodeCommand v).space = .command := by
  unfold decodeCommand; split <;> rfl

/-! ## What DEC_PHASE shows (R463) -/

theorem Phase.mem_all (p : Phase) : p ∈ Phase.all := by cases p <;> decide

theorem Phase.code_le (p : Phase) : p.code ≤ 6 := by cases p <;> decide

/-- Every look-ahead counts the phase the command is in. -/
theorem State.reaches_here (s : State) (k : Nat) : s.reaches s.dec.phase k = true := by
  cases k <;> simp [State.reaches]

/-- A look-ahead goes on from CORE's next state. -/
theorem State.reaches_next {s t : State} {p : Phase} {k : Nat} (hb : s.isBusy)
    (h : (coreTurn s.beginTurn).run = .next t) (ht : t.reaches p k = true) : s.reaches p (k + 1) = true := by
  simp only [State.reaches, h, ht, decide_eq_true hb, Bool.true_and, Bool.or_true]

/-- The phases of a decode: those it has passed and those a look-ahead finds. -/
theorem State.mem_commandPhases_dec {s : State} {st : DecStage} (hs : s.seq = .dec st) {p : Phase} :
    p ∈ s.commandPhases ↔ p ∈ s.work.passed ∨ s.alone.reaches p lookahead = true := by
  simp [State.commandPhases, hs, Phase.mem_all]

/-- A running decode can show the phase it is in. -/
theorem State.phase_mem_commandPhases {s : State} {st : DecStage} (hs : s.seq = .dec st) :
    s.dec.phase ∈ s.commandPhases :=
  (State.mem_commandPhases_dec hs).2 (.inr (s.alone.reaches_here _))

/-- What HOST has pending and has read does not matter. -/
@[simp] theorem State.shownPhase_host (s : State) (h : HostPort) :
    ({ s with host := h } : State).shownPhase = s.shownPhase := rfl

/-- What a register reads as does not depend on HOST's program or record. -/
@[simp] theorem State.readCsr_host (s : State) (h : HostPort) (off : Nat) :
    ({ s with host := h } : State).readCsr off = s.readCsr off := by
  unfold State.readCsr; split <;> rfl

theorem State.commandPhases_enc {s : State} {st : EncStage} (hs : s.seq = .enc st) :
    s.commandPhases = [.atBlockStart] := by simp [State.commandPhases, hs]

theorem State.commandPhases_ne_nil (s : State) : s.commandPhases ≠ [] := by
  cases hs : s.seq with
  | dec st => exact List.ne_nil_of_mem (State.phase_mem_commandPhases hs)
  | rest => simp [State.commandPhases, hs]
  | enc st => simp [State.commandPhases, hs]

@[simp] theorem State.shownPhase_idle {s : State} (h : ¬ s.isBusy) : s.shownPhase = s.csr.decPhase := by
  simp [State.shownPhase, h]

/-- While BUSY the field shows one of the phases the command passes through. -/
theorem State.shownPhase_mem {s : State} (h : s.isBusy) : s.shownPhase ∈ s.commandPhases := by
  have hl : Config.busyPhase s.draws % s.commandPhases.length < s.commandPhases.length :=
    Nat.mod_lt _ (List.length_pos_iff.2 s.commandPhases_ne_nil)
  rw [State.shownPhase, if_pos h, List.getD_eq_getElem _ _ hl]
  exact List.getElem_mem hl

theorem State.shownPhase_enc {s : State} {st : EncStage} (h : s.isBusy) (hs : s.seq = .enc st) :
    s.shownPhase = .atBlockStart := by
  simpa [State.commandPhases_enc hs] using State.shownPhase_mem h

/-! ## The codec (R9) -/

@[simp] theorem leBytes_length (v n : Nat) : (leBytes v n).length = n := by
  induction n generalizing v with
  | zero => rfl
  | succ n ih => rw [leBytes, List.length_cons, ih]

/-- The codec's answer has a length in [1, cap]. -/
theorem delegateEncode_length {src r : List Byte} {cap : Nat} (h : Config.delegateEncode src cap = some r) :
    1 ≤ r.length ∧ r.length ≤ cap := by
  unfold Config.delegateEncode at h
  split at h
  · split at h
    · cases h; assumption
    · cases h
  · cases h

/-! ## Races (R116) -/

/-- A source byte nobody raced for is read from memory, whichever read it is. -/
theorem State.srcByte_unraced {s : State} {base : Addr} {o : Nat}
    (h : (base + BitVec.ofNat 64 o).toNat ∉ s.racedSrc) (read : Nat) :
    s.srcByte base read o = s.mem.read (base + BitVec.ofNat 64 o) := by
  rw [State.srcByte, if_neg h]

/-- During BUSY every store to the source races; while a session is paused, one that changes the byte. -/
theorem State.storeRaces_iff {s : State} {a : Addr} {b : Byte} :
    s.storeRaces a b = true ↔ s.activeSrc.has a.toNat = true ∧ (s.isBusy ∨ s.mem.read a ≠ b) := by
  simp [State.storeRaces]

/-! ## Turns -/

@[simp] theorem Fetched.run_instr (i : Instr) (s : State) : (Fetched.instr i s).run = exec i s := rfl

@[simp] theorem Fetched.run_result (r : Result) : (Fetched.result r).run = r := rfl

theorem State.mover_nil {s : State} (h : s.turns = []) : s.mover = if s.isBusy then .core else .host := by
  simp [State.mover, h]

theorem step_of_core {s : State} (h : s.mover = .core) :
    step s = (coreTurn s.beginTurn).run := by simp [step, fetch, h]

theorem step_of_host {s : State} (h : s.mover = .host) :
    step s = (hostTurn s.beginTurn).run := by simp [step, fetch, h]

end Sys2Proof.Machine
end

