-- ==== Sys2Proof/Laws/PerInstr.lean ====
section
/-! SUPPORT. What holds of every instruction as syntax, one lemma per constructor. -/

namespace Sys2Proof.Laws.Encoding

/-- A well-formed instruction stands in its own code space, its code fits its width, and that width is one of
R160's for a frequency word and 32 bits otherwise. -/
def Statement (i : Instr) : Prop :=
  i.wf = true →
    (encode i).space = i.space ∧ (encode i).bits < 2 ^ (encode i).nbits
    ∧ (i.space = .freqCode ∨ (encode i).nbits = 32)

theorem nop : Statement .nop := fun _ => by decide

theorem encode : Statement .encode := fun _ => by decide

theorem decode : Statement .decode := fun _ => by decide

theorem decodeResume : Statement .decodeResume := fun _ => by decide

theorem abort : Statement .abort := fun _ => by decide

theorem reserved5 : Statement .reserved5 := fun _ => by decide

theorem reserved6 : Statement .reserved6 := fun _ => by decide

theorem reserved7 : Statement .reserved7 := fun _ => by decide

theorem reserved8 : Statement .reserved8 := fun _ => by decide

theorem reserved9 : Statement .reserved9 := fun _ => by decide

theorem reservedA : Statement .reservedA := fun _ => by decide

theorem reservedB : Statement .reservedB := fun _ => by decide

theorem reservedC : Statement .reservedC := fun _ => by decide

theorem reservedD : Statement .reservedD := fun _ => by decide

theorem reservedE : Statement .reservedE := fun _ => by decide

theorem reservedF : Statement .reservedF := fun _ => by decide

theorem blockEos : Statement .blockEos := fun _ => by decide

theorem blockRaw : Statement .blockRaw := fun _ => by decide

theorem blockV1 : Statement .blockV1 := fun _ => by decide

theorem blockV2 : Statement .blockV2 := fun _ => by decide

theorem blockLzvn : Statement .blockLzvn := fun _ => by decide

theorem freq0 : Statement .freq0 := fun _ => by decide

theorem freq1 : Statement .freq1 := fun _ => by decide

theorem freq2 : Statement .freq2 := fun _ => by decide

theorem freq3 : Statement .freq3 := fun _ => by decide

theorem freq4 : Statement .freq4 := fun _ => by decide

theorem freq5 : Statement .freq5 := fun _ => by decide

theorem freq6 : Statement .freq6 := fun _ => by decide

theorem freq7 : Statement .freq7 := fun _ => by decide

theorem freq8to23 (v : Nat) : Statement (.freq8to23 v) := fun h => by
  have : 8 ≤ v ∧ v ≤ 23 := by simpa [Instr.wf] using h
  refine ⟨rfl, ?_, .inl rfl⟩
  show ((v - 8) <<< 4) + 7 < 2 ^ 8
  rw [Nat.shiftLeft_eq]; omega

theorem freq24to1047 (v : Nat) : Statement (.freq24to1047 v) := fun h => by
  have : 24 ≤ v ∧ v ≤ 1047 := by simpa [Instr.wf] using h
  refine ⟨rfl, ?_, .inl rfl⟩
  show ((v - 24) <<< 4) + 15 < 2 ^ 14
  rw [Nat.shiftLeft_eq]; omega

end Sys2Proof.Laws.Encoding
end

