-- ==== Sys2Proof/Laws/Step.lean ====
section
/-! SUPPORT. What one step can come to, said once: `CoreMove` lists every next state of a CORE turn,
`HostMove` every next state of a HOST turn. An invariant is then a short case analysis. -/

namespace Sys2Proof.Machine

/-! ## CORE -/

/-- The bookkeeping that EMIT's callers add to the session: the copy counters and the replay cursor, nothing
else. -/
inductive Bookkeeping : (Session → Session) → Prop
  | raw : Bookkeeping fun d => { d with copyLeft := d.copyLeft - 1 }
  | delegated : Bookkeeping fun d => { d with copyIdx := d.copyIdx + 1 }
  | literal : Bookkeeping fun d => { d with litPos := d.litPos + 1, curLLeft := d.curLLeft - 1 }
  | copy : Bookkeeping fun d => { d with curMLeft := d.curMLeft - 1 }

/-- What the bookkeeping leaves alone. -/
theorem Bookkeeping.frame {f : Session → Session} (hf : Bookkeeping f) (d : Session) :
    (f d).valid = d.valid ∧ (f d).phase = d.phase ∧ (f d).srcAddr = d.srcAddr ∧ (f d).srcSize = d.srcSize
    ∧ (f d).srcPos = d.srcPos ∧ (f d).outTotal = d.outTotal ∧ (f d).histWin = d.histWin ∧ (f d).hdr = d.hdr
    ∧ (f d).blkStart = d.blkStart ∧ (f d).blkEnd = d.blkEnd := by
  cases hf <;> simp

/-- What loading a triplet for the replay leaves alone. -/
theorem Session.loadTriplet_frame (d : Session) (i : Nat) :
    (d.loadTriplet i).valid = d.valid ∧ (d.loadTriplet i).phase = d.phase
    ∧ (d.loadTriplet i).srcAddr = d.srcAddr ∧ (d.loadTriplet i).srcSize = d.srcSize
    ∧ (d.loadTriplet i).srcPos = d.srcPos ∧ (d.loadTriplet i).outTotal = d.outTotal
    ∧ (d.loadTriplet i).histWin = d.histWin ∧ (d.loadTriplet i).hdr = d.hdr
    ∧ (d.loadTriplet i).blkStart = d.blkStart ∧ (d.loadTriplet i).blkEnd = d.blkEnd := by
  unfold Session.loadTriplet; split <;> simp

/-- What an ENCODE stage may do to the open block: keep it within the capacity of R510. -/
structure BlockKept (e f : Encoder) : Prop where
  matches' : e.tL.length ≤ 10000 → f.tL.length ≤ 10000
  sameM : e.tM.length = e.tL.length → f.tM.length = f.tL.length
  sameD : e.tD.length = e.tL.length → f.tD.length = f.tL.length
  literals : e.litBuf.length ≤ 40000 → f.litBuf.length ≤ 40000

/-- The next states of CORE's turn in `s`, the turn already begun. -/
inductive CoreMove (s : State) : State → Prop
  /-- Nothing runs. -/
  | idle (h : ¬ s.isBusy ∨ s.seq = .rest) : CoreMove s s
  /-- An error ends the decode; the block start and the frequency reader may have moved before it. -/
  | raisedDec (st : DecStage) (hs : s.seq = .dec st) (c : ErrCode) (hc : c ≠ .none) (blk : Nat) (fr : FwdReader) :
    CoreMove s (({ s with dec := { s.dec with blkStart := blk }, work := { s.work with fr := fr } } :
      State).raiseDec c)
  /-- An end-of-stream block (R450). -/
  | eos (hs : s.seq = .dec .run) (hp : s.dec.phase = .atBlockStart) (ha : 4 ≤ s.avail) :
    CoreMove s (({ s with dec := { s.dec with
      blkStart := s.dec.srcPos, srcPos := s.dec.srcPos + 4 } } : State).endDecode)
  /-- A copy starts (R451, R454). -/
  | copyStarts (hs : s.seq = .dec .run) (hp : s.dec.phase = .atBlockStart) (d : Session)
    (hd : (∃ n, 8 + n ≤ s.avail ∧ d = { s.dec with
          blkStart := s.dec.srcPos, copyLeft := n, blkEnd := s.dec.srcPos + 8 + n
          phase := .inUncompressedCopy })
      ∨ ∃ n bs, 12 + n ≤ s.avail ∧ d = { s.dec with
          blkStart := s.dec.srcPos, copyBuf := bs, copyIdx := 0, blkEnd := s.dec.srcPos + 12 + n
          phase := .inDelegatedCopy }) :
    CoreMove s { s with dec := d, seq := .dec .run }
  /-- A header is parsed, or its fixed part (R452, R453). -/
  | header (hs : s.seq = .dec .run) (hp : s.dec.phase = .atBlockStart) (h : Header) (w : DecWork) (st : DecStage)
    (hst : st = .blockStart ∨ st = .freqCode) (hw : w.dstPos = s.work.dstPos) (h32 : 32 ≤ h.hdrSize)
    (hsum : h.nPayload = h.nLitPayload + h.nLmdPayload) :
    CoreMove s { s with
      dec := { s.dec with blkStart := s.dec.srcPos, hdr := h }, work := w, seq := .dec st }
  /-- A frequency value is read (R384). -/
  | freqValue (hs : s.seq = .dec .freqCode) (fr : FwdReader) (v : Nat) :
    CoreMove s { s with work := { s.work with fr := fr, freqVals := s.work.freqVals ++ [v] } }
  /-- The frequency code is complete (R384, R364). -/
  | freqEnd (hs : s.seq = .dec .freqCode) :
    CoreMove s { s with
      dec := { s.dec with hdr := s.dec.hdr.withFreqs s.work.freqVals }, seq := .dec .blockStart }
  /-- The header is accepted and the tables are built (R444). -/
  | tables (hs : s.seq = .dec .blockStart) (hc : checkHeader s.dec.hdr s.avail = .ok ()) (d : Session)
    (w : DecWork) (hw : w.dstPos = s.work.dstPos)
    (hd : d = { s.dec with
      phase := .inLiteralStream
      dtLit := buildLiteralTable s.dec.hdr.litFreq
      dtL := buildValueTable Config.lStates symL s.dec.hdr.lFreq
      dtM := buildValueTable Config.mStates symM s.dec.hdr.mFreq
      dtD := buildValueTable Config.dStates symD s.dec.hdr.dFreq
      dlit := [], blkEnd := s.lmdEnd }) :
    CoreMove s { s with dec := d, work := w, seq := .dec .literals }
  /-- Four literals are decoded (R331). -/
  | literals (hs : s.seq = .dec .literals) (bs : List Byte) (w : DecWork) (hw : w.dstPos = s.work.dstPos)
    (hl : bs.length = 4) :
    CoreMove s { s with dec := { s.dec with dlit := s.dec.dlit ++ bs }, work := w }
  /-- The literal stage is over (R444). -/
  | literalsDone (hs : s.seq = .dec .literals) (w : DecWork) (hw : w.dstPos = s.work.dstPos) :
    CoreMove s { s with
      dec := { s.dec with phase := .inLmdStream, trip := [] }, work := w, seq := .dec .triplets }
  /-- A triplet is decoded (R341). -/
  | triplet (hs : s.seq = .dec .triplets) (t : Triplet) (w : DecWork) (hw : w.dstPos = s.work.dstPos) :
    CoreMove s { s with dec := { s.dec with trip := s.dec.trip ++ [t] }, work := w }
  /-- The triplets are valid and the replay starts (R446, R447). -/
  | replayStarts (hs : s.seq = .dec .triplets)
    (hv : validateTriplets s.dec.hdr.nLiterals s.dec.hdr.nRaw s.dec.trip s.dec.outTotal 0 0 = .ok ()) :
    CoreMove s { s with dec := { s.dec.loadTriplet 0 with litPos := 0 }, seq := .dec .run }
  /-- A byte is emitted (R433). -/
  | emitted (hs : s.seq = .dec .run)
    (hp : s.dec.phase = .inUncompressedCopy ∨ s.dec.phase = .inDelegatedCopy ∨ s.dec.phase = .inLmdStream)
    (hr : ¬ s.noRoom) (b : Byte) (f : Session → Session) (hf : Bookkeeping f) :
    CoreMove s { s.put b with dec := f (s.put b).dec }
  /-- No room is left: the decode pauses (R433, R460). -/
  | paused (hs : s.seq = .dec .run)
    (hp : s.dec.phase = .inUncompressedCopy ∨ s.dec.phase = .inDelegatedCopy ∨ s.dec.phase = .inLmdStream)
    (hr : s.noRoom) : CoreMove s s.pause
  /-- The replay goes on to the next triplet (R447). -/
  | nextTriplet (hs : s.seq = .dec .run) (hp : s.dec.phase = .inLmdStream) :
    CoreMove s { s with dec := s.dec.loadTriplet (s.dec.tIdx + 1) }
  /-- A block is completely emitted (R440). -/
  | blockDone (hs : s.seq = .dec .run)
    (hp : s.dec.phase = .inUncompressedCopy ∨ s.dec.phase = .inDelegatedCopy ∨ s.dec.phase = .inLmdStream) :
    CoreMove s s.blockDone
  /-- RUN in phase DONE. -/
  | done (hs : s.seq = .dec .run) (hp : s.dec.phase = .done) : CoreMove s s.endDecode
  /-- ENCODE goes on. -/
  | encodes (st st' : EncStage) (hs : s.seq = .enc st) (e : Encoder) (he : BlockKept s.enc e) :
    CoreMove s (s.encGoto st' e)
  /-- ENCODE writes its stream (R490). -/
  | encoded (st : EncStage) (hs : s.seq = .enc st) (out : List Byte) (hl : out.length ≤ s.csr.dstSize.toNat) :
    CoreMove s (({ s with mem := s.mem.writeBytes s.csr.dstAddr out } : State).endEncode out.length)
  /-- ENCODE fails for want of room (R540). -/
  | overflowed (st : EncStage) (hs : s.seq = .enc st) : CoreMove s (s.raiseEnc .dstExhausted)

theorem BlockKept.refl (e : Encoder) : BlockKept e e := ⟨id, id, id, id⟩

/-- A stage that touches neither the triplets nor the literals of the open block. -/
theorem BlockKept.of_eq {e f : Encoder} (hL : f.tL = e.tL) (hM : f.tM = e.tM) (hD : f.tD = e.tD)
    (hl : f.litBuf = e.litBuf) : BlockKept e f :=
  ⟨fun h => hL ▸ h, fun h => by rw [hM, hL, h], fun h => by rw [hD, hL, h], fun h => hl ▸ h⟩

theorem BlockKept.openBlock (e f : Encoder) (hL : f.tL = []) (hM : f.tM = []) (hD : f.tD = [])
    (hl : f.litBuf = []) : BlockKept e f :=
  ⟨fun _ => by simp [hL], fun _ => by simp [hM, hL], fun _ => by simp [hD, hL], fun _ => by simp [hl]⟩

@[simp] theorem Encoder.emitMatch_tL (e : Encoder) (m : Match) : (e.emitMatch m).tL = e.tL := rfl

theorem Encoder.settlePending_kept (e : Encoder) (p : Option Match) : BlockKept e (e.settlePending p) := by
  unfold Encoder.settlePending
  split
  · split <;> exact .of_eq rfl rfl rfl rfl
  · exact .of_eq rfl rfl rfl rfl

theorem Encoder.scanOnce_kept (e : Encoder) (rd : Nat → Nat → Byte) (n : Nat) : BlockKept e (e.scanOnce rd n) := by
  have hist : ∀ {h : List (Nat × List Slot)} {f : Encoder}, BlockKept { e with hist := h } f → BlockKept e f :=
    fun k => ⟨k.1, k.2, k.3, k.4⟩
  unfold Encoder.scanOnce
  simp only
  split
  · split
    · split
      · exact hist (Encoder.settlePending_kept _ _)
      · exact .of_eq rfl rfl rfl rfl
    · exact .of_eq rfl rfl rfl rfl
  · exact hist (Encoder.settlePending_kept _ _)

theorem Encoder.scanEnd_kept (e : Encoder) (n : Nat) : BlockKept e (e.scanEnd n) := by
  unfold Encoder.scanEnd
  simp only
  cases e.pending <;> simp only <;> split <;> exact .of_eq rfl rfl rfl rfl

theorem padLiterals_length (lits : List Byte) :
    (padLiterals lits).length % 4 = 0 ∧ lits.length ≤ (padLiterals lits).length
      ∧ (padLiterals lits).length < lits.length + 4 := by
  simp only [padLiterals, List.length_append, List.length_replicate]
  omega

theorem bytesAt_length (rd : Nat → Byte) (o n : Nat) : (bytesAt rd o n).length = n := by simp [bytesAt]

theorem Encoder.append_kept {e : Encoder} {t : Triplet} (h : e.closes t = false) (rd : Nat → Byte)
    (rest : List Triplet) : BlockKept e (e.append rd t rest) := by
  simp only [Encoder.closes, Config.matchesPerBlock, Config.literalsPerBlock, decide_eq_false_iff_not] at h
  refine ⟨fun h' => ?_, fun h' => ?_, fun h' => ?_, fun h' => ?_⟩
  · simp only [Encoder.append, List.length_append, List.length_singleton]; omega
  · simp [Encoder.append, h']
  · simp [Encoder.append, h']
  · simp only [Encoder.append, List.length_append, bytesAt_length]; omega

theorem Encoder.buildTables_kept (e : Encoder) : BlockKept e e.buildTables := by
  refine ⟨id, id, id, fun h => ?_⟩
  have := padLiterals_length e.litBuf
  simp only [Encoder.buildTables]; omega

/-- Every next state of an ENCODE stage. -/
theorem encStep_next {s t : State} {st : EncStage} (hs : s.seq = .enc st) (h : encStep st s = .next t) :
    CoreMove s t := by
  have go : ∀ {st' : EncStage} {e : Encoder}, Host.Outcome.next (s.encGoto st' e) = (.next t : Result) →
      BlockKept s.enc e → CoreMove s t := fun h he => by cases h; exact .encodes st _ hs _ he
  cases st with
  | choose =>
    simp only [encStep, encChoose] at h
    split at h
    · exact go h (.of_eq rfl rfl rfl rfl)
    · split at h
      · exact go h (.of_eq rfl rfl rfl rfl)
      · exact go h (.of_eq rfl rfl rfl rfl)
  | scan =>
    simp only [encStep, encScan] at h
    split at h
    · split at h
      · exact go h (Encoder.scanOnce_kept _ _ _)
      · exact go h (Encoder.scanEnd_kept _ _)
    · split at h
      · exact go h (.of_eq rfl rfl rfl rfl)
      · cases h
  | legalize => exact go h (.openBlock _ _ rfl rfl rfl rfl)
  | fill =>
    simp only [encStep, encFill] at h
    split at h
    · split at h
      · exact go h (.refl _)
      · exact go h (Encoder.append_kept (Bool.eq_false_iff.2 ‹_›) _ _)
    · split at h
      · exact go h (.of_eq rfl rfl rfl rfl)
      · exact go h (.refl _)
  | tables => exact go h (Encoder.buildTables_kept _)
  | literals =>
    simp only [encStep, encLiterals] at h
    split at h
    · rcases State.andThen_next h with ⟨a, -, h⟩ | ⟨c, he, -⟩
      · exact go h (.of_eq rfl rfl rfl rfl)
      · exact absurd (encodeLitGroup_err he) (by simp)
    · exact go h (.of_eq rfl rfl rfl rfl)
  | lmd =>
    simp only [encStep, encLmd] at h
    split at h
    · rcases State.andThen_next h with ⟨a, -, h⟩ | ⟨c, he, -⟩
      · exact go h (.of_eq rfl rfl rfl rfl)
      · exact absurd (encodeTriplet_err he) (by simp)
    · exact go h (.of_eq rfl rfl rfl rfl)
  | pack =>
    simp only [encStep, encPack] at h
    split at h
    · exact go h (.of_eq rfl rfl rfl rfl)
    · exact go h (.openBlock _ _ rfl rfl rfl rfl)
  | finish =>
    simp only [encStep, encFinish] at h
    split at h
    · cases h; rw [State.raiseErr_enc hs]; exact .overflowed _ hs
    · cases h; exact .encoded _ hs _ (by omega)

/-- An error of the running decode, as a move. -/
theorem CoreMove.raised {s : State} {st : DecStage} (hs : s.seq = .dec st) {c : ErrCode} (hc : c ≠ .none)
    (blk : Nat) (fr : FwdReader) :
    CoreMove s (({ s with dec := { s.dec with blkStart := blk }, work := { s.work with fr := fr } } :
      State).raiseErr c) := by
  have := CoreMove.raisedDec (s := s) st hs c hc blk fr
  rwa [← State.raiseErr_dec (s := { s with
    dec := { s.dec with blkStart := blk }, work := { s.work with fr := fr } }) hs c] at this

theorem CoreMove.raised' {s : State} {st : DecStage} (hs : s.seq = .dec st) {c : ErrCode} (hc : c ≠ .none) :
    CoreMove s (s.raiseErr c) := CoreMove.raised hs hc s.dec.blkStart s.work.fr

/-- Every next state of RUN outside AT_BLOCK_START. -/
theorem decRun_next {s t : State} (hs : s.seq = .dec .run) (h : decRun s = .next t) : CoreMove s t := by
  have emit : ∀ {b : Byte} {f : Session → Session}, Bookkeeping f →
      (s.dec.phase = .inUncompressedCopy ∨ s.dec.phase = .inDelegatedCopy ∨ s.dec.phase = .inLmdStream) →
      s.emit b f = .next t → CoreMove s t := fun hf hp h => by
    rcases State.emit_next h with ⟨hr, rfl⟩ | ⟨hr, rfl⟩
    · exact .paused hs hp hr
    · exact .emitted hs hp hr _ _ hf
  unfold decRun at h
  split at h
  · rename_i hp
    unfold decRawCopy at h
    split at h
    · exact emit .raw (.inl hp) h
    · cases h; exact .blockDone hs (.inl hp)
  · rename_i hp
    unfold decDelegatedCopy at h
    split at h
    · rcases State.andThen_next h with ⟨a, -, h⟩ | ⟨c, he, -⟩
      · exact emit .delegated (.inr (.inl hp)) h
      · exact absurd he readItem_ne_err
    · cases h; exact .blockDone hs (.inr (.inl hp))
  · rename_i hp
    unfold decReplay at h
    split at h
    · split at h
      · rcases State.andThen_next h with ⟨a, -, h⟩ | ⟨c, he, -⟩
        · exact emit .literal (.inr (.inr hp)) h
        · exact absurd he readItem_ne_err
      · split at h
        · rcases State.andThen_next h with ⟨a, -, h⟩ | ⟨c, he, -⟩
          · rcases State.andThen_next h with ⟨a, -, h⟩ | ⟨c, he, -⟩
            · exact emit .copy (.inr (.inr hp)) h
            · exact absurd he historyByte_ne_err
          · exact absurd he readItem_ne_err
        · cases h; exact .nextTriplet hs hp
    · cases h; exact .blockDone hs (.inr (.inr hp))
  · cases h; exact .done hs ‹_›
  all_goals cases h

/-- Every next state of a block's magic, from the state DISPATCH leaves (R360). -/
theorem exec_block {i : Instr} {s t u : State} (hi : i.space = .block) (hs : s.seq = .dec .run)
    (hp : s.dec.phase = .atBlockStart) (ha : 4 ≤ s.avail)
    (hu : u = { s with dec := { s.dec with blkStart := s.dec.srcPos } })
    (h : exec i u = .next t) : CoreMove s t := by
  have raised : ∀ {c : ErrCode}, c ≠ .none → CoreMove s (u.raiseErr c) := fun hc => by
    rw [hu]; exact CoreMove.raised hs hc s.dec.srcPos s.work.fr
  have hav : u.avail = s.avail := by rw [hu]; rfl
  cases i with
  | blockEos =>
    subst hu; simp only [exec, execBlockEos] at h; cases h; exact .eos hs hp ha
  | blockRaw =>
    rcases State.andThen_next h with ⟨n, hn, h⟩ | ⟨c, he, rfl⟩
    · cases h
      have := (parseRaw_ok hn).2
      subst hu
      exact .copyStarts hs hp _ (.inl ⟨n, by omega, rfl⟩)
    · cases parseRaw_err he; exact raised (by simp)
  | blockV1 =>
    rcases State.andThen_next h with ⟨hd, hn, h⟩ | ⟨c, he, rfl⟩
    · cases h
      obtain ⟨-, hsz, hsum⟩ := parseV1_ok hn
      subst hu
      exact .header hs hp hd s.work .blockStart (.inl rfl) rfl (by omega) hsum
    · rcases parseV1_err he with he | he <;> cases he <;> exact raised (by simp)
  | blockV2 =>
    rcases State.andThen_next h with ⟨hd, hn, h⟩ | ⟨c, he, rfl⟩
    · cases h
      obtain ⟨-, hsz, -, hsum⟩ := parseV2_ok hn
      subst hu
      exact .header hs hp hd _ .freqCode (.inr rfl) rfl hsz hsum
    · rcases parseV2_err he with he | he <;> cases he <;> exact raised (by simp)
  | blockLzvn =>
    rcases State.andThen_next h with ⟨⟨nRaw, nPay⟩, hn, h⟩ | ⟨c, he, rfl⟩
    · have hle := (parseDelegated_ok hn).2
      simp only [Host.Outcome.next.injEq] at h
      unfold State.startDelegated at h
      split at h
      · cases h; exact raised (by simp)
      · cases h
        subst hu
        exact .copyStarts hs hp _ (.inr ⟨nPay, _, by omega, rfl⟩)
    · cases parseDelegated_err he; exact raised (by simp)
  | _ => cases hi

/-- A frequency-code word appends its value or raises BAD_HEADER (R384). -/
theorem exec_freq {i : Instr} {s t : State} (hi : i.space = .freqCode) (h : exec i s = .next t) :
    (∃ fr v, t = { s with work := { s.work with fr := fr, freqVals := s.work.freqVals ++ [v] } })
      ∨ t = s.raiseErr .badHeader := by
  have take : ∀ {k v : Nat}, s.takeFreq k v = .next t →
      (∃ fr v, t = { s with work := { s.work with fr := fr, freqVals := s.work.freqVals ++ [v] } })
        ∨ t = s.raiseErr .badHeader := fun h => by
    rcases State.andThen_next h with ⟨fr, -, h⟩ | ⟨c, he, rfl⟩
    · cases h; exact .inl ⟨fr, _, rfl⟩
    · cases (FwdReader.take_err he).2; exact .inr rfl
  cases i with
  | freq0 => exact take h
  | freq1 => exact take h
  | freq2 => exact take h
  | freq3 => exact take h
  | freq4 => exact take h
  | freq5 => exact take h
  | freq6 => exact take h
  | freq7 => exact take h
  | freq8to23 v => exact take h
  | freq24to1047 v => exact take h
  | _ => cases hi

theorem decodeFreq_space (acc : Nat) : (decodeFreq acc).space = .freqCode := by
  unfold decodeFreq freqInstr
  repeat' split
  all_goals rfl

theorem decodeMagic_space {m : Nat} {i : Instr} (h : decodeMagic m = some i) : i.space = .block := by
  unfold decodeMagic at h
  repeat' split at h
  all_goals cases h <;> rfl

theorem decode_block_ok {bs : List Byte} {i : Instr} (h : decode .block bs = .ok i) :
    4 ≤ bs.length ∧ i.space = .block := by
  unfold decode at h
  simp only at h
  split at h
  · cases h
  · split at h
    · cases h; exact ⟨by omega, decodeMagic_space ‹_›⟩
    · cases h

/-- Every next state of a CORE turn. -/
theorem coreTurn_next {s t : State} (h : (coreTurn s).run = .next t) : CoreMove s t := by
  unfold coreTurn at h
  split at h
  · split at h
    · cases h; exact .idle (.inr ‹_›)
    · rename_i hs
      split at h
      · rename_i hp
        unfold fetchBlock at h
        simp only at h
        split at h
        · rename_i hd
          obtain ⟨hl, hsp⟩ := decode_block_ok hd
          rw [bytesAt_length] at hl
          exact exec_block hsp hs hp (Nat.le_trans hl (Nat.min_le_left _ _)) rfl h
        · cases h; exact CoreMove.raised hs (by simp) s.dec.srcPos s.work.fr
        · cases h; exact CoreMove.raised hs (by simp) s.dec.srcPos s.work.fr
      · exact decRun_next hs h
    · rename_i hs
      unfold fetchFreq at h
      split at h
      · simp only [Fetched.run_instr] at h
        rcases exec_freq (decodeFreq_space _) h with ⟨fr, v, rfl⟩ | rfl
        · exact .freqValue hs fr v
        · exact CoreMove.raised hs (by simp) s.dec.blkStart _
      · rcases State.andThen_next h with ⟨fr, -, h⟩ | ⟨c, he, rfl⟩
        · cases h; exact .freqEnd hs
        · cases freqCodeEnd_err he; exact CoreMove.raised' hs (by simp)
    · rename_i hs
      rcases State.andThen_next h with ⟨⟨⟩, hc, h⟩ | ⟨c, he, rfl⟩
      · rcases State.andThen_next h with ⟨br, -, h⟩ | ⟨c, he, rfl⟩
        · cases h; exact .tables hs hc _ _ rfl rfl
        · cases BackReader.init_err he; exact CoreMove.raised' hs (by simp)
      · rcases checkHeader_err he with he | he | he | he <;> cases he <;> exact CoreMove.raised' hs (by simp)
    · rename_i hs
      simp only [Fetched.run_result, decLiterals] at h
      split at h
      · rcases State.andThen_next h with ⟨⟨bs, st, br⟩, hl, h⟩ | ⟨c, he, rfl⟩
        · cases h; exact .literals hs bs _ rfl (decodeLitGroup_length hl)
        · rcases decodeLitGroup_err he with he | he <;> cases he
          exact CoreMove.raised' hs (by simp)
      · rcases State.andThen_next h with ⟨br, -, h⟩ | ⟨c, he, rfl⟩
        · cases h; exact .literalsDone hs _ rfl
        · cases BackReader.init_err he; exact CoreMove.raised' hs (by simp)
    · rename_i hs
      simp only [Fetched.run_result, decTriplets] at h
      split at h
      · rcases State.andThen_next h with ⟨⟨tr, st, br⟩, -, h⟩ | ⟨c, he, rfl⟩
        · cases h; exact .triplet hs tr _ rfl
        · rcases decodeTriplet_err he with he | he <;> cases he
          exact CoreMove.raised' hs (by simp)
      · rcases State.andThen_next h with ⟨⟨⟩, hv, h⟩ | ⟨c, he, rfl⟩
        · cases h; exact .replayStarts hs hv
        · cases validateTriplets_err he; exact CoreMove.raised' hs (by simp)
    · exact encStep_next ‹_› h
  · cases h; exact .idle (.inl ‹_›)

/-- CORE's turn does nothing unless a command runs (R589). -/
theorem coreTurn_idle {s : State} (h : ¬ s.isBusy) : (coreTurn s).run = .next s := by
  rw [coreTurn, if_neg h]; rfl

/-! ## HOST -/

/-- The next states of HOST's turn in `s`, the turn already begun; `q` is HOST's program after it. -/
inductive HostMove (s : State) : State → Prop
  /-- HOST has nothing to do. -/
  | idle : HostMove s s
  /-- A command is issued (R550). -/
  | command (v : Word) (rest : List HostOp) (hq : s.host.queue = .csrWrite 0x004 4 v :: rest) (t : State)
    (ht : Issued { s with host := { s.host with queue := rest } } t) : HostMove s t
  /-- A register is written (R44 to R49, R56). -/
  | csrWrite (off : Nat) (v : Word) (q : HostPort) : HostMove s (({ s with host := q } : State).writeCsr off v)
  /-- Something is read: only HOST's record and program change (R554). -/
  | reads (q : HostPort) : HostMove s { s with host := q }
  /-- A byte of host memory is stored (R116). -/
  | store (a : Addr) (b : Byte) (q : HostPort) : HostMove s (({ s with host := q } : State).hostStore a b)
  /-- The platform asserts `rst` (R620). -/
  | reset (q : HostPort) : HostMove s (({ s with host := q } : State).rst)

/-- Every next state of a HOST turn. -/
theorem hostTurn_next {s t : State} (h : (hostTurn s).run = .next t) : HostMove s t := by
  unfold hostTurn at h
  split at h
  · cases h; exact .idle
  · rename_i op rest hq
    unfold hostAct at h
    split at h
    · rename_i off width v
      split at h
      · cases h
      · rename_i hal
        split at h
        · rename_i hoff
          have hal : width = 4 := by simp [csrAligned] at hal; exact hal.1
          have hoff : off = 0x004 := BitVec.eq_of_toNat_eq hoff
          subst hal hoff
          exact .command v rest hq t (exec_command (decodeCommand_space v) h)
        · cases h; exact .csrWrite off.toNat v _
    · split at h
      · cases h
      · cases h; exact .reads _
    · simp only [Fetched.run_result, Host.Outcome.next.injEq] at h
      split at h <;> cases h <;> exact .reads _
    · split at h
      · cases h
      · split at h
        · cases h
        · cases h; exact .store _ _ _
    · split at h
      · cases h
      · split at h
        · cases h
        · cases h; exact .reads _
    · cases h; exact .reset _

/-- Every next state of a step: the mover's own. -/
theorem step_next {s t : State} (h : step s = .next t) :
    (s.mover = .core ∧ CoreMove s.beginTurn t) ∨ (s.mover = .host ∧ HostMove s.beginTurn t) := by
  cases hm : s.mover with
  | core => rw [step_of_core hm] at h; exact .inl ⟨rfl, coreTurn_next h⟩
  | host => rw [step_of_host hm] at h; exact .inr ⟨rfl, hostTurn_next h⟩

end Sys2Proof.Machine
end

