-- ==== Sys2Proof/Tests/Slice0.lean ====
section
/-! SUPPORT. The model's own tests, and a witness for the hypotheses of every statement that has some. Expected
values come from the spec: encodings from R140, R150 and R160, effects from the rules named at each test. -/

namespace Sys2Proof.Tests

open Sys2Proof Sys2Proof.Machine

/-! ## Well-formedness: the ill-formed terms are refused (R160's ranges) -/

theorem test_wf_short_class_below : (Instr.freq8to23 7).wf = false := by decide
theorem test_wf_short_class_above : (Instr.freq8to23 24).wf = false := by decide
theorem test_wf_long_class_below : (Instr.freq24to1047 23).wf = false := by decide
theorem test_wf_long_class_above : (Instr.freq24to1047 1048).wf = false := by decide
theorem test_wf_class_bounds :
    (Instr.freq8to23 8).wf = true ∧ (Instr.freq8to23 23).wf = true
    ∧ (Instr.freq24to1047 24).wf = true ∧ (Instr.freq24to1047 1047).wf = true := by decide

/-! ## Decoding: words written out from the tables -/

/-- R140, R141: OPCODE in bits [3:0]; every second word has ignored bits set. -/
theorem test_decode_commands :
    decode .command [0x00, 0, 0, 0] = .ok .nop ∧ decode .command [0xA1, 0, 0, 0] = .ok .encode
    ∧ decode .command [0x02, 0, 0, 0] = .ok .decode ∧ decode .command [0xF3, 0, 0, 0x80] = .ok .decodeResume
    ∧ decode .command [0x04, 0, 0, 0] = .ok .abort := by decide

theorem test_decode_reserved :
    decode .command [0x05, 0, 0, 0] = .ok .reserved5 ∧ decode .command [0x16, 0, 0, 0] = .ok .reserved6
    ∧ decode .command [0x07, 0, 0, 0] = .ok .reserved7 ∧ decode .command [0x08, 1, 0, 0] = .ok .reserved8
    ∧ decode .command [0x09, 0, 0, 0] = .ok .reserved9 ∧ decode .command [0x0A, 0, 1, 0] = .ok .reservedA
    ∧ decode .command [0x0B, 0, 0, 0] = .ok .reservedB ∧ decode .command [0x0C, 0, 0, 1] = .ok .reservedC
    ∧ decode .command [0x0D, 0, 0, 0] = .ok .reservedD ∧ decode .command [0x8E, 0, 0, 0] = .ok .reservedE
    ∧ decode .command [0x0F, 0, 0, 0] = .ok .reservedF := by decide

/-- R150: "bvx$", "bvx-", "bvx1", "bvx2", "bvxn" as bytes; R151, R360 for the rest. -/
theorem test_decode_blocks :
    decode .block [0x62, 0x76, 0x78, 0x24] = .ok .blockEos ∧ decode .block [0x62, 0x76, 0x78, 0x2D] = .ok .blockRaw
    ∧ decode .block [0x62, 0x76, 0x78, 0x31] = .ok .blockV1 ∧ decode .block [0x62, 0x76, 0x78, 0x32] = .ok .blockV2
    ∧ decode .block [0x62, 0x76, 0x78, 0x6E, 0xFF] = .ok .blockLzvn
    ∧ decode .block [0x62, 0x76, 0x78, 0x33] = .error .badMagic
    ∧ decode .block [0x62, 0x76, 0x78] = .error .truncated := by decide

/-- R160's code column. -/
theorem test_decode_freq_short :
    decode .freqCode [0b00] = .ok .freq0 ∧ decode .freqCode [0b10] = .ok .freq1
    ∧ decode .freqCode [0b001] = .ok .freq2 ∧ decode .freqCode [0b101] = .ok .freq3
    ∧ decode .freqCode [0b00011] = .ok .freq4 ∧ decode .freqCode [0b01011] = .ok .freq5
    ∧ decode .freqCode [0b10011] = .ok .freq6 ∧ decode .freqCode [0b11011] = .ok .freq7 := by decide

/-- R160: `((v - 8) << 4) + 7` for v = 8 and 23, `((v - 24) << 4) + 15` for v = 24 and 1047. -/
theorem test_decode_freq_long :
    decode .freqCode [0x07] = .ok (.freq8to23 8) ∧ decode .freqCode [0xF7] = .ok (.freq8to23 23)
    ∧ decode .freqCode [0x0F, 0x00] = .ok (.freq24to1047 24)
    ∧ decode .freqCode [0xFF, 0x3F] = .ok (.freq24to1047 1047) := by decide

/-! ## Small states -/

/-- A resting machine with buffers given and memory listed. -/
def idle (src : Addr) (srcSize : Word) (dst : Addr) (dstSize : Word) (mem : Memory) : State :=
  { State.reset with
    csr := { Csrs.reset with
      srcAddrLo := src.extractLsb' 0 32, srcAddrHi := src.extractLsb' 32 32, srcSize := srcSize
      dstAddrLo := dst.extractLsb' 0 32, dstAddrHi := dst.extractLsb' 32 32, dstSize := dstSize }
    mem := mem }

/-- A running decode of a source of `size` bytes at 0x100, destination of 16 bytes at 0x1000. -/
def running (st : DecStage) (ph : Phase) (size : Nat) (mem : Memory) : State :=
  let s := idle 0x100 (BitVec.ofNat 32 size) 0x1000 16 mem
  { s with
    csr := { s.csr with state := .busy }
    seq := .dec st
    dec := { s.dec with valid := true, phase := ph, srcAddr := 0x100, srcSize := size } }

/-- The same with HOST to move. -/
def hostNext (s : State) (ops : List HostOp) : State :=
  { s with turns := [.host], host := { s.host with queue := ops } }

/-- The field of a next state. -/
def next? {α : Type} (f : State → α) : Result → Option α
  | .next t => some (f t)
  | .fault _ => none
  | .refused _ => none

/-- The refusal of a result. -/
def refusal? : Result → Option Refusal
  | .refused r => some r
  | .next _ => none
  | .fault _ => none

/-! ## One step of each kind -/

/-- R552: STATE = DONE, CMD_DONE = 1. -/
theorem test_nop : next? (fun t => (t.csr.state, t.csr.cmdDone)) (exec .nop State.reset) = some (.done, true) := by
  decide

/-- R553: STATE = IDLE, and `session_valid` falls. -/
theorem test_abort :
    next? (fun t => (t.csr.state, t.dec.valid, t.dec.outTotal))
      (exec .abort { State.reset with dec := { Session.reset with valid := true, outTotal := 3 } })
      = some (.idle, false, 0) := by decide

/-- R141: ERR_CODE = ILLEGAL_COMMAND, 0x20 in STATUS bits [15:8]. -/
theorem test_reserved :
    next? (fun t => t.statusWord) (exec .reservedF State.reset) = some 0x2004 := by decide

/-- R431: with no session, ILLEGAL_COMMAND. -/
theorem test_resume_without_session :
    next? (fun t => t.csr.errCode) (exec .decodeResume State.reset) = some .illegalCommand := by decide

/-- R49: a size above MAX_BUF. -/
theorem test_decode_size_limit :
    next? (fun t => t.csr.errCode) (exec .decode (idle 0 0 0 0x80000000 [])) = some .sizeLimit := by decide

/-- R115, U4: overlapping buffers are outside the spec. -/
theorem test_decode_overlap :
    refusal? (exec .decode (idle 0x100 8 0x107 8 [])) = some .bufferOverlap := by decide

/-- R490: BUSY at once, the session discarded. -/
theorem test_encode_starts :
    next? (fun t => (t.csr.state, t.seq)) (exec .encode (idle 0x100 4 0x200 64 [])) = some (.busy, .enc .choose) := by
  decide

/-- R450 with dst_pos = 2: RESULT = 2, SRC_POS = 4. -/
theorem test_block_eos :
    next? (fun t => (t.csr.state, t.csr.result, t.csr.srcPos))
      (exec .blockEos { running .run .atBlockStart 4 [] with work := { DecWork.empty with dstPos := 2 } })
      = some (.done, 2, 4) := by decide

/-- R451: n_raw = 5 at offset 4, the block ends at 8 + 5. -/
theorem test_block_raw :
    next? (fun t => (t.dec.copyLeft, t.dec.blkEnd, t.dec.phase))
      (exec .blockRaw (running .run .atBlockStart 13 [(0x104, 5)])) = some (5, 13, .inUncompressedCopy) := by decide

/-- R390: one byte short. -/
theorem test_block_raw_short :
    next? (fun t => t.csr.errCode) (exec .blockRaw (running .run .atBlockStart 12 [(0x104, 5)]))
      = some .srcExhausted := by decide

/-- R371: a plain header needs its 772 bytes. -/
theorem test_block_v1_short :
    next? (fun t => t.csr.errCode) (exec .blockV1 (running .run .atBlockStart 771 [])) = some .srcExhausted := by decide

/-- R364: header_size below 32 is BAD_HEADER. -/
theorem test_block_v2_small :
    next? (fun t => t.csr.errCode) (exec .blockV2 (running .run .atBlockStart 40 [(0x118, 31)]))
      = some .badHeader := by decide

/-- R391: a payload that is not all in the source. -/
theorem test_block_lzvn_short :
    next? (fun t => t.csr.errCode) (exec .blockLzvn (running .run .atBlockStart 12 [(0x108, 1)]))
      = some .srcExhausted := by decide

/-- R384: value 3 takes 3 bits. -/
theorem test_freq3 :
    next? (fun t => (t.work.freqVals, t.work.fr.n, t.work.fr.acc))
      (exec .freq3 { running .freqCode .atBlockStart 64 [] with
        work := { DecWork.empty with fr := { acc := 0b1101, n := 8, p := 40 }, freqVals := [9] } })
      = some ([9, 3], 5, 1) := by decide

/-- R384: a word longer than the bits left. -/
theorem test_freq_long_cut :
    next? (fun t => t.csr.errCode)
      (exec (.freq24to1047 24) { running .freqCode .atBlockStart 64 [] with
        work := { DecWork.empty with fr := { acc := 15, n := 13, p := 40 } } }) = some .badHeader := by decide

/-! ## Units, with values worked out from the rules -/

/-- R250, R254: three equal counts still sum to N = 64. -/
theorem test_normalize_sum : (normalize [1, 1, 1] 64).sum = 64 := by decide

/-- R256: f = 3 of N = 4, k = 1, j0 = 1: totals 1, 0, 0 and next states 2 to 3, 0 and 1. -/
theorem test_decode_entries :
    (symbolEntries 4 3 0 7).map (fun e => (e.totalBits, e.delta)) = [(1, 2), (0, 0), (0, 1)] := by decide

/-- R176: 19 is the last value of symbol 16 of L, 20 the first of symbol 17. -/
theorem test_sym : symL.sym 19 = some 16 ∧ symL.sym 20 = some 17 ∧ symL.sym 316 = none := by decide

/-- R312: a run of 316 literals before a match of 2360. -/
theorem test_legalize :
    legalize [{ L := 316, M := 2360, D := 1 }]
      = [{ L := 315, M := 0, D := 0 }, { L := 1, M := 2359, D := 1 }, { L := 0, M := 1, D := 1 }] := by decide

/-- R312, R310: what copies nothing has no distance; the model stores 0 (log entry 28). -/
theorem test_legalize_literals : legalize [{ L := 1, M := 0, D := 300000 }] = [{ L := 1, M := 0, D := 0 }] := by decide

/-- R204: three bits leave five unused. -/
theorem test_finish : ((BitWriter.init.push 3 5).finish).1 = -5 ∧ ((BitWriter.init.push 3 5).finish).2.out = [5] := by
  decide

/-! ## The step -/

/-- A CMD write by HOST runs the command (R550). -/
theorem test_step_command :
    next? (fun t => t.csr.state) (step (hostNext State.reset [.csrWrite 0x004 4 0xFFFFFFF0])) = some .done := by decide

/-- R433, R440: one byte of an uncompressed copy. -/
theorem test_step_copy :
    next? (fun t => (t.mem, t.dec.outTotal, t.dec.copyLeft))
      (step (let s := running .run .inUncompressedCopy 9 [(0x108, 0x41)];
        { s with dec := { s.dec with copyLeft := 1, blkEnd := 9 } }))
      = some ([(0x108, 0x41), (0x1000, 0x41)], 1, 0) := by decide

/-- R56: SRC_SIZE is not written while BUSY. -/
theorem test_step_busy_write :
    next? (fun t => t.csr.srcSize) (step (hostNext (running .run .atBlockStart 9 []) [.csrWrite 0x01C 4 5]))
      = some 9 := by decide

/-- R116, U5: while a session is paused a store of the byte that is there changes nothing; another byte is a race. -/
theorem test_step_paused_store :
    (let s := { idle 0 0 0x1000 16 [(0x102, 7)] with dec := { Session.reset with valid := true, srcAddr := 0x100, srcSize := 9 } }
    next? (fun t => t.racedSrc) (step (hostNext s [.memWrite 0x102 7])) = some []
    ∧ next? (fun t => t.racedSrc) (step (hostNext s [.memWrite 0x102 8])) = some [0x102]) := by decide

/-- R621: reset while BUSY leaves IDLE. -/
theorem test_step_reset :
    next? (fun t => (t.csr, t.dec)) (step (hostNext State.reset [.reset])) = some (Csrs.reset, Session.reset) := by
  decide

/-- A placed word is what the next step runs. -/
theorem test_placed_magic :
    next? (fun t => t.csr.state) (step (State.reset.withFetchWord 32 0x24787662)) = some .done := by decide

/-! ## Witnesses: states and operands that meet each statement's hypotheses, clause by clause -/

/-- A running decode about to do nothing else; source bytes are zero but where listed. -/
def atBlock (size : Nat) (mem : Memory) : State := running .run .atBlockStart size mem

theorem witness_DecodingInvertsEncoding :
    (Instr.nop.wf = true ∧ Instr.nop.space = .command)
    ∧ (Instr.blockLzvn.wf = true ∧ Instr.blockLzvn.space = .block)
    ∧ ((Instr.freq8to23 8).wf = true ∧ (Instr.freq8to23 23).space = .freqCode)
    ∧ ((Instr.freq24to1047 24).wf = true ∧ (Instr.freq24to1047 1047).wf = true
      ∧ (Instr.freq24to1047 1047).space = .freqCode) := by decide

theorem witness_FrequencyCodeIsComplete :
    Instr.freq7.wf = true ∧ Instr.freq7.space = .freqCode
    ∧ 27 % 2 ^ (encode .freq7).nbits = (encode .freq7).bits := by decide

theorem witness_BadBlockStartsEndTheCommand :
    (let s := atBlock 3 [];
      s.mover = .core ∧ s.isBusy ∧ s.seq = .dec .run ∧ s.dec.phase = .atBlockStart ∧ s.avail < 4)
    ∧ (let s := atBlock 4 [(0x100, 0x25)];
      s.mover = .core ∧ s.isBusy ∧ s.seq = .dec .run ∧ s.dec.phase = .atBlockStart ∧ 4 ≤ s.avail
      ∧ rdU32 s.beginTurn.blkByte 0 = 0x25) := by decide

/-- The magic 0x25 of that witness is none of the five. -/
theorem witness_no_magic : ∀ i : Instr, i.space = .block → 0x25 ≠ (encode i).bits := by
  intro i hi
  cases i <;> first | (cases hi; done) | decide

theorem witness_StepRunsTheFetchedInstruction :
    (let s := hostNext State.reset [.csrWrite 0x004 4 0x12];
      s.mover = .host ∧ s.host.queue = .csrWrite 0x004 4 0x12 :: [])
    ∧ (let s := atBlock 4 [(0x100, 0x62), (0x101, 0x76), (0x102, 0x78), (0x103, 0x24)];
      s.mover = .core ∧ s.isBusy ∧ s.seq = .dec .run ∧ s.dec.phase = .atBlockStart
      ∧ decode .block (bytesAt s.beginTurn.blkByte 0 (min s.beginTurn.avail 4)) = .ok .blockEos)
    ∧ (let s := running .freqCode .atBlockStart 64 [];
      let t := { s with work := { s.work with freqVals := List.replicate 359 0 } }
      t.mover = .core ∧ t.isBusy ∧ t.seq = .dec .freqCode ∧ t.work.freqVals.length < 360) := by
  decide +kernel

/-- A resting machine, a running decode and a running ENCODE. -/
theorem witness_CsrWindowReads :
    ¬ State.reset.isBusy ∧ 0x044 < 0x045 ∧ (atBlock 4 []).isBusy
    ∧ (let s := { atBlock 4 [] with seq := .enc .scan }; s.isBusy ∧ s.seq = .enc .scan) := by decide

theorem witness_CsrReadsHaveNoSideEffects :
    (let s := hostNext State.reset [.csrRead 0x000 4];
      s.mover = .host ∧ s.host.queue = .csrRead 0x000 4 :: [] ∧ (0x000 : BitVec 12).toNat % 4 = 0)
    ∧ (let s := hostNext State.reset [.csrRead 0xFFC 4];
      s.mover = .host ∧ s.host.queue = .csrRead 0xFFC 4 :: [] ∧ (0xFFC : BitVec 12).toNat % 4 = 0) := by decide

theorem witness_OtherCsrAccessesAreRefused :
    (let s := hostNext State.reset [.csrWrite 0x008 2 0];
      s.mover = .host ∧ (2 ≠ 4 ∨ (0x008 : BitVec 12).toNat % 4 ≠ 0) ∧ s.host.queue = .csrWrite 0x008 2 0 :: [])
    ∧ (let s := hostNext State.reset [.csrRead 0xFFF 4];
      s.mover = .host ∧ (4 ≠ 4 ∨ (0xFFF : BitVec 12).toNat % 4 ≠ 0) ∧ s.host.queue = .csrRead 0xFFF 4 :: []) := by
  decide

/-- One clause at each of its offsets: CMD, the first and the last parameter register, CTRL and IRQ_STATUS. -/
theorem witness_BusyIgnoresParameterAndCommandWrites :
    ∀ off ∈ [(0x004 : BitVec 12), 0x014, 0x028, 0x008, 0x010],
      let s := hostNext (atBlock 4 []) [.csrWrite off 4 1]
      s.mover = .host ∧ s.isBusy ∧ s.host.queue = .csrWrite off 4 1 :: [] ∧ off.toNat % 4 = 0 := by decide

/-- The first and the last offset of the window. -/
theorem witness_CsrWritesStore :
    ¬ State.reset.isBusy ∧ 0x028 < 0x029
    ∧ (let s := hostNext State.reset [.csrWrite 0x000 4 3];
      ¬ s.isBusy ∧ s.mover = .host ∧ s.host.queue = .csrWrite 0x000 4 3 :: [] ∧ (0x000 : BitVec 12).toNat % 4 = 0)
    ∧ (let s := hostNext State.reset [.csrWrite 0xFFC 4 3];
      ¬ s.isBusy ∧ s.mover = .host ∧ s.host.queue = .csrWrite 0xFFC 4 3 :: [] ∧ (0xFFC : BitVec 12).toNat % 4 = 0
      ∧ (0xFFC : BitVec 12).toNat ≠ 0x004) := by decide

theorem witness_InterruptFollowsEnableAndDone : (1 : Word).getLsbD 0 = true := by decide

/-- NOP, ABORT, ENCODE's and DECODE's issue: a resting machine, empty buffers and buffers of the largest size. -/
theorem witness_commands :
    ¬ State.reset.isBusy ∧ State.reset.buffersOk ∧ (atBlock 4 []).isBusy
    ∧ (let s := idle 0x100 0x7FFFFFFF 0x80000100 0x7FFFFFFF [];
      ¬ s.isBusy ∧ s.buffersOk) := by decide

theorem witness_ReservedOpcodesAreIllegal :
    Instr.reserved5.space = .command ∧ 5 ≤ (encode .reserved5).bits
    ∧ Instr.reservedF.space = .command ∧ 5 ≤ (encode .reservedF).bits ∧ ¬ State.reset.isBusy := by decide

/-- A source one byte too large, a destination that passes 2^64 by one byte, and a paused session with it. -/
theorem witness_BadBuffersAreRejectedOrRefused :
    ¬ State.reset.isBusy
    ∧ 2147483647 < (idle 0 0x80000000 0 0 []).csr.srcSize.toNat
    ∧ 2 ^ 64 < (idle 0 0 0xFFFFFFFFFFFFFFFF 2 []).csr.dstAddr.toNat
        + (idle 0 0 0xFFFFFFFFFFFFFFFF 2 []).csr.dstSize.toNat
    ∧ (let s := idle 0 0 0xFFFFFFFFFFFFFFFF 2 [];
      let t := { s with dec := { s.dec with valid := true } }
      t.dec.valid = true ∧ ¬ t.isBusy) := by decide

/-- A resting machine with a paused session of the source given, and one device of one byte. -/
def onPlatform (device : Nat) (s : State) : State :=
  { s with
    platform := { s.platform with devices := [{ base := device, size := 1 }] }
    dec := { s.dec with valid := true, srcAddr := s.csr.srcAddr, srcSize := s.csr.srcSize.toNat } }

/-- The device at the last byte of the source and at the first of the destination; a destination that ends in the CSR
window. Sizes are allowed in each. -/
theorem witness_device_buffers :
    (let s := onPlatform 0x107 (idle 0x100 8 0x1000 8 []);
      ¬ s.isBusy ∧ s.dec.valid = true ∧ s.csr.srcOk = true ∧ s.csr.dstOk = true
      ∧ { base := 0x107, size := 1 } ∈ s.platform.devices
      ∧ ({ base := 0x107, size := 1 } : Region).has 0x107 = true ∧ s.csrSrc.has 0x107 = true
      ∧ s.sessionSrc.has 0x107 = true)
    ∧ (let s := onPlatform 0x1000 (idle 0x100 8 0x1000 8 []); s.dstRange.has 0x1000 = true)
    ∧ (let s := onPlatform 0 (idle 0x100 8 0xFFFFFFFFFFFFEFFF 2 []);
      s.csr.dstOk = true ∧ s.platform.window.has 0xFFFFFFFFFFFFF000 = true
      ∧ s.dstRange.has 0xFFFFFFFFFFFFF000 = true) := by decide

/-- A source and a destination, and a session's source and a destination, that share their last and first byte and
lie over no device. -/
theorem witness_overlapping_buffers :
    let s := onPlatform 0 (idle 0x100 8 0x107 8 [])
    ¬ s.isBusy ∧ s.dec.valid = true ∧ s.csr.srcOk = true ∧ s.csr.dstOk = true
    ∧ s.platform.onDevice s.csrSrc = false ∧ s.platform.onDevice s.dstRange = false
    ∧ s.csrSrc.has 0x107 = true ∧ s.sessionSrc.has 0x107 = true ∧ s.dstRange.has 0x107 = true := by decide

theorem witness_ResumeContinuesTheSession :
    (¬ State.reset.isBusy ∧ State.reset.dec.valid = false)
    ∧ (let s := idle 0 0 0x1000 16 [];
      let t := { s with dec := { s.dec with valid := true, srcAddr := 0x100, srcSize := 9 } }
      ¬ t.isBusy ∧ t.dec.valid = true ∧ t.csr.dstOk = true
      ∧ t.bufferRefusal t.sessionSrc t.dstRange = none) := by decide

/-- No byte, seven, eight and 4095 bytes, each with exactly the room a raw stream needs. -/
theorem witness_ShortEncodeWritesItsStream :
    (let s := idle 0x100 0 0x2000 12 [];
      s.ready ∧ s.buffersOk ∧ s.csr.srcSize.toNat < 4096 ∧ s.csr.srcSize.toNat + 12 ≤ s.csr.dstSize.toNat)
    ∧ (let s := idle 0x100 7 0x2000 19 [];
      s.ready ∧ s.buffersOk ∧ s.csr.srcSize.toNat < 4096 ∧ s.csr.srcSize.toNat + 12 ≤ s.csr.dstSize.toNat)
    ∧ (let s := idle 0x100 8 0x2000 20 [];
      s.ready ∧ s.buffersOk ∧ s.csr.srcSize.toNat < 4096 ∧ s.csr.srcSize.toNat + 12 ≤ s.csr.dstSize.toNat)
    ∧ (let s := idle 0x100 4095 0x2000 4107 [];
      s.ready ∧ s.buffersOk ∧ s.csr.srcSize.toNat < 4096 ∧ s.csr.srcSize.toNat + 12 ≤ s.csr.dstSize.toNat) := by decide

/-- The room a raw stream needs holds the delegated stream too, whatever the codec answers (R494). -/
theorem witness_delegated_room (src r : List Byte) (h : Config.delegateEncode src (src.length - 5) = some r)
    (h8 : 8 ≤ src.length) :
    (leBytes 0x6E787662 4 ++ leBytes src.length 4 ++ leBytes r.length 4 ++ r ++ leBytes 0x24787662 4).length
      ≤ src.length + 12 := by
  have := (delegateEncode_length h).2
  simp only [List.length_append, leBytes_length]
  omega

/-- An ENCODE whose stream is one byte longer than its destination. -/
def encodeEnd : State :=
  let s := idle 0x100 0 0x1000 11 []
  { s with
    csr := { s.csr with state := .busy }, seq := .enc .finish
    enc := { Encoder.empty with out := List.replicate 12 0 } }

/-- The same into a destination that it fills. -/
def encodeFits : State := { encodeEnd with csr := { encodeEnd.csr with dstSize := 12 } }

theorem witness_EncodeWritesItsStreamIfItFits :
    encodeEnd.mover = .core ∧ encodeEnd.isBusy ∧ encodeEnd.seq = .enc .finish ∧ encodeEnd.csr.dstOk = true
    ∧ encodeEnd.racedDst = [] ∧ encodeEnd.csr.dstSize.toNat < encodeEnd.enc.out.length
    ∧ encodeFits.mover = .core ∧ encodeFits.isBusy ∧ encodeFits.seq = .enc .finish ∧ encodeFits.csr.dstOk = true
    ∧ encodeFits.racedDst = [] ∧ encodeFits.enc.out.length ≤ encodeFits.csr.dstSize.toNat := by decide

theorem witness_EndOfStreamEndsTheDecode : (atBlock 4 []).racedDst = [] := by decide

/-- A block of no bytes, one of one byte, a cut header and a cut block. -/
theorem witness_RawBlockStartsItsCopy :
    (let s := atBlock 8 []; 8 ≤ s.avail ∧ rdU32 s.blkByte 4 ≤ s.avail - 8)
    ∧ (let s := atBlock 9 [(0x104, 1)]; 8 ≤ s.avail ∧ rdU32 s.blkByte 4 ≤ s.avail - 8)
    ∧ (atBlock 7 []).avail < 8
    ∧ (let s := atBlock 8 [(0x104, 1)]; s.avail - 8 < rdU32 s.blkByte 4) := by decide

theorem witness_PlainHeaderIsParsed :
    (atBlock 771 []).avail < 772
    ∧ (let s := atBlock 772 [(0x108, 1)];
      772 ≤ s.avail ∧ rdU32 s.blkByte 8 ≠ rdU32 s.blkByte 20 + rdU32 s.blkByte 24)
    ∧ (let s := atBlock 772 [(0x108, 1), (0x118, 1)];
      772 ≤ s.avail ∧ rdU32 s.blkByte 8 = rdU32 s.blkByte 20 + rdU32 s.blkByte 24) := by decide

theorem witness_PackedHeaderIsParsed :
    (atBlock 31 []).avail < 32
    ∧ (let s := atBlock 32 [(0x118, 31)]; 32 ≤ s.avail ∧ rdU64 s.blkByte 24 % 2 ^ 32 < 32)
    ∧ (let s := atBlock 32 [(0x118, 33)];
      32 ≤ s.avail ∧ 32 ≤ rdU64 s.blkByte 24 % 2 ^ 32 ∧ s.avail < rdU64 s.blkByte 24 % 2 ^ 32)
    ∧ (let s := atBlock 32 [(0x118, 32)];
      32 ≤ rdU64 s.blkByte 24 % 2 ^ 32 ∧ rdU64 s.blkByte 24 % 2 ^ 32 ≤ s.avail) := by decide

theorem witness_DelegatedBlockAsksTheCodec :
    (atBlock 11 []).avail < 12
    ∧ (let s := atBlock 12 [(0x108, 1)]; s.avail - 12 < rdU32 s.blkByte 8)
    ∧ (let s := atBlock 13 [(0x104, 4), (0x108, 1)]; 12 ≤ s.avail ∧ rdU32 s.blkByte 8 ≤ s.avail - 12) := by decide

/-- A forward reader that holds n bits. -/
def freqState (n : Nat) : State :=
  let s := running .freqCode .atBlockStart 64 []
  { s with work := { s.work with fr := { s.work.fr with n := n } } }

theorem witness_CodeWordsAppendTheirValue :
    ((Instr.freq24to1047 1047).wf = true ∧ (Instr.freq24to1047 1047).space = .freqCode)
    ∧ (encode (.freq24to1047 1047)).nbits ≤ (freqState 14).work.fr.n
    ∧ (freqState 13).work.fr.n < (encode (.freq24to1047 1047)).nbits := by decide

/-- Headers that pass every check, and that fail each check alone. -/
def goodHeader : Header :=
  { Header.empty with
    hdrSize := 772
    lFreq := 64 :: List.replicate 19 0, mFreq := 64 :: List.replicate 19 0
    dFreq := 256 :: List.replicate 63 0, litFreq := 1024 :: List.replicate 255 0 }

theorem witness_HeaderChecksComeInOrder :
    checkHeader { goodHeader with nLiterals := 40000, nMatches := 10000, literalBits := -7 } 772 = .ok ()
    ∧ checkHeader { goodHeader with nLiterals := 40004 } 772 = .error (.err .badHeader)
    ∧ checkHeader { goodHeader with lState := 64 } 772 = .error (.err .badState)
    ∧ checkHeader { goodHeader with dFreq := 255 :: List.replicate 63 0 } 772 = .error (.err .badFreq)
    ∧ checkHeader goodHeader 771 = .error (.err .srcExhausted) := by decide +kernel

/-- A parsed header at the stage that checks it, in a source of `size` bytes. -/
def checking (h : Header) (size : Nat) : State :=
  let s := running .blockStart .atBlockStart size []
  { s with dec := { s.dec with hdr := h } }

/-- A header that fails its checks, and two whose payloads are empty: one that starts the literal reader, and one
whose bits field asks for bits that are not there. -/
theorem witness_header_steps :
    (checking goodHeader 771).mover = .core ∧ (checking goodHeader 771).isBusy
    ∧ (checking goodHeader 771).seq = .dec .blockStart
    ∧ checkHeader goodHeader (checking goodHeader 771).avail = .error (.err .srcExhausted)
    ∧ checkHeader goodHeader (checking goodHeader 772).avail = .ok ()
    ∧ BackReader.init (checking goodHeader 772).beginTurn.decByte 772 772 0 =
      .ok ({ accum := 0, nbits := 0, pos := 772, start := 772 } : BackReader)
    ∧ checkHeader { goodHeader with literalBits := -1 } 772 = .ok ()
    ∧ BackReader.init (checking goodHeader 772).beginTurn.decByte 772 772 (-1) = .error (.err .badBitstream) := by
  decide +kernel

/-- A match that reaches exactly to the first byte of the output, and one byte further. -/
theorem witness_ValidatedTripletsStayInBounds :
    validateTriplets 1 3 [{ L := 1, M := 2, D := 5 }] 4 0 0 = .ok ()
    ∧ validateTriplets 1 3 [{ L := 1, M := 2, D := 6 }] 4 0 0 = .error (.err .badMatch) := by decide

/-- A decode whose last triplet is read, after four bytes of output. -/
def validating (nRaw : Nat) (ts : List Triplet) : State :=
  let s := running .triplets .inLmdStream 20 []
  { s with dec := { s.dec with
      hdr := { s.dec.hdr with nLiterals := 4, nRaw := nRaw, nMatches := ts.length }, trip := ts, outTotal := 4 } }

/-- The step on valid triplets, on one that copies from before the output, and on a block of no triplet. -/
theorem witness_validation_steps :
    (let s := validating 3 [{ L := 1, M := 2, D := 5 }];
      s.mover = .core ∧ s.isBusy ∧ s.seq = .dec .triplets ∧ s.dec.trip.length = s.dec.hdr.nMatches
      ∧ validateTriplets 4 3 s.dec.trip s.dec.outTotal 0 0 = .ok ()
      ∧ next? (fun t => (t.seq, t.dec.curLLeft, t.dec.curMLeft)) (step s) = some (.dec .run, 1, 2))
    ∧ (let s := validating 3 [{ L := 1, M := 2, D := 6 }];
      s.mover = .core ∧ s.isBusy ∧ s.seq = .dec .triplets ∧ s.dec.trip.length = s.dec.hdr.nMatches
      ∧ validateTriplets 4 3 s.dec.trip s.dec.outTotal 0 0 = .error (.err .badMatch))
    ∧ (let s := validating 0 [];
      s.mover = .core ∧ s.isBusy ∧ s.seq = .dec .triplets ∧ s.dec.trip.length = s.dec.hdr.nMatches
      ∧ validateTriplets 4 0 s.dec.trip s.dec.outTotal 0 0 = .ok ()) := by decide

theorem witness_DecodeErrorsAreReported :
    let s := { atBlock 4 [] with work := { DecWork.empty with dstPos := 16 } }
    s.seq = .dec .run ∧ s.racedDst = [] ∧ s.csr.dstAddr.toNat + s.work.dstPos ≤ 2 ^ 64 := by decide

/-- An uncompressed copy with `left` bytes left and `pos` bytes written. -/
def copying (left pos : Nat) : State :=
  let s := running .run .inUncompressedCopy 20 []
  { s with dec := { s.dec with copyLeft := left, blkEnd := 20 }, work := { s.work with dstPos := pos } }

theorem witness_RawCopyEmitsOrPauses :
    (let s := copying 1 15;
      s.mover = .core ∧ s.isBusy ∧ s.seq = .dec .run ∧ s.dec.phase = .inUncompressedCopy ∧ s.racedDst = []
      ∧ 0 < s.dec.copyLeft ∧ s.work.dstPos ≠ s.csr.dstSize.toNat)
    ∧ (let s := copying 1 16; 0 < s.dec.copyLeft ∧ s.work.dstPos = s.csr.dstSize.toNat)
    ∧ (copying 0 16).dec.copyLeft = 0 := by decide

theorem witness_SessionDoesNotDependOnTheDestination :
    (copying 2 3).dec = (copying 2 15).dec ∧ ¬ (copying 2 3).noRoom ∧ ¬ (copying 2 15).noRoom
    ∧ (copying 2 3).dec.phase.copying
    ∧ next? (fun t => t.dec.copyLeft) (decRun (copying 2 3)) = some 1 := by decide

/-- The two states have the same source bytes. -/
theorem witness_same_source : ∀ o, (copying 2 15).decByte o = (copying 2 3).decByte o := fun _ => rfl

/-- A replay that has `lits` literals and two bytes at distance 1 to go, or a delegated copy with two bytes to go;
`pos` bytes are written. -/
def emitting (ph : Phase) (lits pos : Nat) : State :=
  let s := running .run ph 20 []
  { s with
    dec := { s.dec with
      hdr := { s.dec.hdr with nMatches := 1 }, trip := [{ L := 2, M := 2, D := 1 }], curMLeft := 2
      curLLeft := lits, dlit := [0x42, 0x43], histWin := [0x41], outTotal := 1, copyBuf := [0x44, 0x45] }
    work := { s.work with dstPos := pos } }

/-- Each clause with room for exactly its two bytes, and with none. -/
theorem witness_ReplaysAndCopiesEmitTheirBytes :
    ∀ pos ∈ [14, 16],
      (let s := emitting .inLmdStream 2 pos;
        s.turns = [] ∧ s.isBusy ∧ s.seq = .dec .run ∧ s.HistoryOk ∧ s.racedDst = []
        ∧ s.work.dstPos + (16 - pos) ≤ s.csr.dstSize.toNat ∧ s.dec.phase = .inLmdStream
        ∧ s.dec.tIdx < s.dec.hdr.nMatches ∧ 2 ≤ s.dec.curLLeft ∧ s.dec.litPos + 2 ≤ s.dec.dlit.length)
      ∧ (let s := emitting .inLmdStream 0 pos;
        s.isBusy ∧ s.HistoryOk ∧ s.dec.trip[s.dec.tIdx]? = some { L := 2, M := 2, D := 1 } ∧ s.dec.curLLeft = 0
        ∧ 2 ≤ s.dec.curMLeft ∧ 1 ≤ s.dec.outTotal)
      ∧ (let s := emitting .inDelegatedCopy 0 pos;
        s.isBusy ∧ s.dec.phase = .inDelegatedCopy ∧ s.dec.copyIdx + 2 ≤ s.dec.copyBuf.length) := by decide

/-- A triplet that is used up, with another behind it and with none, the last one, and a codec's answer that is used
up. -/
theorem witness_block_ends :
    (let e := emitting .inLmdStream 0 16;
      let s := { e with dec := { e.dec with curMLeft := 0, trip := e.dec.trip ++ [({ L := 0, M := 1, D := 1 } : Triplet)] } };
      s.turns = [] ∧ s.isBusy ∧ s.seq = .dec .run ∧ s.dec.phase = .inLmdStream ∧ s.dec.tIdx < s.dec.hdr.nMatches
      ∧ s.dec.curLLeft = 0 ∧ s.dec.curMLeft = 0 ∧ s.dec.trip[s.dec.tIdx + 1]? = some ({ L := 0, M := 1, D := 1 } : Triplet)
      ∧ e.dec.trip[e.dec.tIdx + 1]? = none)
    ∧ (let e := emitting .inLmdStream 0 16;
      let s := { e with dec := { e.dec with tIdx := 1 } };
      s.turns = [] ∧ s.isBusy ∧ s.seq = .dec .run ∧ s.dec.phase = .inLmdStream ∧ s.dec.hdr.nMatches ≤ s.dec.tIdx)
    ∧ (let e := emitting .inDelegatedCopy 0 16;
      let s := { e with dec := { e.dec with copyIdx := 2 } };
      s.turns = [] ∧ s.isBusy ∧ s.seq = .dec .run ∧ s.dec.phase = .inDelegatedCopy
      ∧ s.dec.copyBuf.length ≤ s.dec.copyIdx) := by decide

/-- The two steps of the match, which overlaps itself, on that state (R447). -/
theorem test_replay_match :
    next? (fun t => (t.mem, t.dec.histWin, t.dec.curMLeft)) ((emitting .inLmdStream 0 14).runSteps 2)
      = some ([(0x100E, 0x41), (0x100F, 0x41)], [0x41, 0x41, 0x41], 0) := by decide

/-- A raw stream of one byte, and a destination of one byte. -/
def rawSource : State :=
  idle 0x100 13 0x1000 1
    [(0x100, 0x62), (0x101, 0x76), (0x102, 0x78), (0x103, 0x2D), (0x104, 1), (0x108, 0x41),
     (0x109, 0x62), (0x10A, 0x76), (0x10B, 0x78), (0x10C, 0x24)]

/-- R463, R440: a decode of it passes through three phases, and no other can be shown while it is BUSY. -/
theorem test_phases_of_a_raw_decode :
    next? State.commandPhases (exec .decode rawSource) = some [.atBlockStart, .inUncompressedCopy, .done] := by
  decide +kernel

/-- R43, R463: STATUS of a running ENCODE is BUSY with DEC_PHASE 0. -/
theorem test_status_of_an_encode : ({ rawSource with
    csr := { rawSource.csr with state := .busy }, seq := .enc .scan } : State).statusWord = 1 := by
  rw [State.statusWord, State.shownPhase_enc (st := .scan) rfl rfl]; decide

theorem witness_RawStreamsDecodeToTheirData :
    rawSource.ready ∧ rawSource.buffersOk ∧ rawSource.csr.srcSize.toNat = [(0x41 : Byte)].length + 12
    ∧ [(0x41 : Byte)].length ≤ rawSource.csr.dstSize.toNat
    ∧ rawSource.mem.readBytes rawSource.csr.srcAddr ([(0x41 : Byte)].length + 12)
      = leBytes 0x2D787662 4 ++ leBytes [(0x41 : Byte)].length 4 ++ [0x41] ++ leBytes 0x24787662 4 := by decide

theorem witness_WriterBytesAreThePushedBits :
    BitWriter.empty.ok ∧ BitWriter.empty.nbits + 64 ≤ 64 ∧ 2 ^ 64 - 1 < 2 ^ 64 := by decide

/-- A payload of one byte with five bits unused, one with none, a reader with seven bits of which eight and
seven are asked. -/
theorem witness_ReaderPullsTheTopBits :
    (BackReader.init (fun _ => 5) 0 1 (-5) = .ok { accum := 5, nbits := 3, pos := 0, start := 0 })
    ∧ (BackReader.init (fun _ => 5) 0 0 0 = .ok { accum := 0, nbits := 0, pos := 0, start := 0 })
    ∧ (let r : BackReader := { accum := 127, nbits := 7, pos := 0, start := 0 }
      r.ok ∧ r.nbits < 8 ∧ 7 ≤ r.nbits) := by decide

theorem witness_fse_tables :
    10 ≤ 10 ∧ [1023, 0, 1].sum = 2 ^ 10 ∧ [0, 0, 0].length = [1023, 0, 1].length
    ∧ [1023, 0, 1][2]? = some 1 ∧ 0 < 1 ∧ 1023 < 2 ^ 10 := by decide

theorem witness_NormalizationIsValid :
    ([0] : List Nat) ≠ [] ∧ [0].length ≤ 1 ∧ [3, 0, 5][2]? = some 5 ∧ 5 ≠ 0 := by decide

/-- A running ENCODE of `n` source bytes, all zero, at a stage. -/
def encoding (st : EncStage) (n : Word) (e : Encoder) : State :=
  let s := idle 0x100 n 0x10000 16 []
  { s with csr := { s.csr with state := .busy }, seq := .enc st, enc := e }

/-- A block of one literal and one match, padded by three bytes, and one of no literal. -/
theorem witness_tables_step :
    (let t : Triplet := { L := 1, M := 2, D := 3 };
      let s := encoding .tables 4096 { Encoder.empty with litBuf := [7], tL := [1], tM := [2], tD := [3] };
      s.mover = .core ∧ s.isBusy ∧ s.seq = .enc .tables ∧ s.enc.tL = [t].map Triplet.L
      ∧ s.enc.tM = [t].map Triplet.M ∧ s.enc.tD = [t].map Triplet.D ∧ 3 < 4 ∧ (s.enc.litBuf.length + 3) % 4 = 0)
    ∧ (Encoder.empty.litBuf.length + 0) % 4 = 0
    ∧ histogram 3 [2, 0, 2] = [1, 0, 2] := by decide

/-- Each stream's maximum, and one above it. -/
theorem witness_EveryValueHasOneSymbol :
    symL.sym 315 = some 19 ∧ symL.sym 316 = none ∧ symM.sym 2359 = some 19 ∧ symM.sym 2360 = none
    ∧ symD.sym 262139 = some 63 ∧ symD.sym 262140 = none := by decide

/-- The largest L, from a state that takes a state bit too, in a writer with room for exactly its code. -/
theorem witness_ValueDecodingInvertsValueEncoding :
    let freq := 63 :: (List.replicate 18 0 ++ [1])
    6 ≤ 8 ∧ freq.length = symL.base.length ∧ freq.sum = 2 ^ 6 ∧ 63 < 2 ^ 6 ∧ BitWriter.empty.ok
    ∧ BitWriter.empty.nbits + 6 + symL.extra.foldl max 0 ≤ 64
    ∧ (valueEncode symL (buildEncodeTable (2 ^ 6) 0 freq) 315 63 BitWriter.empty).toOption.isSome = true := by decide

/-- Two symbols of each LMD stream, the first and the last. -/
def lmdFreqs2 : LmdFreqs :=
  { l := 32 :: (List.replicate 18 0 ++ [32]), m := 32 :: (List.replicate 18 0 ++ [32])
    d := 128 :: (List.replicate 62 0 ++ [128]) }

/-- A reader that holds a writer's bits, the whole bytes not yet loaded. -/
def readerOf (w : BitWriter) : BackReader :=
  { accum := w.flush.accum, nbits := w.flush.nbits, pos := w.flush.out.length, start := 0 }

/-- The largest triplet through the three encode tables, and a reader that holds its bits. -/
theorem witness_one_triplet :
    lmdFreqs2.ok
    ∧ ((encodeTriplet lmdFreqs2.enc 315 2359 262139 { l := 0, m := 63, d := 255 } BitWriter.empty).toOption.any
      fun (st, w) => decide (st.ok ∧ w.ok ∧ (readerOf w).ok ∧ (readerOf w).count = w.count
        ∧ (readerOf w).value (fun i => w.flush.out.getD i 0) = w.value)) = true := by decide +kernel

/-- A copy, a run of literals, and the same distance again, through ENCODE_LMD. -/
theorem witness_lmd_payload :
    let ts : List Triplet := [{ L := 0, M := 2359, D := 262139 }, { L := 315, M := 0, D := 0 }, { L := 315, M := 2359, D := 262139 }]
    (∀ t ∈ ts, 0 < t.M → 1 ≤ t.D)
    ∧ (encodeTriplets lmdFreqs2.enc ts (codeDistances 0 ts)).toOption.isSome = true := by decide +kernel

/-- Triples of a parse with the bounds R501 gives. -/
theorem witness_LegalizingKeepsTheOutput :
    ∀ p ∈ [({ L := 316, M := 2360, D := 262139 } : Triplet), { L := 1, M := 0, D := 0 }],
      0 < p.M → 1 ≤ p.D ∧ p.D ≤ 262139 := by decide

/-- The end of the parse; a triplet that fills the open block to its last literal and one that would pass it; the end of
the triplets with an open block and with none. -/
theorem witness_legal_steps :
    (let s := encoding .legalize 4096 .empty; s.mover = .core ∧ s.isBusy ∧ s.seq = .enc .legalize)
    ∧ (let s := encoding .fill 4096 { Encoder.empty with todo := [{ L := 315, M := 0, D := 0 }] };
      s.mover = .core ∧ s.isBusy ∧ s.seq = .enc .fill ∧ s.enc.todo = { L := 315, M := 0, D := 0 } :: []
      ∧ ¬ (10000 < s.enc.tL.length + 1 ∨ 40000 < s.enc.litBuf.length + 315))
    ∧ (let s := encoding .fill 4096 { Encoder.empty with todo := [{ L := 40001, M := 0, D := 0 }] };
      s.enc.todo = { L := 40001, M := 0, D := 0 } :: [] ∧ 40000 < s.enc.litBuf.length + 40001)
    ∧ (let s := encoding .fill 4096 { Encoder.empty with tL := [1] }; s.enc.todo = [] ∧ s.enc.tL ≠ [])
    ∧ (let s := encoding .fill 4096 .empty; s.enc.todo = [] ∧ s.enc.tL = []) := by decide

/-- A block of two triplets at the start of its LMD payload. -/
theorem witness_lmd_run :
    let ts : List Triplet := [{ L := 0, M := 2359, D := 262139 }, { L := 315, M := 0, D := 0 }]
    let s := encoding .lmd 4096 { Encoder.empty with
      tL := ts.map Triplet.L, tM := ts.map Triplet.M, tDv := codeDistances 0 ts, idx := 2
      etL := lmdFreqs2.enc.l, etM := lmdFreqs2.enc.m, etD := lmdFreqs2.enc.d }
    s.turns = [] ∧ s.isBusy ∧ s.seq = .enc .lmd ∧ s.enc.tDv.length = ts.length ∧ s.enc.idx = ts.length
    ∧ s.enc.lState = 0 ∧ s.enc.mState = 0 ∧ s.enc.dState = 0 ∧ s.enc.bw = .init
    ∧ (encodeTriplets { l := s.enc.etL, m := s.enc.etM, d := s.enc.etD } ts s.enc.tDv).toOption.isSome = true := by
  decide +kernel

/-- A decode before its only triplet, with a reader that holds `n` zero bits. -/
def readingTriplet (n : Nat) : State :=
  let s := running .triplets .inLmdStream 20 []
  { s with
    dec := { s.dec with
      hdr := { s.dec.hdr with nMatches := 1 }, dtL := lmdFreqs2.dec.l, dtM := lmdFreqs2.dec.m, dtD := lmdFreqs2.dec.d }
    work := { s.work with br := { accum := 0, nbits := n, pos := 0, start := 0 } } }

/-- A triplet that is read, and one whose bits are not there. -/
theorem witness_triplet_steps :
    (readingTriplet 64).mover = .core ∧ (readingTriplet 64).isBusy ∧ (readingTriplet 64).seq = .dec .triplets
    ∧ (readingTriplet 64).dec.trip.length < (readingTriplet 64).dec.hdr.nMatches
    ∧ next? (fun t => t.dec.trip.length) (step (readingTriplet 64)) = some 1
    ∧ next? (fun t => t.csr.errCode) (step (readingTriplet 0)) = some .badBitstream := by decide +kernel

theorem witness_CodedDistancesResolve :
    (∀ t ∈ [({ L := 0, M := 1, D := 1 } : Triplet), { L := 3, M := 0, D := 0 }], 0 < t.M → 1 ≤ t.D)
    ∧ [({ L := 0, M := 1, D := 1 } : Triplet)][0]? = some { L := 0, M := 1, D := 1 } := by decide

/-- Two symbols of the literal stream, both used. -/
def litFreq2 : List Nat := 1 :: 1023 :: List.replicate 254 0

theorem witness_LiteralPayloadRoundTrip :
    checkFreq litFreq2 256 1024 = true
    ∧ (encodeGroups (buildEncodeTable 1024 0 litFreq2) [{ a := 0, b := 1, c := 1, d := 0 }]).toOption.isSome = true := by
  decide +kernel

/-- A block of four literals at the start of its literal payload. -/
theorem witness_literal_run :
    let gs : List LitGroup := [{ a := 0, b := 1, c := 1, d := 0 }]
    let s := encoding .literals 4096 { Encoder.empty with
      litBuf := [0, 1, 1, 0], idx := 4, etLit := buildEncodeTable 1024 0 litFreq2 }
    s.turns = [] ∧ s.isBusy ∧ s.seq = .enc .literals ∧ s.enc.litBuf = gs.flatMap LitGroup.bytes
    ∧ s.enc.idx = s.enc.litBuf.length ∧ s.enc.lanes = .zero ∧ s.enc.bw = .init
    ∧ (encodeGroups s.enc.etLit gs).toOption.isSome = true := by decide +kernel

/-- A decode with `left` literals to go, a reader that holds `n` zero bits, and an empty LMD payload. -/
def readingLiterals (left n : Nat) (lmdBits : Int) : State :=
  let s := running .literals .inLiteralStream 20 []
  { s with
    dec := { s.dec with
      hdr := { s.dec.hdr with nLiterals := left, lmdBits := lmdBits }
      dtLit := [{ totalBits := 2, valueBits := 0, vbase := 0x41, delta := 0 }] }
    work := { s.work with br := { accum := 0, nbits := n, pos := 0, start := 0 } } }

/-- A group that is read and one whose bits are not there; an LMD reader that starts and one that does not. -/
theorem witness_literal_steps :
    (∀ left ∈ [0, 4], let s := readingLiterals left 64 0
      s.mover = .core ∧ s.isBusy ∧ s.seq = .dec .literals)
    ∧ next? (fun t => t.dec.dlit) (step (readingLiterals 4 64 0)) = some [0x41, 0x41, 0x41, 0x41]
    ∧ next? (fun t => t.csr.errCode) (step (readingLiterals 4 0 0)) = some .badBitstream
    ∧ next? (fun t => t.seq) (step (readingLiterals 0 0 0)) = some (.dec .triplets)
    ∧ next? (fun t => t.csr.errCode) (step (readingLiterals 0 0 (-1))) = some .badBitstream := by decide +kernel

/-- The bytes of any list stand at some place of some buffer. -/
theorem witness_buffer (bs : List Byte) (p : Nat) :
    ∀ i, i < bs.length → bs[i]? = some ((fun o => bs.getD (o - p) 0) (p + i)) := by
  intro i hi
  simp [List.getD, hi]

theorem witness_FrequencyCodeRoundTrip : ∀ x ∈ [0, 1047, 23], x ≤ 1047 := by decide

/-- A decode with its 360 values read, in a header of 40 bytes, the reader at offset `p`. -/
def freqsRead (p : Nat) : State :=
  let s := running .freqCode .atBlockStart 64 []
  { s with
    dec := { s.dec with hdr := { s.dec.hdr with hdrSize := 40 } }
    work := { s.work with freqVals := List.replicate 360 0, fr := { acc := 0, n := 7, p := p } } }

/-- A code that ends inside the header's last byte, and one that ends before it. -/
theorem witness_freq_code_ends :
    ∀ p ∈ [39, 40], (freqsRead p).mover = .core ∧ (freqsRead p).isBusy ∧ (freqsRead p).seq = .dec .freqCode
      ∧ 360 ≤ (freqsRead p).work.freqVals.length
      ∧ ((freqsRead p).work.fr.n < 8 ∧ (freqsRead p).work.fr.p = (freqsRead p).dec.blkStart + 40 ↔ p = 40) := by
  decide +kernel

/-- A block at the start of its packing. -/
theorem witness_pack_run :
    let s := encoding .pack 4096 { Encoder.empty with out := [1], litPayload := [2], lmdPayload := [3] }
    s.turns = [] ∧ s.isBusy ∧ s.seq = .enc .pack ∧ s.enc.idx = 0 ∧ s.enc.fw = .empty := by decide

theorem witness_PackedHeaderRoundTrip :
    let h := { Header.empty with
      nRaw := 4294967295, nLiterals := 1048575, nLitPayload := 1048575, nMatches := 1048575
      nLmdPayload := 1048575, literalBits := -7, litState3 := 1023, dState := 1023 }
    h.nRaw < 2 ^ 32 ∧ h.nLiterals < 2 ^ 20 ∧ h.nLitPayload < 2 ^ 20 ∧ h.nMatches < 2 ^ 20 ∧ h.nLmdPayload < 2 ^ 20
    ∧ -7 ≤ h.literalBits ∧ h.literalBits ≤ 0 ∧ -7 ≤ h.lmdBits ∧ h.lmdBits ≤ 0
    ∧ h.litState0 < 1024 ∧ h.litState1 < 1024 ∧ h.litState2 < 1024 ∧ h.litState3 < 1024
    ∧ h.lState < 1024 ∧ h.mState < 1024 ∧ h.dState < 1024 ∧ [(0 : Byte)].length < 2 ^ 31 := by decide

/-- A candidate that is extended in both directions to the ends of the source. -/
theorem witness_CandidatesAreMatches :
    1 ≤ 2 ∧ 2 + 4 ≤ 8 ∧ 1 < 2 ∧ value4 (fun _ => 7) 2 = value4 (fun _ => 7) 1
    ∧ candidate (fun _ => 7) 8 1 2 (value4 (fun _ => 7) 2) { pos := 1, value := value4 (fun _ => 7) 1 }
      = some { pos := 1, len := 7, dist := 1 } := by decide

/-- A scan of zeros at position 1, with position 0 in the history. -/
def scanning (n : Word) (pending : Option Match) (seen : Bool) : State :=
  encoding .scan n { Encoder.empty with
    scanPos := 1, pending := pending, hist := if seen then [(0, [{ pos := 0, value := 0 }])] else [] }

/-- The match that the scan of n bytes finds. -/
def foundIn (s : State) : Option Match :=
  (findMatch s.beginTurn.encByte s.csr.srcSize.toNat s.enc.litStart s.enc.scanPos s.enc.hist).1

/-- The path choice at 4096 bytes; a found match of 39 and of 40 bytes, with a shorter pending one and with one as
long; no match, and the end of the scan. -/
theorem witness_scan_steps :
    (let s := encoding .choose 4096 .empty;
      s.mover = .core ∧ s.isBusy ∧ s.seq = .enc .choose ∧ 4096 ≤ s.csr.srcSize.toNat)
    ∧ (let s := scanning 40 (some { pos := 0, len := 38, dist := 1 }) true;
      s.mover = .core ∧ s.isBusy ∧ s.seq = .enc .scan ∧ s.frontEnd = .standard
      ∧ s.enc.scanPos + 4 ≤ s.csr.srcSize.toNat ∧ foundIn s = some { pos := 1, len := 39, dist := 1 })
    ∧ foundIn (scanning 41 none true) = some { pos := 1, len := 40, dist := 1 }
    ∧ foundIn (scanning 40 (some { pos := 0, len := 39, dist := 1 }) true) = some { pos := 1, len := 39, dist := 1 }
    ∧ (let s := scanning 5 none false;
      s.enc.scanPos + 4 ≤ s.csr.srcSize.toNat ∧ s.enc.pending = none ∧ foundIn s = none)
    ∧ (let s := scanning 4 none false; s.csr.srcSize.toNat < s.enc.scanPos + 4) := by decide +kernel

/-- Another front end: its parse keeps the contract or breaks it, so one of the two clauses applies. -/
theorem witness_other_front_end :
    let s := { encoding .scan 4096 .empty with frontEnd := .other };
    s.mover = .core ∧ s.isBusy ∧ s.seq = .enc .scan ∧ s.frontEnd = .other
    ∧ ∀ (rd : Nat → Byte) (parse : List Triplet), frontEndOk rd 4096 parse = true ∨ frontEndOk rd 4096 parse = false :=
  ⟨by decide, by decide, by decide, by decide, fun rd parse => by cases frontEndOk rd 4096 parse <;> simp⟩

/-- HOST's store or load at the window's first byte, over a device, in the source and the destination in use, and
where nothing is in use; during BUSY and in a pause. -/
theorem witness_host_accesses :
    (let s := onPlatform 0x2000 (hostNext (atBlock 4 []) [.memWrite 0x103 1]);
      s.mover = .host ∧ s.host.queue = .memWrite 0x103 1 :: [] ∧ s.isBusy ∧ s.seq = .dec .run
      ∧ s.platform.window.has (0xFFFFFFFFFFFFF000 : Addr).toNat = true
      ∧ (∃ d ∈ s.platform.devices, d.has (0x2000 : Addr).toNat = true)
      ∧ s.platform.window.has (0x2000 : Addr).toNat = false
      ∧ s.dstRange.has (0x100F : Addr).toNat = true ∧ s.dstRange.has (0x1010 : Addr).toNat = false)
    ∧ (let s := hostNext (atBlock 4 []) [.memWrite 0x103 1]; s.sessionSrc.has (0x103 : Addr).toNat = true)
    ∧ (let s := onPlatform 0x2000 (hostNext (idle 0x100 4 0x1000 16 []) [.memRead 0x103]);
      s.mover = .host ∧ s.host.queue = .memRead 0x103 :: [] ∧ ¬ s.isBusy ∧ s.seq = .rest ∧ s.dec.valid = true
      ∧ s.sessionSrc.has (0x103 : Addr).toNat = true ∧ s.mem.read 0x103 ≠ 1)
    ∧ (let s := hostNext (encoding .scan 4 .empty) [.memWrite 0x103 1];
      s.mover = .host ∧ s.seq = .enc .scan ∧ s.csrSrc.has (0x103 : Addr).toNat = true) := by decide

theorem witness_CommandIssueFrame :
    Instr.decode.space = .command
    ∧ next? (fun t => t.csr.state) (exec .decode State.reset) = some .busy
    ∧ (atBlock 4 []).isBusy := by decide

theorem witness_BlockAndCodeWordFrame :
    Instr.blockRaw.space = .block ∧ (atBlock 8 []).isBusy
    ∧ next? (fun t => t.seq) (exec .blockRaw (atBlock 8 [])) = some (.dec .run)
    ∧ Instr.freq0.space = .freqCode ∧ (freqState 2).isBusy
    ∧ next? (fun t => t.seq) (exec .freq0 (freqState 2)) = some (.dec .freqCode) := by decide

/-- An ENCODE step that goes on, and one that ends the command. -/
theorem witness_EncodeLeavesTheSessionAlone :
    (let s := { encodeEnd with seq := .enc .choose };
      s.mover = .core ∧ s.isBusy ∧ s.seq = .enc .choose ∧ next? (fun t => t.seq) (step s) = some (.enc .finish))
    ∧ encodeEnd.mover = .core ∧ encodeEnd.isBusy ∧ encodeEnd.seq = .enc .finish
    ∧ next? (fun t => t.seq) (step encodeFits) = some .rest := by
  decide

/-- An address just outside the destination. -/
theorem witness_CoreWritesOnlyTheDestination :
    let s := copying 1 15
    s.mover = .core ∧ next? (fun t => t.dec.outTotal) (step s) = some 1
    ∧ s.dstRange.has (0x1010 : Addr).toNat = false ∧ s.dstRange.has (0x100F : Addr).toNat = true := by decide

/-- The same state keeps its destination and its races. -/
theorem witness_destination : (copying 1 15).DestOk ∧ (copying 1 15).RacesOk :=
  ⟨⟨fun _ => by decide, fun _ _ _ => by decide⟩, ⟨by decide, fun _ => rfl⟩⟩

theorem witness_CmdDoneIsSetOnlyAtCommandEnds :
    let s := hostNext State.reset [.csrWrite 0x004 4 0]
    s.csr.cmdDone = false ∧ next? (fun t => t.csr.cmdDone) (step s) = some true := by decide

theorem witness_ResetKeepsHostMemory :
    (let s := hostNext (copying 1 15) [.reset];
      s.mover = .host ∧ s.host.queue = .reset :: [] ∧ s.dstRange.has (0x1010 : Addr).toNat = false)
    ∧ (let s := hostNext State.reset [.reset];
      s.mover = .host ∧ s.host.queue = .reset :: [] ∧ ¬ s.isBusy) := by decide

/-- A state that meets every invariant and moves: a byte is copied. -/
theorem witness_StepsKeep :
    (copying 1 15).mem.wf ∧ (copying 1 15).HistoryOk
    ∧ next? (fun t => t.dec.copyLeft) (step (copying 1 15)) = some 0 := by decide

theorem witness_StepsKeepStatusConsistent : (copying 1 15).StatusOk :=
  ⟨by decide, by decide, fun st h => by cases h; exact .inr (.inl rfl), fun _ h => (by cases h), by decide, by decide⟩

theorem witness_StepsKeepTheSourceCursor : (copying 1 15).SourceOk :=
  ⟨by decide, by decide, by decide, by decide⟩

theorem witness_StepsKeepTheBlockCapacity :
    (atBlock 4 []).BlockOk ∧ next? (fun t => t.csr.state) (step (atBlock 4 [])) = some .error :=
  ⟨⟨by decide, by decide, by decide, by decide⟩, by decide⟩

end Sys2Proof.Tests
end

section
/-! What a turn fetches at each of R10's three places. -/

namespace Sys2Proof.Machine

variable {s : State}

/-! ## HOST's turn -/

theorem hostTurn_cons {op : HostOp} {rest : List HostOp} (hq : s.host.queue = op :: rest) :
    hostTurn s = hostAct op { s with host := { s.host with queue := rest } } := by
  simp [hostTurn, hq]

/-- HOST's step is its next action, in the state its turn begins with. -/
theorem step_of_hostOp {op : HostOp} {rest : List HostOp} (hm : s.mover = .host)
    (hq : s.host.queue = op :: rest) :
    step s = (hostAct op { s.beginTurn with host := { s.host with queue := rest } }).run := by
  have hturn := hostTurn_cons (s := s.beginTurn) (by rw [State.beginTurn_host]; exact hq)
  rw [step_of_host hm, hturn, State.beginTurn_host]

/-- R550: an aligned CMD write is a command issue. -/
theorem hostAct_cmd (v : Word) (t : State) :
    hostAct (.csrWrite 0x004 4 v) t = .instr (decodeCommand v) t := rfl

/-! ## CORE's turn -/

theorem coreTurn_blockStart (hb : s.isBusy) (hs : s.seq = .dec .run) (hp : s.dec.phase = .atBlockStart) :
    coreTurn s = fetchBlock s := by
  simp [coreTurn, hb, hs, hp]

theorem coreTurn_freqCode (hb : s.isBusy) (hs : s.seq = .dec .freqCode) : coreTurn s = fetchFreq s := by
  simp [coreTurn, hb, hs]

/-- R360: a magic that decodes is the instruction, in the state where `blk` is `src_pos`. -/
theorem fetchBlock_ok {i : Instr}
    (hd : let t := { s with dec := { s.dec with blkStart := s.dec.srcPos } }
      decode .block (bytesAt t.blkByte 0 (min t.avail 4)) = .ok i) :
    fetchBlock s = .instr i { s with dec := { s.dec with blkStart := s.dec.srcPos } } := by
  simp only [fetchBlock, hd]

/-- R384: while values are missing, the next code word is the instruction. -/
theorem fetchFreq_of_lt (hlt : s.work.freqVals.length < Config.freqCount) :
    fetchFreq s =
      let fr := s.work.fr.peekfill s.decByte s.litStart
      .instr (decodeFreq fr.acc.toNat) { s with work := { s.work with fr := fr } } := by
  simp only [fetchFreq, if_pos hlt]

/-! ## The step at each place -/

theorem step_of_cmdWrite {v : Word} {rest : List HostOp} (hm : s.mover = .host)
    (hq : s.host.queue = .csrWrite 0x004 4 v :: rest) :
    step s = exec (decodeCommand v) { s.beginTurn with host := { s.host with queue := rest } } := by
  rw [step_of_hostOp hm hq, hostAct_cmd, Fetched.run_instr]

theorem step_of_magic {i : Instr} (hm : s.mover = .core) (hb : s.isBusy) (hs : s.seq = .dec .run)
    (hp : s.dec.phase = .atBlockStart)
    (hd : let t := { s.beginTurn with dec := { s.dec with blkStart := s.dec.srcPos } }
      decode .block (bytesAt t.blkByte 0 (min t.avail 4)) = .ok i) :
    step s = exec i { s.beginTurn with dec := { s.dec with blkStart := s.dec.srcPos } } := by
  have hturn : coreTurn s.beginTurn = fetchBlock s.beginTurn := coreTurn_blockStart hb hs hp
  rw [step_of_core hm, hturn, fetchBlock_ok hd, Fetched.run_instr, State.beginTurn_dec]

theorem step_of_freqWord (hm : s.mover = .core) (hb : s.isBusy) (hs : s.seq = .dec .freqCode)
    (hlt : s.work.freqVals.length < Config.freqCount) :
    step s =
      let fr := s.work.fr.peekfill s.beginTurn.decByte s.litStart
      exec (decodeFreq fr.acc.toNat) { s.beginTurn with work := { s.beginTurn.work with fr := fr } } := by
  have hturn : coreTurn s.beginTurn = fetchFreq s.beginTurn := coreTurn_freqCode hb hs
  have hmissing : s.beginTurn.work.freqVals.length < Config.freqCount := by
    rw [State.beginTurn_work, State.beginWork_freqVals]; exact hlt
  have hfr : s.beginTurn.work.fr = s.work.fr := by rw [State.beginTurn_work, State.beginWork_fr]
  have hlit : s.beginTurn.litStart = s.litStart := rfl
  rw [step_of_core hm, hturn, fetchFreq_of_lt hmissing, hfr, hlit, Fetched.run_instr]

end Sys2Proof.Machine

open Sys2Proof.Machine

/-- Settles O5: the step lemma of each of R10's three fetch places. -/
theorem stepRunsTheFetchedInstruction : Obligations.StepRunsTheFetchedInstruction :=
  ⟨fun _ _ _ => step_of_cmdWrite, fun _ _ hm hb hs hp => step_of_magic hm hb hs hp,
    fun _ => step_of_freqWord⟩

end

section
/-! What a register write, a HOST store, a reset and a decode's bookkeeping leave alone, and the two turns a step
can be. -/

namespace Sys2Proof.Machine

variable {s t : State}

/-! ## Register writes -/

theorem State.setParam_busy (hb : s.isBusy) (c : Csrs) : s.setParam c = s := by
  rw [State.setParam, if_pos hb]

theorem State.setParam_idle (hb : ¬ s.isBusy) (c : Csrs) : s.setParam c = { s with csr := c } := by
  rw [State.setParam, if_neg hb]

/-- A register write moves no command and no session. -/
theorem State.writeCsr_frame (s : State) (off : Nat) (v : Word) :
    (s.writeCsr off v).seq = s.seq ∧ (s.writeCsr off v).dec = s.dec ∧ (s.writeCsr off v).work = s.work
    ∧ (s.writeCsr off v).enc = s.enc ∧ (s.writeCsr off v).racedDst = s.racedDst := by
  by_cases hb : s.isBusy
  · have hkeep := State.setParam_busy hb
    unfold State.writeCsr; split <;> simp [hkeep]
  · have hstore := State.setParam_idle hb
    unfold State.writeCsr; split <;> simp [hstore]

/-- STATUS is read-only (R43). -/
theorem State.writeCsr_status (s : State) (off : Nat) (v : Word) :
    (s.writeCsr off v).csr.state = s.csr.state ∧ (s.writeCsr off v).csr.errCode = s.csr.errCode
    ∧ (s.writeCsr off v).csr.decPhase = s.csr.decPhase := by
  by_cases hb : s.isBusy
  · have hkeep := State.setParam_busy hb
    unfold State.writeCsr; split <;> simp [hkeep]
  · have hstore := State.setParam_idle hb
    unfold State.writeCsr; split <;> simp [hstore]

/-- The destination's parameters are locked while BUSY (R56). -/
theorem State.writeCsr_dst_of_busy (hb : s.isBusy) (off : Nat) (v : Word) :
    (s.writeCsr off v).csr.dstAddr = s.csr.dstAddr ∧ (s.writeCsr off v).csr.dstSize = s.csr.dstSize := by
  have hkeep := State.setParam_busy hb
  unfold State.writeCsr; split <;> simp [hkeep, Csrs.dstAddr]

/-! ## Reset -/

@[simp] theorem State.rst_csr (s : State) : s.rst.csr = .reset := rfl
@[simp] theorem State.rst_seq (s : State) : s.rst.seq = .rest := rfl
@[simp] theorem State.rst_dec (s : State) : s.rst.dec = .reset := rfl
@[simp] theorem State.rst_enc (s : State) : s.rst.enc = .empty := rfl
@[simp] theorem State.rst_racedDst (s : State) : s.rst.racedDst = [] := rfl

/-! ## HOST's stores -/

theorem State.hostStore_racedDst (s : State) (a : Addr) (b : Byte) :
    (s.hostStore a b).racedDst =
      if s.isBusy ∧ s.dstRange.has a.toNat then a.toNat :: s.racedDst else s.racedDst := rfl

/-! ## Places in the source -/

/-- Two sessions in one phase, at one place of their source. -/
structure Session.SamePlace (d e : Session) : Prop where
  phase : e.phase = d.phase
  size : e.srcSize = d.srcSize
  pos : e.srcPos = d.srcPos
  start : e.blkStart = d.blkStart
  stop : e.blkEnd = d.blkEnd
  hdr : e.hdr = d.hdr

theorem Session.SamePlace.refl (d : Session) : d.SamePlace d := ⟨rfl, rfl, rfl, rfl, rfl, rfl⟩

theorem Session.loadTriplet_samePlace (d : Session) (i : Nat) : d.SamePlace (d.loadTriplet i) := by
  obtain ⟨-, hphase, -, hsize, hpos, -, -, hhdr, hstart, hstop⟩ := d.loadTriplet_frame i
  exact ⟨hphase, hsize, hpos, hstart, hstop, hhdr⟩

theorem Bookkeeping.samePlace {f : Session → Session} (hf : Bookkeeping f) (d : Session) : d.SamePlace (f d) := by
  obtain ⟨-, hphase, -, hsize, hpos, -, -, hhdr, hstart, hstop⟩ := hf.frame d
  exact ⟨hphase, hsize, hpos, hstart, hstop, hhdr⟩

/-! ## Turns -/

/-- What follows from every turn of CORE and from every turn of HOST follows from the step. -/
theorem step_elim {P : Prop} (h : step s = .next t) (hcore : CoreMove s.beginTurn t → P)
    (hhost : HostMove s.beginTurn t → P) : P := by
  rcases step_next h with ⟨-, m⟩ | ⟨-, m⟩
  · exact hcore m
  · exact hhost m

end Sys2Proof.Machine

end

section
/-! STATUS agrees with what CORE does: a step keeps it so. -/

namespace Sys2Proof.Machine

variable {s t : State}

/-! ## States whose STATUS is consistent -/

/-- Only STATUS's fields, the stage and the session count. -/
theorem State.StatusOk.congr (h : s.StatusOk) (hst : t.csr.state = s.csr.state)
    (hcode : t.csr.errCode = s.csr.errCode) (hph : t.csr.decPhase = s.csr.decPhase) (hseq : t.seq = s.seq)
    (hdec : t.dec = s.dec) : t.StatusOk where
  busy := by simpa only [State.isBusy, hst, hseq] using h.busy
  code := by simpa only [hst, hcode] using h.code
  stage := by simpa only [hseq, hdec] using h.stage
  encoding := by simpa only [hseq, hdec] using h.encoding
  paused := by simpa only [State.isBusy, hst, hdec] using h.paused
  full := by simpa only [hst, hph, hdec] using h.full

theorem State.StatusOk.errCode_of_busy (h : s.StatusOk) (hb : s.isBusy) : s.csr.errCode = .none := by
  have hne : s.csr.state ≠ .error := by rw [hb]; decide
  exact Decidable.not_not.1 (mt h.code.2 hne)

/-- A decode runs in a phase of its stage. -/
theorem State.StatusOk.of_decoding {st : DecStage} (hb : t.isBusy) (hcode : t.csr.errCode = .none)
    (hs : t.seq = .dec st) (hp : st.phaseOk t.dec.phase) : t.StatusOk where
  busy := ⟨fun _ => by simp [hs], fun _ => hb⟩
  code := by simp [hcode, show t.csr.state = .busy from hb]
  stage := fun st' hs' => by cases hs.symm.trans hs'; exact hp
  encoding := fun st' hs' => by cases hs.symm.trans hs'
  paused := fun hn => absurd hb hn
  full := fun hf => by cases hb.symm.trans hf

/-- An ENCODE runs without a session. -/
theorem State.StatusOk.of_encoding {st : EncStage} (hb : t.isBusy) (hcode : t.csr.errCode = .none)
    (hs : t.seq = .enc st) (hv : t.dec.valid = false) : t.StatusOk where
  busy := ⟨fun _ => by simp [hs], fun _ => hb⟩
  code := by simp [hcode, show t.csr.state = .busy from hb]
  stage := fun st' hs' => by cases hs.symm.trans hs'
  encoding := fun _ _ => hv
  paused := fun hn => absurd hb hn
  full := fun hf => by cases hb.symm.trans hf

/-- CORE rests, any session being paused in a copy or replay phase. -/
theorem State.StatusOk.of_resting (hs : t.seq = .rest) (hb : ¬ t.isBusy)
    (hcode : t.csr.state = .error ↔ t.csr.errCode ≠ .none) (hp : t.dec.valid = true → t.dec.phase.copying)
    (hfull : t.csr.state = .dstFull → t.dec.valid = true ∧ t.csr.decPhase = t.dec.phase) : t.StatusOk where
  busy := by simp [hs, hb]
  code := hcode
  stage := fun st' hs' => by cases hs.symm.trans hs'
  encoding := fun st' hs' => by cases hs.symm.trans hs'
  paused := fun _ => hp
  full := hfull

/-- A command that is over leaves no session. -/
theorem State.StatusOk.of_ended (hs : t.seq = .rest) (hb : ¬ t.isBusy)
    (hcode : t.csr.state = .error ↔ t.csr.errCode ≠ .none) (hv : t.dec.valid = false)
    (hfull : t.csr.state ≠ .dstFull) : t.StatusOk :=
  .of_resting hs hb hcode (fun h => by simp [hv] at h) (fun h => absurd h hfull)

theorem State.StatusOk.beginTurn (h : s.StatusOk) : s.beginTurn.StatusOk := h.congr rfl rfl rfl rfl rfl

/-! ## Turns -/

/-- R440, R444, R460, R490: a CORE turn keeps STATUS consistent. -/
theorem CoreMove.keeps_statusOk (h : s.StatusOk) (m : CoreMove s t) : t.StatusOk := by
  have running : s.seq ≠ .rest → s.isBusy ∧ s.csr.errCode = .none := fun hs =>
    have hb := h.busy.2 hs
    ⟨hb, h.errCode_of_busy hb⟩
  have decodes : ∀ {u : State} {st st' : DecStage}, s.seq = .dec st → u.csr = s.csr → u.seq = .dec st' →
      st'.phaseOk u.dec.phase → u.StatusOk := fun hs hcsr hu hp => by
    obtain ⟨hb, hcode⟩ := running (by simp [hs])
    exact .of_decoding (by rw [State.isBusy, hcsr]; exact hb) (by rw [hcsr]; exact hcode) hu hp
  cases m with
  | idle => exact h
  | raisedDec st hs c hc => exact .of_ended rfl (by simp) (by simpa using hc) rfl (by simp)
  | eos => exact .of_ended rfl (by simp) (by simp) rfl (by simp)
  | done => exact .of_ended rfl (by simp) (by simp) rfl (by simp)
  | copyStarts hs hp d hd =>
    refine decodes hs rfl rfl (.inr ?_)
    rcases hd with ⟨n, -, rfl⟩ | ⟨n, bs, -, rfl⟩
    · exact .inl rfl
    · exact .inr (.inl rfl)
  | header hs hp hd w st hst =>
    refine decodes hs rfl rfl ?_
    rcases hst with rfl | rfl <;> exact hp
  | freqValue hs => exact decodes hs rfl hs (h.stage _ hs)
  | freqEnd hs =>
    have hp : s.dec.phase = .atBlockStart := h.stage _ hs
    exact decodes hs rfl rfl hp
  | tables hs hc d w hw hd => exact decodes hs rfl rfl (by rw [hd]; rfl)
  | literals hs => exact decodes hs rfl hs (h.stage _ hs)
  | literalsDone hs => exact decodes hs rfl rfl rfl
  | triplet hs => exact decodes hs rfl hs (h.stage _ hs)
  | replayStarts hs =>
    have hp : s.dec.phase = .inLmdStream := h.stage _ hs
    have hload : (s.dec.loadTriplet 0).phase = s.dec.phase := (s.dec.loadTriplet_samePlace 0).phase
    exact decodes hs rfl rfl (.inr (.inr (.inr (hload.trans hp))))
  | emitted hs hp hr b f hf =>
    refine decodes hs rfl hs (.inr ?_)
    have hph : (f (s.put b).dec).phase = s.dec.phase := (hf.samePlace _).phase
    simpa only [Phase.copying, hph] using hp
  | paused hs hp => exact .of_resting rfl (by simp) (by simp) (fun _ => hp) (fun _ => ⟨rfl, rfl⟩)
  | nextTriplet hs hp =>
    have hload := (s.dec.loadTriplet_samePlace (s.dec.tIdx + 1)).phase
    exact decodes hs rfl hs (.inr (.inr (.inr (hload.trans hp))))
  | blockDone hs => exact decodes hs rfl hs (.inl rfl)
  | encodes st st' hs =>
    obtain ⟨hb, hcode⟩ := running (by simp [hs])
    exact .of_encoding hb hcode rfl (h.encoding _ hs)
  | encoded st hs => exact .of_ended rfl (by simp) (by simp) (h.encoding _ hs) (by simp)
  | overflowed st hs => exact .of_ended rfl (by simp) (by simp) (h.encoding _ hs) (by simp)

/-- R550: issuing a command keeps STATUS consistent. -/
theorem Issued.keeps_statusOk (h : s.StatusOk) (m : Issued s t) : t.StatusOk := by
  cases m with
  | ignored => exact h
  | nop hb => exact .of_resting rfl (by simp) (by simp) (h.paused hb) (by simp)
  | abort => exact .of_ended rfl (by simp) (by simp) rfl (by simp)
  | rejected hb c hc =>
    refine .of_resting rfl (by simp) ?_ (h.paused hb) (by simp)
    rcases hc with rfl | rfl <;> simp
  | decode => exact .of_decoding rfl rfl rfl (.inl rfl)
  | resume hb hv => exact .of_decoding rfl rfl rfl (.inr (h.paused hb hv))
  | encode => exact .of_encoding rfl rfl rfl rfl

/-- A HOST turn keeps STATUS consistent: HOST writes none of its fields (R54). -/
theorem HostMove.keeps_statusOk (h : s.StatusOk) (m : HostMove s t) : t.StatusOk := by
  cases m with
  | idle => exact h
  | command v rest hq t ht =>
    have hissue : ({ s with host := { s.host with queue := rest } } : State).StatusOk :=
      h.congr rfl rfl rfl rfl rfl
    exact ht.keeps_statusOk hissue
  | csrWrite off v q =>
    obtain ⟨hst, hcode, hph⟩ := ({ s with host := q } : State).writeCsr_status off v
    obtain ⟨hseq, hdec, -⟩ := ({ s with host := q } : State).writeCsr_frame off v
    exact h.congr hst hcode hph hseq hdec
  | reads | store => exact h.congr rfl rfl rfl rfl rfl
  | reset => exact .of_ended rfl (by simp [Csrs.reset]) (by simp [Csrs.reset]) rfl (by simp [Csrs.reset])

end Sys2Proof.Machine

open Sys2Proof.Machine

/-- Settles O56: CORE's turn, a command's issue and HOST's turn each keep STATUS consistent. -/
theorem stepsKeepStatusConsistent : Obligations.StepsKeepStatusConsistent := by
  intro s t hs h
  exact step_elim h (CoreMove.keeps_statusOk hs.beginTurn) (HostMove.keeps_statusOk hs.beginTurn)

end

section
/-! The invariants of the cursors and of the open block: a step keeps each of them. -/

namespace Sys2Proof.Machine

variable {s t : State}

/-! ## The source cursor (R32, R432) -/

/-- A step that leaves the session at its place and starts no header. -/
theorem State.SourceOk.congr (h : s.SourceOk) (hdec : s.dec.SamePlace t.dec)
    (hseq : t.seq = .dec .freqCode ∨ t.seq = .dec .blockStart → t.seq = s.seq) : t.SourceOk := by
  obtain ⟨hphase, hsize, hpos, hstart, hstop, hhdr⟩ := hdec
  constructor
  · rw [hsize]; exact h.size
  · rw [hsize, hpos]; exact h.cursor
  · rw [hphase, hsize, hpos, hstart, hstop]; exact h.block
  · intro hs; rw [hpos, hstart, hhdr]; exact h.header (hseq hs ▸ hs)

/-- The session where no block is open. -/
theorem State.SourceOk.of_between (hsize : t.dec.srcSize ≤ Config.maxBuf) (hcur : t.dec.srcPos ≤ t.dec.srcSize)
    (hp : t.dec.phase = .atBlockStart ∨ t.dec.phase = .done ∨ t.dec.phase = .error)
    (hs : t.seq ≠ .dec .freqCode ∧ t.seq ≠ .dec .blockStart) : t.SourceOk where
  size := hsize
  cursor := hcur
  block := fun hp' => by rcases hp with hp | hp | hp <;> simp [hp, Phase.copying] at hp'
  header := fun h => absurd h (not_or.2 hs)

/-- The session inside a block whose end is known. -/
theorem State.SourceOk.of_block (hsize : t.dec.srcSize ≤ Config.maxBuf)
    (hb : t.dec.srcPos = t.dec.blkStart ∧ t.dec.srcPos + 4 ≤ t.dec.blkEnd ∧ t.dec.blkEnd ≤ t.dec.srcSize)
    (hs : t.seq ≠ .dec .freqCode ∧ t.seq ≠ .dec .blockStart) : t.SourceOk where
  size := hsize
  cursor := by omega
  block := fun _ => hb
  header := fun h => absurd h (not_or.2 hs)

theorem State.SourceOk.beginTurn (h : s.SourceOk) : s.beginTurn.SourceOk := h.congr (.refl _) fun _ => rfl

/-- R432, R392: a block's end is found inside the source, and the cursor moves only to it. -/
theorem CoreMove.keeps_sourceOk (h : s.SourceOk) (hst : s.StatusOk) (m : CoreMove s t) : t.SourceOk := by
  have hsize := h.size
  have hcur := h.cursor
  cases m with
  | idle => exact h
  | raisedDec => exact .of_between hsize hcur (.inr (.inr rfl)) (by simp)
  | eos hs hp ha =>
    have hroom : s.dec.srcPos + 4 ≤ s.dec.srcSize := by unfold State.avail at ha; omega
    exact .of_between hsize hroom (.inr (.inl rfl)) (by simp)
  | copyStarts hs hp d hd =>
    unfold State.avail at hd
    rcases hd with ⟨n, hn, rfl⟩ | ⟨n, bs, hn, rfl⟩ <;>
      exact .of_block hsize ⟨rfl, by simp only; omega, by simp only; omega⟩ (by simp)
  | header hs hp hd w st hstage hw h32 hsum =>
    exact { size := hsize, cursor := hcur, block := fun hp' => by simp [hp, Phase.copying] at hp'
            header := fun _ => ⟨rfl, h32, hsum⟩ }
  | freqValue => exact h.congr (.refl _) fun _ => rfl
  | freqEnd hs =>
    exact { size := hsize, cursor := hcur, block := h.block, header := fun _ => h.header (.inl hs) }
  | tables hs hc d w hw hd =>
    obtain ⟨hblk, h32, hsum⟩ := h.header (.inr hs)
    have hfits := (checkHeader_ok hc).1
    have hend : s.lmdEnd = s.dec.blkStart + s.dec.hdr.hdrSize + s.dec.hdr.nPayload := by
      simp only [State.lmdEnd, State.lmdStart, State.litStart]; omega
    unfold State.avail at hfits
    subst hd
    exact .of_block hsize ⟨hblk.symm, by simp only; omega, by simp only; omega⟩ (by simp)
  | literalsDone hs =>
    have hp : s.dec.phase = .inLiteralStream := hst.stage _ hs
    exact .of_block hsize (h.block (.inr hp)) (by simp)
  | literals | triplet => exact h.congr ⟨rfl, rfl, rfl, rfl, rfl, rfl⟩ fun _ => rfl
  | replayStarts =>
    obtain ⟨hphase, hsz, hpos, hstart, hstop, hhdr⟩ := s.dec.loadTriplet_samePlace 0
    exact h.congr ⟨hphase, hsz, hpos, hstart, hstop, hhdr⟩ (by simp)
  | emitted hs hp hr b f hf =>
    obtain ⟨hphase, hsz, hpos, hstart, hstop, hhdr⟩ := hf.samePlace (s.put b).dec
    exact h.congr ⟨hphase, hsz, hpos, hstart, hstop, hhdr⟩ fun _ => rfl
  | nextTriplet => exact h.congr (s.dec.loadTriplet_samePlace _) fun _ => rfl
  | paused => exact h.congr ⟨rfl, rfl, rfl, rfl, rfl, rfl⟩ (by simp)
  | blockDone hs hp =>
    obtain ⟨-, -, hend⟩ := h.block (.inl hp)
    exact .of_between hsize hend (.inl rfl) (by simp [hs])
  | done => exact .of_between hsize hcur (.inr (.inl rfl)) (by simp)
  | encodes | encoded | overflowed => exact h.congr (.refl _) (by simp)

/-- R430, R47: a session starts with a source the spec allows. -/
theorem Issued.keeps_sourceOk (h : s.SourceOk) (m : Issued s t) : t.SourceOk := by
  cases m with
  | ignored => exact h
  | nop | rejected => exact h.congr (.refl _) (by simp)
  | abort => exact .of_between h.size (Nat.zero_le _) (.inl rfl) (by simp)
  | decode hb hs =>
    simp only [Csrs.srcOk, decide_eq_true_eq] at hs
    exact .of_between hs.1 (Nat.zero_le _) (.inl rfl) (by simp)
  | resume => exact h.congr (.refl _) (by simp)
  | encode => exact h.congr ⟨rfl, rfl, rfl, rfl, rfl, rfl⟩ (by simp)

/-- HOST reaches the session only by a command or a reset. -/
theorem HostMove.keeps_sourceOk (h : s.SourceOk) (m : HostMove s t) : t.SourceOk := by
  cases m with
  | idle => exact h
  | command v rest hq t ht =>
    have hissue : ({ s with host := { s.host with queue := rest } } : State).SourceOk :=
      h.congr (.refl _) fun _ => rfl
    exact ht.keeps_sourceOk hissue
  | csrWrite off v q =>
    obtain ⟨hseq, hdec, -⟩ := ({ s with host := q } : State).writeCsr_frame off v
    exact h.congr (by rw [hdec]; exact .refl _) fun _ => hseq
  | reads | store => exact h.congr (.refl _) fun _ => rfl
  | reset => exact .of_between (Nat.zero_le _) (Nat.zero_le _) (.inl rfl) (by simp)

/-! ## The destination cursor (R32, R49, R116) -/

/-- No command runs, so nothing of the destination is in use. -/
theorem State.DestOk.of_notBusy (hb : ¬ t.isBusy) : t.DestOk := ⟨fun h => absurd h hb, fun h => absurd h hb⟩

theorem State.RacesOk.of_nil (hr : t.racedDst = []) : t.RacesOk := ⟨by simp [hr], fun _ => hr⟩

/-- Both invariants of the destination together. -/
abbrev State.DstKept (s : State) : Prop := s.DestOk ∧ s.RacesOk

/-- A command that is over has raced for nothing and uses no destination. -/
theorem State.DstKept.of_ended (hb : ¬ t.isBusy) (hr : t.racedDst = []) : t.DstKept :=
  ⟨.of_notBusy hb, .of_nil hr⟩

/-- A step that keeps STATE, a running command's destination and the races, and a decode's cursor in range. -/
theorem State.DstKept.congr (h : s.DstKept) (hstate : t.csr.state = s.csr.state)
    (hdst : s.isBusy → t.csr.dstAddr = s.csr.dstAddr ∧ t.csr.dstSize = s.csr.dstSize)
    (hraced : t.racedDst = s.racedDst)
    (hcur : s.isBusy → ∀ st, t.seq = .dec st → t.work.dstPos ≤ s.csr.dstSize.toNat) : t.DstKept := by
  obtain ⟨⟨hrange, -⟩, ⟨hin, hrest⟩⟩ := h
  have hbusy : t.isBusy ↔ s.isBusy := by rw [State.isBusy, hstate]
  by_cases hb : s.isBusy
  · obtain ⟨haddr, hsize⟩ := hdst hb
    refine ⟨⟨fun _ => ?_, fun _ => ?_⟩, ⟨?_, fun hn => absurd (hbusy.2 hb) hn⟩⟩
    · rw [Csrs.dstOk, haddr, hsize]; exact hrange hb
    · rw [hsize]; exact hcur hb
    · rw [State.dstRange, haddr, hsize, hraced]; exact hin
  · exact .of_ended (mt hbusy.1 hb) (hraced.trans (hrest hb))

theorem State.DstKept.beginTurn (h : s.DstKept) : s.beginTurn.DstKept :=
  h.congr rfl (fun _ => ⟨rfl, rfl⟩) rfl fun hb st hs => by simpa using h.1.cursor hb st hs

/-- R433: EMIT writes only where there is room. -/
theorem CoreMove.keeps_dst (h : s.DstKept) (m : CoreMove s t) : t.DstKept := by
  have decodes : ∀ {u : State} {st : DecStage}, s.seq = .dec st → u.csr = s.csr → u.racedDst = s.racedDst →
      u.work.dstPos = s.work.dstPos → u.DstKept := fun hs hcsr hraced hw =>
    h.congr (by rw [hcsr]) (fun _ => by simp [hcsr]) hraced fun hb _ _ => hw ▸ h.1.cursor hb _ hs
  cases m with
  | idle => exact h
  | raisedDec | eos | done | paused | encoded | overflowed => exact .of_ended (by simp) rfl
  | copyStarts hs => exact decodes hs rfl rfl rfl
  | header hs hp hd w st hst hw => exact decodes hs rfl rfl hw
  | freqValue hs => exact decodes hs rfl rfl rfl
  | freqEnd hs => exact decodes hs rfl rfl rfl
  | tables hs hc d w hw => exact decodes hs rfl rfl hw
  | literals hs bs w hw => exact decodes hs rfl rfl hw
  | literalsDone hs w hw => exact decodes hs rfl rfl hw
  | triplet hs t w hw => exact decodes hs rfl rfl hw
  | replayStarts hs => exact decodes hs rfl rfl rfl
  | nextTriplet hs => exact decodes hs rfl rfl rfl
  | blockDone hs => exact decodes hs rfl rfl rfl
  | emitted hs hp hr b f hf =>
    refine h.congr rfl (fun _ => ⟨rfl, rfl⟩) rfl fun hb _ _ => ?_
    have hcur := h.1.cursor hb _ hs
    show s.work.dstPos + 1 ≤ s.csr.dstSize.toNat
    omega
  | encodes => exact h.congr rfl (fun _ => ⟨rfl, rfl⟩) rfl fun _ st hs => by simp at hs

/-- R49: a command runs only into a destination the spec allows. -/
theorem Issued.keeps_dst (h : s.DstKept) (m : Issued s t) : t.DstKept := by
  cases m with
  | ignored => exact h
  | nop hb | abort hb | rejected hb => exact .of_ended (by simp) (h.2.resting hb)
  | decode hb hs hd | resume hb hv hd => exact ⟨⟨fun _ => hd, fun _ _ _ => Nat.zero_le _⟩, .of_nil rfl⟩
  | encode hb hs hd => exact ⟨⟨fun _ => hd, fun _ st hs => by simp at hs⟩, .of_nil rfl⟩

/-- R56: the destination of a running command is locked. -/
theorem State.DstKept.writeCsr (h : s.DstKept) (off : Nat) (v : Word) : (s.writeCsr off v).DstKept := by
  obtain ⟨hseq, -, hwork, -, hraced⟩ := s.writeCsr_frame off v
  refine h.congr (s.writeCsr_status off v).1 (fun hb => State.writeCsr_dst_of_busy hb off v) hraced ?_
  rw [hseq, hwork]
  exact h.1.cursor

/-- R116: a store races only for a byte of a running command's destination. -/
theorem State.DstKept.hostStore (h : s.DstKept) (a : Addr) (b : Byte) : (s.hostStore a b).DstKept := by
  obtain ⟨⟨hrange, hcur⟩, ⟨hin, hrest⟩⟩ := h
  refine ⟨⟨hrange, hcur⟩, ⟨?_, fun hidle => ?_⟩⟩
  · rw [State.hostStore_racedDst]
    split
    · rename_i hraces
      exact List.forall_mem_cons.2 ⟨hraces.2, hin⟩
    · exact hin
  · rw [State.hostStore_racedDst, if_neg fun hraces => hidle hraces.1]
    exact hrest hidle

/-- R56, R116: HOST moves no parameter of a running command, and races only for bytes of its destination. -/
theorem HostMove.keeps_dst (h : s.DstKept) (m : HostMove s t) : t.DstKept := by
  have same : ∀ q : HostPort, ({ s with host := q } : State).DstKept := fun q =>
    h.congr rfl (fun _ => ⟨rfl, rfl⟩) rfl h.1.cursor
  cases m with
  | idle => exact h
  | command v rest hq t ht => exact ht.keeps_dst (same _)
  | csrWrite off v q => exact (same q).writeCsr off v
  | reads q => exact same q
  | store a b q => exact (same q).hostStore a b
  | reset => exact .of_ended (by simp [Csrs.reset]) rfl

/-! ## The open block (R61, R510) -/

theorem State.BlockOk.congr (h : s.BlockOk) (henc : t.enc = s.enc) : t.BlockOk :=
  ⟨henc ▸ h.matches', henc ▸ h.sameM, henc ▸ h.sameD, henc ▸ h.literals⟩

theorem State.BlockOk.of_empty (henc : t.enc = .empty) : t.BlockOk := by
  constructor <;> simp [henc, Encoder.empty]

/-- R510: each stage of an ENCODE keeps the block within its capacity. -/
theorem CoreMove.keeps_blockOk (h : s.BlockOk) (m : CoreMove s t) : t.BlockOk := by
  cases m with
  | raisedDec | eos | done | paused | encoded | overflowed => exact .of_empty rfl
  | encodes st st' hs e he =>
    exact ⟨he.matches' h.matches', he.sameM h.sameM, he.sameD h.sameD, he.literals h.literals⟩
  | _ => exact h.congr rfl

theorem Issued.keeps_blockOk (h : s.BlockOk) (m : Issued s t) : t.BlockOk := by
  cases m with
  | encode => exact .of_empty rfl
  | _ => exact h.congr rfl

theorem HostMove.keeps_blockOk (h : s.BlockOk) (m : HostMove s t) : t.BlockOk := by
  cases m with
  | command v rest hq t ht =>
    have hissue : ({ s with host := { s.host with queue := rest } } : State).BlockOk := h.congr rfl
    exact ht.keeps_blockOk hissue
  | csrWrite off v q =>
    obtain ⟨-, -, -, henc, -⟩ := ({ s with host := q } : State).writeCsr_frame off v
    exact h.congr henc
  | reset => exact .of_empty rfl
  | _ => exact h.congr rfl

/-! ## ENCODE and the session (R490, R546) -/

/-- A CORE turn of an ENCODE leaves the session and its counters alone, and no encoder state at its end. -/
theorem CoreMove.enc_frame {st : EncStage} (hs : s.seq = .enc st) (m : CoreMove s t) :
    t.dec = s.dec ∧ t.csr.outTotal = s.csr.outTotal ∧ t.csr.srcPos = s.csr.srcPos
    ∧ (t.seq = .rest → t.enc = .empty) := by
  have notDec : ∀ {st'}, s.seq ≠ .dec st' := fun h => by simp [hs] at h
  cases m with
  | idle => exact ⟨rfl, rfl, rfl, fun h => by simp [hs] at h⟩
  | encodes => exact ⟨rfl, rfl, rfl, fun h => by simp at h⟩
  | encoded | overflowed => exact ⟨rfl, rfl, rfl, fun _ => rfl⟩
  | _ => exact absurd ‹s.seq = .dec _› notDec

end Sys2Proof.Machine
open Sys2Proof.Machine

/-- Settles O58: CORE's turn needs O56's invariant for the phase a stage is in. -/
theorem stepsKeepTheSourceCursor : Obligations.StepsKeepTheSourceCursor := by
  intro s t hs hst h
  exact step_elim h (CoreMove.keeps_sourceOk hs.beginTurn hst.beginTurn) (HostMove.keeps_sourceOk hs.beginTurn)

/-- Settles O59: the two invariants of the destination are kept together. -/
theorem stepsKeepTheDestinationCursor : Obligations.StepsKeepTheDestinationCursor := by
  intro s t hd hr h
  have hs : s.beginTurn.DstKept := State.DstKept.beginTurn ⟨hd, hr⟩
  exact step_elim h (CoreMove.keeps_dst hs) (HostMove.keeps_dst hs)

/-- Settles O60: the capacity is kept by each stage of an ENCODE, and nothing else touches the block. -/
theorem stepsKeepTheBlockCapacity : Obligations.StepsKeepTheBlockCapacity := by
  intro s t hs h
  have hbegun : s.beginTurn.BlockOk := hs.congr rfl
  exact step_elim h (CoreMove.keeps_blockOk hbegun) (HostMove.keeps_blockOk hbegun)

/-- Settles O50: of the next states of a CORE turn, four are an ENCODE's. -/
theorem encodeLeavesTheSessionAlone : Obligations.EncodeLeavesTheSessionAlone := by
  intro s t st hm _ hs h
  rcases step_next h with ⟨-, m⟩ | ⟨hhost, -⟩
  · exact m.enc_frame (s := s.beginTurn) hs
  · simp [hm] at hhost

end

section
/-! The CSR window: what its offsets read and store, and which accesses are refused. -/

namespace Sys2Proof.Machine

variable {s : State}

/-! ## STATUS as a number (R43) -/

theorem RunState.code_le (st : RunState) : st.code ≤ 4 := by cases st <;> decide

theorem ErrCode.code_le (c : ErrCode) : c.code ≤ 0x21 := by cases c <;> decide

theorem State.statusWord_toNat (s : State) :
    s.statusWord.toNat = s.csr.state.code + 2 ^ 8 * s.csr.errCode.code + 2 ^ 16 * s.shownPhase.code := by
  have hst := s.csr.state.code_le
  have hcode := s.csr.errCode.code_le
  have hph := s.shownPhase.code_le
  rw [State.statusWord, BitVec.toNat_ofNat, Nat.shiftLeft_eq, Nat.shiftLeft_eq]
  omega

/-- A field of STATUS, its three parts small enough not to reach into each other. -/
theorem State.statusWord_field (s : State) (off len : Nat) :
    (s.statusWord.extractLsb' off len).toNat =
      (s.csr.state.code + 2 ^ 8 * s.csr.errCode.code + 2 ^ 16 * s.shownPhase.code) / 2 ^ off % 2 ^ len := by
  rw [BitVec.extractLsb'_toNat, State.statusWord_toNat, Nat.shiftRight_eq_div_pow]

theorem State.statusWord_state (s : State) : (s.statusWord.extractLsb' 0 3).toNat = s.csr.state.code := by
  have hst := s.csr.state.code_le
  rw [State.statusWord_field]; omega

theorem State.statusWord_errCode (s : State) : (s.statusWord.extractLsb' 8 8).toNat = s.csr.errCode.code := by
  have hst := s.csr.state.code_le
  have hcode := s.csr.errCode.code_le
  rw [State.statusWord_field]; omega

theorem State.statusWord_phase (s : State) : (s.statusWord.extractLsb' 16 3).toNat = s.shownPhase.code := by
  have hst := s.csr.state.code_le
  have hcode := s.csr.errCode.code_le
  have hph := s.shownPhase.code_le
  rw [State.statusWord_field]; omega

/-- The bits of STATUS between and above its fields read 0 (R40). -/
theorem State.statusWord_reserved (s : State) :
    s.statusWord.extractLsb' 3 5 = 0 ∧ s.statusWord.extractLsb' 19 13 = 0 := by
  have hst := s.csr.state.code_le
  have hcode := s.csr.errCode.code_le
  have hph := s.shownPhase.code_le
  constructor
  · refine BitVec.eq_of_toNat_eq ((s.statusWord_field 3 5).trans (Eq.trans ?_ BitVec.toNat_zero.symm))
    omega
  · refine BitVec.eq_of_toNat_eq ((s.statusWord_field 19 13).trans (Eq.trans ?_ BitVec.toNat_zero.symm))
    omega

/-! ## Reads -/

/-- No register stands above SRC_POS. -/
theorem State.readCsr_above (s : State) {off : Nat} (h : 0x044 < off) : s.readCsr off = 0 := by
  unfold State.readCsr
  split
  case h_18 => rfl
  all_goals omega

/-- OUT_TOTAL's halves (R53). -/
theorem State.readCsr_outTotal (s : State) : s.readCsr 0x040 ++ s.readCsr 0x03C = s.csr.outTotal := by
  show s.csr.outTotal.extractLsb' 32 32 ++ s.csr.outTotal.extractLsb' 0 32 = s.csr.outTotal
  rw [BitVec.extractLsb'_append_extractLsb'_eq_extractLsb' (by rfl)]
  exact BitVec.extractLsb'_eq_self

/-! ## Writes -/

/-- While BUSY a parameter register keeps its value (R56). -/
theorem State.writeCsr_param_of_busy (hb : s.isBusy) {off : Nat} (hlo : 0x014 ≤ off) (hhi : off ≤ 0x028)
    (v : Word) : s.writeCsr off v = s := by
  have hkeep := State.setParam_busy hb
  unfold State.writeCsr
  split
  case h_1 | h_2 => omega
  case h_9 => rfl
  all_goals exact hkeep _

/-- Nothing stored stands above DST_SIZE (R50 to R53). -/
theorem State.writeCsr_above (s : State) {off : Nat} (h : 0x028 < off) (v : Word) : s.writeCsr off v = s := by
  unfold State.writeCsr
  split
  case h_9 => rfl
  all_goals omega

/-! ## HOST's accesses -/

theorem csrAligned_iff {off : BitVec 12} {width : Nat} :
    csrAligned off width = true ↔ width = 4 ∧ off.toNat % 4 = 0 := by
  simp [csrAligned]

theorem hostAct_csrWrite_unaligned {off : BitVec 12} {width : Nat} (h : csrAligned off width = false) (v : Word)
    (t : State) : hostAct (.csrWrite off width v) t = .result (.refused .csrAccess) := by
  simp [hostAct, h]

theorem hostAct_csrRead_unaligned {off : BitVec 12} {width : Nat} (h : csrAligned off width = false) (t : State) :
    hostAct (.csrRead off width) t = .result (.refused .csrAccess) := by
  simp [hostAct, h]

theorem hostAct_csrWrite {off : BitVec 12} (hal : off.toNat % 4 = 0) (hne : off.toNat ≠ 0x004) (v : Word)
    (t : State) : hostAct (.csrWrite off 4 v) t = .result (.next (t.writeCsr off.toNat v)) := by
  simp [hostAct, csrAligned_iff.2 ⟨rfl, hal⟩, hne]

/-- HOST's aligned write to any offset but CMD's is a register write. -/
theorem step_of_csrWrite {off : BitVec 12} {v : Word} {rest : List HostOp} (hm : s.mover = .host)
    (hq : s.host.queue = .csrWrite off 4 v :: rest) (hal : off.toNat % 4 = 0) (hne : off.toNat ≠ 0x004) :
    step s = .next (({ s.beginTurn with host := { s.host with queue := rest } } : State).writeCsr off.toNat v) := by
  rw [step_of_hostOp hm hq, hostAct_csrWrite hal hne, Fetched.run_result]

/-- R550: whatever command is issued while BUSY, it is ignored. -/
theorem exec_command_of_busy {i : Instr} (hi : i.space = .command) (hb : s.isBusy) : exec i s = .next s := by
  cases i
  case blockEos | blockRaw | blockV1 | blockV2 | blockLzvn | freq0 | freq1 | freq2 | freq3 | freq4 | freq5
    | freq6 | freq7 | freq8to23 | freq24to1047 => cases hi
  all_goals exact State.issue_busy hb _

end Sys2Proof.Machine

open Sys2Proof.Machine

/-- Settles O7: each field of STATUS is a part of its number, and every other offset reads its register. -/
theorem csrWindowReads : Obligations.CsrWindowReads := by
  intro s
  have hphase : ((s.readCsr 0x00C).extractLsb' 16 3).toNat = s.shownPhase.code := s.statusWord_phase
  have hidle (hb : ¬ s.isBusy) : ((s.readCsr 0x00C).extractLsb' 16 3).toNat = s.csr.decPhase.code := by
    rw [hphase, State.shownPhase_idle hb]
  have hbusy (hb : s.isBusy) :
      ∃ p ∈ s.commandPhases, ((s.readCsr 0x00C).extractLsb' 16 3).toNat = p.code :=
    ⟨s.shownPhase, State.shownPhase_mem hb, hphase⟩
  have hencode (st : EncStage) (hb : s.isBusy) (hs : s.seq = .enc st) :
      (s.readCsr 0x00C).extractLsb' 16 3 = 0 := by
    apply BitVec.eq_of_toNat_eq
    rw [hphase, State.shownPhase_enc hb hs]
    rfl
  obtain ⟨hgap, htop⟩ := s.statusWord_reserved
  exact ⟨rfl, rfl, rfl, s.statusWord_state, hgap, s.statusWord_errCode, hidle, hbusy, hencode, htop, rfl, rfl,
    rfl, rfl, rfl, rfl, rfl, rfl, rfl, rfl, rfl, s.readCsr_outTotal, rfl, fun _ => s.readCsr_above⟩

/-- Settles O9: HOST's action is refused where it is not aligned, a read like a write. -/
theorem otherCsrAccessesAreRefused : Obligations.OtherCsrAccessesAreRefused := by
  intro s off width v rest hm hbad
  have hal : csrAligned off width = false := by
    rw [Bool.eq_false_iff, ne_eq, csrAligned_iff]
    omega
  constructor <;> intro hq
  · rw [step_of_hostOp hm hq, hostAct_csrWrite_unaligned hal, Fetched.run_result]
  · rw [step_of_hostOp hm hq, hostAct_csrRead_unaligned hal, Fetched.run_result]

/-- Settles O10: a CMD write is an issue that BUSY ignores, any other write a register write. -/
theorem busyIgnoresParameterAndCommandWrites : Obligations.BusyIgnoresParameterAndCommandWrites := by
  intro s off v rest hm hb hq hal
  have hwrite := step_of_csrWrite hm hq hal
  refine ⟨?_, fun hoff => ?_, fun hoff => ?_⟩
  · rintro (hoff | ⟨hlo, hhi⟩)
    · obtain rfl : off = 0x004 := BitVec.eq_of_toNat_eq hoff
      rw [step_of_cmdWrite hm hq]
      exact exec_command_of_busy (decodeCommand_space v) hb
    · have hlocked := State.writeCsr_param_of_busy
        (s := { s.beginTurn with host := { s.host with queue := rest } }) hb hlo hhi v
      rw [hwrite (by omega), hlocked]
  · rw [hwrite (by omega), hoff]; rfl
  · rw [hwrite (by omega), hoff]; rfl

/-- Settles O11: a parameter register stores where STATE is not BUSY, and HOST's write is the register write. -/
theorem csrWritesStore : Obligations.CsrWritesStore := by
  intro s v hb
  have hparam := State.setParam_idle hb
  exact ⟨hparam _, hparam _, hparam _, hparam _, hparam _, hparam _, rfl, rfl, rfl, rfl,
    fun _ h => s.writeCsr_above h v, fun _ _ => step_of_csrWrite⟩

end

section
/-! Which buffers a command takes: the size check and the refusals, over addresses. -/

namespace Sys2Proof.Machine

variable {s : State}

/-! ## Ranges -/

theorem Region.has_iff {r : Region} {x : Nat} : r.has x = true ↔ r.base ≤ x ∧ x < r.base + r.size := by
  simp [Region.has]

/-- Two ranges meet where they share a byte: the later of their bases. -/
theorem Region.meets_iff {r q : Region} : r.meets q = true ↔ ∃ x, r.has x = true ∧ q.has x = true := by
  simp only [Region.has_iff, Region.meets, decide_eq_true_eq]
  constructor
  · intro h
    exact ⟨max r.base q.base, by omega, by omega⟩
  · rintro ⟨x, hr, hq⟩
    omega

/-- R104, the window counting as a device (log entry 6). -/
theorem Platform.onDevice_iff {p : Platform} {r : Region} :
    p.onDevice r = true ↔
      ∃ d, (d = p.window ∨ d ∈ p.devices) ∧ ∃ x, d.has x = true ∧ r.has x = true := by
  simp only [Platform.onDevice, Bool.or_eq_true, List.any_eq_true, Region.meets_iff, or_and_right, exists_or,
    exists_eq_left]

theorem Csrs.srcOk_iff {c : Csrs} :
    c.srcOk = true ↔ ¬ (2147483647 < c.srcSize.toNat ∨ 2 ^ 64 < c.srcAddr.toNat + c.srcSize.toNat) := by
  simp [Csrs.srcOk, Config.maxBuf, Config.addrSpace]

theorem Csrs.dstOk_iff {c : Csrs} :
    c.dstOk = true ↔ ¬ (2147483647 < c.dstSize.toNat ∨ 2 ^ 64 < c.dstAddr.toNat + c.dstSize.toNat) := by
  simp [Csrs.dstOk, Config.maxBuf, Config.addrSpace]

/-! ## Refusals -/

theorem State.withBuffers_of_device {src dst : Region}
    (h : s.platform.onDevice src = true ∨ s.platform.onDevice dst = true) (r : Result) :
    s.withBuffers src dst r = .refused .deviceBuffer := by
  simp [State.withBuffers, State.bufferRefusal, h]

theorem State.withBuffers_of_overlap {src dst : Region} (hs : ¬ s.platform.onDevice src = true)
    (hd : ¬ s.platform.onDevice dst = true) (h : src.meets dst = true) (r : Result) :
    s.withBuffers src dst r = .refused .bufferOverlap := by
  simp [State.withBuffers, State.bufferRefusal, hs, hd, h]

/-! ## The three commands with buffers -/

theorem execEncode_of_bad_size (hb : ¬ s.isBusy) (h : (s.csr.srcOk && s.csr.dstOk) = false) :
    execEncode s = .next (s.cmdErr .sizeLimit) := by
  rw [execEncode, State.issue_idle hb, if_pos (by simp [h])]

theorem execEncode_of_sizes (hb : ¬ s.isBusy) (hs : s.csr.srcOk = true) (hd : s.csr.dstOk = true) :
    execEncode s = s.withBuffers s.csrSrc s.dstRange (.next s.startEncode) := by
  rw [execEncode, State.issue_idle hb, if_neg (by simp [hs, hd])]

theorem execDecode_of_bad_size (hb : ¬ s.isBusy) (h : (s.csr.srcOk && s.csr.dstOk) = false) :
    execDecode s = .next (s.cmdErr .sizeLimit) := by
  rw [execDecode, State.issue_idle hb, if_pos (by simp [h])]

theorem execDecode_of_sizes (hb : ¬ s.isBusy) (hs : s.csr.srcOk = true) (hd : s.csr.dstOk = true) :
    execDecode s = s.withBuffers s.csrSrc s.dstRange (.next s.startDecode) := by
  rw [execDecode, State.issue_idle hb, if_neg (by simp [hs, hd])]

theorem execDecodeResume_of_bad_size (hb : ¬ s.isBusy) (hv : s.dec.valid = true) (h : ¬ s.csr.dstOk = true) :
    execDecodeResume s = .next (s.cmdErr .sizeLimit) := by
  rw [execDecodeResume, State.issue_idle hb, if_neg (by simp [hv]), if_pos (by simpa using h)]

theorem execDecodeResume_of_sizes (hb : ¬ s.isBusy) (hv : s.dec.valid = true) (hd : s.csr.dstOk = true) :
    execDecodeResume s = s.withBuffers s.sessionSrc s.dstRange (.next s.startResume) := by
  rw [execDecodeResume, State.issue_idle hb, if_neg (by simp [hv]), if_neg (by simp [hd])]

end Sys2Proof.Machine

open Sys2Proof.Machine

/-- Settles O16: the size check comes first, then the two refusals, each turned into its statement over
addresses. -/
theorem badBuffersAreRejectedOrRefused : Obligations.BadBuffersAreRejectedOrRefused := by
  intro s hb share onDevice csrSrc latched dst bad t
  have hdevice (r : Region) : onDevice r ↔ s.platform.onDevice r = true := Platform.onDevice_iff.symm
  have hshare (r q : Region) : share r q ↔ r.meets q = true := Region.meets_iff.symm
  have hsrcBad : bad s.csr.srcSize s.csr.srcAddr ↔ ¬ s.csr.srcOk = true := iff_not_comm.1 Csrs.srcOk_iff
  have hdstBad : bad s.csr.dstSize s.csr.dstAddr ↔ ¬ s.csr.dstOk = true := iff_not_comm.1 Csrs.dstOk_iff
  simp only [hdevice, hshare]
  refine ⟨fun hbad => ?_, fun hv hbad => ?_, fun hsrc hdst => ?_, fun hv hdst => ?_⟩
  · have hnot : (s.csr.srcOk && s.csr.dstOk) = false := by
      rcases hbad with h | h
      · simp [hsrcBad.1 h]
      · simp [hdstBad.1 h]
    exact ⟨execEncode_of_bad_size hb hnot, execDecode_of_bad_size hb hnot⟩
  · exact execDecodeResume_of_bad_size hb hv (hdstBad.1 hbad)
  · have hsrcOk := Csrs.srcOk_iff.2 hsrc
    have hdstOk := Csrs.dstOk_iff.2 hdst
    have hencode := execEncode_of_sizes hb hsrcOk hdstOk
    have hdecode := execDecode_of_sizes hb hsrcOk hdstOk
    refine ⟨fun hdev => ⟨?_, ?_⟩, fun hs hd hmeet => ⟨?_, ?_⟩⟩
    · exact hencode.trans (State.withBuffers_of_device hdev _)
    · exact hdecode.trans (State.withBuffers_of_device hdev _)
    · exact hencode.trans (State.withBuffers_of_overlap hs hd hmeet _)
    · exact hdecode.trans (State.withBuffers_of_overlap hs hd hmeet _)
  · have hresume := execDecodeResume_of_sizes hb hv (Csrs.dstOk_iff.2 hdst)
    exact ⟨fun hdev => hresume.trans (State.withBuffers_of_device hdev _),
      fun hs hd hmeet => hresume.trans (State.withBuffers_of_overlap hs hd hmeet _)⟩

end

section
/-! Host memory: what a turn writes, that CORE writes only the destination, and that the canonical form is kept. The
history window is kept too, and block starts and code words that go on leave all of this alone. -/

namespace Sys2Proof.Machine

variable {s t : State}

/-! ## What a turn writes (R106, R107) -/

/-- Host memory after a turn of CORE in `s`: as it was; with one byte emitted at the cursor; or, at a command's end,
with bytes written from DST_ADDR on and the raced bytes settled. What is written from DST_ADDR on fits the
destination, or replaces the bytes a decode has emitted. -/
inductive CoreWrites (s : State) : Memory → Prop
  | nothing : CoreWrites s s.mem
  | emits (hs : s.seq = .dec .run) (hr : ¬ s.noRoom) (b : Byte) :
    CoreWrites s (s.mem.write (s.csr.dstAddr + BitVec.ofNat 64 s.work.dstPos) b)
  | ends (bs : List Byte)
    (hl : bs.length ≤ s.csr.dstSize.toNat ∨ (∃ st, s.seq = .dec st) ∧ bs.length = s.work.dstPos) :
    CoreWrites s ((s.mem.writeBytes s.csr.dstAddr bs).settle s.draws s.racedDst)

/-- R433, R490, R540, R570: memory changes by an emitted byte or at a command's end. -/
theorem CoreMove.writes (m : CoreMove s t) : CoreWrites s t.mem := by
  have settles : CoreWrites s (s.mem.settle s.draws s.racedDst) := .ends [] (.inl (Nat.zero_le _))
  cases m with
  | raisedDec st hs => exact .ends _ (.inr ⟨⟨st, hs⟩, by simp⟩)
  | eos | paused | done => exact settles
  | emitted hs hp hr b => exact .emits hs hr b
  | encoded st hs out hl => exact .ends out (.inl hl)
  | overflowed => exact .ends _ (.inl (by simp))
  | _ => exact .nothing

/-- R550: a command's issue writes no byte. -/
theorem Issued.mem_eq (m : Issued s t) : t.mem = s.mem := by cases m <;> rfl

theorem State.writeCsr_mem (s : State) (off : Nat) (v : Word) : (s.writeCsr off v).mem = s.mem := by
  by_cases hb : s.isBusy
  · have hkeep := State.setParam_busy hb
    unfold State.writeCsr; split <;> simp [hkeep]
  · have hstore := State.setParam_idle hb
    unfold State.writeCsr; split <;> simp [hstore]

/-! ## The canonical form (log entry 3) -/

theorem CoreWrites.keeps_wf {m : Memory} (h : s.mem.wf) (w : CoreWrites s m) : m.wf := by
  cases w with
  | nothing => exact h
  | emits => exact Memory.wf_write h _ _
  | ends bs => exact Memory.wf_settle (Memory.wf_writeBytes h _ bs) _ _

theorem HostMove.keeps_wf (h : s.mem.wf) (m : HostMove s t) : t.mem.wf := by
  cases m with
  | idle | reads => exact h
  | command v rest hq t ht => rw [ht.mem_eq]; exact h
  | csrWrite off v q => rw [State.writeCsr_mem]; exact h
  | store a b => exact Memory.wf_write h a b
  | reset =>
    simp only [State.rst]
    split
    · exact Memory.wf_havoc h _ _ _
    · exact h

/-! ## Outside the destination (R106, R107) -/

theorem Region.has_eq_false_iff {r : Region} {x : Nat} : r.has x = false ↔ x < r.base ∨ r.base + r.size ≤ x := by
  rw [← Bool.not_eq_true, Region.has_iff]; omega

/-- A destination the spec allows ends inside the address space (R49). -/
theorem State.DestOk.no_wrap (h : s.DestOk) (hb : s.isBusy) :
    s.csr.dstAddr.toNat + s.csr.dstSize.toNat ≤ 2 ^ 64 := by
  have hok := h.range hb
  simp only [Csrs.dstOk, decide_eq_true_eq] at hok
  exact hok.2

/-- The cursor's address is a byte of the destination where there is room. -/
theorem State.DestOk.has_cursor (h : s.DestOk) (hb : s.isBusy) {st : DecStage} (hs : s.seq = .dec st)
    (hr : ¬ s.noRoom) : s.dstRange.has (s.csr.dstAddr + BitVec.ofNat 64 s.work.dstPos).toNat = true := by
  have hcur := h.cursor hb st hs
  have hfit := h.no_wrap hb
  have hmod : (s.csr.dstAddr + BitVec.ofNat 64 s.work.dstPos).toNat = s.csr.dstAddr.toNat + s.work.dstPos := by
    rw [BitVec.toNat_add, BitVec.toNat_ofNat]; omega
  rw [Region.has_iff, hmod, State.dstRange]
  exact ⟨Nat.le_add_right _ _, by simp only; omega⟩

/-- No raced byte lies outside the destination (R116). -/
theorem State.DstKept.raced_ne (h : s.DstKept) (hb : s.isBusy) {a : Addr} (ha : s.dstRange.has a.toNat = false) :
    ∀ x ∈ s.racedDst, BitVec.ofNat 64 x ≠ a := by
  rintro x hx rfl
  have hin := h.2.inRange x hx
  have hlt : x < 2 ^ 64 := Nat.lt_of_lt_of_le (Region.has_iff.1 hin).2 (h.1.no_wrap hb)
  rw [BitVec.toNat_ofNat, Nat.mod_eq_of_lt hlt, hin] at ha
  cases ha

/-- R106, R107: a running command's memory outside its destination stays as it was. -/
theorem CoreWrites.read_outside {m : Memory} (h : s.DstKept) (hb : s.isBusy) (w : CoreWrites s m) {a : Addr}
    (ha : s.dstRange.has a.toNat = false) : m.read a = s.mem.read a := by
  cases w with
  | nothing => rfl
  | emits hs hr b =>
    refine Memory.read_write_ne _ b fun hcursor => ?_
    rw [hcursor, h.1.has_cursor hb hs hr] at ha
    cases ha
  | ends bs hl =>
    have hlen : bs.length ≤ s.csr.dstSize.toNat := by
      rcases hl with hl | ⟨⟨st, hs⟩, hl⟩
      · exact hl
      · rw [hl]; exact h.1.cursor hb st hs
    have hfit := h.1.no_wrap hb
    have hout := Region.has_eq_false_iff.1 ha
    simp only [State.dstRange] at hout
    calc _ = (s.mem.writeBytes s.csr.dstAddr bs).read a := Memory.read_settle_outside _ _ _ _ (h.raced_ne hb ha)
      _ = s.mem.read a :=
        Memory.read_writeBytes_outside _ _ _ _ (Nat.le_trans (Nat.add_le_add_left hlen _) hfit) (by omega)

/-- R56, R104: a turn of CORE leaves HOST's parameters, CTRL, the platform and HOST's program alone. -/
theorem CoreMove.params_eq (m : CoreMove s t) :
    t.csr.srcAddr = s.csr.srcAddr ∧ t.csr.srcSize = s.csr.srcSize ∧ t.csr.dstAddr = s.csr.dstAddr
    ∧ t.csr.dstSize = s.csr.dstSize ∧ t.csr.irqEn = s.csr.irqEn ∧ t.platform = s.platform ∧ t.host = s.host
    ∧ t.frontEnd = s.frontEnd := by
  cases m <;> exact ⟨rfl, rfl, rfl, rfl, rfl, rfl, rfl, rfl⟩

/-! ## The history window (R108) -/

/-- A step that emits nothing. -/
theorem State.HistoryOk.congr (h : s.HistoryOk) (htotal : t.dec.outTotal = s.dec.outTotal)
    (hwin : t.dec.histWin = s.dec.histWin) : t.HistoryOk := by
  rw [State.HistoryOk, htotal, hwin]; exact h

/-- A session that has emitted nothing. -/
theorem State.HistoryOk.of_empty (htotal : t.dec.outTotal = 0) (hwin : t.dec.histWin = []) : t.HistoryOk := by
  simp [State.HistoryOk, htotal, hwin]

/-- R433: EMIT counts its byte and puts it in front of the window. -/
theorem State.HistoryOk.put (h : s.HistoryOk) (b : Byte) : (s.put b).HistoryOk := by
  unfold State.HistoryOk at h ⊢
  simp only [State.put_dec, List.length_take, List.length_cons, h]
  omega

theorem CoreMove.keeps_historyOk (h : s.HistoryOk) (m : CoreMove s t) : t.HistoryOk := by
  cases m with
  | copyStarts hs hp d hd => rcases hd with ⟨n, -, rfl⟩ | ⟨n, bs, -, rfl⟩ <;> exact h
  | tables hs hc d w hw hd => subst hd; exact h
  | replayStarts =>
    obtain ⟨-, -, -, -, -, htotal, hwin, -⟩ := s.dec.loadTriplet_frame 0
    exact h.congr htotal hwin
  | nextTriplet =>
    obtain ⟨-, -, -, -, -, htotal, hwin, -⟩ := s.dec.loadTriplet_frame (s.dec.tIdx + 1)
    exact h.congr htotal hwin
  | emitted hs hp hr b f hf =>
    obtain ⟨-, -, -, -, -, htotal, hwin, -⟩ := hf.frame (s.put b).dec
    exact (h.put b).congr htotal hwin
  | _ => exact h

/-- R430, R553: a new session and ABORT empty the window and its count together. -/
theorem Issued.keeps_historyOk (h : s.HistoryOk) (m : Issued s t) : t.HistoryOk := by
  cases m with
  | abort | decode => exact .of_empty rfl rfl
  | _ => exact h

theorem HostMove.keeps_historyOk (h : s.HistoryOk) (m : HostMove s t) : t.HistoryOk := by
  cases m with
  | idle | reads | store => exact h
  | command v rest hq t ht =>
    have hissue : ({ s with host := { s.host with queue := rest } } : State).HistoryOk := h
    exact ht.keeps_historyOk hissue
  | csrWrite off v q =>
    obtain ⟨-, hdec, -⟩ := ({ s with host := q } : State).writeCsr_frame off v
    exact h.congr (by rw [hdec]) (by rw [hdec])
  | reset => exact .of_empty rfl rfl

/-! ## Block starts and code words that go on (R451 to R454, R384) -/

/-- A checked rule after which CORE does not rest went on: an error would have ended the command. -/
theorem State.andThen_goesOn {α : Type} {r : Except Halt α} {k : α → Result} (h : s.andThen r k = .next t)
    (hseq : t.seq ≠ .rest) : ∃ a, k a = .next t := by
  rcases State.andThen_next h with ⟨a, -, h⟩ | ⟨c, -, rfl⟩
  · exact ⟨a, h⟩
  · exact absurd (State.raiseErr_seq s c) hseq

/-- Two sessions over one source, with the same cursor and the same output. -/
structure Session.SameStream (d e : Session) : Prop where
  valid : e.valid = d.valid
  srcAddr : e.srcAddr = d.srcAddr
  srcSize : e.srcSize = d.srcSize
  srcPos : e.srcPos = d.srcPos
  outTotal : e.outTotal = d.outTotal
  histWin : e.histWin = d.histWin

theorem Session.SameStream.refl (d : Session) : d.SameStream d := ⟨rfl, rfl, rfl, rfl, rfl, rfl⟩

/-- Only a decode's own state differs, and neither its stream nor its destination cursor has moved. -/
def State.DecodesOnly (s t : State) : Prop :=
  ∃ d w q, t = { s with dec := d, work := w, seq := q } ∧ s.dec.SameStream d ∧ w.dstPos = s.work.dstPos

theorem exec_block_goesOn {i : Instr} (hi : i.space = .block) (h : exec i s = .next t) (hseq : t.seq ≠ .rest) :
    s.DecodesOnly t := by
  cases i with
  | blockEos => cases h; simp at hseq
  | blockRaw | blockV1 | blockV2 =>
    obtain ⟨_, h⟩ := State.andThen_goesOn h hseq
    cases h
    exact ⟨_, _, _, rfl, ⟨rfl, rfl, rfl, rfl, rfl, rfl⟩, rfl⟩
  | blockLzvn =>
    obtain ⟨⟨nRaw, nPay⟩, h⟩ := State.andThen_goesOn h hseq
    simp only [Host.Outcome.next.injEq] at h
    subst h
    unfold State.startDelegated at hseq ⊢
    split at hseq
    · exact absurd (State.raiseErr_seq _ _) hseq
    · exact ⟨_, _, _, rfl, ⟨rfl, rfl, rfl, rfl, rfl, rfl⟩, rfl⟩
  | _ => cases hi

theorem exec_freq_goesOn {i : Instr} (hi : i.space = .freqCode) (h : exec i s = .next t) (hseq : t.seq ≠ .rest) :
    s.DecodesOnly t := by
  rcases exec_freq hi h with ⟨fr, v, rfl⟩ | rfl
  · exact ⟨s.dec, _, s.seq, rfl, .refl _, rfl⟩
  · exact absurd (State.raiseErr_seq s _) hseq

end Sys2Proof.Machine

open Sys2Proof.Machine

/-- Settles O51: the turn of a running command writes inside the destination, and no other turn of CORE writes. -/
theorem coreWritesOnlyTheDestination : Obligations.CoreWritesOnlyTheDestination := by
  intro s t hm h
  rw [step_of_core hm] at h
  have m : CoreMove s.beginTurn t := coreTurn_next h
  refine ⟨m.params_eq, fun hd hr a ha => ?_⟩
  by_cases hb : s.isBusy
  · exact m.writes.read_outside (State.DstKept.beginTurn ⟨hd, hr⟩) hb ha
  · rw [coreTurn_idle (s := s.beginTurn) hb] at h
    cases h
    rfl

/-- Settles O55: every write of either agent is one of memory's operations, which keep the form. -/
theorem stepsKeepMemoryCanonical : Obligations.StepsKeepMemoryCanonical := by
  intro s t hs h
  have hbegun : s.beginTurn.mem.wf := hs
  exact step_elim h (fun m => m.writes.keeps_wf hbegun) (HostMove.keeps_wf hbegun)

/-- Settles O49: what goes on has raised no error, so only the decode's own state has changed. -/
theorem blockAndCodeWordFrame : Obligations.BlockAndCodeWordFrame := by
  intro i s t hi h hseq _
  have hframe : s.DecodesOnly t := hi.elim (exec_block_goesOn · h hseq) (exec_freq_goesOn · h hseq)
  obtain ⟨d, w, q, rfl, ⟨hvalid, haddr, hsize, hpos, htotal, hwin⟩, hcursor⟩ := hframe
  exact ⟨rfl, rfl, rfl, rfl, rfl, rfl, rfl, rfl, hcursor, hpos, htotal, hwin, hvalid, haddr, hsize⟩

/-- Settles O57: EMIT alone extends the window and its count, and both are emptied together. -/
theorem stepsKeepTheHistoryWindow : Obligations.StepsKeepTheHistoryWindow := by
  intro s t hs h
  have hbegun : s.beginTurn.HistoryOk := hs
  exact step_elim h (CoreMove.keeps_historyOk hbegun) (HostMove.keeps_historyOk hbegun)

end

section
/-! The encodings of the three code spaces: what a decoder reads depends on the code's bits alone (R140, R150,
R160), and every accumulator begins with one frequency-code word. -/

namespace Sys2Proof.Machine

/-! ## Byte order and bit fields -/

theorem field_zero (w len : Nat) : field w 0 len = w % 2 ^ len := rfl

theorem field_eq_div_mod (w off len : Nat) : field w off len = w / 2 ^ off % 2 ^ len := by
  rw [field, Nat.shiftRight_eq_div_pow]

theorem le_leBytes (v n : Nat) : le (leBytes v n) = v % 256 ^ n := by
  induction n generalizing v with
  | zero => simp [leBytes, le, Nat.mod_one]
  | succ n ih =>
    rw [leBytes, le, ih, BitVec.toNat_ofNat, show 256 ^ (n + 1) = 256 * 256 ^ n from Nat.pow_succ', Nat.mod_mul]

/-- A code fits its width. -/
theorem encode_bits_lt {i : Instr} (hw : i.wf = true) : (encode i).bits < 2 ^ (encode i).nbits := by
  cases i with
  | freq8to23 v => obtain ⟨-, hlt, -⟩ := Laws.Encoding.freq8to23 v hw; exact hlt
  | freq24to1047 v => obtain ⟨-, hlt, -⟩ := Laws.Encoding.freq24to1047 v hw; exact hlt
  | _ => decide

/-! ## Command words (R140) -/

/-- Bits [3:0] alone select the command. -/
theorem decodeCommand_of_opcode {i : Instr} {w : Word} (hi : i.space = .command)
    (h : w.toNat % 16 = (encode i).bits % 16) : decodeCommand w = i := by
  unfold decodeCommand
  rw [h]
  cases i
  case blockEos | blockRaw | blockV1 | blockV2 | blockLzvn | freq0 | freq1 | freq2 | freq3 | freq4 | freq5
    | freq6 | freq7 | freq8to23 | freq24to1047 => cases hi
  all_goals rfl

theorem decode_command_encode {i : Instr} (hi : i.space = .command) (ignored : Nat) :
    decode .command (leBytes ((encode i).bits + 16 * ignored) 4) = .ok i := by
  have hopcode : (BitVec.ofNat 32 (le (leBytes ((encode i).bits + 16 * ignored) 4))).toNat % 16
      = (encode i).bits % 16 := by
    rw [le_leBytes, BitVec.toNat_ofNat]; omega
  rw [decode, decodeCommand_of_opcode hi hopcode]

/-! ## Magics (R150) -/

theorem decodeMagic_encode {i : Instr} (hi : i.space = .block) : decodeMagic (encode i).bits = some i := by
  cases i with
  | blockEos | blockRaw | blockV1 | blockV2 | blockLzvn => rfl
  | _ => cases hi

theorem encode_of_decodeMagic {m : Nat} {i : Instr} (h : decodeMagic m = some i) : (encode i).bits = m := by
  unfold decodeMagic at h
  repeat' split at h
  all_goals cases h
  all_goals exact Eq.symm ‹_›

/-- R151: what is none of the five codes is unrecognized. -/
theorem decodeMagic_eq_none {m : Nat} (h : ∀ i : Instr, i.space = .block → m ≠ (encode i).bits) :
    decodeMagic m = none := by
  cases hd : decodeMagic m with
  | none => rfl
  | some i => exact absurd (encode_of_decodeMagic hd).symm (h i (decodeMagic_space hd))

theorem decode_block_truncated {bs : List Byte} (h : bs.length < 4) : decode .block bs = .error .truncated := by
  simp only [decode, if_pos h]

theorem decode_block_badMagic {bs : List Byte} (hl : 4 ≤ bs.length) (h : decodeMagic (le (bs.take 4)) = none) :
    decode .block bs = .error .badMagic := by
  simp only [decode, if_neg (Nat.not_lt.2 hl), h]

theorem decode_block_magic {bs : List Byte} {i : Instr} (hl : 4 ≤ bs.length)
    (h : decodeMagic (le (bs.take 4)) = some i) : decode .block bs = .ok i := by
  simp only [decode, if_neg (Nat.not_lt.2 hl), h]

theorem decode_block_encode {i : Instr} (hi : i.space = .block) (tail : List Byte) :
    decode .block (leBytes (encode i).bits 4 ++ tail) = .ok i := by
  have hlt : (encode i).bits < 256 ^ 4 := by
    cases i with
    | blockEos | blockRaw | blockV1 | blockV2 | blockLzvn => decide
    | _ => cases hi
  refine decode_block_magic (by simp) ?_
  rw [List.take_left' (leBytes_length _ 4), le_leBytes, Nat.mod_eq_of_lt hlt, decodeMagic_encode hi]

/-! ## Frequency-code words (R160, R161) -/

/-- A row of R161's tables for a word of at most 5 bits: every 5-bit index that ends in the word. -/
theorem decodeFreqWord_of_row {nbits bits value acc : Nat} (hshort : nbits ≤ 5)
    (hrow : ∀ b < 32, b % 2 ^ nbits = bits → freqNB.getD b 0 = nbits ∧ freqVAL.getD b 0 = value)
    (h : acc % 2 ^ nbits = bits) : decodeFreqWord acc = (nbits, value) := by
  have hindex : acc % 2 ^ 5 % 2 ^ nbits = bits := by
    rw [Nat.mod_mod_of_dvd _ (Nat.pow_dvd_pow 2 hshort), h]
  obtain ⟨hnb, hval⟩ := hrow (acc % 2 ^ 5) (Nat.mod_lt _ (by decide)) hindex
  have h8 : nbits ≠ 8 := by omega
  have h14 : nbits ≠ 14 := by omega
  simp only [decodeFreqWord, field_zero, hnb, hval, if_neg h8, if_neg h14]

/-- The words whose low four bits are 0111: 8 bits, the value above 8 in the upper four. -/
theorem decodeFreqWord_of_low4_7 {acc : Nat} (h : acc % 16 = 7) :
    decodeFreqWord acc = (8, 8 + acc / 16 % 16) := by
  have hnb : freqNB.getD (acc % 2 ^ 5) 0 = 8 := by
    rcases (by omega : acc % 2 ^ 5 = 7 ∨ acc % 2 ^ 5 = 23) with hb | hb <;> rw [hb] <;> rfl
  simp only [decodeFreqWord, field_zero, hnb, if_true]
  simp only [field_eq_div_mod, Nat.reducePow]

/-- The words whose low four bits are 1111: 14 bits, the value above 24 in the upper ten. -/
theorem decodeFreqWord_of_low4_15 {acc : Nat} (h : acc % 16 = 15) :
    decodeFreqWord acc = (14, 24 + acc / 16 % 1024) := by
  have hnb : freqNB.getD (acc % 2 ^ 5) 0 = 14 := by
    rcases (by omega : acc % 2 ^ 5 = 15 ∨ acc % 2 ^ 5 = 31) with hb | hb <;> rw [hb] <;> rfl
  simp only [decodeFreqWord, field_zero, hnb, Nat.reduceEqDiff, if_false, if_true]
  simp only [field_eq_div_mod, Nat.reducePow]

theorem freqInstr_of_ge {v : Nat} (h : 8 ≤ v) :
    freqInstr v = if v ≤ 23 then .freq8to23 v else .freq24to1047 v := by
  obtain ⟨k, rfl⟩ := Nat.exists_eq_add_of_le' h
  rfl

theorem freqInstr_of_short {v : Nat} (hlo : 8 ≤ v) (hhi : v ≤ 23) : freqInstr v = .freq8to23 v := by
  rw [freqInstr_of_ge hlo, if_pos hhi]

theorem freqInstr_of_long {v : Nat} (hlo : 24 ≤ v) : freqInstr v = .freq24to1047 v := by
  rw [freqInstr_of_ge (by omega), if_neg (by omega)]

/-- The accumulator begins with the code word of an instruction. -/
def beginsWith (acc : Nat) (i : Instr) : Prop := acc % 2 ^ (encode i).nbits = (encode i).bits

theorem beginsWith_freq8to23 {acc v : Nat} :
    beginsWith acc (.freq8to23 v) ↔ acc % 256 = (v - 8) * 16 + 7 := by
  simp [beginsWith, encode, Nat.shiftLeft_eq]

theorem beginsWith_freq24to1047 {acc v : Nat} :
    beginsWith acc (.freq24to1047 v) ↔ acc % 16384 = (v - 24) * 16 + 15 := by
  simp [beginsWith, encode, Nat.shiftLeft_eq]

/-- R161 reads R160's code: a word's length and value, whatever follows it. -/
theorem decodeFreqWord_of_beginsWith {acc v : Nat} (hv : v ≤ 1047) (h : beginsWith acc (freqInstr v)) :
    decodeFreqWord acc = ((encode (freqInstr v)).nbits, v) := by
  rcases (by omega : v < 8 ∨ (8 ≤ v ∧ v ≤ 23) ∨ 24 ≤ v) with hv8 | ⟨hlo, hhi⟩ | hlo
  · interval_cases v <;> exact decodeFreqWord_of_row (by decide) (by decide) h
  · rw [freqInstr_of_short hlo hhi] at h ⊢
    have hbits := beginsWith_freq8to23.1 h
    rw [decodeFreqWord_of_low4_7 (by omega)]
    exact Prod.ext rfl (by simp only; omega)
  · rw [freqInstr_of_long hlo] at h ⊢
    have hbits := beginsWith_freq24to1047.1 h
    rw [decodeFreqWord_of_low4_15 (by omega)]
    exact Prod.ext rfl (by simp only; omega)

theorem decodeFreq_of_beginsWith {acc v : Nat} (hv : v ≤ 1047) (h : beginsWith acc (freqInstr v)) :
    decodeFreq acc = freqInstr v := by
  rw [decodeFreq, decodeFreqWord_of_beginsWith hv h]

theorem freqInstr_wf {v : Nat} (hv : v ≤ 1047) : (freqInstr v).wf = true := by
  rcases (by omega : v < 8 ∨ (8 ≤ v ∧ v ≤ 23) ∨ 24 ≤ v) with hv8 | ⟨hlo, hhi⟩ | hlo
  · interval_cases v <;> rfl
  · rw [freqInstr_of_short hlo hhi]; simp [Instr.wf, hlo, hhi]
  · rw [freqInstr_of_long hlo]; simp [Instr.wf, hlo, hv]

/-- R160's rows are the frequency values up to 1047. -/
theorem exists_freqInstr {i : Instr} (hw : i.wf = true) (hi : i.space = .freqCode) :
    ∃ v, v ≤ 1047 ∧ freqInstr v = i := by
  cases i with
  | freq0 => exact ⟨0, by decide, rfl⟩
  | freq1 => exact ⟨1, by decide, rfl⟩
  | freq2 => exact ⟨2, by decide, rfl⟩
  | freq3 => exact ⟨3, by decide, rfl⟩
  | freq4 => exact ⟨4, by decide, rfl⟩
  | freq5 => exact ⟨5, by decide, rfl⟩
  | freq6 => exact ⟨6, by decide, rfl⟩
  | freq7 => exact ⟨7, by decide, rfl⟩
  | freq8to23 v =>
    obtain ⟨hlo, hhi⟩ : 8 ≤ v ∧ v ≤ 23 := by simpa [Instr.wf] using hw
    exact ⟨v, by omega, freqInstr_of_short hlo hhi⟩
  | freq24to1047 v =>
    obtain ⟨hlo, hhi⟩ : 24 ≤ v ∧ v ≤ 1047 := by simpa [Instr.wf] using hw
    exact ⟨v, hhi, freqInstr_of_long hlo⟩
  | _ => cases hi

/-- Completeness of R160's code: its tree, walked from the first bit, has a word at every leaf. -/
theorem exists_beginsWith (acc : Nat) : ∃ v, v ≤ 1047 ∧ beginsWith acc (freqInstr v) := by
  have leaves : acc % 4 = 0 ∨ acc % 4 = 2 ∨ acc % 8 = 1 ∨ acc % 8 = 5 ∨ acc % 32 = 3 ∨ acc % 32 = 11
      ∨ acc % 32 = 19 ∨ acc % 32 = 27 ∨ acc % 16 = 7 ∨ acc % 16 = 15 := by omega
  rcases leaves with h | h | h | h | h | h | h | h | h | h
  · exact ⟨0, by decide, h⟩
  · exact ⟨1, by decide, h⟩
  · exact ⟨2, by decide, h⟩
  · exact ⟨3, by decide, h⟩
  · exact ⟨4, by decide, h⟩
  · exact ⟨5, by decide, h⟩
  · exact ⟨6, by decide, h⟩
  · exact ⟨7, by decide, h⟩
  · refine ⟨8 + acc / 16 % 16, by omega, ?_⟩
    rw [freqInstr_of_short (by omega) (by omega), beginsWith_freq8to23]
    omega
  · refine ⟨24 + acc / 16 % 1024, by omega, ?_⟩
    rw [freqInstr_of_long (by omega), beginsWith_freq24to1047]
    omega

theorem beginsWith_append {i : Instr} (hw : i.wf = true) (rest : Nat) :
    beginsWith ((encode i).bits + rest * 2 ^ (encode i).nbits) i := by
  rw [beginsWith, Nat.add_mul_mod_self_right, Nat.mod_eq_of_lt (encode_bits_lt hw)]

end Sys2Proof.Machine

open Sys2Proof Sys2Proof.Machine

/-- Settles O2: each decoder depends on the code's bits alone, and R161 reads back R160's length and value. -/
theorem decodingInvertsEncoding : Obligations.DecodingInvertsEncoding := by
  refine fun i hw => ⟨decode_command_encode, decode_block_encode, fun hi rest => ?_⟩
  have hbegins := beginsWith_append hw rest
  obtain ⟨v, hv, rfl⟩ := exists_freqInstr hw hi
  exact ⟨decodeFreq_of_beginsWith hv hbegins, by rw [decodeFreqWord_of_beginsWith hv hbegins]⟩

/-- Settles O3: some word stands at the low end, and R161 finds any word that does. -/
theorem frequencyCodeIsComplete : Obligations.FrequencyCodeIsComplete := by
  intro acc
  obtain ⟨v, hv, hbegins⟩ := exists_beginsWith acc
  have hword := decodeFreq_of_beginsWith hv hbegins
  refine ⟨hword ▸ freqInstr_wf hv, decodeFreq_space acc, hword ▸ hbegins, fun i hw hi hmod => ?_⟩
  obtain ⟨u, hu, rfl⟩ := exists_freqInstr hw hi
  exact (decodeFreq_of_beginsWith hu hmod).symm

/-- Settles O1 by running the decoders. -/
theorem tableWordsDecode : Obligations.TableWordsDecode := by
  unfold Obligations.TableWordsDecode
  decide

end

section
/-! The steps at a place no instruction stands at: a block start without a magic (R151, R360) and a reserved
OPCODE (R141). -/

namespace Sys2Proof.Machine

variable {s : State}

theorem fetchBlock_truncated (h : s.avail < 4) :
    fetchBlock s =
      .result (.next (({ s with dec := { s.dec with blkStart := s.dec.srcPos } } : State).raiseErr .srcExhausted)) := by
  simp only [fetchBlock]
  rw [decode_block_truncated (by rw [bytesAt_length]; exact Nat.lt_of_le_of_lt (Nat.min_le_left _ _) h)]

theorem fetchBlock_badMagic (ha : 4 ≤ s.avail)
    (h : decodeMagic (rdU32 ({ s with dec := { s.dec with blkStart := s.dec.srcPos } } : State).blkByte 0) = none) :
    fetchBlock s =
      .result (.next (({ s with dec := { s.dec with blkStart := s.dec.srcPos } } : State).raiseErr .badMagic)) := by
  have hmin : min ({ s with dec := { s.dec with blkStart := s.dec.srcPos } } : State).avail 4 = 4 :=
    Nat.min_eq_right ha
  simp only [fetchBlock, hmin]
  rw [decode_block_badMagic (by rw [bytesAt_length])
    (by rw [List.take_of_length_le (by rw [bytesAt_length])]; exact h)]

/-- CORE's step at a block start is DISPATCH (R360, R440). -/
theorem step_of_blockStart (hm : s.mover = .core) (hb : s.isBusy) (hs : s.seq = .dec .run)
    (hp : s.dec.phase = .atBlockStart) : step s = (fetchBlock s.beginTurn).run := by
  rw [step_of_core hm, coreTurn_blockStart (s := s.beginTurn) hb hs hp]

/-- R141: every OPCODE above ABORT's is illegal. -/
theorem exec_reserved {i : Instr} (hi : i.space = .command) (hop : 5 ≤ (encode i).bits) : exec i s = s.illegal := by
  cases i
  case nop | encode | decode | decodeResume | abort => exact absurd hop (by decide)
  case blockEos | blockRaw | blockV1 | blockV2 | blockLzvn | freq0 | freq1 | freq2 | freq3 | freq4 | freq5
    | freq6 | freq7 | freq8to23 | freq24to1047 => cases hi
  all_goals rfl

end Sys2Proof.Machine

open Sys2Proof.Machine

/-- Settles O4: DISPATCH decodes no instruction there, so the turn is the error. -/
theorem badBlockStartsEndTheCommand : Obligations.BadBlockStartsEndTheCommand := by
  intro s hm hb hs hp
  have hstep := step_of_blockStart hm hb hs hp
  refine ⟨fun ha => ?_, fun ha hne => ?_⟩
  · rw [hstep, fetchBlock_truncated (s := s.beginTurn) ha]
    rfl
  · rw [hstep, fetchBlock_badMagic (s := s.beginTurn) ha (decodeMagic_eq_none hne)]
    rfl

/-- Settles O15: a reserved OPCODE is the rejection of R574, which writes STATUS and the result registers. -/
theorem reservedOpcodesAreIllegal : Obligations.ReservedOpcodesAreIllegal := by
  intro i s hi hop hb
  rw [exec_reserved hi hop, State.illegal, State.issue_idle hb]
  rfl

end

section
/-! The symbol tables (R175, R176): each base is where the range before it ends, so the ranges tile the values up
to the stream's maximum. -/

namespace Sys2Proof.Machine

/-! ## Consecutive ranges of 2^extra values -/

/-- The bases of consecutive ranges, the first at `lo`. -/
def rangeStarts (lo : Nat) : List Nat → List Nat
  | [] => []
  | e :: es => lo :: rangeStarts (lo + 2 ^ e) es

/-- Where the last of them ends. -/
def rangesEnd (lo : Nat) : List Nat → Nat
  | [] => lo
  | e :: es => rangesEnd (lo + 2 ^ e) es

theorem le_rangesEnd (lo : Nat) (es : List Nat) : lo ≤ rangesEnd lo es := by
  induction es generalizing lo with
  | nil => exact Nat.le_refl lo
  | cons e es ih => exact Nat.le_trans (Nat.le_add_right _ _) (ih (lo + 2 ^ e))

theorem le_rangeStarts_getD {lo k : Nat} {es : List Nat} (hk : k < (rangeStarts lo es).length) :
    lo ≤ (rangeStarts lo es).getD k 0 := by
  induction es generalizing lo k with
  | nil => exact absurd hk (Nat.not_lt_zero k)
  | cons e es ih =>
    cases k with
    | zero => exact Nat.le_refl lo
    | succ k => exact Nat.le_trans (Nat.le_add_right _ _) (ih (Nat.lt_of_succ_lt_succ hk))

/-! ## The symbol of a value -/

/-- A value below the end of the ranges has a symbol whose range holds it. -/
theorem exists_symFrom {lo v : Nat} {es : List Nat} (hlo : lo ≤ v) (hv : v < rangesEnd lo es) :
    ∃ k, symFrom v es (rangeStarts lo es) = some k ∧ k < (rangeStarts lo es).length
      ∧ (rangeStarts lo es).getD k 0 ≤ v ∧ v < (rangeStarts lo es).getD k 0 + 2 ^ es.getD k 0 := by
  induction es generalizing lo with
  | nil => exact absurd hv (Nat.not_lt.2 hlo)
  | cons e es ih =>
    by_cases hhead : v < lo + 2 ^ e
    · exact ⟨0, if_pos ⟨hlo, hhead⟩, Nat.succ_pos _, hlo, hhead⟩
    · obtain ⟨k, hsym, hk, hbase, htop⟩ := ih (Nat.not_lt.1 hhead) hv
      refine ⟨k + 1, ?_, Nat.succ_lt_succ hk, hbase, htop⟩
      rw [rangeStarts, symFrom, if_neg (fun h => hhead h.2), hsym]
      rfl

/-- A range that holds the value is the one `symFrom` finds: the ranges before it end below the value. -/
theorem symFrom_of_mem_range {lo v k : Nat} {es : List Nat} (hk : k < (rangeStarts lo es).length)
    (hbase : (rangeStarts lo es).getD k 0 ≤ v) (htop : v < (rangeStarts lo es).getD k 0 + 2 ^ es.getD k 0) :
    symFrom v es (rangeStarts lo es) = some k := by
  induction es generalizing lo k with
  | nil => exact absurd hk (Nat.not_lt_zero k)
  | cons e es ih =>
    cases k with
    | zero => exact if_pos ⟨hbase, htop⟩
    | succ k =>
      have hk' := Nat.lt_of_succ_lt_succ hk
      have hafter : lo + 2 ^ e ≤ v := Nat.le_trans (le_rangeStarts_getD hk') hbase
      rw [rangeStarts, symFrom, if_neg (fun h => absurd h.2 (Nat.not_lt.2 hafter)), ih hk' hbase htop]
      rfl

/-- No range holds a value at or past the end. -/
theorem symFrom_eq_none {lo v : Nat} {es : List Nat} (hv : rangesEnd lo es ≤ v) :
    symFrom v es (rangeStarts lo es) = none := by
  induction es generalizing lo with
  | nil => rfl
  | cons e es ih =>
    have hafter : lo + 2 ^ e ≤ v := Nat.le_trans (le_rangesEnd _ _) hv
    rw [rangeStarts, symFrom, if_neg (fun h => absurd h.2 (Nat.not_lt.2 hafter)), ih hv]
    rfl

/-! ## The three streams -/

/-- A table whose bases are the starts of its ranges, from 0 to `max`. -/
def SymTable.Tiles (t : SymTable) (max : Nat) : Prop :=
  t.base = rangeStarts 0 t.extra ∧ rangesEnd 0 t.extra = max + 1

theorem symL_tiles : symL.Tiles 315 := ⟨by decide, by decide⟩
theorem symM_tiles : symM.Tiles 2359 := ⟨by decide, by decide⟩
theorem symD_tiles : symD.Tiles 262139 := ⟨by decide, by decide⟩

theorem SymTable.Tiles.existsUnique_sym {t : SymTable} {max v : Nat} (h : t.Tiles max) (hv : v ≤ max) :
    ∃ s, t.sym v = some s ∧ s < t.base.length
      ∧ t.baseOf s ≤ v ∧ v < t.baseOf s + 2 ^ t.extraOf s
      ∧ ∀ s', s' < t.base.length → t.baseOf s' ≤ v → v < t.baseOf s' + 2 ^ t.extraOf s' → s' = s := by
  obtain ⟨hbase, hend⟩ := h
  simp only [SymTable.sym, SymTable.baseOf, SymTable.extraOf, hbase]
  obtain ⟨s, hsym, hs, hlo, hhi⟩ := exists_symFrom (lo := 0) (es := t.extra) (Nat.zero_le v) (by omega)
  refine ⟨s, hsym, hs, hlo, hhi, fun s' hs' hlo' hhi' => ?_⟩
  exact Option.some.inj ((symFrom_of_mem_range hs' hlo' hhi').symm.trans hsym)

theorem SymTable.Tiles.sym_eq_none {t : SymTable} {max v : Nat} (h : t.Tiles max) (hv : max < v) :
    t.sym v = none := by
  obtain ⟨hbase, hend⟩ := h
  rw [SymTable.sym, hbase]
  exact symFrom_eq_none (by omega)

end Sys2Proof.Machine

open Sys2Proof.Machine

/-- Settles O40: each stream's ranges tile the values from 0 to its maximum. -/
theorem everyValueHasOneSymbol : Obligations.EveryValueHasOneSymbol := by
  intro t max ht v
  have htiles : t.Tiles max := by
    rcases ht with ⟨rfl, rfl⟩ | ⟨rfl, rfl⟩ | ⟨rfl, rfl⟩
    · exact symL_tiles
    · exact symM_tiles
    · exact symD_tiles
  exact ⟨htiles.existsUnique_sym, htiles.sym_eq_none⟩

end

section
/-! Byte sequences and accumulators as numbers, the bit writer BW and the backward reader BR on them
(R200 to R213). -/

namespace Sys2Proof.Machine

/-! ## Byte sequences as numbers (R9) -/

theorem le_append (bs cs : List Byte) : le (bs ++ cs) = le bs + le cs * 256 ^ bs.length := by
  induction bs with
  | nil => simp [le]
  | cons b bs ih => rw [List.cons_append, le, le, ih, List.length_cons, Nat.pow_succ]; ring

theorem le_lt (bs : List Byte) : le bs < 256 ^ bs.length := by
  induction bs with
  | nil => exact Nat.one_pos
  | cons b bs ih => rw [le, List.length_cons, Nat.pow_succ]; have := b.isLt; omega

theorem le_singleton (b : Byte) : le [b] = b.toNat := by simp [le]

theorem bytesAt_add (rd : Nat → Byte) (o m n : Nat) :
    bytesAt rd o (m + n) = bytesAt rd o m ++ bytesAt rd (o + m) n := by
  simp [bytesAt, List.range_add, Function.comp_def, Nat.add_assoc]

theorem le_bytesAt_lt (rd : Nat → Byte) (o n : Nat) : le (bytesAt rd o n) < 256 ^ n := by
  simpa only [bytesAt_length] using le_lt (bytesAt rd o n)

/-- At most 8 bytes fit an accumulator. -/
theorem toNat_ofNat_le_bytesAt (rd : Nat → Byte) (o : Nat) {n : Nat} (hn : n ≤ 8) :
    (BitVec.ofNat 64 (le (bytesAt rd o n))).toNat = le (bytesAt rd o n) := by
  have hword : 256 ^ n ≤ 2 ^ 64 := Nat.pow_le_pow_right (by decide : 0 < 256) hn
  rw [BitVec.toNat_ofNat, Nat.mod_eq_of_lt (Nat.lt_of_lt_of_le (le_bytesAt_lt ..) hword)]

/-- The number of n bytes, cut below its top m. -/
theorem le_bytesAt_split (rd : Nat → Byte) {start stop m : Nat} (hm : m ≤ stop - start) :
    le (bytesAt rd start (stop - m - start)) + le (bytesAt rd (stop - m) m) * 256 ^ (stop - m - start)
      = le (bytesAt rd start (stop - start)) := by
  obtain rfl | hpos := Nat.eq_zero_or_pos m
  · simp [bytesAt, le]
  · have hlen : stop - start = (stop - m - start) + m := by omega
    have hmid : start + (stop - m - start) = stop - m := by omega
    rw [hlen, bytesAt_add, le_append, bytesAt_length, hmid]

/-! ## Accumulators as numbers -/

theorem two_pow_bytes_add (k n : Nat) : 2 ^ (8 * k + n) = 256 ^ k * 2 ^ n := by
  rw [Nat.pow_add, Nat.pow_mul]

/-- Bits put above the lower `k`: the disjunction is a sum. -/
theorem toNat_shiftLeft_or {hi lo : BitVec 64} {k : Nat} (hlo : lo.toNat < 2 ^ k)
    (hfit : hi.toNat * 2 ^ k < 2 ^ 64) : (hi <<< k ||| lo).toNat = lo.toNat + hi.toNat * 2 ^ k := by
  rw [BitVec.toNat_or, BitVec.toNat_shiftLeft, Nat.shiftLeft_eq, Nat.mod_eq_of_lt hfit, ← Nat.shiftLeft_eq,
    ← Nat.shiftLeft_add_eq_or_of_lt hlo, Nat.shiftLeft_eq, Nat.add_comm]

/-- `lo` of i bits and `hi` of j bits above them make a number of i + j bits. -/
theorem add_mul_two_pow_lt {lo hi i j : Nat} (hlo : lo < 2 ^ i) (hhi : hi < 2 ^ j) :
    lo + hi * 2 ^ i < 2 ^ (i + j) :=
  calc lo + hi * 2 ^ i < 2 ^ i + hi * 2 ^ i := by omega
    _ = (hi + 1) * 2 ^ i := by ring
    _ ≤ 2 ^ j * 2 ^ i := Nat.mul_le_mul_right _ hhi
    _ = 2 ^ (i + j) := by rw [Nat.pow_add, Nat.mul_comm]

@[simp] theorem lowBytes_length (a : BitVec 64) (k : Nat) : (lowBytes a k).length = k := by simp [lowBytes]

theorem lowBytes_succ (a : BitVec 64) (k : Nat) :
    lowBytes a (k + 1) = lowBytes a k ++ [a.extractLsb' (8 * k) 8] := by
  simp [lowBytes, List.range_succ]

theorem toNat_extractByte (a : BitVec 64) (k : Nat) :
    (a.extractLsb' (8 * k) 8).toNat = a.toNat / 256 ^ k % 256 := by
  rw [BitVec.extractLsb'_toNat, Nat.shiftRight_eq_div_pow, Nat.pow_mul]

theorem le_lowBytes (a : BitVec 64) (k : Nat) : le (lowBytes a k) = a.toNat % 256 ^ k := by
  induction k with
  | zero => rw [Nat.pow_zero, Nat.mod_one]; rfl
  | succ k ih =>
    rw [lowBytes_succ, le_append, ih, lowBytes_length, le_singleton, toNat_extractByte, Nat.mod_pow_succ,
      Nat.mul_comm]

/-! ## The bit writer (R201 to R205) -/

namespace BitWriter

variable {w : BitWriter}

@[simp] theorem push_nbits (w : BitWriter) (n b : Nat) : (w.push n b).nbits = w.nbits + n := rfl
@[simp] theorem push_out (w : BitWriter) (n b : Nat) : (w.push n b).out = w.out := rfl

theorem push_accum (hw : w.ok) {n b : Nat} (hn : w.nbits + n ≤ 64) (hb : b < 2 ^ n) :
    (w.push n b).accum.toNat = w.accum.toNat + b * 2 ^ w.nbits := by
  obtain ⟨hacc, -⟩ := hw
  have hsum := add_mul_two_pow_lt hacc hb
  have hfit : 2 ^ (w.nbits + n) ≤ 2 ^ 64 := Nat.pow_le_pow_right (by decide) hn
  have hword : 2 ^ n ≤ 2 ^ 64 := Nat.pow_le_pow_right (by decide) (by omega)
  have hval : (BitVec.ofNat 64 b).toNat = b := by rw [BitVec.toNat_ofNat, Nat.mod_eq_of_lt (by omega)]
  rw [push, BitVec.or_comm, toNat_shiftLeft_or hacc (by rw [hval]; omega), hval]

theorem push_ok (hw : w.ok) {n b : Nat} (hn : w.nbits + n ≤ 64) (hb : b < 2 ^ n) : (w.push n b).ok :=
  ⟨by rw [push_accum hw hn hb]; exact add_mul_two_pow_lt hw.1 hb, hn⟩

theorem push_count (w : BitWriter) (n b : Nat) : (w.push n b).count = w.count + n :=
  (Nat.add_assoc _ _ _).symm

theorem push_value (hw : w.ok) {n b : Nat} (hn : w.nbits + n ≤ 64) (hb : b < 2 ^ n) :
    (w.push n b).value = w.value + b * 2 ^ w.count := by
  rw [value, value, count, push_accum hw hn hb, push_out, two_pow_bytes_add]; ring

theorem flush_accum (w : BitWriter) : w.flush.accum.toNat = w.accum.toNat / 256 ^ (w.nbits / 8) := by
  rw [flush, BitVec.toNat_ushiftRight, Nat.shiftRight_eq_div_pow, Nat.pow_mul]

@[simp] theorem flush_out (w : BitWriter) : w.flush.out = w.out ++ lowBytes w.accum (w.nbits / 8) := rfl

theorem flush_nbits (w : BitWriter) : w.flush.nbits = w.nbits % 8 := by
  rw [flush, Nat.mod_eq_sub]

theorem flush_nbits_le (w : BitWriter) : w.flush.nbits ≤ 7 := by rw [flush_nbits]; omega

theorem flush_ok (hw : w.ok) : w.flush.ok := by
  refine ⟨?_, Nat.le_trans w.flush_nbits_le (by decide)⟩
  rw [flush_accum, flush_nbits, Nat.div_lt_iff_lt_mul (by positivity), Nat.mul_comm, ← two_pow_bytes_add,
    Nat.div_add_mod]
  exact hw.1

theorem flush_count (w : BitWriter) : w.flush.count = w.count := by
  simp only [count, flush_nbits, flush_out, List.length_append, lowBytes_length]; omega

theorem flush_value (w : BitWriter) : w.flush.value = w.value := by
  rw [value, flush_out, flush_accum, le_append, le_lowBytes, List.length_append, lowBytes_length, value,
    Nat.pow_add]
  conv_rhs => rw [← Nat.mod_add_div w.accum.toNat (256 ^ (w.nbits / 8))]
  ring

/-- R204 when the bits end at a byte: nothing is added. -/
theorem finish_of_aligned (h : w.flush.nbits = 0) :
    w.finish = (0, { accum := 0, nbits := 0, out := w.flush.out }) := by
  rw [finish, if_pos h]

/-- R204 when they do not: a last byte holds the rest. -/
theorem finish_of_partial (h : w.flush.nbits ≠ 0) :
    w.finish = ((w.flush.nbits : Int) - 8,
      { accum := 0, nbits := 0, out := w.flush.out ++ lowBytes w.flush.accum 1 }) := by
  rw [finish, if_neg h]

theorem finish_bits (w : BitWriter) : -7 ≤ w.finish.1 ∧ w.finish.1 ≤ 0 := by
  have hrest := w.flush_nbits_le
  by_cases h : w.flush.nbits = 0
  · rw [finish_of_aligned h]; dsimp only; omega
  · rw [finish_of_partial h]; dsimp only; omega

theorem finish_emptied (w : BitWriter) : w.finish.2.nbits = 0 ∧ w.finish.2.accum = 0 := by
  by_cases h : w.flush.nbits = 0
  · rw [finish_of_aligned h]; exact ⟨rfl, rfl⟩
  · rw [finish_of_partial h]; exact ⟨rfl, rfl⟩

theorem finish_length (w : BitWriter) : (8 * w.finish.2.out.length : Int) = w.count - w.finish.1 := by
  rw [← w.flush_count, count]
  by_cases h : w.flush.nbits = 0
  · rw [finish_of_aligned h, h]; push_cast; ring
  · rw [finish_of_partial h, List.length_append, lowBytes_length]; push_cast; ring

/-- The unused bits of the last byte are zero: the bytes are the bits taken and nothing else. -/
theorem finish_value (hw : w.ok) : le w.finish.2.out = w.value := by
  obtain ⟨hacc, -⟩ := flush_ok hw
  rw [← w.flush_value, value]
  by_cases h : w.flush.nbits = 0
  · have hzero : w.flush.accum.toNat = 0 := by rw [h] at hacc; omega
    rw [finish_of_aligned h, hzero, Nat.zero_mul, Nat.add_zero]
  · have hbyte : 2 ^ w.flush.nbits ≤ 2 ^ 7 := Nat.pow_le_pow_right (by decide) w.flush_nbits_le
    rw [finish_of_partial h, le_append, le_lowBytes, Nat.mod_eq_of_lt (by omega)]

end BitWriter

/-! ## The backward reader (R210 to R213) -/

namespace BackReader

variable {rd : Nat → Byte} {r : BackReader}

/-! ### A reader as a number: the loaded bits above the bytes still to load -/

theorem value_div (rd : Nat → Byte) (r : BackReader) : r.value rd / 256 ^ (r.pos - r.start) = r.accum.toNat := by
  rw [value, Nat.add_mul_div_right _ _ (by positivity), Nat.div_eq_of_lt (le_bytesAt_lt ..), Nat.zero_add]

theorem value_mod (rd : Nat → Byte) (r : BackReader) :
    r.value rd % 256 ^ (r.pos - r.start) = le (bytesAt rd r.start (r.pos - r.start)) := by
  rw [value, Nat.add_mul_mod_self_right, Nat.mod_eq_of_lt (le_bytesAt_lt ..)]

/-- The bits still to give fit their count exactly when the loaded ones do. -/
theorem value_lt_iff (rd : Nat → Byte) (r : BackReader) :
    r.value rd < 2 ^ r.count ↔ r.accum.toNat < 2 ^ r.nbits := by
  rw [count, two_pow_bytes_add, Nat.mul_comm, ← Nat.div_lt_iff_lt_mul (by positivity), value_div]

/-! ### Starting (R210) -/

/-- How many bytes a starting reader of `size` bytes loads. -/
def firstBytes (bits : Int) (size : Nat) : Nat := min (if bits = 0 then 7 else 8) size

/-- The reader that loads its first bytes below `stop`, before R210's checks. -/
def atEnd (rd : Nat → Byte) (start stop : Nat) (bits : Int) : BackReader :=
  let m := firstBytes bits (stop - start)
  { accum := BitVec.ofNat 64 (le (bytesAt rd (stop - m) m)), nbits := (8 * (m : Int) + bits).toNat
    pos := stop - m, start := start }

section Start
variable {start stop : Nat} {bits : Int}

theorem firstBytes_le_size (bits : Int) (size : Nat) : firstBytes bits size ≤ size := Nat.min_le_right _ _

theorem firstBytes_le (bits : Int) (size : Nat) : firstBytes bits size ≤ if bits = 0 then 7 else 8 :=
  Nat.min_le_left _ _

theorem firstBytes_eq_zero_iff : firstBytes bits (stop - start) = 0 ↔ stop ≤ start := by
  rw [firstBytes]; split <;> omega

theorem atEnd_accum (rd : Nat → Byte) (start stop : Nat) (bits : Int) :
    (atEnd rd start stop bits).accum.toNat
      = le (bytesAt rd (stop - firstBytes bits (stop - start)) (firstBytes bits (stop - start))) :=
  toNat_ofNat_le_bytesAt rd _ (Nat.le_trans (firstBytes_le ..) (by split <;> decide))

theorem atEnd_value (rd : Nat → Byte) (start stop : Nat) (bits : Int) :
    (atEnd rd start stop bits).value rd = le (bytesAt rd start (stop - start)) := by
  rw [value, atEnd_accum]
  exact le_bytesAt_split rd (firstBytes_le_size ..)

theorem atEnd_nbits_le (hbits : bits ≤ 0) : (atEnd rd start stop bits).nbits ≤ 63 := by
  have hm := firstBytes_le bits (stop - start)
  simp only [atEnd]
  split at hm <;> omega

theorem atEnd_start_le (hle : start ≤ stop) :
    (atEnd rd start stop bits).start ≤ (atEnd rd start stop bits).pos := by
  have hsize := firstBytes_le_size bits (stop - start)
  simp only [atEnd]
  omega

/-- R210 without its pad: an empty payload has no bits to leave out. -/
theorem atEnd_count (hle : start ≤ stop) (hlo : -7 ≤ bits) (hempty : start = stop → bits = 0) :
    ((atEnd rd start stop bits).count : Int) = 8 * ((stop - start : Nat) : Int) + bits := by
  have hzero : firstBytes bits (stop - start) = 0 ↔ stop ≤ start := firstBytes_eq_zero_iff
  have hsize := firstBytes_le_size bits (stop - start)
  simp only [count, atEnd]
  omega

/-- R210's checks, on the reader it would start with. -/
theorem init_eq (rd : Nat → Byte) (start stop : Nat) (bits : Int) :
    BackReader.init rd start stop bits =
      if firstBytes bits (stop - start) = 0 ∧ bits ≠ 0 then .error (.err .badBitstream)
      else if (atEnd rd start stop bits).accum >>> (atEnd rd start stop bits).nbits ≠ 0 then
        .error (.err .badBitstream)
      else .ok (atEnd rd start stop bits) := rfl

theorem accum_shiftRight_nbits_eq_zero_iff :
    r.accum >>> r.nbits = 0 ↔ r.accum.toNat < 2 ^ r.nbits := by
  rw [← BitVec.toNat_inj, BitVec.toNat_ushiftRight, Nat.shiftRight_eq_div_pow]
  exact Nat.div_eq_zero_iff_lt (by positivity)

theorem init_eq_ok_iff (hle : start ≤ stop) :
    BackReader.init rd start stop bits = .ok r ↔
      (start = stop → bits = 0)
        ∧ (atEnd rd start stop bits).accum.toNat < 2 ^ (atEnd rd start stop bits).nbits
        ∧ atEnd rd start stop bits = r := by
  have hempty : ¬ (firstBytes bits (stop - start) = 0 ∧ bits ≠ 0) ↔ (start = stop → bits = 0) := by
    rw [firstBytes_eq_zero_iff]; omega
  rw [init_eq, ite_eq_iff, ite_eq_iff]
  simp only [reduceCtorEq, and_false, false_or, hempty, not_not, accum_shiftRight_nbits_eq_zero_iff,
    Except.ok.injEq]

/-- R210: a reader that starts holds the payload's bits. -/
theorem init_ok (hle : start ≤ stop) (hlo : -7 ≤ bits) (hhi : bits ≤ 0)
    (hr : BackReader.init rd start stop bits = .ok r) :
    r.ok ∧ r.value rd = le (bytesAt rd start (stop - start))
      ∧ (r.count : Int) = 8 * ((stop - start : Nat) : Int) + bits := by
  obtain ⟨hempty, hacc, rfl⟩ := (init_eq_ok_iff hle).1 hr
  exact ⟨⟨hacc, atEnd_nbits_le hhi, atEnd_start_le hle⟩, atEnd_value .., atEnd_count hle hlo hempty⟩

/-- R210: a reader starts exactly when the pad above the payload's bits is zero. -/
theorem exists_init_ok_iff (hle : start ≤ stop) (hlo : -7 ≤ bits) :
    (∃ r, BackReader.init rd start stop bits = .ok r) ↔
      (start = stop → bits = 0)
        ∧ le (bytesAt rd start (stop - start)) < 2 ^ (8 * ((stop - start : Nat) : Int) + bits).toNat := by
  simp only [init_eq_ok_iff hle, exists_and_left, exists_eq', and_true]
  refine and_congr_right fun hempty => ?_
  rw [← atEnd_count hle hlo hempty (rd := rd), Int.toNat_natCast, ← atEnd_value rd start stop bits, value_lt_iff]

end Start

/-! ### Refilling (R211) -/

/-- How many bytes a refill loads. -/
def refillBytes (r : BackReader) : Nat := min ((63 - r.nbits) / 8) (r.pos - r.start)

theorem refill_nbits (rd : Nat → Byte) (r : BackReader) : (r.refill rd).nbits = r.nbits + 8 * r.refillBytes := rfl
@[simp] theorem refill_pos (rd : Nat → Byte) (r : BackReader) : (r.refill rd).pos = r.pos - r.refillBytes := rfl
@[simp] theorem refill_start (rd : Nat → Byte) (r : BackReader) : (r.refill rd).start = r.start := rfl

theorem refillBytes_le (r : BackReader) : r.refillBytes ≤ r.pos - r.start := Nat.min_le_right _ _

theorem refill_nbits_le (hr : r.ok) : (r.refill rd).nbits ≤ 63 := by
  obtain ⟨-, hn, -⟩ := hr
  rw [refill_nbits, refillBytes]; omega

theorem refill_accum (hr : r.ok) : (r.refill rd).accum.toNat
    = le (bytesAt rd (r.pos - r.refillBytes) r.refillBytes) + r.accum.toNat * 256 ^ r.refillBytes := by
  have hbits : r.nbits + 8 * r.refillBytes ≤ 63 := refill_nbits_le (rd := rd) hr
  obtain ⟨hacc, -, -⟩ := hr
  have hlow := toNat_ofNat_le_bytesAt rd (r.pos - r.refillBytes) (n := r.refillBytes) (by omega)
  have hbytes : 256 ^ r.refillBytes = 2 ^ (8 * r.refillBytes) := by rw [Nat.pow_mul]
  have hfit : r.accum.toNat * 2 ^ (8 * r.refillBytes) < 2 ^ 64 :=
    calc r.accum.toNat * 2 ^ (8 * r.refillBytes)
      _ < 2 ^ r.nbits * 2 ^ (8 * r.refillBytes) := Nat.mul_lt_mul_of_pos_right hacc (by positivity)
      _ = 2 ^ (r.nbits + 8 * r.refillBytes) := (Nat.pow_add ..).symm
      _ < 2 ^ 64 := Nat.pow_lt_pow_right (by decide) (by omega)
  have hbelow : (BitVec.ofNat 64 (le (bytesAt rd (r.pos - r.refillBytes) r.refillBytes))).toNat
      < 2 ^ (8 * r.refillBytes) := by
    rw [hlow, ← hbytes]; exact le_bytesAt_lt ..
  rw [hbytes, ← hlow]
  exact toNat_shiftLeft_or hbelow hfit

theorem refill_value (hr : r.ok) : (r.refill rd).value rd = r.value rd := by
  have hnb := r.refillBytes_le
  have hlen : r.pos - r.start = (r.pos - r.refillBytes - r.start) + r.refillBytes := by omega
  rw [value, value, refill_accum hr, refill_start, refill_pos, ← le_bytesAt_split rd hnb, hlen, Nat.pow_add]
  ring

theorem refill_count (rd : Nat → Byte) (r : BackReader) : (r.refill rd).count = r.count := by
  have hnb := r.refillBytes_le
  rw [count, count, refill_nbits, refill_pos, refill_start]; omega

theorem refill_ok (hr : r.ok) : (r.refill rd).ok := by
  have hacc : (r.refill rd).accum.toNat < 2 ^ (r.refill rd).nbits := by
    rw [← value_lt_iff rd, refill_value hr, refill_count, value_lt_iff]; exact hr.1
  have hnb := r.refillBytes_le
  have hpos : r.start ≤ r.pos := hr.2.2
  exact ⟨hacc, refill_nbits_le hr, by rw [refill_pos, refill_start]; omega⟩

/-- R211: a refill stops at 56 bits or at the payload's first byte. -/
theorem refill_loaded (hr : r.ok) : 56 ≤ (r.refill rd).nbits ∨ (r.refill rd).pos = r.start := by
  obtain ⟨-, hn, hpos⟩ := hr
  rw [refill_nbits, refill_pos, refillBytes]; omega

/-! ### Pulling (R212) -/

/-- The reader that a pull of n bits leaves. -/
def pulled (r : BackReader) (n : Nat) : BackReader :=
  { r with nbits := r.nbits - n, accum := r.accum &&& BitVec.ofNat 64 (2 ^ (r.nbits - n) - 1) }

theorem pull_of_lt {n : Nat} (h : r.nbits < n) : r.pull n = .error (.err .badBitstream) := by
  rw [pull, if_pos h]

theorem pull_of_le {n : Nat} (h : n ≤ r.nbits) :
    r.pull n = .ok (r.accum.toNat / 2 ^ (r.nbits - n), r.pulled n) := by
  rw [pull, if_neg (by omega), ← Nat.shiftRight_eq_div_pow, ← BitVec.toNat_ushiftRight]; rfl

theorem pulled_accum (hr : r.ok) (n : Nat) :
    (r.pulled n).accum.toNat = r.accum.toNat % 2 ^ (r.nbits - n) := by
  obtain ⟨-, hn, -⟩ := hr
  have hword : 2 ^ (r.nbits - n) ≤ 2 ^ 63 := Nat.pow_le_pow_right (by decide) (by omega)
  rw [pulled, BitVec.toNat_and, BitVec.toNat_ofNat, Nat.mod_eq_of_lt (by omega), Nat.and_two_pow_sub_one_eq_mod]

theorem pulled_ok (hr : r.ok) (n : Nat) : (r.pulled n).ok := by
  have hacc : (r.pulled n).accum.toNat < 2 ^ (r.nbits - n) := by
    rw [pulled_accum hr]; exact Nat.mod_lt _ (by positivity)
  obtain ⟨-, hn, hpos⟩ := hr
  exact ⟨hacc, Nat.le_trans (Nat.sub_le ..) hn, hpos⟩

theorem pulled_count {n : Nat} (h : n ≤ r.nbits) : (r.pulled n).count = r.count - n := by
  simp only [count, pulled]; omega

/-- The count after a pull, as bytes to load and bits loaded. -/
theorem two_pow_count_sub {n : Nat} (h : n ≤ r.nbits) :
    2 ^ (r.count - n) = 256 ^ (r.pos - r.start) * 2 ^ (r.nbits - n) := by
  rw [count, Nat.add_sub_assoc h, two_pow_bytes_add]

theorem pulled_value (hr : r.ok) {n : Nat} (h : n ≤ r.nbits) :
    (r.pulled n).value rd = r.value rd % 2 ^ (r.count - n) := by
  rw [two_pow_count_sub h, Nat.mod_mul, value_div, value_mod, value, pulled_accum hr, Nat.mul_comm]; rfl

/-- R212: the pulled bits are the top n of those still to give. -/
theorem pull_eq_top {n : Nat} (h : n ≤ r.nbits) :
    r.pull n = .ok (r.value rd / 2 ^ (r.count - n), r.pulled n) := by
  rw [pull_of_le h, two_pow_count_sub h, ← Nat.div_div_eq_div_mul, value_div]

end BackReader

end Sys2Proof.Machine

open Sys2Proof.Machine

/-- Settles O35: each operation of the writer as an equation of numbers. -/
theorem writerBytesAreThePushedBits : Obligations.WriterBytesAreThePushedBits := by
  intro w hw
  refine ⟨fun n b hn hb => ⟨BitWriter.push_ok hw hn hb, w.push_count n b, BitWriter.push_value hw hn hb⟩,
    ⟨BitWriter.flush_ok hw, w.flush_nbits_le, w.flush_count, w.flush_value⟩, ?_⟩
  obtain ⟨hlo, hhi⟩ := w.finish_bits
  exact ⟨hlo, hhi, w.finish_length, BitWriter.finish_value hw, w.finish_emptied⟩

/-- Settles O36: the reader's number is the loaded bits above the bytes still to load, and a refill moves
the border between them. -/
theorem readerPullsTheTopBits : Obligations.ReaderPullsTheTopBits := by
  intro rd
  refine ⟨fun start stop bits hle hlo hhi =>
    ⟨fun r hr => BackReader.init_ok hle hlo hhi hr, BackReader.exists_init_ok_iff hle hlo⟩,
    fun r hr => ⟨?_, fun n => ?_⟩⟩
  · exact ⟨BackReader.refill_ok hr, BackReader.refill_value hr, r.refill_count rd, BackReader.refill_loaded hr⟩
  · exact ⟨BackReader.pull_of_lt, fun h => ⟨r.pulled n, BackReader.pull_eq_top h, BackReader.pulled_ok hr n,
      BackReader.pulled_count h, BackReader.pulled_value hr h⟩⟩

end

section
/-! FSE's two tables, entry by entry (R255 to R262): where a symbol's states stand in them, and that an encode step and
the entry of its new state undo each other. -/

namespace Sys2Proof.Machine

/-! ## Where a symbol's states stand (R256, R257, R260) -/

theorem buildDecodeTable_length (N : Nat) (freq vbits vbase : List Nat) (hvbits : vbits.length = freq.length)
    (hvbase : vbase.length = freq.length) : (buildDecodeTable N freq vbits vbase).length = freq.sum := by
  induction freq generalizing vbits vbase with
  | nil => simp [buildDecodeTable]
  | cons f fs ih =>
    obtain _ | ⟨vb, vbs⟩ := vbits
    · cases hvbits
    · obtain _ | ⟨b, bs⟩ := vbase
      · cases hvbase
      · rw [buildDecodeTable, List.length_append, symbolEntries, List.length_map, List.length_range,
          ih vbs bs (Nat.succ.inj hvbits) (Nat.succ.inj hvbase), List.sum_cons]

/-- Every entry is one of a symbol's states. -/
theorem exists_of_mem_buildDecodeTable {N : Nat} {freq vbits vbase : List Nat} {e : DecEntry}
    (he : e ∈ buildDecodeTable N freq vbits vbase) :
    ∃ f ∈ freq, ∃ vb b j, j < f ∧ e = decEntry N f vb b j := by
  induction freq generalizing vbits vbase with
  | nil => simp [buildDecodeTable] at he
  | cons f fs ih =>
    obtain _ | ⟨vb, vbs⟩ := vbits
    · simp [buildDecodeTable] at he
    · obtain _ | ⟨b, bs⟩ := vbase
      · simp [buildDecodeTable] at he
      · rw [buildDecodeTable, List.mem_append, symbolEntries, List.mem_map] at he
        obtain ⟨j, hj, rfl⟩ | hrest := he
        · exact ⟨f, List.mem_cons_self, vb, b, j, List.mem_range.1 hj, rfl⟩
        · obtain ⟨f', hf', hentry⟩ := ih hrest
          exact ⟨f', List.mem_cons_of_mem _ hf', hentry⟩

/-- State j of symbol x stands j places after the states of the symbols before it. -/
theorem buildDecodeTable_getElem? {N x f vb b j : Nat} {freq vbits vbase : List Nat} (hf : freq[x]? = some f)
    (hvb : vbits[x]? = some vb) (hb : vbase[x]? = some b) (hj : j < f) (hvbits : vbits.length = freq.length)
    (hvbase : vbase.length = freq.length) :
    (buildDecodeTable N freq vbits vbase)[(freq.take x).sum + j]? = some (decEntry N f vb b j) := by
  induction freq generalizing x vbits vbase with
  | nil => cases hf
  | cons g fs ih =>
    obtain _ | ⟨vb', vbs⟩ := vbits
    · cases hvbits
    · obtain _ | ⟨b', bs⟩ := vbase
      · cases hvbase
      · have hlen : (symbolEntries N g vb' b').length = g := by simp [symbolEntries]
        rw [buildDecodeTable]
        cases x with
        | zero =>
          obtain ⟨⟩ := hf; obtain ⟨⟩ := hvb; obtain ⟨⟩ := hb
          rw [List.take_zero, List.sum_nil, Nat.zero_add, List.getElem?_append_left (by omega)]
          simp [symbolEntries, hj]
        | succ x =>
          rw [List.take_succ_cons, List.sum_cons, Nat.add_assoc, List.getElem?_append_right (by omega), hlen,
            Nat.add_sub_cancel_left]
          exact ih hf hvb hb (Nat.succ.inj hvbits) (Nat.succ.inj hvbase)

theorem buildEncodeTable_getElem? (N o : Nat) (freq : List Nat) (x : Nat) :
    (buildEncodeTable N o freq)[x]?
      = freq[x]?.map fun f => if f = 0 then none else some (encEntry N f (o + (freq.take x).sum)) := by
  induction freq generalizing o x with
  | nil => rfl
  | cons f fs ih =>
    cases x with
    | zero => rfl
    | succ x =>
      simp only [buildEncodeTable, List.getElem?_cons_succ, ih, List.take_succ_cons, List.sum_cons, Nat.add_assoc]

/-- Exactly the symbols with states have an entry. -/
theorem buildEncodeTable_getElem?_eq_some_iff {N o x : Nat} {freq : List Nat} {e : EncEntry} :
    (buildEncodeTable N o freq)[x]? = some (some e)
      ↔ ∃ f, freq[x]? = some f ∧ 0 < f ∧ e = encEntry N f (o + (freq.take x).sum) := by
  rw [buildEncodeTable_getElem?, Option.map_eq_some_iff]
  refine exists_congr fun f => and_congr_right fun _ => ?_
  rw [ite_eq_iff, Nat.pos_iff_ne_zero]
  simp [eq_comm]

theorem take_sum_add_le {freq : List Nat} {x f : Nat} (hf : freq[x]? = some f) : (freq.take x).sum + f ≤ freq.sum := by
  obtain ⟨hx, rfl⟩ := List.getElem?_eq_some_iff.1 hf
  rw [← List.sum_take_succ freq x hx, ← List.sum_take_add_sum_drop freq (x + 1)]
  exact Nat.le_add_right _ _

/-! ## The range of an entry's next states (R258) -/

/-- R258's range of next states and of state bits, over 2^m states. -/
abbrev DecEntry.InRange (e : DecEntry) (m : Nat) : Prop :=
  e.valueBits ≤ e.totalBits ∧ e.totalBits - e.valueBits ≤ m
    ∧ e.delta + 2 ^ (e.totalBits - e.valueBits) - 1 < 2 ^ m

/-- The next states are the q-th of p groups of 2^n. -/
theorem DecEntry.InRange.of_group {m n p q vb b : Nat} (hn : n ≤ m) (hq : q < p) (hp : 2 ^ m = p * 2 ^ n) :
    DecEntry.InRange { totalBits := n + vb, valueBits := vb, delta := q * 2 ^ n, vbase := b } m := by
  have hgroup : (q + 1) * 2 ^ n ≤ p * 2 ^ n := Nat.mul_le_mul_right _ hq
  have hpos : 0 < 2 ^ n := by positivity
  rw [Nat.succ_mul] at hgroup
  simp only [InRange, Nat.add_sub_cancel, hp]
  exact ⟨Nat.le_add_left _ _, hn, by omega⟩

/-! ## The share of a frequency (R255) -/

/-- R255: f states of 2^m, with f in [2^l, 2^(l+1)) and k(f) = m - l. -/
structure ShareOf (m f l k : Nat) : Prop where
  states : m = l + k
  le : f ≤ 2 ^ m
  lower : 2 ^ l ≤ f
  upper : f < 2 * 2 ^ l
  share : kOf (2 ^ m) f = k

theorem exists_shareOf {m f : Nat} (hm : m ≤ 10) (hf : 0 < f) (hle : f ≤ 2 ^ m) : ∃ l k, ShareOf m f l k := by
  have hne : f ≠ 0 := Nat.pos_iff_ne_zero.1 hf
  have hlog : Nat.log2 f < m + 1 := (Nat.log2_lt hne).2 (by rw [Nat.pow_succ]; omega)
  refine ⟨Nat.log2 f, m - Nat.log2 f, by omega, hle, Nat.log2_self_le hne, ?_, ?_⟩
  · rw [← Nat.pow_succ']; exact Nat.lt_log2_self
  · rw [kOf, clz32, clz32, Nat.log2_two_pow]; omega

namespace ShareOf

variable {m f l k : Nat}

theorem states_eq (h : ShareOf m f l k) : 2 ^ m = 2 ^ l * 2 ^ k := by rw [h.states, Nat.pow_add]

/-- Where f is not a power of two, k(f) is at least 1. -/
theorem exists_half (h : ShareOf m f l k) (hlt : 2 ^ l < f) : ∃ i, k = i + 1 ∧ 2 ^ k = 2 * 2 ^ i := by
  obtain _ | i := k
  · have hle := h.le
    rw [h.states_eq, Nat.pow_zero] at hle
    omega
  · exact ⟨i, rfl, Nat.pow_succ'⟩

theorem states_shiftRight (h : ShareOf m f l k) : 2 ^ m >>> k = 2 ^ l := by
  rw [Nat.shiftRight_eq_div_pow, h.states_eq, Nat.mul_div_cancel _ (by positivity)]

theorem double_states_shiftRight (h : ShareOf m f l k) : (2 * 2 ^ m) >>> k = 2 * 2 ^ l := by
  rw [Nat.shiftRight_eq_div_pow, h.states_eq, ← Nat.mul_assoc, Nat.mul_div_cancel _ (by positivity)]

/-! ## The decode table's entries (R256, R258) -/

/-- The entries below R256's `j0`. -/
theorem decEntry_long (h : ShareOf m f l k) {j q : Nat} (hj : 2 ^ l + q = f + j) (hq : q < 2 ^ l) (vb b : Nat) :
    decEntry (2 ^ m) f vb b j = { totalBits := k + vb, valueBits := vb, delta := q * 2 ^ k, vbase := b } := by
  rw [decEntry, h.share, h.double_states_shiftRight, if_pos (by omega), h.states_eq, Nat.shiftLeft_eq, ← hj,
    Nat.add_mul, Nat.add_sub_cancel_left]

/-- The entries from R256's `j0` on. -/
theorem decEntry_short (h : ShareOf m f l k) {i j q : Nat} (hk : k = i + 1) (hj : 2 * 2 ^ l + q = f + j)
    (vb b : Nat) :
    decEntry (2 ^ m) f vb b j = { totalBits := i + vb, valueBits := vb, delta := q * 2 ^ i, vbase := b } := by
  have hupper := h.upper
  have hplace : j - (2 * 2 ^ l - f) = q := by omega
  rw [decEntry, h.share, h.double_states_shiftRight, if_neg (by omega), hplace, hk, Nat.add_sub_cancel,
    Nat.shiftLeft_eq]

theorem decEntry_inRange (h : ShareOf m f l k) {j : Nat} (hj : j < f) (vb b : Nat) :
    (decEntry (2 ^ m) f vb b j).InRange m := by
  have hm := h.states
  have hlower := h.lower
  have hupper := h.upper
  by_cases hlong : f + j < 2 * 2 ^ l
  · obtain ⟨q, hq⟩ := Nat.exists_eq_add_of_le (show 2 ^ l ≤ f + j by omega)
    rw [h.decEntry_long hq.symm (by omega)]
    exact .of_group (by omega) (show q < 2 ^ l by omega) h.states_eq
  · obtain ⟨i, hk, hhalf⟩ := h.exists_half (by omega)
    obtain ⟨q, hq⟩ := Nat.exists_eq_add_of_le (Nat.not_lt.1 hlong)
    rw [h.decEntry_short hk hq.symm]
    exact .of_group (by omega) (show q < 2 * 2 ^ l by omega) (by rw [h.states_eq, hhalf]; ring)

/-! ## The encode step (R260, R262) -/

variable {s : Nat}

theorem encEntry_s0 (h : ShareOf m f l k) (o : Nat) : (encEntry (2 ^ m) f o).s0 = (f - 2 ^ l) * 2 ^ k := by
  rw [encEntry, h.share, h.states_eq, Nat.shiftLeft_eq, Nat.sub_mul]

/-- The states from R260's `s0` on push k bits. -/
theorem fseEncode_long (h : ShareOf m f l k) (hs : (f - 2 ^ l) * 2 ^ k ≤ s) {j : Nat}
    (hj : 2 ^ l + s / 2 ^ k = f + j) (o : Nat) (w : BitWriter) :
    fseEncode (encEntry (2 ^ m) f o) s w = (o + j, w.push k (s % 2 ^ k)) := by
  rw [fseEncode, h.encEntry_s0, if_pos hs]
  simp only [encEntry, h.share, h.states_shiftRight, Nat.shiftRight_eq_div_pow]
  generalize s / 2 ^ k = q at hj ⊢
  congr 1
  omega

/-- The states below R260's `s0` push one bit less. -/
theorem fseEncode_short (h : ShareOf m f l k) {i : Nat} (hk : k = i + 1) (hs : s < (f - 2 ^ l) * 2 ^ k) {j : Nat}
    (hj : 2 * 2 ^ l + s / 2 ^ i = f + j) (o : Nat) (w : BitWriter) :
    fseEncode (encEntry (2 ^ m) f o) s w = (o + j, w.push i (s % 2 ^ i)) := by
  have hshift : 2 ^ m >>> i = 2 * 2 ^ l := by
    rw [← h.double_states_shiftRight, hk, Nat.shiftRight_succ_inside, Nat.mul_div_cancel_left _ Nat.two_pos]
  rw [fseEncode, h.encEntry_s0, if_neg (Nat.not_le.2 hs)]
  simp only [encEntry, h.share, hk, Nat.add_sub_cancel, hshift, Nat.shiftRight_eq_div_pow]
  generalize s / 2 ^ i = q at hj ⊢
  congr 1
  omega

/-- R265: the step pushes the low bits of the state, and the entry of the new state gives the others back. -/
theorem exists_decEntry (h : ShareOf m f l k) (hs : s < 2 ^ m) (o : Nat) (w : BitWriter) :
    ∃ j n, j < f ∧ fseEncode (encEntry (2 ^ m) f o) s w = (o + j, w.push n (s % 2 ^ n))
      ∧ ∀ vb b, decEntry (2 ^ m) f vb b j
          = { totalBits := n + vb, valueBits := vb, delta := s / 2 ^ n * 2 ^ n, vbase := b } := by
  have hlower := h.lower
  have hupper := h.upper
  rw [h.states_eq] at hs
  by_cases hlong : (f - 2 ^ l) * 2 ^ k ≤ s
  · have hplace : f - 2 ^ l ≤ s / 2 ^ k := (Nat.le_div_iff_mul_le (by positivity)).2 hlong
    have hgroup : s / 2 ^ k < 2 ^ l := (Nat.div_lt_iff_lt_mul (by positivity)).2 hs
    obtain ⟨j, hj⟩ := Nat.exists_eq_add_of_le (show f ≤ 2 ^ l + s / 2 ^ k by omega)
    exact ⟨j, k, by omega, h.fseEncode_long hlong hj o w, h.decEntry_long hj hgroup⟩
  · have hlt : 2 ^ l < f := by
      by_contra hle
      simp [Nat.sub_eq_zero_of_le (Nat.not_lt.1 hle)] at hlong
    obtain ⟨i, hk, hhalf⟩ := h.exists_half hlt
    have hgroup : s / 2 ^ i < 2 * (f - 2 ^ l) := by
      rw [Nat.div_lt_iff_lt_mul (by positivity)]
      calc s < (f - 2 ^ l) * 2 ^ k := Nat.not_le.1 hlong
        _ = 2 * (f - 2 ^ l) * 2 ^ i := by rw [hhalf]; ring
    obtain ⟨j, hj⟩ := Nat.exists_eq_add_of_le (Nat.le_add_right_of_le hupper.le : f ≤ 2 * 2 ^ l + s / 2 ^ i)
    exact ⟨j, i, by omega, h.fseEncode_short hk (Nat.not_le.1 hlong) hj o w, h.decEntry_short hk hj⟩

end ShareOf

/-! ## The two tables as wholes -/

/-- R265 for a table: the entry of the new state belongs to the symbol and leads back. -/
theorem exists_fse_entry {m x f s vb b : Nat} {freq vbits vbase : List Nat} (hm : m ≤ 10) (hsum : freq.sum = 2 ^ m)
    (hvbits : vbits.length = freq.length) (hvbase : vbase.length = freq.length) (hx : freq[x]? = some f) (hf : 0 < f)
    (hvb : vbits[x]? = some vb) (hb : vbase[x]? = some b) (hs : s < 2 ^ m) (w : BitWriter) :
    ∃ j n, j < f
      ∧ fseEncode (encEntry (2 ^ m) f (freq.take x).sum) s w = ((freq.take x).sum + j, w.push n (s % 2 ^ n))
      ∧ (buildDecodeTable (2 ^ m) freq vbits vbase)[(freq.take x).sum + j]?
          = some { totalBits := n + vb, valueBits := vb, delta := s / 2 ^ n * 2 ^ n, vbase := b } := by
  have hle := take_sum_add_le hx
  obtain ⟨l, k, hshare⟩ := exists_shareOf hm hf (by omega)
  obtain ⟨j, n, hj, henc, hdec⟩ := hshare.exists_decEntry hs (freq.take x).sum w
  exact ⟨j, n, hj, henc, by rw [buildDecodeTable_getElem? hx hvb hb hj hvbits hvbase, hdec]⟩

theorem inRange_of_mem_buildDecodeTable {m : Nat} {freq vbits vbase : List Nat} {e : DecEntry} (hm : m ≤ 10)
    (hsum : freq.sum = 2 ^ m) (he : e ∈ buildDecodeTable (2 ^ m) freq vbits vbase) : e.InRange m := by
  obtain ⟨f, hf, vb, b, j, hj, rfl⟩ := exists_of_mem_buildDecodeTable he
  have hle : f ≤ 2 ^ m := hsum ▸ List.le_sum_of_mem hf
  obtain ⟨l, k, hshare⟩ := exists_shareOf hm (by omega) hle
  exact hshare.decEntry_inRange hj vb b

end Sys2Proof.Machine

open Sys2Proof.Machine

/-- Settles O38: the symbol's entries in the two tables are made from one share, and its encode step is undone by the
entry of the state it leads to. -/
theorem decodingInvertsFseEncoding : Obligations.DecodingInvertsFseEncoding := by
  intro m freq vbits vbase x f s w hm hsum hvbits hvbase hx hf hs
  obtain ⟨hlt, -⟩ := List.getElem?_eq_some_iff.1 hx
  have hvb := List.getElem?_eq_getElem (hvbits ▸ hlt)
  have hb := List.getElem?_eq_getElem (hvbase ▸ hlt)
  obtain ⟨j, n, hj, henc, hdec⟩ := exists_fse_entry hm hsum hvbits hvbase hx hf hvb hb hs w
  refine ⟨_, _, _, s % 2 ^ n, buildEncodeTable_getElem?_eq_some_iff.2 ⟨f, hx, hf, rfl⟩, ?_, ?_, ?_, hdec, hvb, hb, ?_,
    ?_, ?_⟩
  · rw [Nat.zero_add, henc, Nat.add_sub_cancel]
  · exact Nat.le_add_right _ _
  · omega
  · exact Nat.le_add_left _ _
  · rw [Nat.add_sub_cancel]; exact Nat.mod_lt _ (by positivity)
  · exact Nat.div_add_mod' s (2 ^ n)

/-- Settles O37: every entry is some symbol's, and R258 holds of each of those. -/
theorem decodeTableEntriesStayInRange : Obligations.DecodeTableEntriesStayInRange := by
  intro m freq vbits vbase hm hsum hvbits hvbase
  exact ⟨hsum ▸ buildDecodeTable_length _ _ _ _ hvbits hvbase, fun e he => inRange_of_mem_buildDecodeTable hm hsum he⟩

end

section
/-! One value and one triplet, written and read back (R263, R264, R340, R341): the bits an encode step adds are those
the decode table's entry of its new state asks for. -/

namespace Sys2Proof.Machine

/-! ## The symbol of a value (R176) -/

theorem symFrom_range {v x : Nat} {es bs : List Nat} (h : symFrom v es bs = some x) :
    bs.getD x 0 ≤ v ∧ v < bs.getD x 0 + 2 ^ es.getD x 0 := by
  induction es generalizing bs x with
  | nil => cases h
  | cons e es ih =>
    obtain _ | ⟨b, bs⟩ := bs
    · cases h
    · rw [symFrom] at h
      split at h
      next hhead => obtain ⟨⟩ := h; exact hhead
      next =>
        obtain ⟨y, hy, rfl⟩ := Option.map_eq_some_iff.1 h
        exact ih hy

theorem SymTable.sym_range {t : SymTable} {v x : Nat} (h : t.sym v = some x) :
    t.baseOf x ≤ v ∧ v < t.baseOf x + 2 ^ t.extraOf x := symFrom_range h

theorem extra_length {t : SymTable} (ht : t = symL ∨ t = symM ∨ t = symD) : t.extra.length = t.base.length := by
  rcases ht with rfl | rfl | rfl <;> decide

theorem SymTable.extraOf_le (t : SymTable) (x : Nat) : t.extraOf x ≤ t.extra.foldl max 0 := by
  rw [extraOf, List.getD_eq_getElem?_getD, List.foldl_max]
  cases hx : t.extra[x]? with
  | none => exact Nat.zero_le _
  | some e => exact Nat.le_trans (List.le_max?_getD_of_mem (List.mem_of_getElem? hx)) (Nat.le_max_right _ _)

/-! ## Bits on top of a writer (R201, R213) -/

theorem BitWriter.value_lt {w : BitWriter} (hw : w.ok) : w.value < 2 ^ w.count := by
  rw [value, count, two_pow_bytes_add, Nat.mul_comm (256 ^ _)]
  calc le w.out + w.accum.toNat * 256 ^ w.out.length
    _ < 256 ^ w.out.length + w.accum.toNat * 256 ^ w.out.length := Nat.add_lt_add_right (le_lt _) _
    _ = (w.accum.toNat + 1) * 256 ^ w.out.length := by ring
    _ ≤ 2 ^ w.nbits * 256 ^ w.out.length := Nat.mul_le_mul_right _ hw.1

/-- Two pushes are one of both codes, the later on top. -/
theorem BitWriter.push_push_value {w : BitWriter} (hw : w.ok) {i n a b : Nat} (hn : w.nbits + i + n ≤ 64)
    (ha : a < 2 ^ i) (hb : b < 2 ^ n) :
    ((w.push i a).push n b).value = w.value + (a + b * 2 ^ i) * 2 ^ w.count := by
  rw [push_value (push_ok hw (by omega) ha) hn hb, push_value hw (by omega) ha, push_count, Nat.pow_add]
  ring

@[simp] theorem BackReader.pulled_nbits (r : BackReader) (n : Nat) : (r.pulled n).nbits = r.nbits - n := rfl

/-- A reader that holds the bits of one writer. -/
structure BackReader.Holds (rd : Nat → Byte) (r : BackReader) (w : BitWriter) : Prop where
  ok : r.ok
  count : r.count = w.count
  value : r.value rd = w.value

/-! ## One value (R263, R264) -/

/-- What VALUE_ENCODE of `v` leaves, from state `s` and writer `w` to `s'` and `w'`: entry `d` of the new state, and on
top of the writer as many bits as it asks for, which it reads as `v` and `s`. -/
structure ValueCoded (dt : List DecEntry) (v s s' : Nat) (w w' : BitWriter) (d : DecEntry) (code : Nat) : Prop where
  entry : dt[s']? = some d
  ok : w'.ok
  nbits : w'.nbits = w.nbits + d.totalBits
  count : w'.count = w.count + d.totalBits
  value : w'.value = w.value + code * 2 ^ w.count
  reads : d.vbase + code % 2 ^ d.valueBits = v
  back : d.delta + code >>> d.valueBits = s

theorem valueEncode_ok {t : SymTable} {et : List (Option EncEntry)} {v s s' : Nat} {w w' : BitWriter}
    (h : valueEncode t et v s w = .ok (s', w')) :
    ∃ x e, t.sym v = some x ∧ et[x]? = some (some e)
      ∧ fseEncode e s (w.push (t.extraOf x) (v - t.baseOf x)) = (s', w') := by
  unfold valueEncode symEncode encLookup at h
  split at h
  · cases h
  next x hx =>
    split at h
    next e he =>
      split at he
      next e' hx' => cases he; exact ⟨x, e, hx, hx', Except.ok.inj h⟩
      · cases he
    · cases h

theorem exists_valueCoded {t : SymTable} {m v s s' : Nat} {freq : List Nat} {w w' : BitWriter}
    (ht : t = symL ∨ t = symM ∨ t = symD) (hm : m ≤ 8) (hlen : freq.length = t.base.length)
    (hsum : freq.sum = 2 ^ m) (hs : s < 2 ^ m) (hw : w.ok) (hroom : w.nbits + m + t.extra.foldl max 0 ≤ 64)
    (h : valueEncode t (buildEncodeTable (2 ^ m) 0 freq) v s w = .ok (s', w')) :
    s' < 2 ^ m ∧ ∃ d code, ValueCoded (buildValueTable (2 ^ m) t freq) v s s' w w' d code
      ∧ d.totalBits ≤ m + t.extra.foldl max 0 := by
  obtain ⟨x, e, hx, he, hfse⟩ := valueEncode_ok h
  obtain ⟨hlo, hhi⟩ := SymTable.sym_range hx
  obtain ⟨f, hf, hpos, rfl⟩ := buildEncodeTable_getElem?_eq_some_iff.1 he
  obtain ⟨hlt, -⟩ := List.getElem?_eq_some_iff.1 hf
  have hextra : t.extra[x]? = some (t.extraOf x) := by simp [SymTable.extraOf, extra_length ht, ← hlen, hlt]
  have hbase : t.base[x]? = some (t.baseOf x) := by simp [SymTable.baseOf, ← hlen, hlt]
  obtain ⟨j, n, hj, henc, hdec⟩ := exists_fse_entry (Nat.le_trans hm (by decide)) hsum
    ((extra_length ht).trans hlen.symm) hlen.symm hf hpos hextra hbase hs
    (w.push (t.extraOf x) (v - t.baseOf x))
  rw [Nat.zero_add, henc] at hfse
  obtain ⟨⟩ := hfse
  have hbits : n ≤ m := by
    obtain ⟨-, hstateBits, -⟩ := inRange_of_mem_buildDecodeTable (Nat.le_trans hm (by decide)) hsum
      (List.mem_of_getElem? hdec)
    rwa [Nat.add_sub_cancel] at hstateBits
  have hxbits := t.extraOf_le x
  have hcode : v - t.baseOf x < 2 ^ t.extraOf x := by omega
  have hstate : s % 2 ^ n < 2 ^ n := Nat.mod_lt _ (by positivity)
  have hle := take_sum_add_le hf
  refine ⟨by omega, _, (v - t.baseOf x) + s % 2 ^ n * 2 ^ t.extraOf x, ⟨hdec, ?_, ?_, ?_, ?_, ?_, ?_⟩, ?_⟩
  · exact BitWriter.push_ok (BitWriter.push_ok hw (by omega) hcode) (by rw [BitWriter.push_nbits]; omega) hstate
  · simp only [BitWriter.push_nbits]; omega
  · simp only [BitWriter.push_count]; omega
  · exact BitWriter.push_push_value hw (by omega) hcode hstate
  · rw [Nat.add_mul_mod_self_right, Nat.mod_eq_of_lt hcode]; exact Nat.add_sub_cancel' hlo
  · rw [Nat.shiftRight_eq_div_pow, Nat.add_mul_div_right _ _ (by positivity), Nat.div_eq_of_lt hcode, Nat.zero_add]
    exact Nat.div_add_mod' s (2 ^ n)
  · simp only; omega

/-- R264: what the step left is read back, and the writer's earlier bits remain. -/
theorem ValueCoded.decodes {dt : List DecEntry} {v s s' code : Nat} {w w' : BitWriter} {d : DecEntry}
    (h : ValueCoded dt v s s' w w' d code) (hw : w.ok) {rd : Nat → Byte} {r : BackReader} (hr : r.Holds rd w')
    (hloaded : d.totalBits ≤ r.nbits) :
    valueDecode dt s' r = .ok (v, s, r.pulled d.totalBits) ∧ (r.pulled d.totalBits).Holds rd w := by
  obtain ⟨hrok, hcount, hvalue⟩ := hr
  have hbelow : r.count - d.totalBits = w.count := by rw [hcount, h.count, Nat.add_sub_cancel]
  have hlt := BitWriter.value_lt hw
  have htop : r.value rd / 2 ^ (r.count - d.totalBits) = code := by
    rw [hbelow, hvalue, h.value, Nat.add_mul_div_right _ _ (by positivity), Nat.div_eq_of_lt hlt, Nat.zero_add]
  have hpull := BackReader.pull_eq_top (rd := rd) hloaded
  rw [htop] at hpull
  refine ⟨?_, BackReader.pulled_ok hrok _, (BackReader.pulled_count hloaded).trans hbelow, ?_⟩
  · rw [valueDecode, readItem, h.entry]
    simp only [hpull, h.reads, h.back]
  · rw [BackReader.pulled_value hrok hloaded, hbelow, hvalue, h.value, Nat.add_mul_mod_self_right, Nat.mod_eq_of_lt hlt]

/-! ## One triplet (R340, R341) -/

theorem encodeTriplet_ok {et : LmdEncTables} {L M dv : Nat} {st st' : LmdStates} {w w' : BitWriter}
    (h : encodeTriplet et L M dv st w = .ok (st', w')) :
    ∃ wd wm, valueEncode symD et.d dv st.d w.flush = .ok (st'.d, wd)
      ∧ valueEncode symM et.m M st.m wd = .ok (st'.m, wm) ∧ valueEncode symL et.l L st.l wm = .ok (st'.l, w') := by
  unfold encodeTriplet at h
  split at h
  · cases h
  next d wd hd =>
    split at h
    · cases h
    next m wm hm =>
      split at h
      · cases h
      next l wl hl => cases h; exact ⟨wd, wm, hd, hm, hl⟩

/-- R216: a refill loads what a group takes. -/
theorem BackReader.le_refill_nbits {rd : Nat → Byte} {r : BackReader} (hr : r.ok) {n : Nat} (hn : n ≤ 56)
    (hcount : n ≤ r.count) : n ≤ (r.refill rd).nbits := by
  have hsame := r.refill_count rd
  rcases BackReader.refill_loaded (rd := rd) hr with hfull | hall
  · exact Nat.le_trans hn hfull
  · rw [count, hall, refill_start, Nat.sub_self] at hsame
    omega

theorem BackReader.Holds.refill {rd : Nat → Byte} {r : BackReader} {w : BitWriter} (h : r.Holds rd w) :
    (r.refill rd).Holds rd w :=
  ⟨refill_ok h.ok, (r.refill_count rd).trans h.count, (refill_value h.ok).trans h.value⟩

theorem decodeTriplet_of_values {dt : LmdDecTables} {rd : Nat → Byte} {st st' : LmdStates} {dCur L M dv : Nat}
    {r rl rm r' : BackReader} (hl : valueDecode dt.l st.l (r.refill rd) = .ok (L, st'.l, rl))
    (hm : valueDecode dt.m st.m rl = .ok (M, st'.m, rm)) (hd : valueDecode dt.d st.d rm = .ok (dv, st'.d, r')) :
    decodeTriplet dt rd st dCur r = .ok ({ L := L, M := M, D := resolveDistance dCur dv }, st', r') := by
  rw [decodeTriplet, hl]
  simp only [hm, hd]

theorem decodeTriplet_encodeTriplet {f : LmdFreqs} {L M dv : Nat} (dCur : Nat) {st st' : LmdStates}
    {w w' : BitWriter} {rd : Nat → Byte} {r : BackReader} (hf : f.ok) (hst : st.ok) (hw : w.ok)
    (h : encodeTriplet f.enc L M dv st w = .ok (st', w')) (hr : r.Holds rd w') :
    st'.ok ∧ w'.ok
      ∧ ∃ r', decodeTriplet f.dec rd st' dCur r
            = .ok ({ L := L, M := M, D := resolveDistance dCur dv }, st, r')
          ∧ r'.Holds rd w := by
  obtain ⟨hlLen, hlSum, hmLen, hmSum, hdLen, hdSum⟩ := hf
  obtain ⟨hl, hm, hd⟩ := hst
  obtain ⟨wd, wm, hencD, hencM, hencL⟩ := encodeTriplet_ok h
  have hwf := BitWriter.flush_ok hw
  have hflush := w.flush_nbits_le
  have hmaxL : symL.extra.foldl max 0 = 8 := rfl
  have hmaxM : symM.extra.foldl max 0 = 11 := rfl
  have hmaxD : symD.extra.foldl max 0 = 15 := by simp [symD, extraD]
  obtain ⟨hd', dd, cd, codedD, hbitsD⟩ := exists_valueCoded (m := 8) (.inr (.inr rfl)) (by decide) hdLen hdSum hd hwf
    (by omega) hencD
  have hnd := codedD.nbits
  obtain ⟨hm', dm, cm, codedM, hbitsM⟩ := exists_valueCoded (m := 6) (.inr (.inl rfl)) (by decide) hmLen hmSum hm
    codedD.ok (by omega) hencM
  have hnm := codedM.nbits
  obtain ⟨hl', dl, cl, codedL, hbitsL⟩ := exists_valueCoded (m := 6) (.inl rfl) (by decide) hlLen hlSum hl codedM.ok
    (by omega) hencL
  have hcount : r.count = w.flush.count + dd.totalBits + dm.totalBits + dl.totalBits := by
    rw [hr.count, codedL.count, codedM.count, codedD.count]
  have hloaded : dd.totalBits + dm.totalBits + dl.totalBits ≤ (r.refill rd).nbits :=
    BackReader.le_refill_nbits hr.ok (by omega) (by omega)
  obtain ⟨hdecL, holdsL⟩ := codedL.decodes codedM.ok hr.refill (by omega)
  obtain ⟨hdecM, holdsM⟩ := codedM.decodes codedD.ok holdsL (by rw [BackReader.pulled_nbits]; omega)
  obtain ⟨hdecD, holdsD⟩ := codedD.decodes hwf holdsM (by simp only [BackReader.pulled_nbits]; omega)
  exact ⟨⟨hl', hm', hd'⟩, codedL.ok, _, decodeTriplet_of_values hdecL hdecM hdecD,
    holdsD.ok, holdsD.count.trans w.flush_count, holdsD.value.trans w.flush_value⟩

end Sys2Proof.Machine

open Sys2Proof.Machine

/-- Settles O41: the reader's top bits are the code the encode step added. -/
theorem valueDecodingInvertsValueEncoding : Obligations.ValueDecodingInvertsValueEncoding := by
  refine ⟨fun t m v s freq w w' s' ht hm hlen hsum hs hw hroom h => ?_,
    fun f L M dv dCur st st' w w' rd r hf hst hw h hr hcount hvalue => ?_⟩
  · obtain ⟨hs', d, code, coded, -⟩ := exists_valueCoded ht hm hlen hsum hs hw hroom h
    refine ⟨d, coded.entry, hs', coded.ok, coded.count, ?_, fun rd r hr hcount hvalue hloaded => ?_⟩
    · rw [coded.value, Nat.add_mul_mod_self_right, Nat.mod_eq_of_lt (BitWriter.value_lt hw)]
    · obtain ⟨hdec, hholds⟩ := coded.decodes hw ⟨hr, hcount, hvalue⟩ hloaded
      exact ⟨_, hdec, hholds.ok, hholds.count, hholds.value⟩
  · obtain ⟨hst', hw', r', hdec, hholds⟩ := decodeTriplet_encodeTriplet dCur hf hst hw h ⟨hr, hcount, hvalue⟩
    exact ⟨hst', hw', r', hdec, hholds.ok, hholds.count, hholds.value⟩

end

section
/-! Normalization (R252 to R254): no symbol in use loses its last state, and the states a correction adds or takes are
counted. Histograms (R343), and the step that closes a block with both (R520). -/

namespace Sys2Proof.Machine

/-! ## Frequencies that keep the used symbols (R254) -/

/-- `freq` gives every entry that is nonzero in `count` a nonzero frequency. -/
abbrev KeepsUsed (count freq : List Nat) : Prop := List.Forall₂ (fun c f => c ≠ 0 → f ≠ 0) count freq

theorem KeepsUsed.refl (count : List Nat) : KeepsUsed count count := List.forall₂_same.2 fun _ _ => id

theorem KeepsUsed.trans {a b c : List Nat} (hab : KeepsUsed a b) (hbc : KeepsUsed b c) : KeepsUsed a c := by
  induction hab generalizing c with
  | nil => exact hbc
  | cons hhead _ ih =>
    cases hbc with
    | cons hhead' htail' => exact .cons (hhead' ∘ hhead) (ih htail')

theorem KeepsUsed.exists_getElem? {count freq : List Nat} (h : KeepsUsed count freq) {i c : Nat}
    (hi : count[i]? = some c) (hc : c ≠ 0) : ∃ f, freq[i]? = some f ∧ f ≠ 0 := by
  obtain ⟨hlt, rfl⟩ := List.getElem?_eq_some_iff.1 hi
  have hlt' : i < freq.length := h.length_eq ▸ hlt
  exact ⟨_, List.getElem?_eq_getElem hlt', h.get hlt hlt' hc⟩

/-- A table of n frequencies with sum N passes R250: none is over the sum. -/
theorem checkFreq_of_sum {freq : List Nat} {n N : Nat} (hlen : freq.length = n) (hsum : freq.sum = N) :
    checkFreq freq n N = true := by
  have hle : ∀ f ∈ freq, f ≤ N := fun f hf => hsum ▸ List.le_sum_of_mem hf
  simpa [checkFreq, hlen, hsum] using hle

/-! ## The first estimate (R252) -/

theorem normShare_ne_zero {step shift c : Nat} (hc : c ≠ 0) : normShare step shift c ≠ 0 := by
  intro h
  dsimp only [normShare] at h
  split at h
  · cases h
  next hne => exact hne ⟨h, hc⟩

theorem keepsUsed_map_normShare (step shift : Nat) (count : List Nat) :
    KeepsUsed count (count.map (normShare step shift)) :=
  List.forall₂_map_right_iff.2 (List.forall₂_same.2 fun _ _ => normShare_ne_zero)

/-! ## The correction on the largest (R252) -/

/-- `largest` answers an entry with its index, going on from one among the entries before. -/
theorem getElem?_largest {before fs : List Nat} {m : Nat × Nat} (hm : before[m.2]? = some m.1) :
    (before ++ fs)[(largest fs before.length m).2]? = some (largest fs before.length m).1 := by
  induction fs generalizing before m with
  | nil => rwa [List.append_nil]
  | cons f fs ih =>
    have hnext : (before ++ [f])[(if f > m.1 then (f, before.length) else m).2]?
        = some (if f > m.1 then (f, before.length) else m).1 := by
      split
      · exact List.getElem?_concat_length
      · rw [List.getElem?_append_left (List.getElem?_eq_some_iff.1 hm).1, hm]
    simpa [largest] using ih hnext

/-- From `(0, 0)` on, whatever the entries: the first is at least 0. -/
theorem getElem?_largest_zero {freq : List Nat} (hne : freq ≠ []) :
    freq[(largest freq 0 (0, 0)).2]? = some (largest freq 0 (0, 0)).1 := by
  obtain ⟨f, fs, rfl⟩ := List.exists_cons_of_ne_nil hne
  have hfirst : (if f > 0 then (f, 0) else (0, 0)) = (f, 0) := by
    split
    · rfl
    next hzero => rw [Nat.eq_zero_of_not_pos hzero]
  rw [largest, hfirst]
  exact getElem?_largest (before := [f]) rfl

theorem sum_modify {l : List Nat} {i f : Nat} (hi : l[i]? = some f) (g : Nat → Nat) :
    (l.modify i g).sum + f = l.sum + g f := by
  induction l generalizing i with
  | nil => cases hi
  | cons a l ih =>
    cases i with
    | zero => obtain ⟨⟩ := hi; simp only [List.modify_zero_cons, List.sum_cons]; omega
    | succ i =>
      have hrest := ih hi
      simp only [List.modify_succ_cons, List.sum_cons]; omega

theorem keepsUsed_modify {l : List Nat} {i f : Nat} (hi : l[i]? = some f) {g : Nat → Nat} (hg : f ≠ 0 → g f ≠ 0) :
    KeepsUsed l (l.modify i g) := by
  induction l generalizing i with
  | nil => cases hi
  | cons a l ih =>
    cases i with
    | zero => obtain ⟨⟩ := hi; exact .cons hg (KeepsUsed.refl l)
    | succ i => exact .cons id (ih hi)

/-! ## The overrun (R253) -/

theorem keepsUsed_adjustPass (sh : Nat) (freq : List Nat) (o : Nat) : KeepsUsed freq (adjustPass sh freq o).1 := by
  induction freq generalizing o with
  | nil => exact .nil
  | cons f fs ih =>
    rw [adjustPass]
    split
    next hf =>
      have hleft : (f - 1) >>> sh ≤ f - 1 := Nat.shiftRight_le _ _
      exact .cons (fun _ => by omega) (ih _)
    · exact .cons id (ih _)

/-- A pass takes as many states as it counts off the overrun. -/
theorem adjustPass_sum (sh : Nat) (freq : List Nat) (o : Nat) :
    (adjustPass sh freq o).1.sum + o = freq.sum + (adjustPass sh freq o).2 := by
  induction freq generalizing o with
  | nil => simp [adjustPass]
  | cons f fs ih =>
    rw [adjustPass]
    split
    · have hleft : (f - 1) >>> sh ≤ f - 1 := Nat.shiftRight_le _ _
      have hrest := ih (o - min ((f - 1) >>> sh) o)
      simp only [List.sum_cons]; omega
    · have hrest := ih o
      simp only [List.sum_cons]; omega

theorem adjustPass_snd_le (sh : Nat) (freq : List Nat) (o : Nat) : (adjustPass sh freq o).2 ≤ o := by
  induction freq generalizing o with
  | nil => exact Nat.le_refl o
  | cons f fs ih =>
    rw [adjustPass]
    split
    · exact Nat.le_trans (ih _) (Nat.sub_le _ _)
    · exact ih o

/-- At shift 0 a pass that leaves an overrun has lowered every count to 1. -/
theorem adjustPass_zero_sum_le {freq : List Nat} {o : Nat} (hover : (adjustPass 0 freq o).2 ≠ 0) :
    (adjustPass 0 freq o).1.sum ≤ freq.length := by
  induction freq generalizing o with
  | nil => exact Nat.le_refl _
  | cons f fs ih =>
    by_cases hf : f > 1
    · rw [adjustPass, if_pos hf, Nat.shiftRight_zero] at hover ⊢
      have hrest := ih hover
      have hleft := adjustPass_snd_le 0 fs (o - min (f - 1) o)
      simp only [List.sum_cons, List.length_cons] at hover hrest ⊢
      omega
    · rw [adjustPass, if_neg hf] at hover ⊢
      have hrest := ih hover
      simp only [List.sum_cons, List.length_cons]
      omega

/-- `adjust`'s loop over the shifts `shs`. -/
def adjustPasses (shs : List Nat) (p : List Nat × Nat) : List Nat × Nat :=
  shs.foldl (fun p sh => adjustPass sh p.1 p.2) p

theorem adjustPasses_keep (shs : List Nat) (p : List Nat × Nat) :
    KeepsUsed p.1 (adjustPasses shs p).1 ∧ (adjustPasses shs p).1.sum + p.2 = p.1.sum + (adjustPasses shs p).2 := by
  induction shs generalizing p with
  | nil => exact ⟨KeepsUsed.refl _, rfl⟩
  | cons sh shs ih =>
    obtain ⟨hused, hsum⟩ := ih (adjustPass sh p.1 p.2)
    have hpass := adjustPass_sum sh p.1 p.2
    rw [show adjustPasses (sh :: shs) p = adjustPasses shs (adjustPass sh p.1 p.2) from rfl]
    exact ⟨(keepsUsed_adjustPass sh p.1 p.2).trans hused, by omega⟩

theorem keepsUsed_adjust (freq : List Nat) (o : Nat) : KeepsUsed freq (adjust freq o) :=
  (adjustPasses_keep [3, 2, 1, 0] (freq, o)).1

/-- R253 ends: at shift 0 it takes all of an overrun that leaves each symbol one state. -/
theorem adjust_sum {freq : List Nat} {o N : Nat} (hsum : freq.sum = N + o) (hlen : freq.length ≤ N) :
    (adjust freq o).sum = N := by
  let q := adjustPasses [3, 2, 1] (freq, o)
  have hadjust : adjust freq o = (adjustPass 0 q.1 q.2).1 := rfl
  obtain ⟨hused, hfirst⟩ : KeepsUsed freq q.1 ∧ q.1.sum + o = freq.sum + q.2 := adjustPasses_keep [3, 2, 1] (freq, o)
  have hlast := adjustPass_sum 0 q.1 q.2
  have hdone : (adjustPass 0 q.1 q.2).2 = 0 := by
    by_contra hover
    have hone := adjustPass_zero_sum_le hover
    rw [← hused.length_eq] at hone
    omega
  rw [hadjust]
  omega

/-! ## The two corrections together (R252, R254) -/

/-- R252's first estimate. -/
def firstShares (count : List Nat) (N : Nat) : List Nat :=
  count.map (normShare (if count.sum = 0 then 0 else 2 ^ 31 / count.sum) (clz32 N - 1))

/-- R252 after its first estimate. -/
def correctShares (freq : List Nat) (N : Nat) : List Nat :=
  let m := largest freq 0 (0, 0)
  let remaining : Int := (N : Int) - freq.sum
  if -remaining < ((m.1 >>> 2 : Nat) : Int) then freq.modify m.2 fun f => ((f : Int) + remaining).toNat
  else adjust freq (-remaining).toNat

theorem normalize_eq (count : List Nat) (N : Nat) : normalize count N = correctShares (firstShares count N) N := rfl

/-- The largest takes the difference only where less than a quarter of it goes. -/
theorem correctShares_sum_and_used {freq : List Nat} {N : Nat} (hne : freq ≠ []) (hlen : freq.length ≤ N) :
    (correctShares freq N).sum = N ∧ KeepsUsed freq (correctShares freq N) := by
  have hlargest := getElem?_largest_zero hne
  have hquarter := Nat.shiftRight_le (largest freq 0 (0, 0)).1 2
  dsimp only [correctShares]
  split
  next hsmall =>
    have hsum := sum_modify hlargest fun f => ((f : Int) + ((N : Int) - freq.sum)).toNat
    exact ⟨by omega, keepsUsed_modify hlargest fun hpos => by omega⟩
  next hlarge => exact ⟨adjust_sum (by omega) hlen, keepsUsed_adjust _ _⟩

theorem normalize_sum_and_used {count : List Nat} {N : Nat} (hne : count ≠ []) (hlen : count.length ≤ N) :
    (normalize count N).sum = N ∧ KeepsUsed count (normalize count N) := by
  have hused : KeepsUsed count (firstShares count N) := keepsUsed_map_normShare _ _ count
  obtain ⟨hsum, hcorrected⟩ := correctShares_sum_and_used (freq := firstShares count N) (N := N)
    (by simpa [firstShares] using hne) (hused.length_eq ▸ hlen)
  rw [normalize_eq]
  exact ⟨hsum, hused.trans hcorrected⟩

/-! ## Histograms (R343) -/

theorem getElem?_foldl_modify (syms count : List Nat) (i : Nat) :
    (syms.foldl (fun c s => c.modify s (· + 1)) count)[i]? = count[i]?.map (· + syms.count i) := by
  induction syms generalizing count with
  | nil => simp
  | cons s syms ih =>
    rw [List.foldl_cons, ih, List.getElem?_modify, List.count_cons]
    by_cases hs : s = i
    · cases count[i]? <;> simp [hs, Nat.add_assoc, Nat.add_comm 1]
    · simp [hs]

theorem foldl_modify_length (syms count : List Nat) :
    (syms.foldl (fun c s => c.modify s (· + 1)) count).length = count.length := by
  induction syms generalizing count with
  | nil => rfl
  | cons s syms ih => rw [List.foldl_cons, ih, List.length_modify]

theorem histogram_length (n : Nat) (syms : List Nat) : (histogram n syms).length = n := by
  rw [histogram, foldl_modify_length, List.length_replicate]

theorem histogram_getElem? {n i : Nat} (hi : i < n) (syms : List Nat) :
    (histogram n syms)[i]? = some (syms.count i) := by
  rw [histogram, getElem?_foldl_modify, List.getElem?_replicate_of_lt hi, Option.map_some, Nat.zero_add]

/-! ## The step that closes a block (R520) -/

theorem step_of_enc {s : State} {st : EncStage} (hm : s.mover = .core) (hb : s.isBusy) (hs : s.seq = .enc st) :
    step s = encStep st s.beginTurn := by
  have hturn : coreTurn s.beginTurn = .result (encStep st s.beginTurn) := by
    have hseq : s.beginTurn.seq = .enc st := hs
    rw [coreTurn, if_pos (show s.beginTurn.isBusy from hb), hseq]
  rw [step_of_core hm, hturn, Fetched.run_result]

theorem padLiterals_of_pad {lits : List Byte} {pad : Nat} (hpad : pad < 4) (hmod : (lits.length + pad) % 4 = 0) :
    padLiterals lits = lits ++ List.replicate pad 0 := by
  rw [padLiterals, show (4 - lits.length % 4) % 4 = pad by omega]

theorem Encoder.triplets_of_map {e : Encoder} {ts : List Triplet} (hL : e.tL = ts.map Triplet.L)
    (hM : e.tM = ts.map Triplet.M) (hD : e.tD = ts.map Triplet.D) : e.triplets = ts := by
  rw [triplets, hL, hM, hD, List.zip_map', List.zip_map', List.map_map]
  exact List.map_id ts

end Sys2Proof.Machine

open Sys2Proof.Machine

/-- Settles O39: both corrections of `normalize` end with the sum N and keep the used symbols; the step is
`Encoder.buildTables` of the block's triplets. -/
theorem normalizationIsValid : Obligations.NormalizationIsValid := by
  refine ⟨fun count N hne hlen => ?_, fun n syms => ⟨histogram_length n syms, fun i hi => histogram_getElem? hi syms⟩,
    fun s ts pad hm hb hs hL hM hD hpad hmod => ?_⟩
  · obtain ⟨hsum, hused⟩ := normalize_sum_and_used hne hlen
    exact ⟨checkFreq_of_sum hused.length_eq.symm hsum, fun i c => hused.exists_getElem?⟩
  · have htriplets := Encoder.triplets_of_map hL hM hD
    have hmatches : s.enc.tL.length = ts.length := by rw [hL, List.length_map]
    have hpadded := padLiterals_of_pad hpad hmod
    have hstep : step s = .next (s.beginTurn.encGoto .literals s.enc.buildTables) := step_of_enc hm hb hs
    rw [hstep, Encoder.buildTables, htriplets, hpadded, hmatches]
    rfl

end

section
/-! What the two payloads share (R330, R340): a writer behind the 8 zero bytes, the reader that starts on what it
finished, and the run of an ENCODE's loop that takes one iteration a step. -/

namespace Sys2Proof.Machine

/-! ## A writer behind bytes written before (R330, R340) -/

/-- The writer with bytes in front of those it has written. -/
def BitWriter.after (pre : List Byte) (w : BitWriter) : BitWriter := { w with out := pre ++ w.out }

section After
variable {pre : List Byte}

theorem BitWriter.flush_after (w : BitWriter) : (w.after pre).flush = w.flush.after pre := by
  simp only [flush, after, List.append_assoc]

theorem BitWriter.finish_after (w : BitWriter) : (w.after pre).finish = (w.finish.1, w.finish.2.after pre) := by
  rw [finish, finish, flush_after]
  by_cases h : w.flush.nbits = 0 <;> simp [after, h]

theorem fseEncode_after (e : EncEntry) (s : Nat) (w : BitWriter) :
    fseEncode e s (w.after pre) = ((fseEncode e s w).1, (fseEncode e s w).2.after pre) := by
  unfold fseEncode
  split <;> rfl

theorem symEncode_after {et : List (Option EncEntry)} {x s s' : Nat} {w w' : BitWriter}
    (h : symEncode et x s w = .ok (s', w')) : symEncode et x s (w.after pre) = .ok (s', w'.after pre) := by
  unfold symEncode at h ⊢
  split at h
  next e he =>
    rw [Except.ok.injEq] at h
    simp only [fseEncode_after, h]
  · cases h

end After

/-! ## The reader starts on a finished writer (R204, R210) -/

theorem bytesAt_of_getElem? {bs : List Byte} {rd : Nat → Byte} {a : Nat}
    (h : ∀ i, i < bs.length → bs[i]? = some (rd (a + i))) : bytesAt rd a bs.length = bs :=
  List.ext_getElem (by simp [bytesAt]) fun i _ hi => by
    have := h i hi
    rw [List.getElem?_eq_getElem hi, Option.some.injEq] at this
    simp [bytesAt, this]

theorem BitWriter.exists_init_holds {w : BitWriter} (hw : w.ok) {rd : Nat → Byte} {a : Nat}
    (h : ∀ i, i < w.finish.2.out.length → w.finish.2.out[i]? = some (rd (a + i))) :
    ∃ r, BackReader.init rd a (a + w.finish.2.out.length) w.finish.1 = .ok r ∧ r.Holds rd w := by
  obtain ⟨hlo, hhi⟩ := w.finish_bits
  have hlen := w.finish_length
  have hbytes : le (bytesAt rd a (a + w.finish.2.out.length - a)) = w.value := by
    rw [Nat.add_sub_cancel_left, bytesAt_of_getElem? h, finish_value hw]
  have hcount : 8 * ((a + w.finish.2.out.length - a : Nat) : Int) + w.finish.1 = w.count := by
    rw [Nat.add_sub_cancel_left]; omega
  obtain ⟨r, hr⟩ := (BackReader.exists_init_ok_iff (rd := rd) (Nat.le_add_right a w.finish.2.out.length) hlo).2
    ⟨fun hempty => by omega, by rw [hbytes, hcount]; exact value_lt hw⟩
  obtain ⟨hok, hvalue, hrcount⟩ := BackReader.init_ok (Nat.le_add_right ..) hlo hhi hr
  exact ⟨r, hr, hok, by omega, hvalue.trans hbytes⟩

/-- The reader starts on the payload: the writer's bytes behind the 8 zero bytes. -/
theorem BitWriter.exists_init_after {w : BitWriter} (hw : w.ok) {pre : List Byte} {rd : Nat → Byte} {a : Nat}
    (h : ∀ i, i < (pre ++ w.finish.2.out).length → (pre ++ w.finish.2.out)[i]? = some (rd (a + i))) :
    ∃ r, BackReader.init rd a (a + (pre ++ w.finish.2.out).length) w.finish.1 = .ok r ∧ r.Holds rd (w.after pre) := by
  obtain ⟨r, hinit, hr⟩ := (w.after pre).exists_init_holds hw (rd := rd) (a := a) (by rw [finish_after]; exact h)
  rw [finish_after] at hinit
  exact ⟨r, hinit, hr⟩

/-! ## Runs of a loop that takes one iteration a step -/

theorem State.runSteps_succ {s t : State} (h : step s = .next t) (k : Nat) : s.runSteps (k + 1) = t.runSteps k := by
  rw [runSteps, h]

/-- `P k` holds with k iterations to go, and the step after the last one reaches `Q`. -/
theorem State.runSteps_of_loop {P : Nat → State → Prop} {Q : State → Prop}
    (hlast : ∀ s, P 0 s → ∃ u, step s = .next u ∧ Q u)
    (hstep : ∀ k s, P (k + 1) s → ∃ t, step s = .next t ∧ P k t) {k : Nat} {s : State} (hs : P k s) :
    ∃ u, s.runSteps (k + 1) = .next u ∧ Q u := by
  induction k generalizing s with
  | zero =>
    obtain ⟨u, hu, hQ⟩ := hlast s hs
    exact ⟨u, runSteps_succ hu 0, hQ⟩
  | succ k ih =>
    obtain ⟨t, ht, hP⟩ := hstep k s hs
    rw [runSteps_succ ht]
    exact ih hP

/-- A running ENCODE at a stage, with the memory and registers of `s₀`, and no agent's turn set. -/
structure State.Encoding (s₀ s : State) (st : EncStage) : Prop where
  turns : s.turns = []
  busy : s.isBusy
  seq : s.seq = .enc st
  mem : s.mem = s₀.mem
  csr : s.csr = s₀.csr

theorem State.Encoding.step {s₀ s : State} {st : EncStage} (h : State.Encoding s₀ s st) :
    step s = encStep st s.beginTurn :=
  step_of_enc (by rw [State.mover_nil h.turns, if_pos h.busy]) h.busy h.seq

theorem State.Encoding.goto {s₀ s : State} {st : EncStage} (h : State.Encoding s₀ s st) (st' : EncStage) (e : Encoder) :
    State.Encoding s₀ (s.beginTurn.encGoto st' e) st' where
  turns := by rw [encGoto_turns, beginTurn_turns, h.turns]; rfl
  busy := h.busy
  seq := rfl
  mem := h.mem
  csr := h.csr

end Sys2Proof.Machine

end

section
/-! The LMD payload (R340 to R342): the coded distances resolve back, DECODE_TRIPLET takes the triplets off the bits of
ENCODE_LMD in their order, and the steps on both sides are theirs. -/

namespace Sys2Proof.Machine

/-! ## Distance coding (R320, R321) -/

theorem codeDistances_length (prev : Nat) (ts : List Triplet) : (codeDistances prev ts).length = ts.length := by
  induction ts generalizing prev with
  | nil => rfl
  | cons t ts ih => rw [codeDistances]; split <;> simp [ih]

theorem resolveAll_length (cur : Nat) (dvs : List Nat) : (resolveAll cur dvs).length = dvs.length := by
  induction dvs generalizing cur with
  | nil => rfl
  | cons dv dvs ih => simp [resolveAll, ih]

/-- The encoder's previous distance is the decoder's `D_cur`. -/
theorem resolveAll_codeDistances {ts : List Triplet} (hts : ∀ t ∈ ts, 0 < t.M → 1 ≤ t.D) {i : Nat} {t : Triplet}
    (prev : Nat) (hi : ts[i]? = some t) (hM : 0 < t.M) : (resolveAll prev (codeDistances prev ts))[i]? = some t.D := by
  induction ts generalizing prev i with
  | nil => cases hi
  | cons h ts ih =>
    have ih := fun {j} prev' => ih (i := j) (fun t ht => hts t (List.mem_cons_of_mem _ ht)) prev'
    rw [codeDistances]
    split
    next hsame =>
      rw [resolveAll, resolveDistance, if_neg (by decide)]
      cases i with
      | zero => obtain rfl := Option.some.inj hi; rw [List.getElem?_cons_zero, Option.some.injEq]; omega
      | succ i => exact ih prev hi
    next hnew =>
      have hD : h.D ≠ 0 := by have := hts h (List.mem_cons_self ..); omega
      rw [resolveAll, resolveDistance, if_pos hD]
      cases i with
      | zero => obtain rfl := Option.some.inj hi; rfl
      | succ i => exact ih h.D hi

/-! ## Triplets behind bytes written before (R340) -/

section After
variable {pre : List Byte}

theorem valueEncode_after {t : SymTable} {et : List (Option EncEntry)} {v s s' : Nat} {w w' : BitWriter}
    (h : valueEncode t et v s w = .ok (s', w')) : valueEncode t et v s (w.after pre) = .ok (s', w'.after pre) := by
  unfold valueEncode at h ⊢
  split at h
  · cases h
  · exact symEncode_after h

theorem encodeTriplet_after {et : LmdEncTables} {L M dv : Nat} {st st' : LmdStates} {w w' : BitWriter}
    (h : encodeTriplet et L M dv st w = .ok (st', w')) :
    encodeTriplet et L M dv st (w.after pre) = .ok (st', w'.after pre) := by
  obtain ⟨wd, wm, hd, hm, hl⟩ := encodeTriplet_ok h
  simp only [encodeTriplet, BitWriter.flush_after, valueEncode_after hd, valueEncode_after hm, valueEncode_after hl]

end After

/-! ## What encoding keeps (R262, R263, R340) -/

theorem valueEncode_keeps_ok {t : SymTable} {m v s s' : Nat} {freq : List Nat} {w w' : BitWriter}
    (ht : t = symL ∨ t = symM ∨ t = symD) (hm : m ≤ 8) (hlen : freq.length = t.base.length) (hsum : freq.sum = 2 ^ m)
    (hs : s < 2 ^ m) (hw : w.ok) (hroom : w.nbits + (m + t.extra.foldl max 0) ≤ 64)
    (h : valueEncode t (buildEncodeTable (2 ^ m) 0 freq) v s w = .ok (s', w')) :
    s' < 2 ^ m ∧ w'.ok ∧ w'.nbits ≤ w.nbits + (m + t.extra.foldl max 0) := by
  obtain ⟨hs', d, code, hcoded, hbits⟩ := exists_valueCoded ht hm hlen hsum hs hw (by omega) h
  exact ⟨hs', hcoded.ok, by have := hcoded.nbits; omega⟩

theorem encodeTriplet_keeps_ok {f : LmdFreqs} {L M dv : Nat} {st st' : LmdStates} {w w' : BitWriter} (hf : f.ok)
    (hst : st.ok) (hw : w.ok) (h : encodeTriplet f.enc L M dv st w = .ok (st', w')) : st'.ok ∧ w'.ok := by
  obtain ⟨hlLen, hlSum, hmLen, hmSum, hdLen, hdSum⟩ := hf
  obtain ⟨hl, hm, hd⟩ := hst
  obtain ⟨wd, wm, hencD, hencM, hencL⟩ := encodeTriplet_ok h
  have hflush := w.flush_nbits_le
  have hbitsL : 6 + symL.extra.foldl max 0 = 14 := rfl
  have hbitsM : 6 + symM.extra.foldl max 0 = 17 := rfl
  have hbitsD : 8 + symD.extra.foldl max 0 = 23 := by simp [symD, extraD]
  obtain ⟨hd', hwd, hnd⟩ := valueEncode_keeps_ok (m := 8) (.inr (.inr rfl)) (by decide) hdLen hdSum hd
    (BitWriter.flush_ok hw) (by omega) hencD
  obtain ⟨hm', hwm, hnm⟩ := valueEncode_keeps_ok (m := 6) (.inr (.inl rfl)) (by decide) hmLen hmSum hm hwd (by omega)
    hencM
  obtain ⟨hl', hwl, -⟩ := valueEncode_keeps_ok (m := 6) (.inl rfl) (by decide) hlLen hlSum hl hwm (by omega) hencL
  exact ⟨⟨hl', hm', hd'⟩, hwl⟩

/-! ## The triplets of a block (R340 to R342) -/

theorem encodeTriplets_cons {et : LmdEncTables} {t : Triplet} {ts : List Triplet} {dv : Nat} {dvs : List Nat}
    {st' : LmdStates} {w' : BitWriter} (h : encodeTriplets et (t :: ts) (dv :: dvs) = .ok (st', w')) :
    ∃ st w, encodeTriplets et ts dvs = .ok (st, w) ∧ encodeTriplet et t.L t.M dv st w = .ok (st', w') := by
  rw [encodeTriplets] at h
  split at h
  next st w hrest => exact ⟨st, w, hrest, h⟩
  · cases h

/-- The triplets with the distances a decoder resolves. -/
def withDistances (ts : List Triplet) (ds : List Nat) : List Triplet :=
  List.zipWith (fun t d => { t with D := d }) ts ds

theorem withDistances_getElem? {ts : List Triplet} {ds : List Nat} {i : Nat} {t : Triplet} {d : Nat}
    (ht : ts[i]? = some t) (hd : ds[i]? = some d) : (withDistances ts ds)[i]? = some { t with D := d } := by
  rw [withDistances, List.getElem?_zipWith, ht, hd]

/-- R342, behind any bytes: the encoder keeps what the decoder needs, which takes the triplets off in their order. -/
theorem encodeTriplets_decodes {f : LmdFreqs} (hf : f.ok) {ts : List Triplet} {dvs : List Nat}
    (hlen : dvs.length = ts.length) {st : LmdStates} {w : BitWriter}
    (h : encodeTriplets f.enc ts dvs = .ok (st, w)) (pre : List Byte) :
    st.ok ∧ w.ok ∧ ∀ (rd : Nat → Byte) (dCur : Nat) (r : BackReader), r.Holds rd (w.after pre) →
      decodeTriplets f.dec rd ts.length st dCur r = .ok (withDistances ts (resolveAll dCur dvs)) := by
  induction ts generalizing dvs st w with
  | nil =>
    obtain rfl := List.length_eq_zero_iff.1 hlen
    cases h
    exact ⟨by decide, by decide, fun rd dCur r hr => rfl⟩
  | cons t ts ih =>
    obtain _ | ⟨dv, dvs⟩ := dvs
    · cases hlen
    obtain ⟨st₁, w₁, hrest, henc⟩ := encodeTriplets_cons h
    obtain ⟨hst₁, hw₁, hdec⟩ := ih (Nat.succ.inj hlen) hrest
    obtain ⟨hst, hw⟩ := encodeTriplet_keeps_ok hf hst₁ hw₁ henc
    refine ⟨hst, hw, fun rd dCur r hr => ?_⟩
    have hw₁' : (w₁.after pre).ok := hw₁
    obtain ⟨-, -, r₁, hfirst, hr₁⟩ := decodeTriplet_encodeTriplet dCur hf hst₁ hw₁' (encodeTriplet_after henc) hr
    simp only [List.length_cons, decodeTriplets, hfirst, hdec rd _ r₁ hr₁]
    rfl

/-- R342: the payload read from its end. -/
theorem decodeTriplets_payload {f : LmdFreqs} (hf : f.ok) {ts : List Triplet} {dvs : List Nat}
    (hlen : dvs.length = ts.length) {st : LmdStates} {w : BitWriter}
    (h : encodeTriplets f.enc ts dvs = .ok (st, w)) {rd : Nat → Byte} {b : Nat}
    (hrd : let payload := payloadPad ++ w.finish.2.out
      ∀ i, i < payload.length → payload[i]? = some (rd (b + i))) :
    ∃ r, BackReader.init rd b (b + (payloadPad ++ w.finish.2.out).length) w.finish.1 = .ok r
      ∧ decodeTriplets f.dec rd ts.length st 0 r = .ok (withDistances ts (resolveAll 0 dvs)) := by
  obtain ⟨-, hw, hdec⟩ := encodeTriplets_decodes hf hlen h payloadPad
  obtain ⟨r, hinit, hr⟩ := BitWriter.exists_init_after hw hrd
  exact ⟨r, hinit, hdec rd 0 r hr⟩

/-! ## ENCODE_LMD's steps (R340) -/

/-- The encoder inside ENCODE_LMD, with `k` triplets to go. -/
def Encoder.lmdAt (e : Encoder) (st : LmdStates) (w : BitWriter) (k : Nat) : Encoder :=
  { e with lState := st.l, mState := st.m, dState := st.d, bw := w, idx := k }

theorem encLmd_ok {s : State} {st : LmdStates} {w : BitWriter} (hidx : 0 < s.enc.idx)
    (h : encodeTriplet s.enc.lmdTables (s.enc.tL.getD (s.enc.idx - 1) 0) (s.enc.tM.getD (s.enc.idx - 1) 0)
      (s.enc.tDv.getD (s.enc.idx - 1) 0) s.enc.lmdStates s.enc.bw = .ok (st, w)) :
    encLmd s = .next (s.encGoto .lmd (s.enc.lmdAt st w (s.enc.idx - 1))) := by
  rw [encLmd, if_pos hidx, h]
  rfl

/-- ENCODE_LMD with the first `k` triplets of a block to go: the states and the writer are those of the rest. -/
structure LmdLoop (s₀ : State) (ts : List Triplet) (k : Nat) (s : State) : Prop extends State.Encoding s₀ s .lmd where
  enc : ∃ st w, s.enc = s₀.enc.lmdAt st w k
    ∧ encodeTriplets s₀.enc.lmdTables (ts.drop k) (s₀.enc.tDv.drop k) = .ok (st, w)
  le : k ≤ ts.length

theorem encodeTriplets_drop_ok {et : LmdEncTables} {ts : List Triplet} {dvs : List Nat} (hlen : dvs.length = ts.length)
    {st : LmdStates} {w : BitWriter} (h : encodeTriplets et ts dvs = .ok (st, w)) (k : Nat) :
    ∃ st' w', encodeTriplets et (ts.drop k) (dvs.drop k) = .ok (st', w') := by
  induction k generalizing ts dvs st w with
  | zero => exact ⟨st, w, h⟩
  | succ k ih =>
    obtain _ | ⟨t, ts⟩ := ts
    · obtain rfl := List.length_eq_zero_iff.1 hlen
      exact ⟨_, _, rfl⟩
    obtain _ | ⟨dv, dvs⟩ := dvs
    · cases hlen
    obtain ⟨st', w', hrest, -⟩ := encodeTriplets_cons h
    exact ih (Nat.succ.inj hlen) hrest

theorem LmdLoop.step {s₀ s : State} {ts : List Triplet} {k : Nat} (hL : s₀.enc.tL = ts.map Triplet.L)
    (hM : s₀.enc.tM = ts.map Triplet.M) (hlen : s₀.enc.tDv.length = ts.length) {st : LmdStates} {w : BitWriter}
    (hall : encodeTriplets s₀.enc.lmdTables ts s₀.enc.tDv = .ok (st, w)) (h : LmdLoop s₀ ts (k + 1) s) :
    ∃ t, Machine.step s = .next t ∧ LmdLoop s₀ ts k t := by
  obtain ⟨hbase, ⟨st₁, w₁, henc, hrest⟩, hle⟩ := h
  have hk : k < ts.length := hle
  have hkd : k < s₀.enc.tDv.length := hlen ▸ hk
  obtain ⟨st₂, w₂, hdrop⟩ := encodeTriplets_drop_ok hlen hall k
  have hone := hdrop
  rw [List.drop_eq_getElem_cons hk, List.drop_eq_getElem_cons hkd, encodeTriplets, hrest] at hone
  have hturn : encLmd s.beginTurn = .next (s.beginTurn.encGoto .lmd (s₀.enc.lmdAt st₂ w₂ k)) := by
    have henc : s.beginTurn.enc = s₀.enc.lmdAt st₁ w₁ (k + 1) := henc
    rw [encLmd_ok (st := st₂) (w := w₂) (by rw [henc]; exact Nat.succ_pos k), henc]
    · rfl
    · rw [henc, ← hone]
      simp [Encoder.lmdAt, Encoder.lmdTables, Encoder.lmdStates, hL, hM, hk, hkd]
  exact ⟨_, hbase.step.trans hturn, hbase.goto _ _, ⟨st₂, w₂, rfl, hdrop⟩, hk.le⟩

theorem LmdLoop.last {s₀ s : State} {ts : List Triplet} {st : LmdStates} {w : BitWriter}
    (hall : encodeTriplets s₀.enc.lmdTables ts s₀.enc.tDv = .ok (st, w)) (h : LmdLoop s₀ ts 0 s) :
    ∃ u, Machine.step s = .next u ∧ State.Encoding s₀ u .pack ∧ u.enc = (s₀.enc.lmdAt st w 0).lmdDone := by
  obtain ⟨hbase, ⟨st₁, w₁, henc, hrest⟩, -⟩ := h
  obtain ⟨⟩ := hrest.symm.trans hall
  have hturn : encLmd s.beginTurn = .next (s.beginTurn.encGoto .pack s.enc.lmdDone) := by
    rw [encLmd, State.beginTurn_enc, if_neg (by rw [henc]; exact Nat.lt_irrefl 0)]
  exact ⟨_, hbase.step.trans hturn, hbase.goto _ _, by rw [← henc]; rfl⟩

/-! ## The decoder's triplet step (R341, R444) -/

theorem step_of_triplets {s : State} (hm : s.mover = .core) (hb : s.isBusy) (hs : s.seq = .dec .triplets) :
    step s = decTriplets s.beginTurn := by
  rw [step_of_core hm, coreTurn, if_pos (show s.beginTurn.isBusy from hb), State.beginTurn_seq, hs, Fetched.run_result]

section Triplet
variable {s : State} (hlt : s.dec.trip.length < s.dec.hdr.nMatches)
include hlt

theorem decTriplets_err {c : ErrCode}
    (h : decodeTriplet s.dec.lmdTables s.decByte s.work.lmdStates s.work.dCur s.work.br = .error (.err c)) :
    decTriplets s = .next (s.raiseErr c) := by
  rw [decTriplets, if_pos hlt, h, State.andThen_err]

theorem decTriplets_ok {t : Triplet} {st : LmdStates} {br : BackReader}
    (h : decodeTriplet s.dec.lmdTables s.decByte s.work.lmdStates s.work.dCur s.work.br = .ok (t, st, br)) :
    decTriplets s = .next { s with
      dec := { s.dec with trip := s.dec.trip ++ [t] }
      work := { s.work with br := br, dCur := t.D, lState := st.l, mState := st.m, dState := st.d } } := by
  rw [decTriplets, if_pos hlt, h, State.andThen_ok]

end Triplet

end Sys2Proof.Machine

open Sys2Proof.Machine

/-- Settles O43: the reader holds the bits of ENCODE_LMD's writer behind the 8 zero bytes, and each triplet takes its
own off them; the encoder's states are always those of the triplets from `idx` on. -/
theorem codedDistancesResolve : Obligations.CodedDistancesResolve := by
  refine ⟨fun ts hts => ⟨⟨codeDistances_length 0 ts, fun i t hi hM => resolveAll_codeDistances hts 0 hi hM⟩,
    fun f st w rd b hf h hrd => ?_⟩, fun s ts st w hturns hb hs hL hM hlen hidx hl hm hd hbw h => ?_,
    fun s hm hb hs hlt => ?_⟩
  · obtain ⟨r, hinit, hdec⟩ := decodeTriplets_payload hf (codeDistances_length 0 ts) h hrd
    have hds : (resolveAll 0 (codeDistances 0 ts)).length = ts.length := by rw [resolveAll_length, codeDistances_length]
    refine ⟨r, _, hinit, hdec, by rw [withDistances, List.length_zipWith, hds, Nat.min_self], fun i t hi => ?_⟩
    obtain ⟨hlt, -⟩ := List.getElem?_eq_some_iff.1 hi
    have hd := List.getElem?_eq_getElem (hds.symm ▸ hlt)
    refine ⟨_, withDistances_getElem? hi hd, rfl, rfl, fun hM => ?_⟩
    exact Option.some.inj (hd.symm.trans (resolveAll_codeDistances hts 0 hi hM))
  · have hstates : s.enc.lmdStates = { l := 0, m := 0, d := 0 } := by rw [Encoder.lmdStates, hl, hm, hd]
    have hstart : s.enc = s.enc.lmdAt s.enc.lmdStates s.enc.bw s.enc.idx := rfl
    rw [hstates, hbw, hidx] at hstart
    have hnone : encodeTriplets s.enc.lmdTables (ts.drop ts.length) (s.enc.tDv.drop ts.length)
        = .ok ({ l := 0, m := 0, d := 0 }, .init) := by rw [List.drop_length, ← hlen, List.drop_length]; rfl
    obtain ⟨u, hrun, hu, henc⟩ := State.runSteps_of_loop (fun _ => LmdLoop.last h)
      (fun _ _ => LmdLoop.step hL hM hlen h) ⟨⟨hturns, hb, hs, rfl, rfl⟩, ⟨_, _, hstart, hnone⟩, le_rfl⟩
    exact ⟨u, hrun, hu.seq, hu.mem, hu.csr, henc⟩
  · have hread : decodeTriplet s.beginTurn.dec.lmdTables s.beginTurn.decByte s.beginTurn.work.lmdStates
        s.beginTurn.work.dCur s.beginTurn.work.br
          = decodeTriplet { l := s.dec.dtL, m := s.dec.dtM, d := s.dec.dtD } s.beginTurn.decByte
            { l := s.work.lState, m := s.work.mState, d := s.work.dState } s.work.dCur s.work.br := by
      simp [DecWork.lmdStates, Session.lmdTables]
    rw [step_of_triplets hm hb hs]
    exact ⟨fun c hc => decTriplets_err (s := s.beginTurn) hlt (hread.trans hc),
      fun t st br hok => decTriplets_ok (s := s.beginTurn) hlt (hread.trans hok)⟩

end

section
/-! The literal payload (R330 to R332): each group of four is taken off the bits of ENCODE_LITERALS in its order, and
the steps on both sides are those of the groups. -/

namespace Sys2Proof.Machine

/-! ## One literal (R262, R331) -/

theorem checkFreq_length_sum {freq : List Nat} {n N : Nat} (h : checkFreq freq n N = true) :
    freq.length = n ∧ freq.sum = N := by
  simp only [checkFreq, Bool.and_eq_true, decide_eq_true_eq] at h
  obtain ⟨⟨hlen, -⟩, hsum⟩ := h
  exact ⟨hlen, hsum⟩

theorem symEncode_ok {et : List (Option EncEntry)} {x s s' : Nat} {w w' : BitWriter}
    (h : symEncode et x s w = .ok (s', w')) : ∃ e, et[x]? = some (some e) ∧ fseEncode e s w = (s', w') := by
  unfold symEncode encLookup at h
  split at h
  next e he =>
    split at he
    next e' hx => cases he; exact ⟨e, hx, Except.ok.inj h⟩
    · cases he
  · cases h

theorem exists_litCoded {freq : List Nat} (hlen : freq.length = 256) (hsum : freq.sum = 1024) {x : Byte} {s s' : Nat}
    {w w' : BitWriter} (hs : s < 1024) (hw : w.ok) (hroom : w.nbits + 10 ≤ 64)
    (h : symEncode (buildEncodeTable 1024 0 freq) x.toNat s w = .ok (s', w')) :
    s' < 1024 ∧ ∃ d code, ValueCoded (buildLiteralTable freq) x.toNat s s' w w' d code ∧ d.totalBits ≤ 10 := by
  obtain ⟨e, he, hfse⟩ := symEncode_ok h
  obtain ⟨f, hf, hpos, rfl⟩ := buildEncodeTable_getElem?_eq_some_iff.1 he
  have hx : x.toNat < 256 := x.isLt
  obtain ⟨j, n, hj, henc, hdec⟩ := exists_fse_entry (m := 10) (vbits := List.replicate 256 0) (vbase := List.range 256)
    le_rfl hsum (by rw [List.length_replicate, hlen]) (by rw [List.length_range, hlen]) hf hpos
    (by rw [List.getElem?_replicate, if_pos hx]) (List.getElem?_range hx) hs w
  rw [Nat.zero_add] at hfse
  obtain ⟨⟩ := henc.symm.trans hfse
  have hbits : n ≤ 10 := by
    obtain ⟨-, hstateBits, -⟩ := inRange_of_mem_buildDecodeTable (m := 10) le_rfl hsum (List.mem_of_getElem? hdec)
    exact hstateBits
  have hstate : s % 2 ^ n < 2 ^ n := Nat.mod_lt _ (by positivity)
  have hle := take_sum_add_le hf
  refine ⟨by omega, _, s % 2 ^ n, ⟨hdec, ?_, rfl, BitWriter.push_count .., ?_, ?_, ?_⟩, hbits⟩
  · exact BitWriter.push_ok hw (by omega) hstate
  · exact BitWriter.push_value hw (by omega) hstate
  · simp [Nat.mod_one]
  · exact Nat.div_add_mod' s (2 ^ n)

theorem ValueCoded.decodesLit {dt : List DecEntry} {x : Byte} {s s' code : Nat} {w w' : BitWriter} {d : DecEntry}
    (h : ValueCoded dt x.toNat s s' w w' d code) (hw : w.ok) {rd : Nat → Byte} {r : BackReader} (hr : r.Holds rd w')
    (hloaded : d.totalBits ≤ r.nbits) :
    decodeLit dt s' r = .ok (x, s, r.pulled d.totalBits) ∧ (r.pulled d.totalBits).Holds rd w := by
  obtain ⟨hdec, hholds⟩ := h.decodes hw hr hloaded
  refine ⟨?_, hholds⟩
  rw [decodeLit, hdec]
  simp

/-! ## One group (R330, R331) -/

/-- Each lane's state lies in the stream's range (R63). -/
abbrev Lanes.ok (st : Lanes) : Prop := st.s0 < 1024 ∧ st.s1 < 1024 ∧ st.s2 < 1024 ∧ st.s3 < 1024

theorem encodeLitGroup_ok {et : List (Option EncEntry)} {a b c d : Byte} {st st' : Lanes} {w w' : BitWriter}
    (h : encodeLitGroup et a b c d st w = .ok (st', w')) :
    ∃ w₃ w₂ w₁, symEncode et d.toNat st.s3 w.flush = .ok (st'.s3, w₃) ∧ symEncode et c.toNat st.s2 w₃ = .ok (st'.s2, w₂)
      ∧ symEncode et b.toNat st.s1 w₂ = .ok (st'.s1, w₁) ∧ symEncode et a.toNat st.s0 w₁ = .ok (st'.s0, w') := by
  unfold encodeLitGroup at h
  split at h
  · cases h
  next s3 w₃ h3 =>
    split at h
    · cases h
    next s2 w₂ h2 =>
      split at h
      · cases h
      next s1 w₁ h1 =>
        split at h
        · cases h
        next s0 w₀ h0 => cases h; exact ⟨w₃, w₂, w₁, h3, h2, h1, h0⟩

theorem encodeLitGroup_after {pre : List Byte} {et : List (Option EncEntry)} {a b c d : Byte} {st st' : Lanes}
    {w w' : BitWriter} (h : encodeLitGroup et a b c d st w = .ok (st', w')) :
    encodeLitGroup et a b c d st (w.after pre) = .ok (st', w'.after pre) := by
  obtain ⟨w₃, w₂, w₁, h3, h2, h1, h0⟩ := encodeLitGroup_ok h
  simp only [encodeLitGroup, BitWriter.flush_after, symEncode_after h3, symEncode_after h2, symEncode_after h1,
    symEncode_after h0]

theorem decodeLitGroup_of_lits {dt : List DecEntry} {rd : Nat → Byte} {a b c d : Byte} {st st' : Lanes}
    {r r₀ r₁ r₂ r₃ : BackReader} (h0 : decodeLit dt st.s0 (r.refill rd) = .ok (a, st'.s0, r₀))
    (h1 : decodeLit dt st.s1 r₀ = .ok (b, st'.s1, r₁)) (h2 : decodeLit dt st.s2 r₁ = .ok (c, st'.s2, r₂))
    (h3 : decodeLit dt st.s3 r₂ = .ok (d, st'.s3, r₃)) : decodeLitGroup dt rd st r = .ok ([a, b, c, d], st', r₃) := by
  simp only [decodeLitGroup, h0, h1, h2, h3]

theorem encodeLitGroup_decodes {freq : List Nat} (hlen : freq.length = 256) (hsum : freq.sum = 1024) {a b c d : Byte}
    {st st' : Lanes} {w w' : BitWriter} (hst : st.ok) (hw : w.ok)
    (h : encodeLitGroup (buildEncodeTable 1024 0 freq) a b c d st w = .ok (st', w')) :
    st'.ok ∧ w'.ok ∧ ∀ (rd : Nat → Byte) (r : BackReader), r.Holds rd w' →
      ∃ r', decodeLitGroup (buildLiteralTable freq) rd st' r = .ok ([a, b, c, d], st, r') ∧ r'.Holds rd w := by
  obtain ⟨hs0, hs1, hs2, hs3⟩ := hst
  obtain ⟨w₃, w₂, w₁, h3, h2, h1, h0⟩ := encodeLitGroup_ok h
  have hwf := BitWriter.flush_ok hw
  have hflush := w.flush_nbits_le
  obtain ⟨hs3', d₃, _, coded₃, hbits₃⟩ := exists_litCoded hlen hsum hs3 hwf (by omega) h3
  have hn₃ := coded₃.nbits
  obtain ⟨hs2', d₂, _, coded₂, hbits₂⟩ := exists_litCoded hlen hsum hs2 coded₃.ok (by omega) h2
  have hn₂ := coded₂.nbits
  obtain ⟨hs1', d₁, _, coded₁, hbits₁⟩ := exists_litCoded hlen hsum hs1 coded₂.ok (by omega) h1
  have hn₁ := coded₁.nbits
  obtain ⟨hs0', d₀, _, coded₀, hbits₀⟩ := exists_litCoded hlen hsum hs0 coded₁.ok (by omega) h0
  refine ⟨⟨hs0', hs1', hs2', hs3'⟩, coded₀.ok, fun rd r hr => ?_⟩
  have hcount : r.count = w.flush.count + d₃.totalBits + d₂.totalBits + d₁.totalBits + d₀.totalBits := by
    rw [hr.count, coded₀.count, coded₁.count, coded₂.count, coded₃.count]
  have hloaded : d₃.totalBits + d₂.totalBits + d₁.totalBits + d₀.totalBits ≤ (r.refill rd).nbits :=
    BackReader.le_refill_nbits hr.ok (by omega) (by omega)
  obtain ⟨hdec₀, holds₀⟩ := coded₀.decodesLit coded₁.ok hr.refill (by omega)
  obtain ⟨hdec₁, holds₁⟩ := coded₁.decodesLit coded₂.ok holds₀ (by simp only [BackReader.pulled_nbits]; omega)
  obtain ⟨hdec₂, holds₂⟩ := coded₂.decodesLit coded₃.ok holds₁ (by simp only [BackReader.pulled_nbits]; omega)
  obtain ⟨hdec₃, holds₃⟩ := coded₃.decodesLit hwf holds₂ (by simp only [BackReader.pulled_nbits]; omega)
  exact ⟨_, decodeLitGroup_of_lits hdec₀ hdec₁ hdec₂ hdec₃, holds₃.ok, holds₃.count.trans w.flush_count,
    holds₃.value.trans w.flush_value⟩

/-! ## The groups of a block (R330 to R332) -/

theorem encodeGroups_cons {et : List (Option EncEntry)} {g : LitGroup} {gs : List LitGroup} {st' : Lanes}
    {w' : BitWriter} (h : encodeGroups et (g :: gs) = .ok (st', w')) :
    ∃ st w, encodeGroups et gs = .ok (st, w) ∧ encodeLitGroup et g.a g.b g.c g.d st w = .ok (st', w') := by
  rw [encodeGroups] at h
  split at h
  next st w hrest => exact ⟨st, w, hrest, h⟩
  · cases h

/-- R332, behind any bytes: the encoder keeps what the decoder needs, which takes the groups off in their order. -/
theorem encodeGroups_decodes {freq : List Nat} (hlen : freq.length = 256) (hsum : freq.sum = 1024)
    {gs : List LitGroup} {st : Lanes} {w : BitWriter}
    (h : encodeGroups (buildEncodeTable 1024 0 freq) gs = .ok (st, w)) (pre : List Byte) :
    st.ok ∧ w.ok ∧ ∀ (rd : Nat → Byte) (r : BackReader), r.Holds rd (w.after pre) →
      decodeGroups (buildLiteralTable freq) rd gs.length st r = .ok (gs.flatMap LitGroup.bytes) := by
  induction gs generalizing st w with
  | nil =>
    cases h
    exact ⟨by decide, by decide, fun rd r hr => rfl⟩
  | cons g gs ih =>
    obtain ⟨st₁, w₁, hrest, henc⟩ := encodeGroups_cons h
    obtain ⟨hst₁, hw₁, hdec⟩ := ih hrest
    have hw₁' : (w₁.after pre).ok := hw₁
    obtain ⟨hst, hw, hgroup⟩ := encodeLitGroup_decodes hlen hsum hst₁ hw₁' (encodeLitGroup_after henc)
    refine ⟨hst, hw, fun rd r hr => ?_⟩
    obtain ⟨r₁, hfirst, hr₁⟩ := hgroup rd r hr
    simp only [List.length_cons, decodeGroups, hfirst, hdec rd r₁ hr₁]
    rfl

/-- R332: the payload read from its end. -/
theorem decodeGroups_payload {freq : List Nat} (hlen : freq.length = 256) (hsum : freq.sum = 1024)
    {gs : List LitGroup} {st : Lanes} {w : BitWriter}
    (h : encodeGroups (buildEncodeTable 1024 0 freq) gs = .ok (st, w)) {rd : Nat → Byte} {a : Nat}
    (hrd : let payload := payloadPad ++ w.finish.2.out
      ∀ i, i < payload.length → payload[i]? = some (rd (a + i))) :
    ∃ r, BackReader.init rd a (a + (payloadPad ++ w.finish.2.out).length) w.finish.1 = .ok r
      ∧ decodeGroups (buildLiteralTable freq) rd gs.length st r = .ok (gs.flatMap LitGroup.bytes) := by
  obtain ⟨-, hw, hdec⟩ := encodeGroups_decodes hlen hsum h payloadPad
  obtain ⟨r, hinit, hr⟩ := BitWriter.exists_init_after hw hrd
  exact ⟨r, hinit, hdec rd r hr⟩

/-! ## ENCODE_LITERALS' steps (R330) -/

/-- The encoder inside ENCODE_LITERALS, with `i` literals to go. -/
def Encoder.litAt (e : Encoder) (st : Lanes) (w : BitWriter) (i : Nat) : Encoder :=
  { e with lanes := st, bw := w, idx := i }

theorem encLiterals_ok {s : State} {st : Lanes} {w : BitWriter} (hidx : 0 < s.enc.idx)
    (h : encodeLitGroup s.enc.etLit (s.enc.lit (s.enc.idx - 4)) (s.enc.lit (s.enc.idx - 3))
      (s.enc.lit (s.enc.idx - 2)) (s.enc.lit (s.enc.idx - 1)) s.enc.lanes s.enc.bw = .ok (st, w)) :
    encLiterals s = .next (s.encGoto .literals (s.enc.litAt st w (s.enc.idx - 4))) := by
  rw [encLiterals, if_pos hidx, h]
  rfl

theorem encLiterals_done {s : State} (hidx : s.enc.idx = 0) :
    encLiterals s = .next (s.encGoto .lmd s.enc.literalsDone) := by
  rw [encLiterals, if_neg (by omega)]

theorem drop_flatMap_bytes (gs : List LitGroup) (k : Nat) :
    (gs.flatMap LitGroup.bytes).drop (4 * k) = (gs.drop k).flatMap LitGroup.bytes := by
  induction k generalizing gs with
  | zero => rfl
  | succ k ih =>
    cases gs with
    | nil => simp
    | cons g gs => rw [List.drop_succ_cons, ← ih]; rfl

theorem Encoder.lit_of_group {e : Encoder} {gs : List LitGroup} (hbuf : e.litBuf = gs.flatMap LitGroup.bytes) {k : Nat}
    (hk : k < gs.length) :
    e.lit (4 * k) = gs[k].a ∧ e.lit (4 * k + 1) = gs[k].b ∧ e.lit (4 * k + 2) = gs[k].c
      ∧ e.lit (4 * k + 3) = gs[k].d := by
  have hgroup := drop_flatMap_bytes gs k
  rw [List.drop_eq_getElem_cons hk, List.flatMap_cons] at hgroup
  have hlit (j : Nat) : e.lit (4 * k + j) = (gs[k].bytes ++ (gs.drop (k + 1)).flatMap LitGroup.bytes).getD j 0 := by
    rw [← hgroup, lit, hbuf, List.getD_eq_getElem?_getD, List.getD_eq_getElem?_getD, List.getElem?_drop]
  exact ⟨hlit 0, hlit 1, hlit 2, hlit 3⟩

theorem encodeGroups_drop_ok {et : List (Option EncEntry)} {gs : List LitGroup} {st : Lanes} {w : BitWriter}
    (h : encodeGroups et gs = .ok (st, w)) (k : Nat) : ∃ st' w', encodeGroups et (gs.drop k) = .ok (st', w') := by
  induction k generalizing gs st w with
  | zero => exact ⟨st, w, h⟩
  | succ k ih =>
    obtain _ | ⟨g, gs⟩ := gs
    · exact ⟨_, _, rfl⟩
    · obtain ⟨st', w', hrest, -⟩ := encodeGroups_cons h
      exact ih hrest

/-- ENCODE_LITERALS with the first `k` groups of a block to go: the lanes and the writer are those of the rest. -/
structure LitLoop (s₀ : State) (gs : List LitGroup) (k : Nat) (s : State) : Prop
    extends State.Encoding s₀ s .literals where
  enc : ∃ st w, s.enc = s₀.enc.litAt st w (4 * k) ∧ encodeGroups s₀.enc.etLit (gs.drop k) = .ok (st, w)
  le : k ≤ gs.length

theorem LitLoop.step {s₀ s : State} {gs : List LitGroup} {k : Nat} (hbuf : s₀.enc.litBuf = gs.flatMap LitGroup.bytes)
    {st : Lanes} {w : BitWriter} (hall : encodeGroups s₀.enc.etLit gs = .ok (st, w)) (h : LitLoop s₀ gs (k + 1) s) :
    ∃ t, Machine.step s = .next t ∧ LitLoop s₀ gs k t := by
  obtain ⟨hbase, ⟨st₁, w₁, henc, hrest⟩, hle⟩ := h
  have hk : k < gs.length := hle
  obtain ⟨st₂, w₂, hdrop⟩ := encodeGroups_drop_ok hall k
  have hone := hdrop
  rw [List.drop_eq_getElem_cons hk, encodeGroups, hrest] at hone
  have hturn : encLiterals s.beginTurn = .next (s.beginTurn.encGoto .literals (s₀.enc.litAt st₂ w₂ (4 * k))) := by
    have henc : s.beginTurn.enc = s₀.enc.litAt st₁ w₁ (4 * k + 4) := henc
    obtain ⟨ha, hb, hc, hd⟩ := (s₀.enc.litAt st₁ w₁ (4 * k + 4)).lit_of_group hbuf hk
    rw [encLiterals_ok (st := st₂) (w := w₂) (by rw [henc]; exact Nat.succ_pos _), henc]
    · rfl
    · rw [henc, ← hone, ← ha, ← hb, ← hc, ← hd]
      rfl
  exact ⟨_, hbase.step.trans hturn, hbase.goto _ _, ⟨st₂, w₂, rfl, hdrop⟩, hk.le⟩

theorem LitLoop.last {s₀ s : State} {gs : List LitGroup} {st : Lanes} {w : BitWriter}
    (hall : encodeGroups s₀.enc.etLit gs = .ok (st, w)) (h : LitLoop s₀ gs 0 s) :
    ∃ u, Machine.step s = .next u ∧ State.Encoding s₀ u .lmd ∧ u.enc = (s₀.enc.litAt st w 0).literalsDone := by
  obtain ⟨hbase, ⟨st₁, w₁, henc, hrest⟩, -⟩ := h
  obtain ⟨⟩ := hrest.symm.trans hall
  have hturn := encLiterals_done (s := s.beginTurn) (by rw [State.beginTurn_enc, henc]; rfl)
  exact ⟨_, hbase.step.trans hturn, hbase.goto _ _, by rw [← henc]; rfl⟩

/-! ## The decoder's literal steps (R331, R444, R445) -/

theorem step_of_literals {s : State} (hm : s.mover = .core) (hb : s.isBusy) (hs : s.seq = .dec .literals) :
    step s = decLiterals s.beginTurn := by
  rw [step_of_core hm, coreTurn, if_pos (show s.beginTurn.isBusy from hb), State.beginTurn_seq, hs, Fetched.run_result]

section Literals
variable {s : State}

theorem decLiterals_err (hlt : s.dec.dlit.length < s.dec.hdr.nLiterals) {c : ErrCode}
    (h : decodeLitGroup s.dec.dtLit s.decByte s.work.lanes s.work.br = .error (.err c)) :
    decLiterals s = .next (s.raiseErr c) := by
  rw [decLiterals, if_pos hlt, h, State.andThen_err]

theorem decLiterals_ok (hlt : s.dec.dlit.length < s.dec.hdr.nLiterals) {bs : List Byte} {st : Lanes} {br : BackReader}
    (h : decodeLitGroup s.dec.dtLit s.decByte s.work.lanes s.work.br = .ok (bs, st, br)) :
    decLiterals s = .next { s with
      dec := { s.dec with dlit := s.dec.dlit ++ bs }, work := { s.work with lanes := st, br := br } } := by
  rw [decLiterals, if_pos hlt, h, State.andThen_ok]

theorem decLiterals_end_err (hle : s.dec.hdr.nLiterals ≤ s.dec.dlit.length) {c : ErrCode}
    (h : BackReader.init s.decByte s.lmdStart s.lmdEnd s.dec.hdr.lmdBits = .error (.err c)) :
    decLiterals s = .next (s.raiseErr c) := by
  rw [decLiterals, if_neg (Nat.not_lt.2 hle), h, State.andThen_err]

theorem decLiterals_end_ok (hle : s.dec.hdr.nLiterals ≤ s.dec.dlit.length) {br : BackReader}
    (h : BackReader.init s.decByte s.lmdStart s.lmdEnd s.dec.hdr.lmdBits = .ok br) :
    decLiterals s = .next { s with
      dec := { s.dec with phase := .inLmdStream, trip := [] }
      work := { s.work with
        br := br, dCur := 0
        lState := s.dec.hdr.lState, mState := s.dec.hdr.mState, dState := s.dec.hdr.dState }
      seq := .dec .triplets } := by
  rw [decLiterals, if_neg (Nat.not_lt.2 hle), h, State.andThen_ok]

end Literals

end Sys2Proof.Machine

open Sys2Proof.Machine

/-- Settles O44: the reader holds the bits of ENCODE_LITERALS' writer behind the 8 zero bytes, and each group takes its
own off them; the encoder's lanes are always those of the groups from `idx` on. -/
theorem literalPayloadRoundTrip : Obligations.LiteralPayloadRoundTrip := by
  refine ⟨fun freq gs st w rd a hf h hrd => ?_, fun s gs st w hturns hb hs hbuf hidx hlanes hbw h => ?_,
    fun s hm hb hs => ⟨fun hlt => ?_, fun hle => ?_⟩⟩
  · obtain ⟨hlen, hsum⟩ := checkFreq_length_sum hf
    exact decodeGroups_payload hlen hsum h hrd
  · have hstart : s.enc = s.enc.litAt s.enc.lanes s.enc.bw s.enc.idx := rfl
    have hnum : s.enc.litBuf.length = 4 * gs.length := by
      rw [hbuf, List.length_flatMap]
      simp [LitGroup.bytes, Nat.mul_comm]
    rw [hlanes, hbw, hidx, hnum] at hstart
    have hnone : encodeGroups s.enc.etLit (gs.drop gs.length) = .ok (.zero, .init) := by rw [List.drop_length]; rfl
    obtain ⟨u, hrun, hu, henc⟩ := State.runSteps_of_loop (fun _ => LitLoop.last h) (fun _ _ => LitLoop.step hbuf h)
      ⟨⟨hturns, hb, hs, rfl, rfl⟩, ⟨_, _, hstart, hnone⟩, le_rfl⟩
    exact ⟨u, hrun, hu.seq, hu.mem, hu.csr, henc⟩
  · have hgroup : decodeLitGroup s.beginTurn.dec.dtLit s.beginTurn.decByte s.beginTurn.work.lanes s.beginTurn.work.br
        = decodeLitGroup s.dec.dtLit s.beginTurn.decByte s.work.lanes s.work.br := by simp
    rw [step_of_literals hm hb hs]
    exact ⟨fun c hc => decLiterals_err (s := s.beginTurn) hlt (hgroup.trans hc),
      fun bs st br hok => decLiterals_ok (s := s.beginTurn) hlt (hgroup.trans hok)⟩
  · rw [step_of_literals hm hb hs]
    exact ⟨fun c hc => decLiterals_end_err (s := s.beginTurn) hle hc,
      fun br hok => decLiterals_end_ok (s := s.beginTurn) hle hok⟩

end

section
/-! RUN's loops that emit (R433, R440, R447): a replayed literal run, a replayed match and a delegated copy each emit
the next byte of a known list a step, or pause. -/

namespace Sys2Proof.Machine

/-! ## The bytes of a match (R311, R447) -/

/-- The bytes a match at distance `D` appends to an output held newest byte first, in the order they are appended. -/
def matchBytes (D : Nat) : Nat → List Byte → List Byte
  | 0, _ => []
  | n + 1, out => out.getD (D - 1) 0 :: matchBytes D n (out.getD (D - 1) 0 :: out)

theorem matchBytes_length (D n : Nat) (out : List Byte) : (matchBytes D n out).length = n := by
  induction n generalizing out with
  | zero => rfl
  | succ n ih => rw [matchBytes, List.length_cons, ih]

theorem copyMatch_eq (D n : Nat) (out : List Byte) : copyMatch D n out = (matchBytes D n out).reverse ++ out := by
  induction n generalizing out with
  | zero => rfl
  | succ n ih => rw [copyMatch, matchBytes, ih, List.reverse_cons, List.append_assoc, List.singleton_append]

theorem take_copyMatch (D n : Nat) (out : List Byte) : ((copyMatch D n out).take n).reverse = matchBytes D n out := by
  rw [copyMatch_eq, List.take_left' (by rw [List.length_reverse, matchBytes_length]), List.reverse_reverse]

/-- A match looks back `D` bytes and no further. -/
theorem matchBytes_congr {D : Nat} (hD : 1 ≤ D) (n : Nat) {out out' : List Byte} (h : out.take D = out'.take D) :
    matchBytes D n out = matchBytes D n out' := by
  obtain ⟨k, rfl⟩ := Nat.exists_eq_add_of_le' hD
  induction n generalizing out out' with
  | zero => rfl
  | succ n ih =>
    have hbyte : out[k]? = out'[k]? := by
      rw [← List.getElem?_take_of_lt (Nat.lt_succ_self k), h, List.getElem?_take_of_lt (Nat.lt_succ_self k)]
    have htake : out.take k = out'.take k := by
      rw [← Nat.min_eq_left (Nat.le_succ k), ← List.take_take, h, List.take_take]
    simp only [matchBytes, Nat.add_sub_cancel, List.getD_eq_getElem?_getD, hbyte, List.cons.injEq, true_and]
    exact ih (congrArg (_ :: ·) htake)

/-- R311: each byte of the match is the one `D` before it, which may be one of the match's own. -/
theorem copyMatch_getElem? {D : Nat} (hD : 1 ≤ D) {n i : Nat} {out : List Byte} (hlen : D ≤ out.length) (hi : i < n) :
    (copyMatch D n out)[i]? = (copyMatch D n out)[i + D]? := by
  induction n generalizing out with
  | zero => exact absurd hi (Nat.not_lt_zero i)
  | succ n ih =>
    rw [copyMatch]
    obtain hlt | rfl := Nat.lt_succ_iff_lt_or_eq.1 hi
    · exact ih (Nat.le_succ_of_le hlen) hlt
    · obtain ⟨k, rfl⟩ := Nat.exists_eq_add_of_le' hD
      have hk : k < out.length := hlen
      have hnew (j : Nat) : ((matchBytes (k + 1) i (out.getD k 0 :: out)).reverse ++ out.getD k 0 :: out)[i + j]?
          = (out.getD k 0 :: out)[j]? := by
        rw [List.getElem?_append_right (by rw [List.length_reverse, matchBytes_length]; exact Nat.le_add_right i j),
          List.length_reverse, matchBytes_length, Nat.add_sub_cancel_left]
      rw [copyMatch_eq, Nat.add_sub_cancel, hnew (k + 1)]
      refine (hnew 0).trans ?_
      simp [hk]

/-! ## One step of RUN (R440) -/

/-- RUN's loop goes on, and no agent's turn is set. -/
structure State.Running (s : State) : Prop where
  turns : s.turns = []
  busy : s.isBusy
  seq : s.seq = .dec .run

theorem State.Running.step {s : State} (h : s.Running) (hp : s.dec.phase ≠ .atBlockStart) :
    step s = decRun s.beginTurn := by
  have hm : s.mover = .core := by rw [State.mover_nil h.turns, if_pos h.busy]
  rw [step_of_core hm, coreTurn, if_pos (show s.beginTurn.isBusy from h.busy), beginTurn_seq, h.seq]
  exact congrArg Fetched.run (if_neg hp)

theorem State.Running.step_replay {s : State} (h : s.Running) (hp : s.dec.phase = .inLmdStream) :
    Machine.step s = decReplay s.beginTurn := by
  rw [h.step (by rw [hp]; decide), decRun, beginTurn_dec, hp]

theorem State.Running.step_copy {s : State} (h : s.Running) (hp : s.dec.phase = .inDelegatedCopy) :
    Machine.step s = decDelegatedCopy s.beginTurn := by
  rw [h.step (by rw [hp]; decide), decRun, beginTurn_dec, hp]

/-! ## EMIT (R433, R108) -/

/-- The session with its output counted and its history window replaced. -/
def Session.withOutput (d : Session) (total : Nat) (win : List Byte) : Session :=
  { d with outTotal := total, histWin := win }

/-- The state after `b` has been emitted and the rule has kept its books by `f`. -/
def State.emitted (s : State) (b : Byte) (f : Session → Session) : State := { s.put b with dec := f (s.put b).dec }

theorem State.emit_of_room {s : State} (h : ¬ s.noRoom) (b : Byte) (f : Session → Session) :
    s.emit b f = .next (s.emitted b f) := if_neg h

theorem State.emit_of_noRoom {s : State} (h : s.noRoom) (b : Byte) (f : Session → Session) :
    s.emit b f = .next s.pause := if_pos h

/-- A pause in a full destination reports its size (R460). -/
theorem State.pause_of_noRoom {s : State} (h : s.noRoom) (hraced : s.racedDst = []) :
    s.pause = { s with
      csr := { s.csr with
        state := .dstFull, errCode := .none, decPhase := s.dec.phase, cmdDone := true
        result := s.csr.dstSize, outTotal := BitVec.ofNat 64 s.dec.outTotal
        srcPos := BitVec.ofNat 32 s.dec.srcPos }
      dec := { s.dec with valid := true }
      seq := .rest, work := .empty, enc := .empty } := by
  have hsize : BitVec.ofNat 32 s.work.dstPos = s.csr.dstSize := by rw [h, BitVec.ofNat_toNat, BitVec.setWidth_eq]
  simp only [pause, endRun, endCommand, setResult, loadCounters, setValid, hraced, hsize, Memory.settle_nil]

/-! ## A loop that emits -/

/-- While the session is where `P` says, with the bytes `bs` to go, each step of RUN emits the first of them, and
`f d n` are the books after `n` of them. -/
structure Emits (P : List Byte → Session → Prop) (f : Session → Nat → Session) : Prop where
  step : ∀ {s : State} {b : Byte} {bs : List Byte}, s.Running → P (b :: bs) s.dec →
    step s = s.beginTurn.emit b (f · 1)
  keep : ∀ {d : Session} {b : Byte} {bs : List Byte} (total : Nat), P (b :: bs) d →
    P bs (f (d.withOutput total ((b :: d.histWin).take 262144)) 1)
  zero : ∀ d, f d 0 = d
  succ : ∀ (d : Session) (n total total' : Nat) (win win' : List Byte),
    (f (f (d.withOutput total win) 1) n).withOutput total' win' = (f d (n + 1)).withOutput total' win'
  frame : ∀ (d : Session) (n : Nat), (f d n).outTotal = d.outTotal ∧ (f d n).histWin = d.histWin

/-- `u` is `s` after the bytes `bs`, one a step. -/
structure Emitted (s : State) (bs : List Byte) (d : Session) (u : State) : Prop where
  run : s.runSteps bs.length = .next u
  mem : u.mem = s.mem.writeBytes (s.csr.dstAddr + BitVec.ofNat 64 s.work.dstPos) bs
  dec : u.dec = d.withOutput (s.dec.outTotal + bs.length) ((bs.reverse ++ s.dec.histWin).take 262144)
  dstPos : u.work.dstPos = s.work.dstPos + bs.length
  csr : u.csr = s.csr
  seq : u.seq = s.seq

theorem take_append_take_cons (bs : List Byte) (b : Byte) (win : List Byte) (k : Nat) :
    (bs.reverse ++ (b :: win).take k).take k = ((b :: bs).reverse ++ win).take k := by
  rw [List.take_append, List.take_take, Nat.min_eq_left (Nat.sub_le ..), ← List.take_append, List.reverse_cons,
    List.append_assoc, List.singleton_append]

/-- As many steps as bytes emit them all, where they have room. -/
theorem Emits.run {P : List Byte → Session → Prop} {f : Session → Nat → Session} (h : Emits P f) {s : State}
    {bs : List Byte} (hs : s.Running) (hP : P bs s.dec) (hwin : s.dec.histWin.length ≤ 262144)
    (hroom : s.work.dstPos + bs.length ≤ s.csr.dstSize.toNat) : ∃ u, Emitted s bs (f s.dec bs.length) u := by
  induction bs generalizing s with
  | nil =>
    refine ⟨s, rfl, rfl, ?_, rfl, rfl, rfl⟩
    rw [List.length_nil, h.zero, List.reverse_nil, List.nil_append, List.take_of_length_le hwin]
    rfl
  | cons b bs ih =>
    rw [List.length_cons] at hroom
    have hdst : s.beginTurn.work.dstPos = s.work.dstPos := s.beginWork_dstPos
    have hnext : Machine.step s = .next (s.beginTurn.emitted b (f · 1)) := by
      rw [h.step hs hP, State.emit_of_room]
      rw [State.noRoom, hdst, State.beginTurn_csr]
      omega
    obtain ⟨hout, hhist⟩ := h.frame (s.beginTurn.put b).dec 1
    obtain ⟨u, hu⟩ := ih (s := s.beginTurn.emitted b (f · 1))
      ⟨congrArg List.tail hs.turns, hs.busy, hs.seq⟩ (h.keep _ hP)
      (by rw [State.emitted, hhist]; exact List.length_take_le ..)
      (by simp only [State.emitted, State.put_work, State.put_csr, State.beginTurn_csr, hdst]; omega)
    refine ⟨u, (State.runSteps_succ hnext _).trans hu.run, ?_, ?_, ?_, hu.csr, hu.seq⟩
    · rw [hu.mem, Memory.writeBytes]
      simp only [State.emitted, State.put_work, State.put_csr, State.put_mem, State.beginTurn_csr, State.beginTurn_mem,
        hdst, BitVec.ofNat_add, BitVec.add_assoc]
      rfl
    · rw [hu.dec]
      simp only [State.emitted, hout, hhist]
      simp only [State.put_dec, State.beginTurn_dec, take_append_take_cons, List.length_cons, Nat.add_assoc,
        Nat.add_comm 1]
      exact h.succ ..
    · rw [hu.dstPos]
      simp only [State.emitted, State.put_work, hdst, List.length_cons]
      omega

/-- The run as a statement over a count `n` and the window's invariant (R108). -/
theorem Emits.run_of_length {P : List Byte → Session → Prop} {f : Session → Nat → Session} (h : Emits P f) {s : State}
    {bs : List Byte} {n : Nat} (hs : s.Running) (hP : P bs s.dec) (hn : bs.length = n) (hh : s.HistoryOk)
    (hroom : s.work.dstPos + n ≤ s.csr.dstSize.toNat) :
    ∃ u, s.runSteps n = .next u
      ∧ u.mem = s.mem.writeBytes (s.csr.dstAddr + BitVec.ofNat 64 s.work.dstPos) bs
      ∧ u.dec = (f s.dec n).withOutput (s.dec.outTotal + n) ((bs.reverse ++ s.dec.histWin).take 262144)
      ∧ u.work.dstPos = s.work.dstPos + n ∧ u.csr = s.csr ∧ u.seq = s.seq := by
  subst hn
  obtain ⟨u, hu⟩ := h.run hs hP (by rw [hh]; exact Nat.min_le_right ..) hroom
  exact ⟨u, hu.run, hu.mem, hu.dec, hu.dstPos, hu.csr, hu.seq⟩

/-- With a byte to go and no room, the step pauses. -/
theorem Emits.pause {P : List Byte → Session → Prop} {f : Session → Nat → Session} (h : Emits P f) {s : State}
    {bs : List Byte} (hs : s.Running) (hP : P bs s.dec) (hone : bs.length = 1) (hfull : s.noRoom) :
    Machine.step s = .next s.beginTurn.pause := by
  obtain ⟨b, rfl⟩ := List.length_eq_one_iff.1 hone
  have hfull' : s.beginTurn.noRoom := by rwa [State.noRoom, State.beginTurn_work, State.beginWork_dstPos]
  rw [h.step hs hP, State.emit_of_noRoom hfull']

/-! ## The three loops (R440, R447) -/

theorem getElem?_of_cons_isPrefix_drop {b : Byte} {bs l : List Byte} {i : Nat} (h : b :: bs <+: l.drop i) :
    l[i]? = some b ∧ bs <+: l.drop (i + 1) := by
  obtain ⟨rest, hrest⟩ := h
  constructor
  · rw [← Nat.add_zero i, ← List.getElem?_drop, ← hrest]; rfl
  · exact ⟨rest, by rw [← List.drop_drop, ← hrest]; rfl⟩

/-- A triplet is being replayed. -/
def Session.replaying (d : Session) : Prop := d.phase = .inLmdStream ∧ d.tIdx < d.hdr.nMatches

def Session.usedLiterals (d : Session) (n : Nat) : Session :=
  { d with litPos := d.litPos + n, curLLeft := d.curLLeft - n }

def Session.usedMatch (d : Session) (n : Nat) : Session := { d with curMLeft := d.curMLeft - n }

def Session.usedCopy (d : Session) (n : Nat) : Session := { d with copyIdx := d.copyIdx + n }

/-- The bytes are literals the triplet has left. -/
def Session.literalsNext (bs : List Byte) (d : Session) : Prop :=
  d.replaying ∧ bs.length ≤ d.curLLeft ∧ bs <+: d.dlit.drop d.litPos

/-- The bytes are those the match of `t` has left, its literals used up. -/
def Session.matchNext (t : Triplet) (bs : List Byte) (d : Session) : Prop :=
  d.replaying ∧ d.trip[d.tIdx]? = some t ∧ d.curLLeft = 0 ∧ bs.length ≤ d.curMLeft
    ∧ 1 ≤ t.D ∧ t.D ≤ 262139 ∧ t.D ≤ d.histWin.length ∧ bs = matchBytes t.D bs.length d.histWin

/-- The bytes are the next of the codec's answer. -/
def Session.copyNext (bs : List Byte) (d : Session) : Prop :=
  d.phase = .inDelegatedCopy ∧ bs <+: d.copyBuf.drop d.copyIdx

section Replay
variable {s : State} {b : Byte} (hr : s.dec.replaying)
include hr

theorem decReplay_literal (hL : 0 < s.dec.curLLeft) (hb : s.dec.dlit[s.dec.litPos]? = some b) :
    decReplay s = s.emit b (·.usedLiterals 1) := by
  rw [decReplay, if_pos hr.2, if_pos hL, readItem_ok.2 hb]
  rfl

theorem decReplay_match (hL : s.dec.curLLeft = 0) (hM : 0 < s.dec.curMLeft) {t : Triplet}
    (ht : s.dec.trip[s.dec.tIdx]? = some t) (hD : 0 < t.D) (hb : s.dec.histWin[t.D - 1]? = some b) :
    decReplay s = s.emit b (·.usedMatch 1) := by
  rw [decReplay, if_pos hr.2, if_neg (by omega), if_pos hM, readItem_ok.2 ht, State.andThen_ok,
    historyByte_ok.2 ⟨hD, hb⟩]
  rfl

theorem decReplay_next (hL : s.dec.curLLeft = 0) (hM : s.dec.curMLeft = 0) :
    decReplay s = .next { s with dec := s.dec.loadTriplet (s.dec.tIdx + 1) } := by
  rw [decReplay, if_pos hr.2, if_neg (by omega), if_neg (by omega)]

end Replay

theorem decReplay_done {s : State} (h : s.dec.hdr.nMatches ≤ s.dec.tIdx) : decReplay s = .next s.blockDone := by
  rw [decReplay, if_neg (Nat.not_lt.2 h)]

theorem decDelegatedCopy_byte {s : State} {b : Byte} (hb : s.dec.copyBuf[s.dec.copyIdx]? = some b) :
    decDelegatedCopy s = s.emit b (·.usedCopy 1) := by
  rw [decDelegatedCopy, if_pos (List.getElem?_eq_some_iff.1 hb).1, readItem_ok.2 hb]
  rfl

theorem decDelegatedCopy_done {s : State} (h : s.dec.copyBuf.length ≤ s.dec.copyIdx) :
    decDelegatedCopy s = .next s.blockDone := by
  rw [decDelegatedCopy, if_neg (Nat.not_lt.2 h)]

theorem Session.loadTriplet_some {d : Session} {i : Nat} {t : Triplet} (h : d.trip[i]? = some t) :
    d.loadTriplet i = { d with tIdx := i, curLLeft := t.L, curMLeft := t.M } := by rw [loadTriplet, h]

theorem Session.loadTriplet_none {d : Session} {i : Nat} (h : d.trip[i]? = none) :
    d.loadTriplet i = { d with tIdx := i } := by rw [loadTriplet, h]

/-! ## Each loop emits what is next -/

theorem emits_literals : Emits Session.literalsNext Session.usedLiterals where
  step := by
    rintro s b bs hs ⟨hr, hleft, hbs⟩
    exact (hs.step_replay hr.1).trans (decReplay_literal (s := s.beginTurn) hr
      (Nat.lt_of_lt_of_le (Nat.succ_pos _) hleft) (getElem?_of_cons_isPrefix_drop hbs).1)
  keep := by
    rintro d b bs total ⟨hr, hleft, hbs⟩
    exact ⟨hr, Nat.le_sub_one_of_lt hleft, (getElem?_of_cons_isPrefix_drop hbs).2⟩
  zero _ := rfl
  succ d n _ _ _ _ := by
    simp only [Session.usedLiterals, Session.withOutput, Nat.add_assoc, Nat.add_comm 1, Nat.sub_sub]
  frame _ _ := ⟨rfl, rfl⟩

theorem emits_match (t : Triplet) : Emits (Session.matchNext t) Session.usedMatch where
  step := by
    rintro s b bs hs ⟨hr, ht, hL, hM, hD, -, hwin, hbs⟩
    obtain ⟨hb, -⟩ := List.cons.inj hbs
    have hbyte : s.dec.histWin[t.D - 1]? = some b := by
      have hlast : t.D - 1 < s.dec.histWin.length := by omega
      rw [hb, List.getD_eq_getElem?_getD, List.getElem?_eq_getElem hlast, Option.getD_some]
    exact (hs.step_replay hr.1).trans (decReplay_match (s := s.beginTurn) hr hL
      (Nat.lt_of_lt_of_le (Nat.succ_pos _) hM) ht hD hbyte)
  keep := by
    rintro d b bs total ⟨hr, ht, hL, hM, hD, hmax, hwin, hbs⟩
    obtain ⟨hb, hrest⟩ := List.cons.inj hbs
    refine ⟨hr, ht, hL, Nat.le_sub_one_of_lt hM, hD, hmax, ?_, ?_⟩
    · show t.D ≤ ((b :: d.histWin).take 262144).length
      rw [List.length_take, List.length_cons]
      omega
    · rw [← hb] at hrest
      refine hrest.trans (matchBytes_congr hD _ ?_)
      show _ = ((b :: d.histWin).take 262144).take t.D
      rw [List.take_take, Nat.min_eq_left (by omega)]
  zero _ := rfl
  succ d n _ _ _ _ := by simp only [Session.usedMatch, Session.withOutput, Nat.add_comm 1, Nat.sub_sub]
  frame _ _ := ⟨rfl, rfl⟩

theorem emits_copy : Emits Session.copyNext Session.usedCopy where
  step := by
    rintro s b bs hs ⟨hp, hbs⟩
    exact (hs.step_copy hp).trans (decDelegatedCopy_byte (s := s.beginTurn) (getElem?_of_cons_isPrefix_drop hbs).1)
  keep := by
    rintro d b bs total ⟨hp, hbs⟩
    exact ⟨hp, (getElem?_of_cons_isPrefix_drop hbs).2⟩
  zero _ := rfl
  succ d n _ _ _ _ := by simp only [Session.usedCopy, Session.withOutput, Nat.add_assoc, Nat.add_comm 1]
  frame _ _ := ⟨rfl, rfl⟩

/-! ## What is next, where it is left -/

theorem length_take_drop {l : List Byte} {i n : Nat} (h : i + n ≤ l.length) : ((l.drop i).take n).length = n := by
  rw [List.length_take, List.length_drop]
  omega

theorem Session.literalsNext_take {d : Session} (hr : d.replaying) {n : Nat} (hL : n ≤ d.curLLeft)
    (hlen : d.litPos + n ≤ d.dlit.length) : literalsNext ((d.dlit.drop d.litPos).take n) d :=
  ⟨hr, by rwa [length_take_drop hlen], _, List.take_append_drop ..⟩

theorem Session.copyNext_take {d : Session} (hp : d.phase = .inDelegatedCopy) (n : Nat) :
    copyNext ((d.copyBuf.drop d.copyIdx).take n) d := ⟨hp, _, List.take_append_drop ..⟩

theorem State.HistoryOk.reaches_back {s : State} (h : s.HistoryOk) {D : Nat} (hmax : D ≤ 262139)
    (htotal : D ≤ s.dec.outTotal) : D ≤ s.dec.histWin.length := by
  rw [h]
  exact Nat.le_min.2 ⟨htotal, Nat.le_trans hmax (by decide)⟩

theorem Session.matchNext_matchBytes {d : Session} {t : Triplet} (hr : d.replaying) (ht : d.trip[d.tIdx]? = some t)
    (hL : d.curLLeft = 0) {n : Nat} (hM : n ≤ d.curMLeft) (hD : 1 ≤ t.D) (hmax : t.D ≤ 262139)
    (hwin : t.D ≤ d.histWin.length) : matchNext t (matchBytes t.D n d.histWin) d :=
  ⟨hr, ht, hL, by rwa [matchBytes_length], hD, hmax, hwin, by rw [matchBytes_length]⟩

/-- Each byte a match has appended is the window's byte `D` further back. -/
theorem window_getElem?_match {D n i : Nat} {win win' : List Byte} (hD : 1 ≤ D) (hlen : D ≤ win.length)
    (hwin : win' = ((matchBytes D n win).reverse ++ win).take 262144) (hi : i < n) (hback : i + D < win'.length) :
    win'[i]? = win'[i + D]? := by
  have hmax : i + D < 262144 := Nat.lt_of_lt_of_le hback (by rw [hwin]; exact List.length_take_le ..)
  rw [hwin, ← copyMatch_eq, List.getElem?_take_of_lt (by omega), List.getElem?_take_of_lt hmax]
  exact copyMatch_getElem? hD hlen hi

end Sys2Proof.Machine

open Sys2Proof.Machine

/-- Settles O33: each of the three loops emits what is next in the sense of `Emits`, and where its bytes are used up the
next triplet is loaded or the block is done. -/
theorem replaysAndCopiesEmitTheirBytes : Obligations.ReplaysAndCopiesEmitTheirBytes := by
  intro s n hturns hb hs
  have hrun : s.Running := ⟨hturns, hb, hs⟩
  refine ⟨fun hh hroom => ⟨?_, ?_, ?_⟩, fun hfull hraced hh hleft => ?_,
    fun hr hL hM => ⟨fun t ht => ?_, fun ht => ?_⟩, ?_⟩
  · rintro ⟨hr, hL, hlen⟩
    exact emits_literals.run_of_length hrun (Session.literalsNext_take hr hL hlen) (length_take_drop hlen) hh hroom
  · rintro t ⟨hr, ht, hL, hM, hD, hmax, htotal⟩
    have hwin := hh.reaches_back hmax htotal
    rw [take_copyMatch]
    obtain ⟨u, hsteps, hmem, hdec, hrest⟩ := (emits_match t).run_of_length hrun
      (Session.matchNext_matchBytes hr ht hL hM hD hmax hwin) (matchBytes_length ..) hh hroom
    exact ⟨u, ⟨hsteps, hmem, hdec, hrest⟩, fun i hi hback =>
      window_getElem?_match hD hwin (congrArg Session.histWin hdec) hi hback⟩
  · rintro ⟨hp, hlen⟩
    exact emits_copy.run_of_length hrun (Session.copyNext_take hp n) (length_take_drop hlen) hh hroom
  · have hpause : step s = .next s.beginTurn.pause := by
      obtain ⟨hr, hL, hlen⟩ | ⟨t, hr, ht, hL, hM, hD, hmax, htotal⟩ | ⟨hp, hlen⟩ := hleft
      · exact emits_literals.pause hrun (Session.literalsNext_take hr hL hlen) (length_take_drop hlen) hfull
      · exact (emits_match t).pause hrun
          (Session.matchNext_matchBytes hr ht hL hM hD hmax (hh.reaches_back hmax htotal)) (matchBytes_length ..) hfull
      · exact emits_copy.pause hrun (Session.copyNext_take hp 1) (length_take_drop hlen) hfull
    have hfull' : s.beginTurn.noRoom := by rwa [State.noRoom, State.beginTurn_work, State.beginWork_dstPos]
    rw [hpause, State.pause_of_noRoom hfull' hraced]
    rfl
  · rw [hrun.step_replay hr.1, decReplay_next (s := s.beginTurn) hr hL hM]
    exact congrArg (fun d => Host.Outcome.next { s.beginTurn with dec := d }) (Session.loadTriplet_some ht)
  · rw [hrun.step_replay hr.1, decReplay_next (s := s.beginTurn) hr hL hM]
    exact congrArg (fun d => Host.Outcome.next { s.beginTurn with dec := d }) (Session.loadTriplet_none ht)
  · rintro (⟨hp, hle⟩ | ⟨hp, hle⟩)
    · exact (hrun.step_replay hp).trans (decReplay_done hle)
    · exact (hrun.step_copy hp).trans (decDelegatedCopy_done hle)

end

section
/-! LEGALIZE (R310 to R312): the parts of a triple use its literals and copy its match, so the output stays the same;
and the steps that take them into blocks (R500, R510). -/

namespace Sys2Proof.Machine

/-! ## The output of consecutive triplets (R311) -/

theorem copyMatch_add (D a b : Nat) (out : List Byte) :
    copyMatch D (a + b) out = copyMatch D b (copyMatch D a out) := by
  induction a generalizing out with
  | zero => rw [Nat.zero_add, copyMatch]
  | succ a ih => rw [Nat.succ_add, copyMatch, copyMatch, ih]

theorem expandTriplets_append (ts us : List Triplet) (lits out : List Byte) :
    expandTriplets (ts ++ us) lits out
      = expandTriplets us (lits.drop (ts.map Triplet.L).sum) (expandTriplets ts lits out) := by
  induction ts generalizing lits out with
  | nil => rfl
  | cons t ts ih =>
    rw [List.cons_append, expandTriplets, expandTriplets, ih, List.drop_drop, List.map_cons, List.sum_cons]

/-- The triplets together use `L` literals and then copy `M` bytes at distance `D`. -/
structure MakesOne (ts : List Triplet) (L M D : Nat) : Prop where
  literals : (ts.map Triplet.L).sum = L
  output : ∀ lits out, expandTriplets ts lits out = copyMatch D M ((lits.take L).reverse ++ out)

namespace MakesOne

theorem nil (D : Nat) : MakesOne [] 0 0 D := ⟨rfl, fun _ _ => rfl⟩

theorem single (L M D : Nat) : MakesOne [{ L := L, M := M, D := D }] L M D := ⟨rfl, fun _ _ => rfl⟩

variable {ts us : List Triplet} {L L' M M' D D' : Nat}

theorem of_no_match (h : MakesOne ts L 0 D) (D' : Nat) : MakesOne ts L 0 D' := ⟨h.literals, h.output⟩

theorem literals_append (h : MakesOne ts L 0 D) (h' : MakesOne us L' M D') : MakesOne (ts ++ us) (L + L') M D' where
  literals := by rw [List.map_append, List.sum_append, h.literals, h'.literals]
  output lits out := by
    rw [expandTriplets_append, h.literals, h.output, h'.output, copyMatch, List.take_add, List.reverse_append,
      List.append_assoc]

theorem match_append (h : MakesOne ts L M D) (h' : MakesOne us 0 M' D) : MakesOne (ts ++ us) L (M + M') D where
  literals := by rw [List.map_append, List.sum_append, h.literals, h'.literals, Nat.add_zero]
  output lits out := by
    rw [expandTriplets_append, h.output, h'.output, List.take_zero, List.reverse_nil, List.nil_append, copyMatch_add]

theorem replicate_literals (q L D : Nat) : MakesOne (List.replicate q { L := L, M := 0, D := D }) (q * L) 0 D := by
  induction q with
  | zero => rw [Nat.zero_mul]; exact nil D
  | succ q ih => rw [List.replicate_succ', Nat.succ_mul]; exact ih.literals_append (single L 0 D)

theorem replicate_match (q M D : Nat) : MakesOne (List.replicate q { L := 0, M := M, D := D }) 0 (q * M) D := by
  induction q with
  | zero => rw [Nat.zero_mul]; exact nil D
  | succ q ih => rw [List.replicate_succ', Nat.succ_mul]; exact ih.match_append (single 0 M D)

end MakesOne

/-! ## The parts of one triple (R312) -/

theorem fullParts_mul_le (v max : Nat) : fullParts v max * max ≤ v :=
  Nat.le_trans (Nat.div_mul_le_self ..) (Nat.sub_le ..)

theorem sub_fullParts_le (v : Nat) {max : Nat} (hmax : 0 < max) : v - fullParts v max * max ≤ max := by
  have hdiv := Nat.div_add_mod' (v - 1) max
  have hmod := Nat.mod_lt (v - 1) hmax
  rw [fullParts]
  omega

theorem le_of_fullParts_eq_zero {v max : Nat} (hmax : 0 < max) (h : fullParts v max = 0) : v ≤ max := by
  simpa [h] using sub_fullParts_le v hmax

theorem legalizeOne_of_short {t : Triplet} (h : fullParts t.M 2359 = 0) :
    legalizeOne t = List.replicate (fullParts t.L 315) { L := 315, M := 0, D := 0 }
      ++ [{ L := t.L - fullParts t.L 315 * 315, M := t.M, D := if t.M = 0 then 0 else t.D }] := by
  rw [legalizeOne]
  exact if_pos h

theorem legalizeOne_of_long {t : Triplet} {q : Nat} (h : fullParts t.M 2359 = q + 1) :
    legalizeOne t = List.replicate (fullParts t.L 315) { L := 315, M := 0, D := 0 }
      ++ ([{ L := t.L - fullParts t.L 315 * 315, M := 2359, D := t.D }]
        ++ (List.replicate q { L := 0, M := 2359, D := t.D }
          ++ [{ L := 0, M := t.M - (q + 1) * 2359, D := t.D }])) := by
  simp [legalizeOne, h]

theorem makesOne_legalizeOne (t : Triplet) : MakesOne (legalizeOne t) t.L t.M t.D := by
  have hL : fullParts t.L 315 * 315 + (t.L - fullParts t.L 315 * 315) = t.L :=
    Nat.add_sub_cancel' (fullParts_mul_le t.L 315)
  have hlits := MakesOne.replicate_literals (fullParts t.L 315) 315 0
  cases hq : fullParts t.M 2359 with
  | zero =>
    rw [legalizeOne_of_short hq]
    have hone := hlits.literals_append
      (MakesOne.single (t.L - fullParts t.L 315 * 315) t.M (if t.M = 0 then 0 else t.D))
    rw [hL] at hone
    by_cases hM : t.M = 0
    · rw [hM] at hone ⊢; exact hone.of_no_match t.D
    · rwa [if_neg hM] at hone ⊢
  | succ q =>
    have hM : 2359 + (q * 2359 + (t.M - (q + 1) * 2359)) = t.M := by
      have := hq ▸ fullParts_mul_le t.M 2359
      omega
    rw [legalizeOne_of_long hq]
    have hone := hlits.literals_append ((MakesOne.single (t.L - fullParts t.L 315 * 315) 2359 t.D).match_append
      ((MakesOne.replicate_match q 2359 t.D).match_append (MakesOne.single 0 (t.M - (q + 1) * 2359) t.D)))
    rwa [hL, hM] at hone

theorem legalizeOne_bounds {p t : Triplet} (ht : t ∈ legalizeOne p) :
    t.L ≤ 315 ∧ t.M ≤ 2359 ∧ (0 < t.M → 0 < p.M ∧ t.D = p.D) := by
  have hL := sub_fullParts_le p.L (max := 315) (by decide)
  cases hq : fullParts p.M 2359 with
  | zero =>
    have hM := le_of_fullParts_eq_zero (by decide) hq
    rw [legalizeOne_of_short hq, List.mem_append, List.mem_singleton] at ht
    obtain hfull | rfl := ht
    · obtain rfl := List.eq_of_mem_replicate hfull
      exact ⟨le_rfl, Nat.zero_le _, fun hpos => absurd hpos (Nat.lt_irrefl 0)⟩
    · exact ⟨hL, hM, fun hpos => ⟨hpos, if_neg (Nat.ne_of_gt hpos)⟩⟩
  | succ q =>
    have hM := hq ▸ sub_fullParts_le p.M (max := 2359) (by decide)
    have hpos : 0 < p.M := by
      have := hq ▸ fullParts_mul_le p.M 2359
      omega
    rw [legalizeOne_of_long hq] at ht
    simp only [List.mem_append, List.mem_singleton] at ht
    obtain hfull | rfl | hfull | rfl := ht
    · obtain rfl := List.eq_of_mem_replicate hfull
      exact ⟨le_rfl, Nat.zero_le _, fun hpos => absurd hpos (Nat.lt_irrefl 0)⟩
    · exact ⟨hL, le_rfl, fun _ => ⟨hpos, rfl⟩⟩
    · obtain rfl := List.eq_of_mem_replicate hfull
      exact ⟨Nat.zero_le _, le_rfl, fun _ => ⟨hpos, rfl⟩⟩
    · exact ⟨Nat.zero_le _, hM, fun _ => ⟨hpos, rfl⟩⟩

/-! ## The parse (R312) -/

theorem legalize_bounds {parse : List Triplet} {t : Triplet} (ht : t ∈ legalize parse) :
    t.L ≤ 315 ∧ t.M ≤ 2359 ∧ (0 < t.M → ∃ p ∈ parse, 0 < p.M ∧ t.D = p.D) := by
  obtain ⟨p, hp, ht⟩ := List.mem_flatMap.1 ht
  obtain ⟨hL, hM, hcopy⟩ := legalizeOne_bounds ht
  exact ⟨hL, hM, fun hpos => ⟨p, hp, hcopy hpos⟩⟩

theorem expandTriplets_legalize (parse : List Triplet) (lits out : List Byte) :
    expandTriplets (legalize parse) lits out = expandTriplets parse lits out := by
  induction parse generalizing lits out with
  | nil => rfl
  | cons p parse ih =>
    have hone := makesOne_legalizeOne p
    calc expandTriplets (legalize (p :: parse)) lits out
      _ = expandTriplets (legalizeOne p ++ legalize parse) lits out := by rw [legalize, List.flatMap_cons, legalize]
      _ = expandTriplets parse (lits.drop p.L) (copyMatch p.D p.M ((lits.take p.L).reverse ++ out)) := by
        rw [expandTriplets_append, hone.literals, hone.output, ih]
      _ = expandTriplets (p :: parse) lits out := by rw [expandTriplets]

/-! ## Filling blocks (R500, R510) -/

section Fill
variable {s : State}

theorem Encoder.closes_iff {e : Encoder} {t : Triplet} :
    e.closes t = true ↔ 10000 < e.tL.length + 1 ∨ 40000 < e.litBuf.length + t.L := decide_eq_true_iff

theorem encFill_closes {t : Triplet} {rest : List Triplet} (h : s.enc.todo = t :: rest)
    (hfull : s.enc.closes t = true) : encFill s = .next (s.encGoto .tables s.enc) := by
  simp only [encFill, h, hfull, if_true]

theorem encFill_adds {t : Triplet} {rest : List Triplet} (h : s.enc.todo = t :: rest)
    (hroom : ¬ s.enc.closes t = true) : encFill s = .next (s.encGoto .fill (s.enc.append (s.encByte 0) t rest)) := by
  simp only [encFill, h, if_neg hroom]

theorem encFill_last (h : s.enc.todo = []) (hopen : s.enc.tL ≠ []) :
    encFill s = .next (s.encGoto .tables s.enc) := by
  simp only [encFill, h, if_neg hopen]

theorem encFill_ends (h : s.enc.todo = []) (hempty : s.enc.tL = []) :
    encFill s = .next (s.encGoto .finish { s.enc with out := s.enc.out ++ packEos }) := by
  simp only [encFill, h, if_pos hempty]

/-- A step that stays in its stage changes the encoder alone. -/
theorem State.encGoto_same {st : EncStage} (hs : s.seq = .enc st) (e : Encoder) :
    s.encGoto st e = { s with enc := e } := by rw [encGoto, ← hs]

end Fill

end Sys2Proof.Machine

open Sys2Proof.Machine

/-- Settles O42: the parts of each triple are one triple in what they use and copy; each clause of the fill is a branch
of its step. -/
theorem legalizingKeepsTheOutput : Obligations.LegalizingKeepsTheOutput := by
  refine ⟨fun parse lits out => ⟨fun t ht => legalize_bounds ht, fun hparse t ht hpos => ?_,
    expandTriplets_legalize parse lits out⟩, fun s hm hb => ⟨fun hs => step_of_enc hm hb hs, fun hs => ?_⟩⟩
  · obtain ⟨-, -, hcopy⟩ := legalize_bounds ht
    obtain ⟨p, hp, hpM, hD⟩ := hcopy hpos
    exact hD ▸ hparse p hp hpM
  · have hstep : step s = encFill s.beginTurn := step_of_enc hm hb hs
    refine ⟨fun t rest htodo => ⟨fun hfull => ?_, fun hroom => ?_⟩, fun htodo hopen => ?_, fun htodo hempty => ?_⟩
    · exact hstep.trans (encFill_closes (s := s.beginTurn) htodo (Encoder.closes_iff.2 hfull))
    · rw [hstep, encFill_adds (s := s.beginTurn) htodo (mt Encoder.closes_iff.1 hroom),
        State.encGoto_same (s := s.beginTurn) hs]
      rfl
    · exact hstep.trans (encFill_last (s := s.beginTurn) htodo hopen)
    · exact hstep.trans (encFill_ends (s := s.beginTurn) htodo hempty)

end

section
/-! The forward code stream as a number (R220, R221): FW puts each word above the bits it has taken, FR takes each word
off the low end, and so the frequency code is read back (R384, R385). -/

namespace Sys2Proof.Machine

/-- Bits put above the lower `k`: the disjunction is a sum. -/
theorem or_shiftLeft_eq_add {lo hi k : Nat} (hlo : lo < 2 ^ k) : lo ||| hi <<< k = lo + hi * 2 ^ k := by
  rw [Nat.or_comm, ← Nat.shiftLeft_add_eq_or_of_lt hlo, Nat.shiftLeft_eq, Nat.add_comm]

/-- The same in an accumulator that has room for them. -/
theorem toNat_or_shiftLeft {w n k : Nat} {lo hi : BitVec w} (hlo : lo.toNat < 2 ^ n) (hhi : hi.toNat < 2 ^ k)
    (hfit : n + k ≤ w) : (lo ||| hi <<< n).toNat = lo.toNat + hi.toNat * 2 ^ n := by
  have hroom : hi.toNat * 2 ^ n < 2 ^ w :=
    Nat.lt_of_lt_of_le (Nat.lt_of_le_of_lt (Nat.le_add_left _ _) (add_mul_two_pow_lt hlo hhi))
      (Nat.pow_le_pow_right Nat.two_pos hfit)
  rw [BitVec.toNat_or, BitVec.toNat_shiftLeft, Nat.shiftLeft_eq, Nat.mod_eq_of_lt hroom, ← Nat.shiftLeft_eq,
    or_shiftLeft_eq_add hlo, Nat.shiftLeft_eq]

/-! ## The code as a number -/

/-- How many bits the frequency code of `v` has. -/
def freqCodeLength : List Nat → Nat
  | [] => 0
  | x :: v => (encode (freqInstr x)).nbits + freqCodeLength v

/-- The frequency code of `v` as one number, its first bit lowest. -/
def freqCodeBits : List Nat → Nat
  | [] => 0
  | x :: v => (encode (freqInstr x)).bits + freqCodeBits v * 2 ^ (encode (freqInstr x)).nbits

theorem freqInstr_nbits_le (v : Nat) : (encode (freqInstr v)).nbits ≤ 14 := by
  rcases Nat.lt_or_ge v 8 with hv | hv
  · interval_cases v <;> decide
  · rw [freqInstr_of_ge hv]
    split
    · exact (by decide : 8 ≤ 14)
    · exact le_rfl

/-! ## The writer (R220) -/

namespace FwdWriter

/-- The writer has taken `count` bits, which make the number `value`, the first bit lowest. -/
structure Holds (w : FwdWriter) (count value : Nat) : Prop where
  acc_lt : w.acc.toNat < 2 ^ w.n
  count_eq : 8 * w.out.length + w.n = count
  value_eq : le w.out + w.acc.toNat * 256 ^ w.out.length = value

theorem holds_empty : empty.Holds 0 0 := ⟨by decide, rfl, rfl⟩

theorem Holds.drain {w : FwdWriter} {c x : Nat} (h : w.Holds c x) (k : Nat) : (w.drain k).Holds c x := by
  induction k generalizing w with
  | zero => exact h
  | succ k ih =>
    rw [FwdWriter.drain]
    split
    · exact h
    next hn =>
      obtain ⟨hacc, hcount, hvalue⟩ := h
      have hpow : 2 ^ w.n = 2 ^ (w.n - 8) * 256 := by rw [← Nat.pow_add (n := 8), Nat.sub_add_cancel (by omega)]
      have hshift : (w.acc >>> 8).toNat = w.acc.toNat / 256 := by
        rw [BitVec.toNat_ushiftRight, Nat.shiftRight_eq_div_pow]
      refine ih ⟨?_, ?_, ?_⟩
      · rw [hshift, Nat.div_lt_iff_lt_mul (by decide), ← hpow]
        exact hacc
      · simp only [List.length_append, List.length_singleton]
        omega
      · rw [hshift, le_append, le_singleton, BitVec.toNat_setWidth, List.length_append, List.length_singleton,
          ← hvalue]
        conv_rhs => rw [← Nat.mod_add_div w.acc.toNat 256]
        ring

theorem drain_n_lt {k : Nat} {w : FwdWriter} (h : w.n < 8 * (k + 1)) : (w.drain k).n < 8 := by
  induction k generalizing w with
  | zero => exact h
  | succ k ih =>
    rw [drain]
    split
    · assumption
    · exact ih (by simp only; omega)

theorem Holds.put {w : FwdWriter} {c x nbits code : Nat} (h : w.Holds c x) (hfit : w.n + nbits ≤ 32)
    (hcode : code < 2 ^ nbits) : (w.put nbits code).Holds (c + nbits) (x + code * 2 ^ c) := by
  obtain ⟨hacc, hcount, hvalue⟩ := h
  have hword : (BitVec.ofNat 32 code).toNat = code := by
    rw [BitVec.toNat_ofNat, Nat.mod_eq_of_lt]
    exact Nat.lt_of_lt_of_le hcode (Nat.pow_le_pow_right Nat.two_pos (by omega))
  have hacc' : (w.acc ||| BitVec.ofNat 32 code <<< w.n).toNat = w.acc.toNat + code * 2 ^ w.n := by
    rw [toNat_or_shiftLeft hacc (by rw [hword]; exact hcode) hfit, hword]
  refine Holds.drain ⟨?_, ?_, ?_⟩ 4
  · rw [hacc']
    exact add_mul_two_pow_lt hacc hcode
  · simp only
    omega
  · rw [hacc', ← hvalue, ← hcount, two_pow_bytes_add]
    ring

theorem put_n_lt {w : FwdWriter} {nbits code : Nat} (h : w.n + nbits < 40) : (w.put nbits code).n < 8 := drain_n_lt h

theorem Holds.putFreqs {v : List Nat} (hv : ∀ x ∈ v, x ≤ 1047) {w : FwdWriter} {c y : Nat} (h : w.Holds c y)
    (hn : w.n < 8) :
    (v.foldl putFreq w).Holds (c + freqCodeLength v) (y + freqCodeBits v * 2 ^ c) ∧ (v.foldl putFreq w).n < 8 := by
  induction v generalizing w c y with
  | nil => exact ⟨by simpa [freqCodeLength, freqCodeBits] using h, hn⟩
  | cons x v ih =>
    obtain ⟨hx, hv⟩ := List.forall_mem_cons.1 hv
    have hlen := freqInstr_nbits_le x
    have hword := h.put (by omega) (encode_bits_lt (freqInstr_wf hx))
    have hrest := ih hv hword (put_n_lt (by omega))
    rw [Nat.add_assoc, Nat.add_assoc] at hrest
    rw [freqCodeLength, freqCodeBits, Nat.add_mul, Nat.mul_assoc, ← Nat.pow_add, Nat.add_comm _ c]
    exact hrest

/-- The last byte is padded with zeros. -/
theorem Holds.finish {w : FwdWriter} {c x : Nat} (h : w.Holds c x) (hn : w.n < 8) :
    le w.finish = x ∧ c ≤ 8 * w.finish.length ∧ 8 * w.finish.length < c + 8 := by
  obtain ⟨hacc, hcount, hvalue⟩ := h
  rw [FwdWriter.finish]
  split
  next hpos =>
    have hbyte : (w.acc.setWidth 8).toNat = w.acc.toNat := by
      rw [BitVec.toNat_setWidth, Nat.mod_eq_of_lt]
      exact Nat.lt_of_lt_of_le hacc (Nat.pow_le_pow_right Nat.two_pos hn.le)
    rw [le_append, le_singleton, hbyte, List.length_append, List.length_singleton]
    exact ⟨hvalue, by omega, by omega⟩
  next hzero =>
    have hempty : w.n = 0 := by omega
    rw [hempty, Nat.pow_zero, Nat.lt_one_iff] at hacc
    rw [hacc, Nat.zero_mul, Nat.add_zero] at hvalue
    exact ⟨hvalue, by omega, by omega⟩

end FwdWriter

/-- ENCODE_FREQ_CODE's bytes are the code's number, the last of them padded. -/
theorem encodeFreqCode_number {v : List Nat} (hv : ∀ x ∈ v, x ≤ 1047) :
    le (encodeFreqCode v) = freqCodeBits v ∧ freqCodeLength v ≤ 8 * (encodeFreqCode v).length
      ∧ 8 * (encodeFreqCode v).length < freqCodeLength v + 8 := by
  obtain ⟨h, hn⟩ := FwdWriter.holds_empty.putFreqs hv (by decide)
  simpa [encodeFreqCode] using h.finish hn

/-! ## The reader (R221) -/

namespace FwdReader

variable {rd : Nat → Byte} {stop : Nat}

theorem take_of_le {r : FwdReader} {k : Nat} (h : k ≤ r.n) :
    r.take k = .ok { r with acc := r.acc >>> k, n := r.n - k } := if_neg (Nat.not_lt.2 h)

theorem take_of_lt {r : FwdReader} {k : Nat} (h : r.n < k) : r.take k = .error (.err .badHeader) := if_pos h

/-- The reader has `count` bits to give up to `stop`, which make the number `value`, the next bit lowest. -/
structure Holds (rd : Nat → Byte) (stop : Nat) (r : FwdReader) (count value : Nat) : Prop where
  acc_lt : r.acc.toNat < 2 ^ r.n
  p_le : r.p ≤ stop
  count_eq : r.n + 8 * (stop - r.p) = count
  value_eq : r.acc.toNat + le (bytesAt rd r.p (stop - r.p)) * 2 ^ r.n = value

theorem holds_start (rd : Nat → Byte) (p len : Nat) :
    Holds rd (p + len) { acc := 0, n := 0, p := p } (8 * len) (le (bytesAt rd p len)) :=
  ⟨Nat.one_pos, Nat.le_add_right _ _, by simp, by simp⟩

theorem Holds.fill {r : FwdReader} {c x : Nat} (h : Holds rd stop r c x) (k : Nat) :
    Holds rd stop (r.fill rd stop k) c x := by
  induction k generalizing r with
  | zero => exact h
  | succ k ih =>
    rw [FwdReader.fill]
    split
    next hmore =>
      obtain ⟨hacc, hp, hcount, hvalue⟩ := h
      have hbyte : ((rd r.p).setWidth 32).toNat = (rd r.p).toNat := BitVec.toNat_setWidth_of_le (by decide)
      have hor := toNat_or_shiftLeft hacc (hbyte.trans_lt (rd r.p).isLt) hmore.2
      rw [hbyte] at hor
      have hsplit : stop - r.p = 1 + (stop - (r.p + 1)) := by omega
      refine ih ⟨?_, hmore.1, ?_, ?_⟩
      · rw [hor]
        exact add_mul_two_pow_lt hacc (rd r.p).isLt
      · simp only
        omega
      · rw [← hvalue, hor, hsplit, bytesAt_add, le_append, bytesAt_length, Nat.pow_add]
        simp only [bytesAt, List.range_one, List.map_cons, List.map_nil, Nat.add_zero, le_singleton]
        ring
    · exact h

theorem fill_loaded (k : Nat) (r : FwdReader) :
    stop ≤ (r.fill rd stop k).p ∨ 24 < (r.fill rd stop k).n ∨ r.n + 8 * k ≤ (r.fill rd stop k).n := by
  induction k generalizing r with
  | zero => exact .inr (.inr le_rfl)
  | succ k ih =>
    rw [fill]
    split
    · rcases ih { acc := r.acc ||| ((rd r.p).setWidth 32 <<< r.n), n := r.n + 8, p := r.p + 1 } with h | h | h
      · exact .inl h
      · exact .inr (.inl h)
      · exact .inr (.inr (by simp only at h; omega))
    · omega

/-- After `peekfill` the accumulator holds 25 bits, or every bit that is left. -/
theorem Holds.le_peekfill_n {r : FwdReader} {c x : Nat} (h : Holds rd stop r c x) :
    min 25 c ≤ (r.peekfill rd stop).n := by
  have hcount := (h.fill 4).count_eq
  have hloaded := fill_loaded (rd := rd) (stop := stop) 4 r
  rw [peekfill]
  omega

/-- A word at the low end of the reader's number stands at the low end of its accumulator. -/
theorem Holds.acc_mod {r : FwdReader} {c x k : Nat} (h : Holds rd stop r c x) (hk : k ≤ r.n) :
    r.acc.toNat % 2 ^ k = x % 2 ^ k := by
  obtain ⟨d, hd⟩ := Nat.exists_eq_add_of_le hk
  rw [← h.value_eq, hd, Nat.pow_add, Nat.mul_left_comm, Nat.add_mul_mod_self_left]

theorem Holds.take {r : FwdReader} {c x k : Nat} (h : Holds rd stop r c x) (hk : k ≤ r.n) :
    ∃ r', r.take k = .ok r' ∧ Holds rd stop r' (c - k) (x / 2 ^ k) := by
  obtain ⟨hacc, hp, hcount, hvalue⟩ := h
  have hpow : 2 ^ r.n = 2 ^ (r.n - k) * 2 ^ k := by rw [← Nat.pow_add, Nat.sub_add_cancel hk]
  have hshift : (r.acc >>> k).toNat = r.acc.toNat / 2 ^ k := by
    rw [BitVec.toNat_ushiftRight, Nat.shiftRight_eq_div_pow]
  refine ⟨_, take_of_le hk, ?_, hp, ?_, ?_⟩
  · rw [hshift, Nat.div_lt_iff_lt_mul (Nat.two_pow_pos k), ← hpow]
    exact hacc
  · simp only
    omega
  · rw [hshift, ← hvalue, hpow, ← Nat.mul_assoc, Nat.add_mul_div_right _ _ (Nat.two_pow_pos k)]

/-- A frequency value's word is decoded and taken off the low end. -/
theorem Holds.nextFreq {r : FwdReader} {c y x : Nat} (hx : x ≤ 1047)
    (h : Holds rd stop r ((encode (freqInstr x)).nbits + c)
      ((encode (freqInstr x)).bits + y * 2 ^ (encode (freqInstr x)).nbits)) :
    decodeFreqWord (r.peekfill rd stop).acc.toNat = ((encode (freqInstr x)).nbits, x)
      ∧ ∃ r', (r.peekfill rd stop).take (encode (freqInstr x)).nbits = .ok r' ∧ Holds rd stop r' c y := by
  have hlen := freqInstr_nbits_le x
  have hn := h.le_peekfill_n
  have hfilled : Holds rd stop (r.peekfill rd stop) _ _ := h.fill 4
  have hloaded : (encode (freqInstr x)).nbits ≤ (r.peekfill rd stop).n := by omega
  have hbegins : beginsWith (r.peekfill rd stop).acc.toNat (freqInstr x) := by
    rw [beginsWith, hfilled.acc_mod hloaded]
    exact beginsWith_append (freqInstr_wf hx) y
  obtain ⟨r', htake, hr'⟩ := hfilled.take hloaded
  rw [Nat.add_sub_cancel_left, Nat.add_mul_div_right _ _ (Nat.two_pow_pos _),
    Nat.div_eq_of_lt (encode_bits_lt (freqInstr_wf hx)), Nat.zero_add] at hr'
  exact ⟨decodeFreqWord_of_beginsWith hx hbegins, r', htake, hr'⟩

theorem Holds.readFreqs {v : List Nat} (hv : ∀ x ∈ v, x ≤ 1047) {r : FwdReader} {pad : Nat}
    (h : Holds rd stop r (freqCodeLength v + pad) (freqCodeBits v)) :
    ∃ r', Machine.readFreqs rd stop v.length r = .ok (v, r') ∧ Holds rd stop r' pad 0 := by
  induction v generalizing r with
  | nil => exact ⟨r, rfl, by simpa [freqCodeLength, freqCodeBits] using h⟩
  | cons x v ih =>
    obtain ⟨hx, hv⟩ := List.forall_mem_cons.1 hv
    rw [freqCodeLength, freqCodeBits, Nat.add_assoc] at h
    obtain ⟨hword, r₁, htake, h₁⟩ := h.nextFreq hx
    obtain ⟨r', hrest, h'⟩ := ih hv h₁
    refine ⟨r', ?_, h'⟩
    rw [List.length_cons, Machine.readFreqs, hword]
    simp only [htake, hrest]

end FwdReader

theorem freqCodeEnd_eq_ok {fr : FwdReader} {stop : Nat} (hn : fr.n < 8) (hp : fr.p = stop) :
    freqCodeEnd fr stop = .ok () := by
  rw [freqCodeEnd, if_neg (by omega)]

theorem freqCodeEnd_eq_error {fr : FwdReader} {stop : Nat} (h : ¬ (fr.n < 8 ∧ fr.p = stop)) :
    freqCodeEnd fr stop = .error (.err .badHeader) := by
  rw [freqCodeEnd, if_pos (by omega)]

/-- The reader of a written code ends inside the last byte. -/
theorem readFreqs_encodeFreqCode {v : List Nat} (hv : ∀ x ∈ v, x ≤ 1047) {rd : Nat → Byte} {p : Nat}
    (hrd : ∀ i, i < (encodeFreqCode v).length → (encodeFreqCode v)[i]? = some (rd (p + i))) :
    ∃ fr, readFreqs rd (p + (encodeFreqCode v).length) v.length { acc := 0, n := 0, p := p } = .ok (v, fr)
      ∧ freqCodeEnd fr (p + (encodeFreqCode v).length) = .ok () := by
  obtain ⟨hbits, hle, hlt⟩ := encodeFreqCode_number hv
  obtain ⟨pad, hpad⟩ := Nat.exists_eq_add_of_le hle
  have hstart := FwdReader.holds_start rd p (encodeFreqCode v).length
  rw [bytesAt_of_getElem? hrd, hbits, hpad] at hstart
  obtain ⟨fr, hread, -, hp, hcount, -⟩ := hstart.readFreqs hv
  exact ⟨fr, hread, freqCodeEnd_eq_ok (by omega) (by omega)⟩

/-! ## The step after the last value (R384, R364) -/

theorem step_of_freqEnd {s : State} (hm : s.mover = .core) (hb : s.isBusy) (hs : s.seq = .dec .freqCode)
    (hall : 360 ≤ s.work.freqVals.length) : step s = decFreqEnd s.beginTurn := by
  rw [step_of_core hm, coreTurn_freqCode (s := s.beginTurn) hb hs, fetchFreq, State.beginTurn_work,
    State.beginWork_freqVals, if_neg (Nat.not_lt.2 hall), Fetched.run_result]

end Sys2Proof.Machine

open Sys2Proof.Machine

/-- Settles O45: each word is the low end of the number that the code's bytes make, and fewer than 8 bits of padding
are left after the last; the step after the 360th value is the code's end check. -/
theorem frequencyCodeRoundTrip : Obligations.FrequencyCodeRoundTrip := by
  refine ⟨fun v rd p hv hrd => readFreqs_encodeFreqCode hv hrd, fun s hm hb hs hall => ?_⟩
  have hfr : s.beginTurn.work.fr = s.work.fr := s.beginWork_fr
  have hvals : s.beginTurn.work.freqVals = s.work.freqVals := s.beginWork_freqVals
  rw [step_of_freqEnd hm hb hs hall, decFreqEnd, hfr, hvals]
  refine ⟨fun hopen => ?_, fun ⟨hn, hp⟩ => ?_⟩
  · rw [freqCodeEnd_eq_error (stop := s.beginTurn.litStart) hopen, State.andThen_err]
  · rw [freqCodeEnd_eq_ok (stop := s.beginTurn.litStart) hn hp, State.andThen_ok]
    rfl

end

section
/-! What a block start and a code word do: each parse at the sizes and counts that decide it (R371, R364, R390, R391),
and what DISPATCH or DECODE_FREQ_CODE does with its answer (R451 to R454, R384). -/

namespace Sys2Proof.Machine

variable {rd : Nat → Byte} {avail : Nat}

/-! ## Uncompressed and delegated blocks (R390, R391) -/

theorem parseRaw_of_whole (hhdr : 8 ≤ avail) (hdata : rdU32 rd 4 ≤ avail - 8) :
    parseRaw rd avail = .ok (rdU32 rd 4) := by
  rw [parseRaw, if_neg (Nat.not_lt.2 hhdr), if_neg (Nat.not_lt.2 hdata)]

theorem parseRaw_of_cut (h : avail < 8 ∨ avail - 8 < rdU32 rd 4) :
    parseRaw rd avail = .error (.err .srcExhausted) := by
  rw [parseRaw, ← ite_or, if_pos h]

theorem parseDelegated_of_whole (hhdr : 12 ≤ avail) (hpayload : rdU32 rd 8 ≤ avail - 12) :
    parseDelegated rd avail = .ok (rdU32 rd 4, rdU32 rd 8) := by
  rw [parseDelegated, if_neg (Nat.not_lt.2 hhdr), if_neg (Nat.not_lt.2 hpayload)]

theorem parseDelegated_of_cut (h : avail < 12 ∨ avail - 12 < rdU32 rd 8) :
    parseDelegated rd avail = .error (.err .srcExhausted) := by
  rw [parseDelegated, ← ite_or, if_pos h]

/-- R454: only an answer of the block's raw count is accepted. -/
theorem State.startDelegated_delegated (s : State) (history payload : List Byte) (nRaw nPay : Nat) :
    s.startDelegated nPay (delegated history payload nRaw) =
      match Config.delegateDecode history payload nRaw with
      | some r =>
        if r.length = nRaw then
          { s with
            dec := { s.dec with
              copyBuf := r, copyIdx := 0, blkEnd := s.dec.blkStart + 12 + nPay, phase := .inDelegatedCopy }
            seq := .dec .run }
        else s.raiseErr .delegateFail
      | none => s.raiseErr .delegateFail := by
  unfold delegated
  cases Config.delegateDecode history payload nRaw with
  | none => rfl
  | some r => by_cases hr : r.length = nRaw <;> simp [hr, startDelegated]

/-! ## Plain headers (R371) -/

theorem take_drop_map_range {α : Type} (f : Nat → α) {a n total : Nat} (h : a + n ≤ total) :
    (((List.range total).map f).drop a).take n = (List.range n).map fun i => f (a + i) :=
  List.ext_getElem (by simp; omega) fun i _ _ => by simp

/-- The fields of R156, each at its offset. -/
def plainHeader (rd : Nat → Byte) : Header :=
  { nRaw := rdU32 rd 4, nPayload := rdU32 rd 8, nLiterals := rdU32 rd 12, nMatches := rdU32 rd 16
    nLitPayload := rdU32 rd 20, nLmdPayload := rdU32 rd 24
    literalBits := sext32 (rdU32 rd 28), lmdBits := sext32 (rdU32 rd 40)
    litState0 := rdU16 rd 32, litState1 := rdU16 rd 34, litState2 := rdU16 rd 36, litState3 := rdU16 rd 38
    lState := rdU16 rd 44, mState := rdU16 rd 46, dState := rdU16 rd 48
    lFreq := (List.range 20).map fun i => rdU16 rd (50 + 2 * i)
    mFreq := (List.range 20).map fun i => rdU16 rd (90 + 2 * i)
    dFreq := (List.range 64).map fun i => rdU16 rd (130 + 2 * i)
    litFreq := (List.range 256).map fun i => rdU16 rd (258 + 2 * i)
    hdrSize := 772 }

theorem parseV1_of_short (h : avail < 772) : parseV1 rd avail = .error (.err .srcExhausted) := by
  rw [parseV1, if_pos h]

theorem parseV1_of_badSum (h : 772 ≤ avail) (hsum : rdU32 rd 8 ≠ rdU32 rd 20 + rdU32 rd 24) :
    parseV1 rd avail = .error (.err .badHeader) := by
  rw [parseV1, if_neg (Nat.not_lt.2 h)]
  exact if_pos hsum

theorem parseV1_of_whole (h : 772 ≤ avail) (hsum : rdU32 rd 8 = rdU32 rd 20 + rdU32 rd 24) :
    parseV1 rd avail = .ok (plainHeader rd) := by
  have freqs (a n off : Nat) (hoff : 50 + 2 * a = off) (htotal : a + n ≤ 360) :
      (((List.range 360).map fun i => rdU16 rd (50 + 2 * i)).drop a).take n
        = (List.range n).map fun i => rdU16 rd (off + 2 * i) := by
    rw [take_drop_map_range _ htotal, ← hoff]
    simp only [Nat.mul_add, Nat.add_assoc]
  rw [parseV1, if_neg (Nat.not_lt.2 h)]
  refine (if_neg (not_not.2 hsum)).trans (congrArg Except.ok ?_)
  rw [Header.withFreqs, plainHeader, ← freqs 0 20 50 rfl (by decide), ← freqs 20 20 90 rfl (by decide),
    ← freqs 40 64 130 rfl (by decide), ← freqs 104 256 258 rfl (by decide), List.drop_zero]

/-! ## Packed headers (R364) -/

theorem parseV2Fixed_hdrSize (rd : Nat → Byte) : (parseV2Fixed rd).hdrSize = rdU64 rd 24 % 2 ^ 32 := rfl

theorem parseV2_of_short (h : avail < 32) : parseV2 rd avail = .error (.err .srcExhausted) := by
  rw [parseV2, if_pos h]

theorem parseV2_of_smallSize (h : 32 ≤ avail) (hsize : rdU64 rd 24 % 2 ^ 32 < 32) :
    parseV2 rd avail = .error (.err .badHeader) := by
  rw [← parseV2Fixed_hdrSize] at hsize
  rw [parseV2, if_neg (Nat.not_lt.2 h)]
  exact if_pos hsize

theorem parseV2_of_cut (h : 32 ≤ avail) (hsize : 32 ≤ rdU64 rd 24 % 2 ^ 32) (hcut : avail < rdU64 rd 24 % 2 ^ 32) :
    parseV2 rd avail = .error (.err .srcExhausted) := by
  rw [← parseV2Fixed_hdrSize] at hsize hcut
  rw [parseV2, if_neg (Nat.not_lt.2 h)]
  exact (if_neg (Nat.not_lt.2 hsize)).trans (if_pos hcut)

theorem parseV2_of_whole (hsize : 32 ≤ rdU64 rd 24 % 2 ^ 32) (h : rdU64 rd 24 % 2 ^ 32 ≤ avail) :
    parseV2 rd avail = .ok (parseV2Fixed rd) := by
  rw [← parseV2Fixed_hdrSize] at hsize h
  rw [parseV2, if_neg (Nat.not_lt.2 (hsize.trans h))]
  exact (if_neg (Nat.not_lt.2 hsize)).trans (if_neg (Nat.not_lt.2 h))

/-! ## Code words (R384) -/

/-- A code word takes its row's bits and appends its row's value (R160). -/
theorem exec_freqWord {i : Instr} (hi : i.space = .freqCode) (s : State) :
    exec i s = s.takeFreq (encode i).nbits (freqValue i) := by
  cases i with
  | freq0 | freq1 | freq2 | freq3 | freq4 | freq5 | freq6 | freq7 | freq8to23 | freq24to1047 => rfl
  | _ => cases hi

end Sys2Proof.Machine

open Sys2Proof Sys2Proof.Machine

/-- Settles O23: PARSE_RAW answers the count exactly where the whole block is there. -/
theorem rawBlockStartsItsCopy : Obligations.RawBlockStartsItsCopy := by
  intro s
  refine ⟨fun hhdr hdata => ?_, fun hcut => ?_⟩
  · rw [exec, execBlockRaw, parseRaw_of_whole hhdr hdata, State.andThen_ok]
  · rw [exec, execBlockRaw, parseRaw_of_cut hcut, State.andThen_err]

/-- Settles O24: PARSE_V1 by its two checks; the four frequency tables are slices of its 360 values. -/
theorem plainHeaderIsParsed : Obligations.PlainHeaderIsParsed := by
  intro s
  refine ⟨fun h => ?_, fun h hsum => ?_, fun h hsum => ?_⟩
  · rw [exec, execBlockV1, parseV1_of_short h, State.andThen_err]
  · rw [exec, execBlockV1, parseV1_of_badSum h hsum, State.andThen_err]
  · rw [exec, execBlockV1, parseV1_of_whole h hsum, State.andThen_ok]
    rfl

/-- Settles O25: PARSE_V2's fixed part by its three checks; a bit field is a quotient's remainder. -/
theorem packedHeaderIsParsed : Obligations.PackedHeaderIsParsed := by
  intro s
  refine ⟨fun h => ?_, fun h hsize => ?_, fun h hsize hcut => ?_, fun hsize h => ?_⟩
  · rw [exec, execBlockV2, parseV2_of_short h, State.andThen_err]
  · rw [exec, execBlockV2, parseV2_of_smallSize h hsize, State.andThen_err]
  · rw [exec, execBlockV2, parseV2_of_cut h hsize hcut, State.andThen_err]
  · rw [exec, execBlockV2, parseV2_of_whole hsize h, State.andThen_ok]
    simp only [parseV2Fixed, field_eq_div_mod, Nat.pow_zero, Nat.div_one, Nat.reducePow]

/-- Settles O26: PARSE_DELEGATED answers the counts exactly where the whole block is there, and the codec's answer is
held to the raw count. -/
theorem delegatedBlockAsksTheCodec : Obligations.DelegatedBlockAsksTheCodec := by
  intro s
  refine ⟨fun hcut => ?_, fun hhdr hpayload => ?_⟩
  · rw [exec, execBlockLzvn, parseDelegated_of_cut hcut, State.andThen_err]
  · rw [exec, execBlockLzvn, parseDelegated_of_whole hhdr hpayload, State.andThen_ok]
    exact congrArg Host.Outcome.next (s.startDelegated_delegated _ _ _ _)

/-- Settles O27: each code word is one `take` of its own length. -/
theorem codeWordsAppendTheirValue : Obligations.CodeWordsAppendTheirValue := by
  intro i s _ hi
  rw [exec_freqWord hi, State.takeFreq]
  refine ⟨fun hle => ?_, fun hlt => ?_⟩
  · rw [FwdReader.take_of_le hle, State.andThen_ok]
  · rw [FwdReader.take_of_lt hlt, State.andThen_err]

end

section
/-! CHECK_HEADER and the step that does it (R392, R250, R444). -/

namespace Sys2Proof.Machine

/-! ## The checks of R392 -/

theorem checkFreq_iff {freq : List Nat} {n N : Nat} :
    checkFreq freq n N = true ↔ freq.length = n ∧ (∀ f ∈ freq, f ≤ N) ∧ freq.sum = N := by
  simp [checkFreq, and_assoc]

/-- The checks that raise BAD_HEADER. -/
abbrev Header.CountsOk (h : Header) : Prop :=
  h.nLiterals ≤ 40000 ∧ h.nLiterals % 4 = 0 ∧ h.nMatches ≤ 10000
    ∧ -7 ≤ h.literalBits ∧ h.literalBits ≤ 0 ∧ -7 ≤ h.lmdBits ∧ h.lmdBits ≤ 0

/-- The checks that raise BAD_STATE. -/
abbrev Header.StatesOk (h : Header) : Prop :=
  h.litState0 < 1024 ∧ h.litState1 < 1024 ∧ h.litState2 < 1024 ∧ h.litState3 < 1024
    ∧ h.lState < 64 ∧ h.mState < 64 ∧ h.dState < 256

/-- The checks that raise BAD_FREQ. -/
abbrev Header.TablesOk (h : Header) : Prop :=
  checkFreq h.lFreq 20 64 = true ∧ checkFreq h.mFreq 20 64 = true ∧ checkFreq h.dFreq 64 256 = true
    ∧ checkFreq h.litFreq 256 1024 = true

theorem Header.tablesOk_iff {h : Header} :
    h.TablesOk ↔ (h.lFreq.length = 20 ∧ (∀ f ∈ h.lFreq, f ≤ 64) ∧ h.lFreq.sum = 64)
      ∧ (h.mFreq.length = 20 ∧ (∀ f ∈ h.mFreq, f ≤ 64) ∧ h.mFreq.sum = 64)
      ∧ (h.dFreq.length = 64 ∧ (∀ f ∈ h.dFreq, f ≤ 256) ∧ h.dFreq.sum = 256)
      ∧ (h.litFreq.length = 256 ∧ (∀ f ∈ h.litFreq, f ≤ 1024) ∧ h.litFreq.sum = 1024) := by
  simp only [TablesOk, checkFreq_iff]

/-- CHECK_HEADER raises one code for each group of checks, the groups in order. -/
theorem checkHeader_eq (h : Header) (avail : Nat) :
    checkHeader h avail =
      if ¬ h.CountsOk then .error (.err .badHeader)
      else if ¬ h.StatesOk then .error (.err .badState)
      else if ¬ h.TablesOk then .error (.err .badFreq)
      else if avail < h.hdrSize + h.nPayload then .error (.err .srcExhausted)
      else .ok () := by
  unfold checkHeader
  rw [← ite_or, ← ite_or, ← ite_or, ← ite_or, ← ite_or]
  refine if_congr ?_ rfl (if_congr ?_ rfl (if_congr ?_ rfl rfl))
  · simp only [Header.CountsOk, Config.literalsPerBlock, Config.matchesPerBlock]
    omega
  · simp only [Header.StatesOk, Config.litStates, Config.lStates, Config.mStates, Config.dStates]
    omega
  · simp only [Header.TablesOk, Bool.not_eq_true', not_and_or, Bool.not_eq_true, or_assoc]

section Checks
variable {h : Header} {avail : Nat}

theorem checkHeader_of_badCounts (hc : ¬ h.CountsOk) : checkHeader h avail = .error (.err .badHeader) := by
  rw [checkHeader_eq, if_pos hc]

theorem checkHeader_of_badStates (hc : h.CountsOk) (hs : ¬ h.StatesOk) :
    checkHeader h avail = .error (.err .badState) := by
  rw [checkHeader_eq, if_neg (not_not.2 hc), if_pos hs]

theorem checkHeader_of_badTables (hc : h.CountsOk) (hs : h.StatesOk) (ht : ¬ h.TablesOk) :
    checkHeader h avail = .error (.err .badFreq) := by
  rw [checkHeader_eq, if_neg (not_not.2 hc), if_neg (not_not.2 hs), if_pos ht]

theorem checkHeader_of_short (hc : h.CountsOk) (hs : h.StatesOk) (ht : h.TablesOk)
    (ha : ¬ h.hdrSize + h.nPayload ≤ avail) : checkHeader h avail = .error (.err .srcExhausted) := by
  rw [checkHeader_eq, if_neg (not_not.2 hc), if_neg (not_not.2 hs), if_neg (not_not.2 ht), if_pos (Nat.not_le.1 ha)]

theorem checkHeader_ok_iff :
    checkHeader h avail = .ok () ↔ h.CountsOk ∧ h.StatesOk ∧ h.TablesOk ∧ h.hdrSize + h.nPayload ≤ avail := by
  rw [checkHeader_eq]
  split_ifs with hc hs ht ha
  · exact iff_of_false nofun fun ⟨_, _, _, hle⟩ => Nat.not_le.2 ha hle
  · exact iff_of_true rfl ⟨hc, hs, ht, Nat.not_lt.1 ha⟩
  · exact iff_of_false nofun fun ⟨_, _, htables, _⟩ => ht htables
  · exact iff_of_false nofun fun ⟨_, hstates, _⟩ => hs hstates
  · exact iff_of_false nofun fun ⟨hcounts, _⟩ => hc hcounts

end Checks

/-! ## The block-start step (R444) -/

theorem step_of_headerParsed {s : State} (hm : s.mover = .core) (hb : s.isBusy) (hs : s.seq = .dec .blockStart) :
    step s = decBlockStart s.beginTurn := by
  rw [step_of_core hm, coreTurn, if_pos (show s.beginTurn.isBusy from hb), State.beginTurn_seq, hs, Fetched.run_result]

section BlockStart
variable {s : State}

theorem decBlockStart_of_badHeader {c : ErrCode} (h : checkHeader s.dec.hdr s.avail = .error (.err c)) :
    decBlockStart s = .next (s.raiseErr c) := by
  rw [decBlockStart, h, State.andThen_err]

theorem decBlockStart_of_badReader {c : ErrCode} (h : checkHeader s.dec.hdr s.avail = .ok ())
    (hr : BackReader.init s.decByte s.litStart s.lmdStart s.dec.hdr.literalBits = .error (.err c)) :
    decBlockStart s = .next (s.raiseErr c) := by
  rw [decBlockStart, h, State.andThen_ok, hr, State.andThen_err]

theorem decBlockStart_of_ok {br : BackReader} (h : checkHeader s.dec.hdr s.avail = .ok ())
    (hr : BackReader.init s.decByte s.litStart s.lmdStart s.dec.hdr.literalBits = .ok br) :
    decBlockStart s = .next { s with
      dec := { s.dec with
        phase := .inLiteralStream
        dtLit := buildLiteralTable s.dec.hdr.litFreq
        dtL := buildValueTable 64 symL s.dec.hdr.lFreq
        dtM := buildValueTable 64 symM s.dec.hdr.mFreq
        dtD := buildValueTable 256 symD s.dec.hdr.dFreq
        dlit := [], blkEnd := s.lmdEnd }
      work := { s.work with
        br := br
        lanes := { s0 := s.dec.hdr.litState0, s1 := s.dec.hdr.litState1,
                   s2 := s.dec.hdr.litState2, s3 := s.dec.hdr.litState3 } }
      seq := .dec .literals } := by
  rw [decBlockStart, h, State.andThen_ok, hr, State.andThen_ok]

end BlockStart

end Sys2Proof.Machine

open Sys2Proof.Machine

/-- Settles O28: the checks in the groups that share a code; the step does them, then starts the literal reader. -/
theorem headerChecksComeInOrder : Obligations.HeaderChecksComeInOrder := by
  refine ⟨fun h avail => ?_, fun s hm hb hs => ?_⟩
  · simp only [← Header.tablesOk_iff]
    exact ⟨checkHeader_ok_iff, checkHeader_of_badCounts, checkHeader_of_badStates, checkHeader_of_badTables,
      checkHeader_of_short⟩
  · rw [step_of_headerParsed hm hb hs]
    exact ⟨fun c hc => decBlockStart_of_badHeader (s := s.beginTurn) hc, fun hok =>
      ⟨fun c hc => decBlockStart_of_badReader (s := s.beginTurn) hok hc,
        fun br hbr => decBlockStart_of_ok (s := s.beginTurn) hok hbr⟩⟩

end

section
/-! The packed header as PACK_V2 writes it (R380), read back field by field (R364), and the run of steps that appends
a block to the stream (R385, R520). -/

namespace Sys2Proof.Machine

/-! ## Bit fields put side by side (R157) -/

/-- Three 20-bit fields and one of 3 bits at bit 60. -/
theorem countWord_fields {a b c d : Nat} (ha : a < 2 ^ 20) (hb : b < 2 ^ 20) (hc : c < 2 ^ 20) (hd : d < 2 ^ 3) :
    let w := a ||| b <<< 20 ||| c <<< 40 ||| d <<< 60
    w < 2 ^ 64 ∧ field w 0 20 = a ∧ field w 20 20 = b ∧ field w 40 20 = c ∧ field w 60 3 = d := by
  rw [or_shiftLeft_eq_add ha, or_shiftLeft_eq_add (hi := c) (by omega), or_shiftLeft_eq_add (by omega)]
  simp only [field_eq_div_mod]
  omega

/-- Four 10-bit fields, one of 20 bits and one of 3 bits at bit 60. -/
theorem literalWord_fields {a b c d e f : Nat} (ha : a < 2 ^ 10) (hb : b < 2 ^ 10) (hc : c < 2 ^ 10) (hd : d < 2 ^ 10)
    (he : e < 2 ^ 20) (hf : f < 2 ^ 3) :
    let w := a ||| b <<< 10 ||| c <<< 20 ||| d <<< 30 ||| e <<< 40 ||| f <<< 60
    w < 2 ^ 64 ∧ field w 0 10 = a ∧ field w 10 10 = b ∧ field w 20 10 = c ∧ field w 30 10 = d
      ∧ field w 40 20 = e ∧ field w 60 3 = f := by
  rw [or_shiftLeft_eq_add ha, or_shiftLeft_eq_add (hi := c) (by omega), or_shiftLeft_eq_add (hi := d) (by omega),
    or_shiftLeft_eq_add (hi := e) (by omega), or_shiftLeft_eq_add (by omega)]
  simp only [field_eq_div_mod]
  omega

/-- A 32-bit field and three of 10 bits. -/
theorem sizeWord_fields {a b c d : Nat} (ha : a < 2 ^ 32) (hb : b < 2 ^ 10) (hc : c < 2 ^ 10) (hd : d < 2 ^ 10) :
    let w := a ||| b <<< 32 ||| c <<< 42 ||| d <<< 52
    w < 2 ^ 64 ∧ field w 0 32 = a ∧ field w 32 10 = b ∧ field w 42 10 = c ∧ field w 52 10 = d := by
  rw [or_shiftLeft_eq_add ha, or_shiftLeft_eq_add (hi := c) (by omega), or_shiftLeft_eq_add (by omega)]
  simp only [field_eq_div_mod]
  omega

/-- The stored bits field fits 3 bits and gives the bits back. -/
theorem biased_fits {bits : Int} (hlo : -7 ≤ bits) (hhi : bits ≤ 0) :
    biased bits < 2 ^ 3 ∧ (biased bits : Int) - 7 = bits := by
  rw [biased]
  omega

/-! ## Numbers at their offsets -/

/-- A number that fits its n bytes is read back from the offset it was written at. -/
theorem le_bytesAt_leBytes {bs pre post : List Byte} {v n o : Nat} (hbs : bs = pre ++ (leBytes v n ++ post))
    (ho : pre.length = o) (hv : v < 256 ^ n) : le (bytesAt (fun i => bs.getD i 0) o n) = v := by
  have hbytes : bytesAt (fun i => bs.getD i 0) o (leBytes v n).length = leBytes v n :=
    bytesAt_of_getElem? fun i hi => by
      have hread : bs[o + i]? = (leBytes v n)[i]? := by
        rw [hbs, ← ho, List.getElem?_append_right (Nat.le_add_right _ _), Nat.add_sub_cancel_left,
          List.getElem?_append_left hi]
      rw [List.getD, hread, List.getElem?_eq_getElem hi, Option.getD_some]
  rw [leBytes_length] at hbytes
  rw [hbytes, le_leBytes, Nat.mod_eq_of_lt hv]

/-- The magic, the raw count, three words and the frequency code, at the offsets R157 gives them. -/
theorem packedWords_read {m r w0 w1 w2 : Nat} {code bs : List Byte}
    (hbs : bs = leBytes m 4 ++ leBytes r 4 ++ leBytes w0 8 ++ leBytes w1 8 ++ leBytes w2 8 ++ code)
    (hr : r < 2 ^ 32) (h0 : w0 < 2 ^ 64) (h1 : w1 < 2 ^ 64) (h2 : w2 < 2 ^ 64) :
    let rd := fun o => bs.getD o 0
    rdU32 rd 4 = r ∧ rdU64 rd 8 = w0 ∧ rdU64 rd 16 = w1 ∧ rdU64 rd 24 = w2 := by
  simp only [List.append_assoc] at hbs
  refine ⟨le_bytesAt_leBytes hbs (leBytes_length _ _) hr, ?_, ?_, ?_⟩
  · rw [← List.append_assoc] at hbs
    exact le_bytesAt_leBytes hbs (by simp) h0
  · rw [← List.append_assoc, ← List.append_assoc] at hbs
    exact le_bytesAt_leBytes hbs (by simp) h1
  · rw [← List.append_assoc, ← List.append_assoc, ← List.append_assoc] at hbs
    exact le_bytesAt_leBytes hbs (by simp) h2

/-! ## The header (R380, R364) -/

/-- Every field of a header fits the width R157 gives it. -/
structure Header.Packs (h : Header) : Prop where
  nRaw : h.nRaw < 2 ^ 32
  nLiterals : h.nLiterals < 2 ^ 20
  nLitPayload : h.nLitPayload < 2 ^ 20
  nMatches : h.nMatches < 2 ^ 20
  nLmdPayload : h.nLmdPayload < 2 ^ 20
  literalBits : -7 ≤ h.literalBits ∧ h.literalBits ≤ 0
  lmdBits : -7 ≤ h.lmdBits ∧ h.lmdBits ≤ 0
  lanes : h.litState0 < 2 ^ 10 ∧ h.litState1 < 2 ^ 10 ∧ h.litState2 < 2 ^ 10 ∧ h.litState3 < 2 ^ 10
  states : h.lState < 2 ^ 10 ∧ h.mState < 2 ^ 10 ∧ h.dState < 2 ^ 10

theorem parseV2Fixed_packV2With {h : Header} (hp : h.Packs) {code : List Byte} (hcode : code.length < 2 ^ 31) :
    parseV2Fixed (fun o => (packV2With code h).getD o 0)
      = { h with
          nPayload := h.nLitPayload + h.nLmdPayload, hdrSize := 32 + code.length
          lFreq := [], mFreq := [], dFreq := [], litFreq := [] } := by
  obtain ⟨hlit, hlitBits⟩ := biased_fits hp.literalBits.1 hp.literalBits.2
  obtain ⟨hlmd, hlmdBits⟩ := biased_fits hp.lmdBits.1 hp.lmdBits.2
  obtain ⟨hs0, hs1, hs2, hs3⟩ := hp.lanes
  obtain ⟨hl, hm, hd⟩ := hp.states
  obtain ⟨h0, hLit, hLitPay, hMatch, hLitB⟩ := countWord_fields hp.nLiterals hp.nLitPayload hp.nMatches hlit
  obtain ⟨h1, hS0, hS1, hS2, hS3, hLmdPay, hLmdB⟩ := literalWord_fields hs0 hs1 hs2 hs3 hp.nLmdPayload hlmd
  obtain ⟨h2, hSize, hL, hM, hD⟩ := sizeWord_fields (a := 32 + code.length) (by omega) hl hm hd
  obtain ⟨hraw, hw0, hw1, hw2⟩ := packedWords_read (bs := packV2With code h) rfl hp.nRaw h0 h1 h2
  simp only [parseV2Fixed, hraw, hw0, hw1, hw2, hLit, hLitPay, hMatch, hLitB, hS0, hS1, hS2, hS3, hLmdPay, hLmdB,
    hSize, hL, hM, hD, hlitBits, hlmdBits]

theorem packV2With_magic (code : List Byte) (h : Header) : (packV2With code h).take 4 = leBytes 0x32787662 4 := by
  simp only [packV2With, List.append_assoc]
  exact List.take_left' (leBytes_length _ _)

theorem packV2With_code (code : List Byte) (h : Header) : (packV2With code h).drop 32 = code := by
  rw [packV2With]
  exact List.drop_left' (by simp)

/-! ## The run that ends a block (R385, R520) -/

/-- The working state when the first `i` frequency values are coded. -/
def Encoder.packAt (e : Encoder) (i : Nat) : Encoder :=
  { e with fw := (e.hdr.freqs.take i).foldl FwdWriter.putFreq .empty, idx := i }

/-- The working state when the block's bytes are in the stream. -/
def Encoder.packed (e : Encoder) : Encoder :=
  { e.openBlock with
    out := e.out ++ packV2With e.fw.finish e.hdr ++ e.litPayload ++ e.lmdPayload }

theorem encPack_value {s : State} {v : Nat} (h : s.enc.hdr.freqs[s.enc.idx]? = some v) :
    encPack s = .next (s.encGoto .pack { s.enc with fw := s.enc.fw.putFreq v, idx := s.enc.idx + 1 }) := by
  simp only [encPack, h]

theorem encPack_last {s : State} (h : s.enc.hdr.freqs[s.enc.idx]? = none) :
    encPack s = .next (s.encGoto .fill s.enc.packed) := by
  simp only [encPack, h, Encoder.packed]

/-- PACK_V2 with `k` frequency values to go. -/
structure PackLoop (s₀ : State) (k : Nat) (s : State) : Prop extends State.Encoding s₀ s .pack where
  enc : ∃ i, i + k = s₀.enc.hdr.freqs.length ∧ s.enc = s₀.enc.packAt i

theorem PackLoop.step {s₀ s : State} {k : Nat} (h : PackLoop s₀ (k + 1) s) :
    ∃ t, Machine.step s = .next t ∧ PackLoop s₀ k t := by
  obtain ⟨hbase, i, hi, henc⟩ := h
  have hlt : i < s₀.enc.hdr.freqs.length := by omega
  have hvalue : s.beginTurn.enc.hdr.freqs[s.beginTurn.enc.idx]? = some s₀.enc.hdr.freqs[i] := by
    rw [State.beginTurn_enc, henc]
    exact List.getElem?_eq_getElem hlt
  refine ⟨_, hbase.step.trans (encPack_value hvalue), hbase.goto _ _, i + 1, by omega, ?_⟩
  rw [State.encGoto_enc, State.beginTurn_enc, henc, Encoder.packAt, Encoder.packAt, List.take_add_one,
    List.getElem?_eq_getElem hlt, List.foldl_append]
  rfl

theorem PackLoop.last {s₀ s : State} (h : PackLoop s₀ 0 s) :
    ∃ u, Machine.step s = .next u ∧ State.Encoding s₀ u .fill
      ∧ u.enc = (s₀.enc.packAt s₀.enc.hdr.freqs.length).packed := by
  obtain ⟨hbase, i, rfl, henc⟩ := h
  have hnone : s.beginTurn.enc.hdr.freqs[s.beginTurn.enc.idx]? = none := by
    rw [State.beginTurn_enc, henc]
    exact List.getElem?_eq_none le_rfl
  exact ⟨_, hbase.step.trans (encPack_last hnone), hbase.goto _ _, by rw [← henc]; rfl⟩

end Sys2Proof.Machine

open Sys2Proof.Machine

/-- Settles O46: each field is read back from the word it was put in; the writer's code is that of the frequency values
below `idx`, and after the last of them the block's bytes follow. -/
theorem packedHeaderRoundTrip : Obligations.PackedHeaderRoundTrip := by
  refine ⟨fun h code hraw hlits hlitPay hmatches hlmdPay hlit hlit' hlmd hlmd' hs0 hs1 hs2 hs3 hl hm hd hcode =>
    ⟨parseV2Fixed_packV2With ⟨hraw, hlits, hlitPay, hmatches, hlmdPay, ⟨hlit, hlit'⟩, ⟨hlmd, hlmd'⟩,
      ⟨hs0, hs1, hs2, hs3⟩, ⟨hl, hm, hd⟩⟩ hcode, packV2With_magic code h, packV2With_code code h⟩,
    fun s hturns hb hs hidx hfw => ?_⟩
  have hstart : s.enc = s.enc.packAt 0 := by rw [Encoder.packAt, List.take_zero, List.foldl_nil, ← hfw, ← hidx]
  obtain ⟨u, hrun, hu, henc⟩ := State.runSteps_of_loop (fun _ => PackLoop.last) (fun _ _ => PackLoop.step)
    (k := s.enc.hdr.freqs.length) (s := s) ⟨⟨hturns, hb, hs, rfl, rfl⟩, 0, Nat.zero_add _, hstart⟩
  have hcode : (s.enc.packAt s.enc.hdr.freqs.length).fw.finish = encodeFreqCode s.enc.hdr.freqs := by
    rw [Encoder.packAt, List.take_length, encodeFreqCode]
  refine ⟨u, hrun, hu.seq, hu.mem, hu.csr, ?_, ?_⟩
  · rw [henc, Encoder.packed, hcode]
    rfl
  · rw [henc]
    rfl

end

section
/-! How a decode command starts, and ends at an end-of-stream block (R430, R431, R450). -/

namespace Sys2Proof.Machine

theorem State.withBuffers_of_ok {s : State} {src dst : Region} (h : s.bufferRefusal src dst = none) (r : Result) :
    s.withBuffers src dst r = r := by
  rw [State.withBuffers, h]

theorem execDecodeResume_of_invalid {s : State} (hb : ¬ s.isBusy) (hv : s.dec.valid = false) :
    execDecodeResume s = .next (s.cmdErr .illegalCommand) := by
  rw [execDecodeResume, State.issue_idle hb, if_pos (by rw [hv]; rfl)]

/-- The end of a decode for whose destination HOST has not raced (R450, R460). -/
theorem State.endDecode_of_unraced {s : State} (h : s.racedDst = []) :
    s.endDecode = { s with
      csr := { s.csr with
        state := .done, errCode := .none, decPhase := .done, cmdDone := true
        result := BitVec.ofNat 32 s.work.dstPos, outTotal := BitVec.ofNat 64 s.dec.outTotal
        srcPos := BitVec.ofNat 32 s.dec.srcPos }
      dec := { s.dec with phase := .done, valid := false }
      seq := .rest, work := .empty, enc := .empty } := by
  simp only [endDecode, endRun, endCommand, setResult, loadCounters, setValid, setPhase, h, Memory.settle_nil]

end Sys2Proof.Machine

open Sys2Proof.Machine

/-- Settles O17: on sizes and buffers that are in order the command is the start of a session. -/
theorem decodeStartsASession : Obligations.DecodeStartsASession := by
  rintro s hb ⟨hsrc, hdst, hbuffers⟩
  exact (execDecode_of_sizes hb hsrc hdst).trans (State.withBuffers_of_ok hbuffers _)

/-- Settles O18: without a session the command is rejected; on a destination that is in order it goes on. -/
theorem resumeContinuesTheSession : Obligations.ResumeContinuesTheSession := by
  intro s hb
  refine ⟨fun hv => execDecodeResume_of_invalid hb hv, fun hv hdst hbuffers => ?_⟩
  exact (execDecodeResume_of_sizes hb hv hdst).trans (State.withBuffers_of_ok hbuffers _)

/-- Settles O22: with no raced byte to settle, the end of the decode leaves host memory as it is. -/
theorem endOfStreamEndsTheDecode : Obligations.EndOfStreamEndsTheDecode := by
  intro s hraced
  exact congrArg Host.Outcome.next (State.endDecode_of_unraced hraced)

end

section
/-! One step of RUN outside a block start: an uncompressed copy, and that the session's part in it does not depend on the
destination (R433, R440, R461). -/

namespace Sys2Proof.Machine

variable {s : State}

/-! ## The uncompressed copy (R440) -/

/-- RUN's step in a phase other than AT_BLOCK_START, whoever's turns are still set. -/
theorem step_of_run (hm : s.mover = .core) (hb : s.isBusy) (hs : s.seq = .dec .run) (hp : s.dec.phase ≠ .atBlockStart) :
    step s = decRun s.beginTurn := by
  rw [step_of_core hm, coreTurn, if_pos (show s.beginTurn.isBusy from hb), State.beginTurn_seq, hs]
  exact congrArg Fetched.run (if_neg hp)

theorem step_of_rawCopy (hm : s.mover = .core) (hb : s.isBusy) (hs : s.seq = .dec .run)
    (hp : s.dec.phase = .inUncompressedCopy) : step s = decRawCopy s.beginTurn := by
  rw [step_of_run hm hb hs (by rw [hp]; decide), decRun, State.beginTurn_dec, hp]

theorem decRawCopy_byte (h : 0 < s.dec.copyLeft) :
    decRawCopy s = s.emit (s.decByte (s.dec.blkEnd - s.dec.copyLeft)) fun d => { d with copyLeft := d.copyLeft - 1 } :=
  if_pos h

theorem decRawCopy_done (h : s.dec.copyLeft = 0) : decRawCopy s = .next s.blockDone := if_neg (by omega)

@[simp] theorem State.noRoom_beginTurn : s.beginTurn.noRoom ↔ s.noRoom := by
  rw [State.noRoom, State.beginTurn_work, State.beginWork_dstPos, State.beginTurn_csr]

/-! ## The session's part of a step (R461) -/

/-- Where `r` goes on, `r'` goes on with the same session. -/
def Result.SameSession (r r' : Result) : Prop := ∀ t, r = .next t → ∃ t', r' = .next t' ∧ t'.dec = t.dec

theorem Result.SameSession.next {t t' : State} (h : t'.dec = t.dec) : SameSession (.next t) (.next t') := by
  rintro _ ⟨⟩
  exact ⟨t', rfl, h⟩

section SameSession
variable {u : State} (hdec : u.dec = s.dec)
include hdec

theorem State.emit_sameSession (hs : ¬ s.noRoom) (hu : ¬ u.noRoom) (b : Byte) (f : Session → Session) :
    Result.SameSession (s.emit b f) (u.emit b f) := by
  rw [State.emit_of_room hs, State.emit_of_room hu]
  refine .next ?_
  simp only [State.emitted, State.put_dec, hdec]

theorem State.blockDone_sameSession : Result.SameSession (.next s.blockDone) (.next u.blockDone) := by
  refine .next ?_
  simp only [State.blockDone_dec, hdec]

end SameSession

/-- A rule that raises no error goes on, or stops in a fault, whatever the state is. -/
theorem State.andThen_sameSession {u : State} {α : Type} {r : Except Halt α} {k k' : α → Result}
    (hr : ∀ c, r ≠ .error (.err c)) (hk : ∀ a, Result.SameSession (k a) (k' a)) :
    Result.SameSession (s.andThen r k) (u.andThen r k') := by
  intro t ht
  obtain ⟨a, rfl, ha⟩ | ⟨c, hc, -⟩ := State.andThen_next ht
  · exact hk a t ha
  · exact absurd hc (hr c)

section Copying
variable {u : State} (hdec : u.dec = s.dec) (hs : ¬ s.noRoom) (hu : ¬ u.noRoom)
include hdec hs hu

theorem decRawCopy_sameSession (hsrc : ∀ o, u.decByte o = s.decByte o) :
    Result.SameSession (decRawCopy s) (decRawCopy u) := by
  rw [decRawCopy, decRawCopy, hdec, hsrc]
  split
  · exact State.emit_sameSession hdec hs hu _ _
  · exact State.blockDone_sameSession hdec

theorem decDelegatedCopy_sameSession : Result.SameSession (decDelegatedCopy s) (decDelegatedCopy u) := by
  rw [decDelegatedCopy, decDelegatedCopy, hdec]
  split
  · exact State.andThen_sameSession (fun _ => readItem_ne_err) fun b => State.emit_sameSession hdec hs hu b _
  · exact State.blockDone_sameSession hdec

theorem decReplay_sameSession : Result.SameSession (decReplay s) (decReplay u) := by
  rw [decReplay, decReplay, hdec]
  split
  · split
    · exact State.andThen_sameSession (fun _ => readItem_ne_err) fun b => State.emit_sameSession hdec hs hu b _
    · split
      · exact State.andThen_sameSession (fun _ => readItem_ne_err) fun t =>
          State.andThen_sameSession (fun _ => historyByte_ne_err) fun b => State.emit_sameSession hdec hs hu b _
      · exact .next rfl
  · exact State.blockDone_sameSession hdec

end Copying

end Sys2Proof.Machine

open Sys2Proof.Machine

/-- Settles O31: with a byte left the step is EMIT of the next source byte, which pauses where there is no room; with
none left the block is done. -/
theorem rawCopyEmitsOrPauses : Obligations.RawCopyEmitsOrPauses := by
  intro s hm hb hs hp hraced
  rw [step_of_rawCopy hm hb hs hp]
  refine ⟨fun hleft hroom => ?_, fun hleft hfull => ?_, fun hleft => decRawCopy_done (s := s.beginTurn) hleft⟩
  · rw [decRawCopy_byte (s := s.beginTurn) hleft, State.emit_of_room (State.noRoom_beginTurn.not.2 hroom)]
    simp only [State.emitted, State.put, State.beginTurn_work, State.beginWork_dstPos]
    rfl
  · rw [decRawCopy_byte (s := s.beginTurn) hleft, State.emit_of_noRoom (State.noRoom_beginTurn.2 hfull),
      State.pause_of_noRoom (State.noRoom_beginTurn.2 hfull) hraced]
    simp only [State.beginTurn_dec, hp]
    rfl

/-- Settles O32: each of the three copying phases reads the session and the source, and EMIT with room changes the
session alike. -/
theorem sessionDoesNotDependOnTheDestination : Obligations.SessionDoesNotDependOnTheDestination := by
  intro s u t hdec hsrc hs hu hp ht
  have hsame : Result.SameSession (decRun s) (decRun u) := by
    rw [decRun, decRun, hdec]
    obtain hp | hp | hp := hp
    · rw [hp]
      exact decRawCopy_sameSession hdec hs hu hsrc
    · rw [hp]
      exact decDelegatedCopy_sameSession hdec hs hu
    · rw [hp]
      exact decReplay_sameSession hdec hs hu
  exact hsame t ht

end

section
/-! VALIDATE_TRIPLETS and the step that does it (R446, R444, R447). -/

namespace Sys2Proof.Machine

/-! ## The check (R446) -/

/-- The raw bytes that triplets produce. -/
def rawBytes (ts : List Triplet) : Nat := (ts.map fun t => t.L + t.M).sum

/-- Every match of the triplets copies from output that is there, `o` bytes being there before the first. -/
def CopiesBack (o : Nat) (ts : List Triplet) : Prop :=
  ∀ (i : Nat) (t : Triplet), ts[i]? = some t → 0 < t.M → 1 ≤ t.D ∧ t.D ≤ o + rawBytes (ts.take i) + t.L

theorem rawBytes_cons (t : Triplet) (ts : List Triplet) : rawBytes (t :: ts) = t.L + t.M + rawBytes ts := by
  rw [rawBytes, List.map_cons, List.sum_cons, rawBytes]

theorem copiesBack_nil (o : Nat) : CopiesBack o [] := by
  intro i t ht
  cases ht

theorem copiesBack_cons {o : Nat} {t : Triplet} {ts : List Triplet} :
    CopiesBack o (t :: ts) ↔ (0 < t.M → 1 ≤ t.D ∧ t.D ≤ o + t.L) ∧ CopiesBack (o + t.L + t.M) ts := by
  have hrest (i : Nat) : o + rawBytes ((t :: ts).take (i + 1)) = o + t.L + t.M + rawBytes (ts.take i) := by
    rw [List.take_succ_cons, rawBytes_cons]
    omega
  constructor
  · intro h
    refine ⟨fun hM => h 0 t rfl hM, fun i x hx hM => ?_⟩
    rw [← hrest]
    exact h (i + 1) x hx hM
  · rintro ⟨hhead, htail⟩ (_ | i) x hx hM
    · cases hx
      exact hhead hM
    · rw [hrest]
      exact htail i x hx hM

/-- R446 from any of its states: what is left of the literals, of the raw count and of the output to copy from. -/
theorem validateTriplets_eq_ok_iff {nLit nRaw : Nat} {ts : List Triplet} {o lp produced : Nat} (hlp : lp ≤ nLit) :
    validateTriplets nLit nRaw ts o lp produced = .ok () ↔
      lp + (ts.map Triplet.L).sum ≤ nLit ∧ produced + rawBytes ts = nRaw ∧ CopiesBack o ts := by
  induction ts generalizing o lp produced with
  | nil => simp [validateTriplets, rawBytes, copiesBack_nil, hlp]
  | cons t ts ih =>
    rw [validateTriplets, copiesBack_cons, rawBytes_cons, List.map_cons, List.sum_cons]
    by_cases hlits : lp + t.L > nLit
    · rw [if_pos hlits]
      exact iff_of_false nofun fun h => by omega
    · by_cases hback : t.M > 0 ∧ (t.D = 0 ∨ t.D > o + t.L)
      · rw [if_neg hlits, if_pos hback]
        exact iff_of_false nofun fun ⟨_, _, hhead, _⟩ => by have := hhead hback.1; omega
      · rw [if_neg hlits, if_neg hback, ih (Nat.not_lt.1 hlits)]
        have hhead : 0 < t.M → 1 ≤ t.D ∧ t.D ≤ o + t.L := by omega
        rw [and_iff_right hhead]
        simp only [Nat.add_assoc]

/-- A check that does not pass raises BAD_MATCH. -/
theorem validateTriplets_of_ne_ok {nLit nRaw : Nat} {ts : List Triplet} {o lp produced : Nat}
    (h : validateTriplets nLit nRaw ts o lp produced ≠ .ok ()) :
    validateTriplets nLit nRaw ts o lp produced = .error (.err .badMatch) := by
  cases he : validateTriplets nLit nRaw ts o lp produced with
  | ok _ => exact absurd he h
  | error x => rw [validateTriplets_err he]

/-! ## The step after the last triplet (R444, R447) -/

section
variable {s : State} (hle : s.dec.hdr.nMatches ≤ s.dec.trip.length)
include hle

theorem decTriplets_last_err {c : ErrCode}
    (h : validateTriplets s.dec.hdr.nLiterals s.dec.hdr.nRaw s.dec.trip s.dec.outTotal 0 0 = .error (.err c)) :
    decTriplets s = .next (s.raiseErr c) := by
  rw [decTriplets, if_neg (Nat.not_lt.2 hle), h, State.andThen_err]

theorem decTriplets_last_ok
    (h : validateTriplets s.dec.hdr.nLiterals s.dec.hdr.nRaw s.dec.trip s.dec.outTotal 0 0 = .ok ()) :
    decTriplets s = .next { s with dec := { s.dec.loadTriplet 0 with litPos := 0 }, seq := .dec .run } := by
  rw [decTriplets, if_neg (Nat.not_lt.2 hle), h, State.andThen_ok]

end

end Sys2Proof.Machine

open Sys2Proof.Machine

/-- Settles O29: the check's counters are sums over the triplets before; the step is the check and the load of the first
triplet. -/
theorem validatedTripletsStayInBounds : Obligations.ValidatedTripletsStayInBounds := by
  unfold Obligations.ValidatedTripletsStayInBounds
  intro good
  have hgood (nLit nRaw o : Nat) (ts : List Triplet) :
      validateTriplets nLit nRaw ts o 0 0 = .ok () ↔ good nLit nRaw o ts := by
    rw [validateTriplets_eq_ok_iff (Nat.zero_le _), Nat.zero_add, Nat.zero_add]
    rfl
  have hbad {nLit nRaw o : Nat} {ts : List Triplet} (h : ¬ good nLit nRaw o ts) :
      validateTriplets nLit nRaw ts o 0 0 = .error (.err .badMatch) :=
    validateTriplets_of_ne_ok ((hgood ..).not.2 h)
  refine ⟨fun nLit nRaw o ts => ⟨hgood .., hbad⟩, fun s hm hb hs hlen => ?_⟩
  rw [step_of_triplets hm hb hs]
  refine ⟨fun h => decTriplets_last_err (s := s.beginTurn) hlen.ge (hbad h), fun h => ?_⟩
  rw [decTriplets_last_ok (s := s.beginTurn) hlen.ge ((hgood ..).2 h), State.beginTurn_dec]
  refine ⟨fun t ht => ?_, fun hnil => ?_⟩
  · rw [Session.loadTriplet_some ht]
  · rw [Session.loadTriplet_none (by rw [hnil]; rfl)]

end

section
/-! The run of a DECODE of a raw stream (R387, R430, R440, R450, R451): DISPATCH at the uncompressed block, one copy step
for each byte, the block's end, and DISPATCH at the end-of-stream block. -/

namespace Sys2Proof.Machine

/-! ## Host memory, byte by byte (R9) -/

theorem Memory.readBytes_getElem? (m : Memory) (a : Addr) {n i : Nat} (hi : i < n) :
    (m.readBytes a n)[i]? = some (m.read (a + BitVec.ofNat 64 i)) := by
  induction n generalizing a i with
  | zero => exact absurd hi (Nat.not_lt_zero i)
  | succ n ih =>
    rw [Memory.readBytes]
    cases i with
    | zero => simp
    | succ i =>
      rw [List.getElem?_cons_succ, ih (a + 1) (Nat.lt_of_succ_lt_succ hi), BitVec.add_assoc, Nat.add_comm i 1,
        BitVec.ofNat_add]
      rfl

theorem Memory.writeBytes_concat (m : Memory) (a : Addr) (bs : List Byte) (b : Byte) :
    m.writeBytes a (bs ++ [b]) = (m.writeBytes a bs).write (a + BitVec.ofNat 64 bs.length) b := by
  induction bs generalizing m a with
  | nil => simp [Memory.writeBytes]
  | cons x bs ih =>
    rw [List.cons_append, Memory.writeBytes, ih, Memory.writeBytes, BitVec.add_assoc, List.length_cons,
      Nat.add_comm bs.length 1, BitVec.ofNat_add]
    rfl

theorem State.bytesAt_blkByte (s : State) (o n : Nat) :
    bytesAt s.blkByte o n = bytesAt s.decByte (s.dec.blkStart + o) n := by
  simp only [bytesAt, State.blkByte, Nat.add_assoc]

/-! ## Buffers that do not overlap (R115) -/

theorem State.not_meets_of_bufferRefusal {s : State} {src dst : Region} (h : s.bufferRefusal src dst = none) :
    ¬ src.meets dst = true := by
  intro hmeets
  rw [State.bufferRefusal, if_pos hmeets] at h
  split at h <;> cases h

/-- A source byte, whose address does not wrap, is no byte of the destination. -/
theorem State.source_outside_destination {s : State} (h : s.buffersOk) {i : Nat} (hi : i < s.csr.srcSize.toNat) :
    s.dstRange.has (s.csr.srcAddr + BitVec.ofNat 64 i).toNat = false := by
  obtain ⟨hsrc, -, hbuffers⟩ := h
  have hfit := Csrs.srcOk_iff.1 hsrc
  have haddr : (s.csr.srcAddr + BitVec.ofNat 64 i).toNat = s.csr.srcAddr.toNat + i := by
    rw [BitVec.toNat_add, BitVec.toNat_ofNat]
    omega
  have hin : s.csrSrc.has (s.csr.srcAddr + BitVec.ofNat 64 i).toNat = true := by
    rw [Region.has_iff, haddr]
    exact ⟨Nat.le_add_right .., Nat.add_lt_add_left hi _⟩
  exact Bool.eq_false_iff.2 fun hdst => State.not_meets_of_bufferRefusal hbuffers (Region.meets_iff.2 ⟨_, hin, hdst⟩)

/-! ## The stream (R387, R493) -/

theorem packRaw_length (data : List Byte) : (packRaw data).length = data.length + 8 := by
  simp only [packRaw, List.length_append, leBytes_length]
  omega

theorem rawStream_length (data : List Byte) : (rawStream data).length = data.length + 12 := by
  rw [rawStream, List.length_append, packRaw_length, packEos, leBytes_length]

theorem rawStream_eq (data : List Byte) :
    rawStream data = leBytes (encode .blockRaw).bits 4 ++ (leBytes data.length 4 ++ (data ++ packEos)) := by
  simp only [rawStream, packRaw, List.append_assoc]
  rfl

/-- The data stand behind the 8 bytes of the block's header. -/
theorem rawStream_getElem?_data (done : List Byte) (b : Byte) (todo : List Byte) :
    (rawStream (done ++ b :: todo))[8 + done.length]? = some b := by
  have hsplit : rawStream (done ++ b :: todo) = (leBytes (encode .blockRaw).bits 4
      ++ leBytes (done ++ b :: todo).length 4 ++ done) ++ b :: (todo ++ packEos) := by
    rw [rawStream_eq]
    simp only [List.append_assoc, List.cons_append]
  have hlen : (leBytes (encode .blockRaw).bits 4 ++ leBytes (done ++ b :: todo).length 4 ++ done).length
      = 8 + done.length := by
    rw [List.length_append, List.length_append, leBytes_length, leBytes_length]
  rw [hsplit, ← hlen, List.getElem?_append_right le_rfl, Nat.sub_self, List.getElem?_cons_zero]

/-! ## What the run keeps -/

/-- The source holds the raw stream of `data`, the destination has room for it, and the spec allows the buffers. -/
structure State.RawStream (s : State) (data : List Byte) : Prop where
  buffers : s.buffersOk
  size : s.csr.srcSize.toNat = data.length + 12
  room : data.length ≤ s.csr.dstSize.toNat
  source : s.mem.readBytes s.csr.srcAddr (data.length + 12) = rawStream data

/-- `s` is reached from `s₀` by a DECODE of the raw stream of `data` that has emitted `done` of it. -/
structure RawDecode (s₀ : State) (data done : List Byte) (s : State) : Prop where
  running : s.Running
  csr : s.csr = { s₀.csr with state := .busy, errCode := .none }
  mem : s.mem = s₀.mem.writeBytes s₀.csr.dstAddr done
  srcAddr : s.dec.srcAddr = s₀.csr.srcAddr
  srcSize : s.dec.srcSize = data.length + 12
  outTotal : s.dec.outTotal = done.length
  dstPos : s.work.dstPos = done.length
  unracedSrc : s.racedSrc = []
  unracedDst : s.racedDst = []
  emitted : done.length ≤ data.length

/-- Such a decode is copying the uncompressed block's bytes, of which `todo` are left. -/
structure RawCopy (s₀ : State) (data done todo : List Byte) (s : State) : Prop extends RawDecode s₀ data done s where
  split : data = done ++ todo
  phase : s.dec.phase = .inUncompressedCopy
  copyLeft : s.dec.copyLeft = todo.length
  blkEnd : s.dec.blkEnd = data.length + 8

/-- The decode has ended DONE. -/
structure RawDecoded (s₀ : State) (data : List Byte) (u : State) : Prop where
  mem : u.mem = s₀.mem.writeBytes s₀.csr.dstAddr data
  csr : u.csr = { s₀.csr with
    state := .done, errCode := .none, decPhase := .done, cmdDone := true
    result := BitVec.ofNat 32 data.length, outTotal := BitVec.ofNat 64 data.length
    srcPos := BitVec.ofNat 32 (data.length + 12) }
  valid : u.dec.valid = false
  seq : u.seq = .rest

/-- The state in which DISPATCH's instruction is executed: `blk` is `src_pos` (R440). -/
def State.atDispatch (s : State) : State := { s.beginTurn with dec := { s.dec with blkStart := s.dec.srcPos } }

theorem State.Running.mover {s : State} (h : s.Running) : s.mover = .core := by
  rw [State.mover_nil h.turns, if_pos h.busy]

section
variable {s₀ s : State} {data done todo : List Byte}

theorem RawDecode.congr {t : State} (h : RawDecode s₀ data done s) (hturns : t.turns = s.turns) (hseq : t.seq = s.seq)
    (hcsr : t.csr = s.csr) (hmem : t.mem = s.mem) (haddr : t.dec.srcAddr = s.dec.srcAddr)
    (hsize : t.dec.srcSize = s.dec.srcSize) (htotal : t.dec.outTotal = s.dec.outTotal)
    (hpos : t.work.dstPos = s.work.dstPos) (hsrc : t.racedSrc = s.racedSrc) (hdst : t.racedDst = s.racedDst) :
    RawDecode s₀ data done t :=
  ⟨⟨hturns.trans h.running.turns, (congrArg Csrs.state hcsr).trans h.running.busy, hseq.trans h.running.seq⟩,
    hcsr.trans h.csr, hmem.trans h.mem, haddr.trans h.srcAddr, hsize.trans h.srcSize, htotal.trans h.outTotal,
    hpos.trans h.dstPos, hsrc.trans h.unracedSrc, hdst.trans h.unracedDst, h.emitted⟩

theorem RawDecode.beginTurn (h : RawDecode s₀ data done s) : RawDecode s₀ data done s.beginTurn :=
  h.congr (by rw [State.beginTurn_turns, h.running.turns, List.tail_nil]) rfl rfl rfl rfl rfl rfl s.beginWork_dstPos
    rfl rfl

theorem RawDecode.atDispatch (h : RawDecode s₀ data done s) : RawDecode s₀ data done s.atDispatch :=
  h.beginTurn.congr rfl rfl rfl rfl rfl rfl rfl rfl rfl rfl

theorem RawDecode.blockDone (h : RawDecode s₀ data done s) : RawDecode s₀ data done s.blockDone :=
  h.congr rfl rfl rfl rfl rfl rfl rfl rfl rfl rfl

/-- EMIT moves the run on by a byte. -/
theorem RawDecode.put (h : RawDecode s₀ data done s) (b : Byte) (hroom : done.length < data.length) :
    RawDecode s₀ data (done ++ [b]) (s.put b) where
  running := ⟨h.running.turns, h.running.busy, h.running.seq⟩
  csr := h.csr
  mem := by rw [State.put_mem, h.mem, h.dstPos, h.csr, Memory.writeBytes_concat]; rfl
  srcAddr := h.srcAddr
  srcSize := h.srcSize
  outTotal := by rw [State.put_dec, h.outTotal, List.length_append, List.length_singleton]
  dstPos := by rw [State.put_work, h.dstPos, List.length_append, List.length_singleton]
  unracedSrc := h.unracedSrc
  unracedDst := h.unracedDst
  emitted := by rw [List.length_append, List.length_singleton]; exact hroom

/-! ## Reading the source -/

variable (h₀ : s₀.RawStream data)
include h₀

/-- What has been emitted lies in the destination, so the source still reads as it did at the start. -/
theorem RawDecode.decByte_eq (h : RawDecode s₀ data done s) {i : Nat} (hi : i < data.length + 12) :
    (rawStream data)[i]? = some (s.decByte i) := by
  obtain ⟨-, hdst, -⟩ := h₀.buffers
  have hfit := Csrs.dstOk_iff.1 hdst
  have hroom := h₀.room
  have hdone := h.emitted
  have hout := Region.has_eq_false_iff.1 (State.source_outside_destination h₀.buffers (h₀.size ▸ hi))
  simp only [State.dstRange] at hout
  have hunraced : (s₀.csr.srcAddr + BitVec.ofNat 64 i).toNat ∉ s.racedSrc := by
    rw [h.unracedSrc]
    exact List.not_mem_nil
  rw [← h₀.source, Memory.readBytes_getElem? _ _ hi, State.decByte, h.srcAddr, State.srcByte_unraced hunraced, h.mem,
    Memory.read_writeBytes_outside]
  · simp only [Config.addrSpace]
    omega
  · omega

/-- A part of the stream is read at its offset. -/
theorem RawDecode.bytesAt_eq (h : RawDecode s₀ data done s) {pre bs post : List Byte}
    (hsplit : rawStream data = pre ++ (bs ++ post)) : bytesAt s.decByte pre.length bs.length = bs := by
  have hparts : pre.length + (bs.length + post.length) = data.length + 12 := by
    rw [← rawStream_length, hsplit, List.length_append, List.length_append]
  refine bytesAt_of_getElem? fun i hi => ?_
  rw [← h.decByte_eq h₀ (by omega), hsplit, List.getElem?_append_right (Nat.le_add_right ..), Nat.add_sub_cancel_left,
    List.getElem?_append_left hi]

/-- DISPATCH's block starts behind `pre`; a part of it is read at its offset from there. -/
theorem RawDecode.blkBytes_eq (h : RawDecode s₀ data done s) {pre skip bs post : List Byte}
    (hsplit : rawStream data = pre ++ (skip ++ (bs ++ post))) (hpos : s.dec.srcPos = pre.length) :
    bytesAt s.atDispatch.blkByte skip.length bs.length = bs := by
  have hstart : s.atDispatch.dec.blkStart + skip.length = (pre ++ skip).length := by
    rw [List.length_append, ← hpos]
    rfl
  rw [State.bytesAt_blkByte, hstart]
  exact h.atDispatch.bytesAt_eq h₀ (hsplit.trans (List.append_assoc ..).symm)

/-! ## The steps of the run -/

/-- DISPATCH finds the magic that stands at `src_pos`. -/
theorem RawDecode.step_dispatch (h : RawDecode s₀ data done s) (hp : s.dec.phase = .atBlockStart) {i : Instr}
    (hi : i.space = .block) {pre post : List Byte}
    (hsplit : rawStream data = pre ++ (leBytes (encode i).bits 4 ++ post)) (hpos : s.dec.srcPos = pre.length) :
    step s = exec i s.atDispatch := by
  have hwhole : pre.length + 4 ≤ data.length + 12 := by
    have := congrArg List.length hsplit
    simp only [rawStream_length, List.length_append, leBytes_length] at this
    omega
  have havail : min s.atDispatch.avail 4 = 4 := by
    rw [State.avail, h.atDispatch.srcSize]
    show min (data.length + 12 - s.dec.srcPos) 4 = 4
    omega
  have hbytes : bytesAt s.atDispatch.blkByte 0 4 = leBytes (encode i).bits 4 := by
    have := h.blkBytes_eq h₀ (skip := []) (bs := leBytes (encode i).bits 4) hsplit hpos
    rwa [leBytes_length] at this
  have hmagic : decode .block (bytesAt s.atDispatch.blkByte 0 (min s.atDispatch.avail 4)) = .ok i := by
    rw [havail, hbytes, ← List.append_nil (leBytes _ 4)]
    exact decode_block_encode hi []
  exact step_of_magic h.running.mover h.running.busy h.running.seq hp hmagic

/-- R451: the first block starts a copy of all the data. -/
theorem RawDecode.step_start (h : RawDecode s₀ data [] s) (hp : s.dec.phase = .atBlockStart) (hpos : s.dec.srcPos = 0) :
    ∃ t, step s = .next t ∧ RawCopy s₀ data [] data t := by
  have hsplit := (rawStream_eq data).trans (List.nil_append _).symm
  have hcount : rdU32 s.atDispatch.blkByte 4 = data.length := by
    have hbytes := h.blkBytes_eq h₀ (pre := []) (skip := leBytes (encode .blockRaw).bits 4)
      (bs := leBytes data.length 4) hsplit hpos
    have hlt : data.length < 256 ^ 4 := by
      have := s₀.csr.srcSize.isLt
      have := h₀.size
      omega
    simp only [leBytes_length] at hbytes
    rw [rdU32, hbytes, le_leBytes, Nat.mod_eq_of_lt hlt]
  have havail : s.atDispatch.avail = data.length + 12 := by
    rw [State.avail, h.atDispatch.srcSize]
    show data.length + 12 - s.dec.srcPos = _
    rw [hpos, Nat.sub_zero]
  have hdispatch := h.step_dispatch h₀ hp (i := .blockRaw) rfl (pre := []) hsplit hpos
  have hexec := (rawBlockStartsItsCopy s.atDispatch).1 (by omega) (by omega)
  refine ⟨_, hdispatch.trans hexec, h.atDispatch.congr rfl h.running.seq.symm rfl rfl rfl rfl rfl rfl rfl rfl,
    rfl, rfl, hcount, ?_⟩
  show s.dec.srcPos + 8 + rdU32 s.atDispatch.blkByte 4 = _
  rw [hcount, hpos]
  omega

/-- R433: the step emits the first byte that is left. -/
theorem RawCopy.step_byte {b : Byte} (h : RawCopy s₀ data done (b :: todo) s) :
    ∃ t, step s = .next t ∧ RawCopy s₀ data (done ++ [b]) todo t := by
  have hlen : data.length = done.length + (todo.length + 1) := by rw [h.split, List.length_append, List.length_cons]
  have hleft : s.dec.copyLeft = todo.length + 1 := h.copyLeft
  have hroom : s.work.dstPos ≠ s.csr.dstSize.toNat := by
    have := h₀.room
    rw [h.dstPos, h.csr]
    show done.length ≠ s₀.csr.dstSize.toNat
    omega
  have hbyte : s.beginTurn.decByte (s.dec.blkEnd - s.dec.copyLeft) = b := by
    have hoffset : s.dec.blkEnd - s.dec.copyLeft = 8 + done.length := by rw [h.blkEnd, hleft]; omega
    rw [hoffset, ← Option.some_inj, ← h.beginTurn.decByte_eq h₀ (by omega), h.split, rawStream_getElem?_data]
  have hstep : step s = .next (s.beginTurn.emitted b fun d => { d with copyLeft := d.copyLeft - 1 }) := by
    rw [step_of_rawCopy h.running.mover h.running.busy h.running.seq h.phase,
      decRawCopy_byte (s := s.beginTurn) (by rw [State.beginTurn_dec]; omega),
      State.emit_of_room (State.noRoom_beginTurn.not.2 hroom), State.beginTurn_dec, hbyte]
  refine ⟨_, hstep, (h.beginTurn.put b (by omega)).congr rfl rfl rfl rfl rfl rfl rfl rfl rfl rfl,
    ?_, h.phase, ?_, h.blkEnd⟩
  · rw [h.split, List.append_assoc, List.singleton_append]
  · show s.dec.copyLeft - 1 = _
    rw [hleft, Nat.add_sub_cancel]

/-- R450: with all the data emitted, the block ends and then the stream. -/
theorem RawCopy.run_end (h : RawCopy s₀ data done [] s) : ∃ u, s.runSteps 2 = .next u ∧ RawDecoded s₀ data u := by
  obtain rfl : data = done := by rw [h.split, List.append_nil]
  have hdone : step s = .next s.beginTurn.blockDone := by
    rw [step_of_rawCopy h.running.mover h.running.busy h.running.seq h.phase,
      decRawCopy_done (s := s.beginTurn) h.copyLeft]
  have ht := h.beginTurn.blockDone
  have hpos : s.beginTurn.blockDone.dec.srcPos = (packRaw data).length := by
    rw [State.blockDone_dec, State.beginTurn_dec, h.blkEnd, packRaw_length]
  have hdispatch := ht.step_dispatch h₀ rfl (i := .blockEos) rfl (pre := packRaw data) (post := [])
    (by rw [List.append_nil]; rfl) hpos
  have heos := hdispatch.trans (endOfStreamEndsTheDecode _ ht.atDispatch.unracedDst)
  refine ⟨_, (State.runSteps_succ hdone 1).trans (State.runSteps_succ heos 0), ht.atDispatch.mem, ?_, rfl, rfl⟩
  have hsrcPos : s.beginTurn.blockDone.atDispatch.dec.blkStart + 4 = data.length + 12 := by
    show s.dec.blkEnd + 4 = _
    rw [h.blkEnd]
  simp only [ht.atDispatch.csr, ht.atDispatch.dstPos, ht.atDispatch.outTotal, hsrcPos]

/-- One step for each byte that is left, and two for the ends of the block and the stream. -/
theorem RawCopy.run (h : RawCopy s₀ data done todo s) :
    ∃ u, s.runSteps (todo.length + 2) = .next u ∧ RawDecoded s₀ data u := by
  induction todo generalizing done s with
  | nil => exact h.run_end h₀
  | cons b todo ih =>
    obtain ⟨t, hstep, ht⟩ := h.step_byte h₀
    obtain ⟨u, hrun, hu⟩ := ih ht
    exact ⟨u, (State.runSteps_succ hstep _).trans hrun, hu⟩

end

theorem State.RawStream.startDecode {s : State} {data : List Byte} (h : s.RawStream data) (hturns : s.turns = []) :
    RawDecode s data [] s.startDecode where
  running := ⟨hturns, rfl, rfl⟩
  csr := rfl
  mem := rfl
  srcAddr := rfl
  srcSize := h.size
  outTotal := rfl
  dstPos := rfl
  unracedSrc := rfl
  unracedDst := rfl
  emitted := Nat.zero_le _

end Sys2Proof.Machine

open Sys2Proof.Machine

/-- Settles O34, by induction over the data that are left to copy. -/
theorem rawStreamsDecodeToTheirData : Obligations.RawStreamsDecodeToTheirData := by
  rintro s data ⟨hb, hturns⟩ hbuffers hsize hroom hsource
  have h₀ : s.RawStream data := ⟨hbuffers, hsize, hroom, hsource⟩
  obtain ⟨t, hstep, ht⟩ := (h₀.startDecode hturns).step_start h₀ rfl rfl
  obtain ⟨u, hrun, hu⟩ := ht.run h₀
  exact ⟨s.startDecode, u, decodeStartsASession s hb hbuffers, (State.runSteps_succ hstep _).trans hrun, hu.mem, hu.csr,
    hu.valid, hu.seq⟩

end

section
/-! How an ENCODE starts and ends (R490, R540), and the path choice below 4096 bytes (R492 to R494). -/

namespace Sys2Proof.Machine

variable {s : State}

/-! ## The source as host memory holds it -/

theorem Memory.readBytes_length (m : Memory) (a : Addr) (n : Nat) : (m.readBytes a n).length = n := by
  induction n generalizing a with
  | zero => rfl
  | succ n ih => rw [readBytes, List.length_cons, ih]

/-- Where no source byte is raced for, every read of the source is what memory holds (R116). -/
theorem State.encSrc_of_unraced (h : s.racedSrc = []) (read : Nat) :
    s.encSrc read = s.mem.readBytes s.csr.srcAddr s.srcLen := by
  have hbyte (o : Nat) : s.encByte read o = s.mem.read (s.csr.srcAddr + BitVec.ofNat 64 o) :=
    State.srcByte_unraced (by rw [h]; exact List.not_mem_nil) read
  have hlen := s.mem.readBytes_length s.csr.srcAddr s.srcLen
  have hbytes := bytesAt_of_getElem? (bs := s.mem.readBytes s.csr.srcAddr s.srcLen) (rd := s.encByte read) (a := 0)
    fun i hi => by rw [Memory.readBytes_getElem? _ _ (hlen ▸ hi), hbyte, Nat.zero_add]
  rwa [hlen] at hbytes

/-! ## The path choice (R492) -/

/-- The stream of a source of fewer than 4096 bytes: raw below 8 bytes (R493), else delegated (R494). -/
def shortStream (src : List Byte) : List Byte :=
  if src.length < 8 then rawStream src else delegatedStream src (Config.delegateEncode src (src.length - 5))

theorem encChoose_of_short (hraced : s.racedSrc = []) (h : s.srcLen < 4096) :
    encChoose s = .next (s.encGoto .finish
      { s.enc with out := shortStream (s.mem.readBytes s.csr.srcAddr s.srcLen) }) := by
  rw [encChoose, State.encSrc_of_unraced hraced, State.encSrc_of_unraced hraced, shortStream, Memory.readBytes_length]
  by_cases h8 : s.srcLen < 8
  · rw [if_pos h8, if_pos h8]
  · rw [if_neg h8, if_pos h, if_neg h8]

theorem encChoose_of_long (h : 4096 ≤ s.srcLen) :
    encChoose s = .next (s.encGoto .scan
      { s.enc with scanPos := 0, litStart := 0, pending := none, hist := [], parse := [] }) := by
  have hmin : ¬ s.srcLen < Config.lzvnMinSrc := by simp only [Config.lzvnMinSrc]; omega
  rw [encChoose, if_neg hmin, if_neg (Nat.not_lt.2 h)]

/-! ## The end of the command (R490, R540) -/

theorem encFinish_of_fits (h : s.enc.out.length ≤ s.csr.dstSize.toNat) :
    encFinish s = .next
      (({ s with mem := s.mem.writeBytes s.csr.dstAddr s.enc.out } : State).endEncode s.enc.out.length) :=
  if_neg (Nat.not_lt.2 h)

theorem encFinish_of_overflow {st : EncStage} (hs : s.seq = .enc st) (h : s.csr.dstSize.toNat < s.enc.out.length) :
    encFinish s = .next (s.raiseEnc .dstExhausted) := by
  rw [encFinish, if_pos h, State.raiseErr_enc hs]

/-- An ENCODE's error changes no byte outside the destination, where HOST has raced for none (R107). -/
theorem State.raiseEnc_read_outside (hdst : s.csr.dstOk = true) (hraced : s.racedDst = []) (c : ErrCode) {a : Addr}
    (ha : s.dstRange.has a.toNat = false) : (s.raiseEnc c).mem.read a = s.mem.read a := by
  have hfit := Csrs.dstOk_iff.1 hdst
  rw [raiseEnc_mem, hraced, Memory.settle_nil]
  exact Memory.read_havoc_outside _ _ _ _ _ (by simp only [Config.addrSpace]; omega) (Region.has_eq_false_iff.1 ha)

end Sys2Proof.Machine

open Sys2Proof Sys2Proof.Machine

/-- Settles O19: on sizes and buffers that are in order the command is the start of an ENCODE. -/
theorem encodeStarts : Obligations.EncodeStarts := by
  rintro s hb ⟨hsrc, hdst, hbuffers⟩
  exact (execEncode_of_sizes hb hsrc hdst).trans (State.withBuffers_of_ok hbuffers _)

/-- Settles O20: the path choice puts the stream of a short source in the working state, and the next step writes it. -/
theorem shortEncodeWritesItsStream : Obligations.ShortEncodeWritesItsStream := by
  rintro s ⟨hb, hturns⟩ hbuffers hshort n src raw stream hroom
  have hstream : stream = shortStream src := by
    have hlen : src.length = n := s.mem.readBytes_length _ _
    simp only [stream, raw, shortStream, hlen]
    cases Config.delegateEncode src (n - 5) <;>
      simp only [delegatedStream, rawStream, packRaw, packDelegated, packEos, hlen]
  rw [hstream] at hroom ⊢
  have hstart : State.Encoding s.startEncode s.startEncode .choose := ⟨hturns, rfl, rfl, rfl, rfl⟩
  have hchoose := hstart.step.trans (encChoose_of_short (s := s.startEncode.beginTurn) rfl hshort)
  have hfinish := (hstart.goto .finish { s.startEncode.enc with out := shortStream src }).step.trans
    (encFinish_of_fits hroom)
  exact ⟨s.startEncode, _, encodeStarts s hb hbuffers,
    (State.runSteps_succ hchoose 1).trans (State.runSteps_succ hfinish 0), rfl, rfl, rfl, rfl, rfl⟩

/-- Settles O21: the length check decides between the write of the stream and the error. -/
theorem encodeWritesItsStreamIfItFits : Obligations.EncodeWritesItsStreamIfItFits := by
  intro s hm hb hs hdst hraced
  have hstep : step s = encFinish s.beginTurn := step_of_enc hm hb hs
  refine ⟨fun hfits => ⟨_, hstep.trans (encFinish_of_fits (s := s.beginTurn) hfits), rfl, ?_, rfl, rfl⟩,
    fun hover => ⟨_, hstep.trans (encFinish_of_overflow (s := s.beginTurn) hs hover), rfl, rfl, rfl, fun a ha => ?_⟩⟩
  · rw [State.endEncode_mem, State.beginTurn_racedDst, hraced, Memory.settle_nil]
    rfl
  · exact State.raiseEnc_read_outside (s := s.beginTurn) hdst hraced _ ha

end

section
/-! The match search: a candidate repeats earlier bytes (R507), and the step of the scan, case by case (R508, R509). -/

namespace Sys2Proof.Machine

/-! ## Bytes that repeat earlier ones -/

theorem le_injective {bs cs : List Byte} (hlen : bs.length = cs.length) (h : le bs = le cs) : bs = cs := by
  induction bs generalizing cs with
  | nil => exact (List.eq_nil_of_length_eq_zero hlen.symm).symm
  | cons b bs ih =>
    cases cs with
    | nil => cases hlen
    | cons c cs =>
      have hb := b.isLt
      have hc := c.isLt
      simp only [le] at h
      rw [BitVec.eq_of_toNat_eq (x := b) (y := c) (by omega), ih (Nat.succ.inj hlen) (by omega)]

/-- The `k` bytes from `p` on are those from `c` on. -/
def Repeats (rd : Nat → Byte) (p c k : Nat) : Prop := ∀ i, i < k → rd (p + i) = rd (c + i)

section Repeats
variable {rd : Nat → Byte} {p c k : Nat}

theorem Repeats.single (h : rd p = rd c) : Repeats rd p c 1 := by
  intro i hi
  obtain rfl := Nat.lt_one_iff.1 hi
  exact h

theorem Repeats.append {l : Nat} (h : Repeats rd p c k) (h' : Repeats rd (p + k) (c + k) l) :
    Repeats rd p c (k + l) := by
  intro i hi
  obtain hlt | hge := Nat.lt_or_ge i k
  · exact h i hlt
  · have hnext := h' (i - k) (by omega)
    rwa [Nat.add_assoc, Nat.add_assoc, Nat.add_sub_cancel' hge] at hnext

/-- Equal 4-byte values are equal bytes (R506). -/
theorem Repeats.of_value4_eq (h : value4 rd p = value4 rd c) : Repeats rd p c 4 := by
  have hbytes : bytesAt rd p 4 = bytesAt rd c 4 :=
    le_injective ((bytesAt_length ..).trans (bytesAt_length ..).symm) h
  exact fun i hi => List.map_inj_left.1 hbytes i (List.mem_range.2 hi)

/-! ## A candidate (R507) -/

theorem extendForward_repeats {n f : Nat} (hfit : p + f ≤ n) (h : Repeats rd p c f) (fuel : Nat) :
    let g := extendForward rd rd n p c fuel f
    f ≤ g ∧ p + g ≤ n ∧ Repeats rd p c g := by
  induction fuel generalizing f with
  | zero => exact ⟨le_rfl, hfit, h⟩
  | succ fuel ih =>
    rw [extendForward]
    split
    next hnext =>
      obtain ⟨hle, hrest⟩ := ih (Nat.succ_le_of_lt hnext.1) (h.append (.single hnext.2))
      exact ⟨Nat.le_of_succ_le hle, hrest⟩
    next => exact ⟨le_rfl, hfit, h⟩

theorem extendBackward_repeats {ls b : Nat} (hb : b ≤ c) (hls : ls ≤ p - b) (h : Repeats rd (p - b) (c - b) b)
    (fuel : Nat) :
    let g := extendBackward rd rd ls p c fuel b
    g ≤ c ∧ ls ≤ p - g ∧ Repeats rd (p - g) (c - g) g := by
  induction fuel generalizing b with
  | zero => exact ⟨hb, hls, h⟩
  | succ fuel ih =>
    rw [extendBackward]
    split
    next hnext =>
      obtain ⟨hgap, hleft, hbyte⟩ := hnext
      have hp : p - b - 1 + 1 = p - b := by omega
      have hc : c - b - 1 + 1 = c - b := by omega
      have hgrown := (Repeats.single hbyte).append (l := b) (by rwa [hp, hc])
      rw [Nat.add_comm 1 b] at hgrown
      exact ih (by omega) (by omega) hgrown
    next => exact ⟨hb, hls, h⟩

end Repeats

theorem candidate_eq_some {rd : Nat → Nat → Byte} {n ls p x : Nat} {c : Slot} {m : Match}
    (h : candidate rd n ls p x c = some m) :
    let b := extendBackward (rd 3) (rd 4) ls p c.pos p 0
    c.value = x ∧ p - c.pos ≤ 262139
      ∧ m = { pos := p - b, len := extendForward (rd 1) (rd 2) n p c.pos (n - p) 4 + b, dist := p - c.pos } := by
  rw [candidate] at h
  split at h
  · cases h
  next hkept =>
    obtain ⟨hvalue, hnear⟩ := not_or.1 hkept
    exact ⟨not_not.1 hvalue, Nat.not_lt.1 hnear, (Option.some.inj h).symm⟩

theorem candidate_is_match {rd : Nat → Byte} {n ls p : Nat} {c : Slot} {m : Match} (hls : ls ≤ p) (hfit : p + 4 ≤ n)
    (hearlier : c.pos < p) (hslot : c.value = value4 rd c.pos)
    (h : candidate (fun _ => rd) n ls p (value4 rd p) c = some m) :
    ls ≤ m.pos ∧ m.pos ≤ p ∧ p + 4 ≤ m.pos + m.len ∧ m.pos + m.len ≤ n
    ∧ 1 ≤ m.dist ∧ m.dist ≤ m.pos ∧ m.dist ≤ 262139
    ∧ ∀ i, i < m.len → rd (m.pos + i) = rd (m.pos + i - m.dist) := by
  obtain ⟨hvalue, hnear, rfl⟩ := candidate_eq_some h
  obtain ⟨h4, hend, hforward⟩ :=
    extendForward_repeats hfit (Repeats.of_value4_eq (hvalue.symm.trans hslot)) (n - p)
  have hnothing : Repeats rd (p - 0) (c.pos - 0) 0 := fun _ hi => absurd hi (Nat.not_lt_zero _)
  obtain ⟨hback, hstart, hbackward⟩ := extendBackward_repeats (Nat.zero_le c.pos) hls hnothing p
  dsimp only
  generalize extendForward rd rd n p c.pos (n - p) 4 = f at *
  generalize extendBackward rd rd ls p c.pos p 0 = b at *
  have hboth : Repeats rd (p - b) (c.pos - b) (b + f) :=
    hbackward.append (by rwa [Nat.sub_add_cancel (by omega), Nat.sub_add_cancel hback])
  refine ⟨hstart, by omega, by omega, by omega, by omega, by omega, hnear, fun i hi => ?_⟩
  rw [hboth i (by omega)]
  congr 1
  omega

/-! ## One position of the scan (R508, R509) -/

namespace Encoder
variable {e : Encoder} {rd : Nat → Nat → Byte} {n : Nat}

/-- What FIND answers at the scan position, and the table with the position recorded. -/
def found (e : Encoder) (rd : Nat → Nat → Byte) (n : Nat) : Option Match × List (Nat × List Slot) :=
  findMatch rd n e.litStart e.scanPos e.hist

theorem scanOnce_of_not_longer {p : Match} (hp : e.pending = some p)
    (h : ∀ m, (e.found rd n).1 = some m → m.len ≤ p.len) :
    e.scanOnce rd n = { e with hist := (e.found rd n).2 }.takePending p := by
  rw [found] at h ⊢
  rw [scanOnce]
  cases hf : (findMatch rd n e.litStart e.scanPos e.hist).1 with
  | none => simp only [hp]
  | some m => simp only [hp, if_neg (Nat.not_lt.2 (h m hf))]

theorem scanOnce_of_longer {m : Match} (hf : (e.found rd n).1 = some m)
    (h : ∀ p, e.pending = some p → p.len < m.len) :
    e.scanOnce rd n = { e with hist := (e.found rd n).2 }.settlePending (some m) := by
  rw [found] at hf ⊢
  rw [scanOnce]
  cases hp : e.pending with
  | none => simp only [hf]
  | some p => simp only [hf, if_pos (h p hp)]

theorem scanOnce_of_nothing (hp : e.pending = none) (hf : (e.found rd n).1 = none) :
    e.scanOnce rd n = { e with hist := (e.found rd n).2 }.settlePending none := by
  rw [found] at hf ⊢
  simp only [scanOnce, hp, hf]

theorem settlePending_of_good {m : Match} (h : 40 ≤ m.len) : e.settlePending (some m) = e.takePending m := if_pos h

theorem settlePending_of_short {m : Match} (h : m.len < 40) :
    e.settlePending (some m) = { e with pending := some m, scanPos := e.scanPos + 1 } := if_neg (Nat.not_le.2 h)

/-- The trailing literals, if any (R509). -/
theorem scanEnd_of_none (hp : e.pending = none) :
    e.scanEnd n = { e with
      parse := e.parse ++ if e.litStart < n then [{ L := n - e.litStart, M := 0, D := 0 }] else []
      pending := none } := by
  simp only [scanEnd, hp]
  split
  · rfl
  · rw [List.append_nil, ← hp]

/-- A match that is still pending comes before them. -/
theorem scanEnd_of_some {m : Match} (hp : e.pending = some m) :
    e.scanEnd n = { e.emitMatch m with pending := none }.scanEnd n := by
  simp only [scanEnd, hp]

end Encoder

section Scan
variable {s : State}

theorem encScan_position (hf : s.frontEnd = .standard) (h : s.enc.scanPos + 4 ≤ s.srcLen) :
    encScan s = .next (s.encGoto .scan (s.enc.scanOnce s.encByte s.srcLen)) := by
  simp only [encScan, hf, if_pos h]

theorem encScan_end (hf : s.frontEnd = .standard) (h : s.srcLen < s.enc.scanPos + 4) :
    encScan s = .next (s.encGoto .legalize (s.enc.scanEnd s.srcLen)) := by
  simp only [encScan, hf, if_neg (Nat.not_le.2 h)]

/-- The triples of another front end (R501). -/
def otherParse (src : List Byte) : List Triplet :=
  (Config.frontEnd src).map fun p => { L := p.1, M := p.2.1, D := p.2.2 }

theorem encScan_other_ok (hf : s.frontEnd = .other)
    (h : frontEndOk (fun o => (s.encSrc 0).getD o 0) s.srcLen (otherParse (s.encSrc 0)) = true) :
    encScan s = .next (s.encGoto .legalize { s.enc with parse := otherParse (s.encSrc 0) }) := by
  simp only [encScan, hf]
  exact if_pos h

theorem encScan_other_refused (hf : s.frontEnd = .other)
    (h : frontEndOk (fun o => (s.encSrc 0).getD o 0) s.srcLen (otherParse (s.encSrc 0)) = false) :
    encScan s = .refused .frontEndContract := by
  simp only [encScan, hf]
  exact if_neg (Bool.eq_false_iff.1 h)

end Scan

end Sys2Proof.Machine

open Sys2Proof.Machine

/-- Settles O47: a candidate joins the bytes found before and after its position; each clause of the scan is a case of
its step. -/
theorem candidatesAreMatches : Obligations.CandidatesAreMatches := by
  refine ⟨fun rd n ls p c m hls hfit hearlier hslot => candidate_is_match hls hfit hearlier hslot, ?_⟩
  intro s hm hb e n goes
  refine ⟨fun hs hlong => ?_, fun hs hf hpos => ?_, fun hs hf hend => ?_, fun hs hf => ?_⟩
  · exact (step_of_enc hm hb hs).trans (encChoose_of_long (s := s.beginTurn) hlong)
  · have hgoes {e' : Encoder} (h : e.scanOnce s.beginTurn.encByte n = e') : goes .scan e' := by
      subst h
      exact (step_of_enc hm hb hs).trans (encScan_position (s := s.beginTurn) hf hpos)
    refine ⟨fun p hp hnot => hgoes (Encoder.scanOnce_of_not_longer hp hnot), fun m hfound hlonger => ?_,
      fun hp hfound => hgoes (Encoder.scanOnce_of_nothing hp hfound)⟩
    have hscan := Encoder.scanOnce_of_longer hfound hlonger
    exact ⟨fun hgood => hgoes (hscan.trans (Encoder.settlePending_of_good hgood)),
      fun hshort => hgoes (hscan.trans (Encoder.settlePending_of_short hshort))⟩
  · have hstep := (step_of_enc hm hb hs).trans (encScan_end (s := s.beginTurn) hf hend)
    have hencoder : s.beginTurn.enc.scanEnd s.beginTurn.srcLen = e.scanEnd n := rfl
    rw [hencoder] at hstep
    cases hp : e.pending with
    | none =>
      rw [Encoder.scanEnd_of_none hp, ← List.append_nil e.parse] at hstep
      exact hstep
    | some p =>
      rw [Encoder.scanEnd_of_some hp, Encoder.scanEnd_of_none rfl] at hstep
      exact hstep
  · have hstep := step_of_enc hm hb hs
    exact ⟨fun hok => hstep.trans (encScan_other_ok (s := s.beginTurn) hf hok),
      fun hbad => hstep.trans (encScan_other_refused (s := s.beginTurn) hf hbad)⟩

end

section
/-! A command's issue, NOP and ABORT (R550 to R553), and what HOST reads and stores: registers (R554) and host memory
(R116). -/

namespace Sys2Proof.Machine

variable {s t : State}

/-! ## What an issue leaves unchanged (R550, R574) -/

theorem State.issue_next {r : Result} (h : s.issue r = .next t) :
    (s.isBusy ∧ t = s) ∨ (¬ s.isBusy ∧ r = .next t) := by
  by_cases hb : s.isBusy
  · rw [State.issue_busy hb] at h
    exact .inl ⟨hb, (Host.Outcome.next.inj h).symm⟩
  · rw [State.issue_idle hb] at h
    exact .inr ⟨hb, h⟩

/-- Whatever its answer, an issue moves no host memory, no parameter, not CTRL and nothing outside the block. -/
theorem Issued.frame (m : Issued s t) :
    t.mem = s.mem ∧ t.host = s.host ∧ t.turns = s.turns ∧ t.platform = s.platform
    ∧ t.frontEnd = s.frontEnd ∧ t.draws = s.draws ∧ t.csr.irqEn = s.csr.irqEn
    ∧ t.csr.srcAddr = s.csr.srcAddr ∧ t.csr.srcSize = s.csr.srcSize
    ∧ t.csr.dstAddr = s.csr.dstAddr ∧ t.csr.dstSize = s.csr.dstSize := by
  cases m <;> exact ⟨rfl, rfl, rfl, rfl, rfl, rfl, rfl, rfl, rfl, rfl, rfl⟩

/-- NOP, DECODE_RESUME and the reserved OPCODEs start and end no session (R552, R431, R141). -/
theorem exec_keeps_session {i : Instr} (hi : i.space = .command)
    (hk : i = .nop ∨ i = .decodeResume ∨ 5 ≤ (encode i).bits) (h : exec i s = .next t) :
    t.dec = s.dec ∧ t.csr.outTotal = s.csr.outTotal ∧ t.csr.srcPos = s.csr.srcPos := by
  rcases hk with rfl | rfl | hop
  · rcases State.issue_next h with ⟨-, rfl⟩ | ⟨-, hend⟩
    · exact ⟨rfl, rfl, rfl⟩
    · cases hend; exact ⟨rfl, rfl, rfl⟩
  · rcases execDecodeResume_next h with ⟨-, rfl⟩ | ⟨-, ⟨-, rfl⟩ | ⟨-, rfl⟩ | ⟨-, -, -, rfl⟩⟩ <;>
      exact ⟨rfl, rfl, rfl⟩
  · rw [exec_reserved hi hop] at h
    rcases State.illegal_next h with ⟨-, rfl⟩ | ⟨-, rfl⟩ <;> exact ⟨rfl, rfl, rfl⟩

/-- Only ABORT's issue moves OUT_TOTAL or SRC_POS (R553). -/
theorem exec_keeps_counters {i : Instr} (hi : i.space = .command) (hne : i ≠ .abort) (h : exec i s = .next t) :
    t.csr.outTotal = s.csr.outTotal ∧ t.csr.srcPos = s.csr.srcPos := by
  cases i
  case abort => exact absurd rfl hne
  case encode =>
    rcases execEncode_next h with ⟨-, rfl⟩ | ⟨-, rfl | ⟨-, -, -, rfl⟩⟩ <;> exact ⟨rfl, rfl⟩
  case decode =>
    rcases execDecode_next h with ⟨-, rfl⟩ | ⟨-, rfl | ⟨-, -, -, rfl⟩⟩ <;> exact ⟨rfl, rfl⟩
  case blockEos | blockRaw | blockV1 | blockV2 | blockLzvn | freq0 | freq1 | freq2 | freq3 | freq4 | freq5
    | freq6 | freq7 | freq8to23 | freq24to1047 => cases hi
  all_goals exact (exec_keeps_session hi (by decide) h).2

/-! ## HOST's turn -/

/-- The state HOST's next action is done in: its turn is taken, and of the rest only the draw counter has moved (log
entries 2 and 10). `rest` is HOST's program after it. -/
def State.hostActing (s : State) (rest : List HostOp) : State :=
  { s with host := { s.host with queue := rest }, turns := s.turns.tail, draws := s.draws + 1 }

theorem step_of_hostActing {op : HostOp} {rest : List HostOp} (hm : s.mover = .host) (hq : s.host.queue = op :: rest) :
    step s = (hostAct op (s.hostActing rest)).run := by
  rw [step_of_hostOp hm hq, State.beginTurn, State.beginWork_host hm]
  rfl

theorem hostAct_csrRead {off : BitVec 12} (hal : off.toNat % 4 = 0) (t : State) :
    hostAct (.csrRead off 4) t = .result (.next (t.observe (.csr (t.readCsr off.toNat)))) := by
  simp [hostAct, csrAligned_iff.2 ⟨rfl, hal⟩]

/-- A read shows what the window held as the turn began (R554). -/
theorem State.readCsr_hostActing (hm : s.mover = .host) (rest : List HostOp) (off : Nat) :
    (s.hostActing rest).readCsr off = s.beginTurn.readCsr off := by
  rw [State.beginTurn, State.beginWork_host hm]
  exact State.readCsr_host { s with turns := s.turns.tail, draws := s.draws + 1 } _ off

/-! ## Where HOST's loads and stores go (R104) -/

theorem Region.meets_byte {r : Region} {x : Nat} : r.meets { base := x, size := 1 } = true ↔ r.has x = true := by
  simp only [Region.has_iff, Region.meets, decide_eq_true_iff]
  omega

theorem State.onDevice_iff {a : Addr} :
    s.onDevice a = true ↔
      s.platform.window.has a.toNat = true ∨ ∃ d ∈ s.platform.devices, d.has a.toNat = true := by
  simp only [State.onDevice, Platform.onDevice, Bool.or_eq_true, List.any_eq_true, Region.meets_byte]

/-- HOST's actions on the byte of host memory at an address. -/
inductive HostOp.Accesses (a : Addr) : HostOp → Prop
  | load : Accesses a (.memRead a)
  | store (b : Byte) : Accesses a (.memWrite a b)

section Accesses

variable {op : HostOp} {a : Addr} {rest : List HostOp} (hm : s.mover = .host)
include hm

theorem HostOp.Accesses.step_of_window (h : op.Accesses a) (hq : s.host.queue = op :: rest)
    (hw : s.platform.window.has a.toNat = true) : step s = .refused .csrAccess := by
  rw [step_of_hostActing hm hq]
  cases h <;> exact congrArg Fetched.run (if_pos hw)

theorem HostOp.Accesses.step_of_device (h : op.Accesses a) (hq : s.host.queue = op :: rest)
    (hw : ¬ s.platform.window.has a.toNat = true) (hd : ∃ d ∈ s.platform.devices, d.has a.toNat = true) :
    step s = .refused .deviceBuffer := by
  have hdev : s.onDevice a = true := State.onDevice_iff.2 (.inr hd)
  rw [step_of_hostActing hm hq]
  cases h <;> exact congrArg Fetched.run ((if_neg hw).trans (if_pos hdev))

variable (hw : ¬ s.platform.window.has a.toNat = true) (hd : ¬ ∃ d ∈ s.platform.devices, d.has a.toNat = true)
include hw hd

theorem step_of_memWrite {b : Byte} (hq : s.host.queue = .memWrite a b :: rest) :
    step s = .next ((s.hostActing rest).hostStore a b) := by
  have hdev : ¬ s.onDevice a = true := fun h => (State.onDevice_iff.1 h).elim hw hd
  rw [step_of_hostActing hm hq]
  exact congrArg Fetched.run ((if_neg hw).trans (if_neg hdev))

theorem step_of_memRead (hq : s.host.queue = .memRead a :: rest) :
    step s = .next ((s.hostActing rest).observe (.mem ((s.hostActing rest).hostLoad a))) := by
  have hdev : ¬ s.onDevice a = true := fun h => (State.onDevice_iff.1 h).elim hw hd
  rw [step_of_hostActing hm hq]
  exact congrArg Fetched.run ((if_neg hw).trans (if_neg hdev))

end Accesses

/-! ## Races (R116) -/

/-- The source in use is a running ENCODE's, or that of the session that runs or is paused (log entry 10). -/
theorem State.activeSrc_has {x : Nat} :
    s.activeSrc.has x = true ↔
      (∃ st, s.seq = .enc st) ∧ s.csrSrc.has x = true
      ∨ ((∃ st, s.seq = .dec st) ∨ s.seq = .rest ∧ s.dec.valid = true) ∧ s.sessionSrc.has x = true := by
  cases hs : s.seq with
  | enc st => simp [State.activeSrc, hs]
  | dec st => simp [State.activeSrc, hs]
  | rest => cases hv : s.dec.valid <;> simp [State.activeSrc, hs, hv, Region.has_iff]

/-- A record that takes an address only where it is raced for. -/
theorem mem_cons_ite {p : Prop} [Decidable p] {x y : Nat} {xs : List Nat} :
    x ∈ (if p then y :: xs else xs) ↔ x ∈ xs ∨ x = y ∧ p := by
  by_cases h : p
  · rw [if_pos h, List.mem_cons, or_comm, and_iff_left h]
  · rw [if_neg h, or_iff_left (h ·.2)]

theorem State.mem_hostStore_racedSrc {a : Addr} {b : Byte} {x : Nat} :
    x ∈ (s.hostStore a b).racedSrc ↔ x ∈ s.racedSrc ∨ x = a.toNat ∧ s.storeRaces a b = true := mem_cons_ite

theorem State.mem_hostStore_racedDst {a : Addr} {b : Byte} {x : Nat} :
    x ∈ (s.hostStore a b).racedDst ↔
      x ∈ s.racedDst ∨ x = a.toNat ∧ s.isBusy ∧ s.dstRange.has a.toNat = true := mem_cons_ite

/-- A load outside the running command's destination returns what memory holds. -/
theorem State.hostLoad_of_free {a : Addr} (h : ¬ (s.isBusy ∧ s.dstRange.has a.toNat = true)) :
    s.hostLoad a = s.mem.read a := if_neg h

/-- In it the load returns a free value (log entry 11). -/
theorem State.hostLoad_of_raced {a : Addr} (h : s.isBusy ∧ s.dstRange.has a.toNat = true) :
    s.hostLoad a = Config.racedRead s.draws a.toNat := if_pos h

end Sys2Proof.Machine

open Sys2Proof.Machine

/-- Settles O8: HOST's turn moves the two counters, and the read HOST's record. -/
theorem csrReadsHaveNoSideEffects : Obligations.CsrReadsHaveNoSideEffects := by
  intro s off rest hm hq hal
  rw [step_of_hostActing hm hq, hostAct_csrRead hal, Fetched.run_result, State.readCsr_hostActing hm]
  rfl

/-- Settles O13: outside BUSY the issue is the command end of R550. -/
theorem nopOnlyReportsDone : Obligations.NopOnlyReportsDone :=
  fun _ hb => State.issue_idle hb _

/-- Settles O14: what ABORT leaves holds no session, so a resume of it is rejected. -/
theorem abortEndsThePausedSession : Obligations.AbortEndsThePausedSession := by
  refine fun s => ⟨exec_command_of_busy rfl, fun hb => ⟨_, State.issue_idle hb _, rfl, ?_⟩⟩
  exact execDecodeResume_of_invalid nofun rfl

/-- Settles O48: the issue's frame; then each of HOST's accesses is refused, or is the store or load of R116. -/
theorem commandIssueFrame : Obligations.CommandIssueFrame := by
  refine ⟨fun i s hi => ⟨exec_command_of_busy hi, fun t h => ?_⟩,
    fun s a b rest hm => ⟨fun hq => ?_, fun hq => ?_⟩⟩
  · obtain ⟨hmem, hhost, hturns, hplatform, hfront, hdraws, hirq, hsrc, hsrcSize, hdst, hdstSize⟩ :=
      (exec_command hi h).frame
    refine ⟨hmem, hhost, hturns, hplatform, hfront, hdraws, hirq, hsrc, hsrcSize, hdst, hdstSize, fun hmoved => ?_,
      fun hk => (exec_keeps_session hi hk h).1⟩
    by_contra hne
    obtain ⟨hout, hpos⟩ := exec_keeps_counters hi hne h
    exact hmoved.elim (· hout) (· hpos)
  · have hacc := HostOp.Accesses.store (a := a) b
    refine ⟨hacc.step_of_window hm hq, hacc.step_of_device hm hq, fun hw hd => ?_⟩
    refine ⟨_, step_of_memWrite hm hw hd hq, rfl, fun x => ?_, fun x => State.mem_hostStore_racedDst⟩
    rw [State.mem_hostStore_racedSrc, State.storeRaces_iff, State.activeSrc_has]
    rfl
  · have hacc := HostOp.Accesses.load (a := a)
    refine ⟨hacc.step_of_window hm hq, hacc.step_of_device hm hq, fun hw hd hfree => ?_, fun hw hd hraced => ?_⟩
    · rw [step_of_memRead hm hw hd hq, State.hostLoad_of_free (s := s.hostActing rest) hfree]
      rfl
    · rw [step_of_memRead hm hw hd hq, State.hostLoad_of_raced (s := s.hostActing rest) hraced]
      rfl

end

section
/-! Errors (R570), the interrupt (R580, R581) and reset (R620 to R622): what the end of a command and `rst` leave, and
which steps set CMD_DONE. -/

namespace Sys2Proof.Machine

variable {s t : State}

/-! ## Errors of a decode (R570) -/

/-- Host memory after an error of a decode that no byte was raced for: outside the bytes the command has written it
is as it was (log entry 8). -/
theorem State.raiseDec_read_outside (hraced : s.racedDst = [])
    (hfit : s.csr.dstAddr.toNat + s.work.dstPos ≤ Config.addrSpace) (code : ErrCode) {a : Addr}
    (ha : a.toNat < s.csr.dstAddr.toNat ∨ s.csr.dstAddr.toNat + s.work.dstPos ≤ a.toNat) :
    (s.raiseDec code).mem.read a = s.mem.read a := by
  rw [State.raiseDec_mem, hraced, Memory.settle_nil, Memory.read_havoc_outside _ _ _ _ _ hfit ha]

/-! ## CMD_DONE (R581) -/

/-- CORE rests, and STATE is not BUSY. -/
abbrev State.Rests (s : State) : Prop := ¬ s.isBusy ∧ s.seq = .rest

/-- A turn of CORE that writes CMD_DONE ends the command. -/
theorem CoreMove.cmdDone_eq_or_rests (m : CoreMove s t) : t.csr.cmdDone = s.csr.cmdDone ∨ t.Rests := by
  cases m with
  | raisedDec | eos | paused | done | encoded | overflowed => exact .inr ⟨by simp, rfl⟩
  | _ => exact .inl rfl

/-- An issue that writes CMD_DONE starts no command. -/
theorem Issued.cmdDone_eq_or_rests (m : Issued s t) : t.csr.cmdDone = s.csr.cmdDone ∨ t.Rests := by
  cases m with
  | nop | abort | rejected => exact .inr ⟨by simp, rfl⟩
  | ignored | decode | resume | encode => exact .inl rfl

theorem State.setParam_cmdDone {c : Csrs} (hc : c.cmdDone = s.csr.cmdDone) :
    (s.setParam c).csr.cmdDone = s.csr.cmdDone := by
  unfold State.setParam
  split
  · rfl
  · exact hc

/-- HOST can clear CMD_DONE, but not set it (R45). -/
theorem State.cmdDone_of_writeCsr {off : Nat} {v : Word} (h : (s.writeCsr off v).csr.cmdDone = true) :
    s.csr.cmdDone = true := by
  unfold State.writeCsr at h
  split at h
  case h_1 | h_9 => exact h
  case h_2 => exact (Bool.and_eq_true_iff.1 h).1
  all_goals exact (State.setParam_cmdDone (by rfl)).symm.trans h

/-- Of HOST's actions only the issue of a command sets CMD_DONE. -/
theorem HostMove.rests_of_cmdDone (m : HostMove s t) (hclear : s.csr.cmdDone = false)
    (hset : t.csr.cmdDone = true) :
    t.Rests ∧ ∃ (v : Word) (rest : List HostOp), s.host.queue = .csrWrite 0x004 4 v :: rest := by
  have hne : s.csr.cmdDone ≠ true := by simp [hclear]
  cases m with
  | idle | reads | store => exact absurd hset hne
  | command v rest hq t ht =>
    have hrests : t.Rests := ht.cmdDone_eq_or_rests.resolve_left fun h => hne (h.symm.trans hset)
    exact ⟨hrests, v, rest, hq⟩
  | csrWrite off v q => exact absurd (State.cmdDone_of_writeCsr (s := { s with host := q }) hset) hne
  | reset => cases hset

/-! ## Reset (R620 to R622) -/

theorem step_of_reset {rest : List HostOp} (hm : s.mover = .host) (hq : s.host.queue = .reset :: rest) :
    step s = .next (s.hostActing rest).rst := step_of_hostActing hm hq

/-- R622: with no command running, host memory is as it was. -/
theorem State.rst_mem_of_idle (hb : ¬ s.isBusy) : s.rst.mem = s.mem := if_neg hb

/-- R621: a running command's destination bytes have any value. -/
theorem State.rst_mem_of_busy (hb : s.isBusy) :
    s.rst.mem = s.mem.havoc s.csr.dstAddr s.csr.dstSize.toNat s.draws := if_pos hb

/-- R621, R622: every byte outside the destination is as it was. -/
theorem State.DestOk.rst_read_outside (h : s.DestOk) {a : Addr} (ha : s.dstRange.has a.toNat = false) :
    s.rst.mem.read a = s.mem.read a := by
  by_cases hb : s.isBusy
  · rw [State.rst_mem_of_busy hb]
    exact Memory.read_havoc_outside _ _ _ _ _ (h.no_wrap hb) (Region.has_eq_false_iff.1 ha)
  · rw [State.rst_mem_of_idle hb]

end Sys2Proof.Machine

open Sys2Proof.Machine

/-- Settles O30: the error of a running decode is `raiseDec`, which gives a free value to the bytes written. -/
theorem decodeErrorsAreReported : Obligations.DecodeErrorsAreReported := by
  intro s st code hs hraced hfit
  rw [State.raiseErr_dec hs]
  exact ⟨rfl, rfl, rfl, fun a => State.raiseDec_read_outside hraced hfit code⟩

/-- Settles O52: CORE's turn does nothing unless a command runs, and HOST sets CMD_DONE only by an issue. -/
theorem cmdDoneIsSetOnlyAtCommandEnds : Obligations.CmdDoneIsSetOnlyAtCommandEnds := by
  intro s t h hclear hset
  have hne : t.csr.cmdDone ≠ s.csr.cmdDone := by simp [hclear, hset]
  rcases step_next h with ⟨hm, m⟩ | ⟨-, m⟩
  · have hrests : t.Rests := m.cmdDone_eq_or_rests.resolve_left hne
    refine ⟨hrests.1, hrests.2, .inl ?_⟩
    by_contra hb
    rw [step_of_core hm, coreTurn_idle (s := s.beginTurn) hb] at h
    cases h
    exact hne rfl
  · obtain ⟨⟨hidle, hrest⟩, hissued⟩ := m.rests_of_cmdDone hclear hset
    exact ⟨hidle, hrest, .inr hissued⟩

/-- Settles O12: `irq` is the conjunction of two stored bits, each written by its own register's bit 0. -/
theorem interruptFollowsEnableAndDone : Obligations.InterruptFollowsEnableAndDone := by
  intro s v
  refine ⟨Bool.and_eq_true_iff, rfl, rfl, fun hv => ?_⟩
  show (s.csr.irqEn && (s.csr.cmdDone && !v.getLsbD 0)) = false
  simp [hv]

/-- Settles O53: the step is `rst`, and only a running command's destination gets free values. -/
theorem resetKeepsHostMemory : Obligations.ResetKeepsHostMemory := by
  intro s rest hm hq hd
  have hacting : (s.hostActing rest).DestOk := ⟨hd.range, hd.cursor⟩
  exact ⟨_, step_of_reset hm hq, rfl, rfl, rfl, rfl, rfl, State.rst_mem_of_idle (s := s.hostActing rest),
    fun _ => hacting.rst_read_outside⟩

/-- Settles O6 by evaluating the window and the registers of the reset state. -/
theorem resetValues : Obligations.ResetValues := by
  unfold Obligations.ResetValues
  decide

/-- Settles O54: at reset CORE rests without a session, and memory, history, races and the open block are empty. -/
theorem resetMeetsTheInvariants : Obligations.ResetMeetsTheInvariants := by
  have hb : ¬ State.reset.isBusy := by decide
  exact ⟨Memory.wf_nil, .of_ended rfl hb (by decide) rfl (by decide), .of_empty rfl rfl, .of_nil rfl,
    .of_notBusy hb, .of_between (by decide) (by decide) (.inl rfl) (by decide), .of_empty rfl⟩

end
